-- ==== Sys2Proof/Word.lean ====
section
/-! DEFINITION. The word types of the Thoran 6508 and the names of its numbered things (R7, R171). -/

namespace Sys2Proof

/-- A 64-bit general-register word (R7). -/
abbrev Word := BitVec 64
/-- A byte of memory (R4). -/
abbrev Byte := BitVec 8
/-- A 256-bit vector register (R7, R171). -/
abbrev Vec := BitVec 256
/-- A 32-lane mask register (R7). -/
abbrev Mask := BitVec 32

/-- G0 to G15 (R7). -/
abbrev GReg := Fin 16
/-- V0 to V31 (R7). -/
abbrev VReg := Fin 32
/-- K0 to K7 (R7). -/
abbrev KReg := Fin 8
/-- T0 to T15 (R7). -/
abbrev Tok := Fin 16
/-- S0 to S7 (R7). -/
abbrev Strm := Fin 8
/-- SM0 to SM7 (R7). -/
abbrev Sel := Fin 8
/-- AT0 to AT3 (R7). -/
abbrev AccIx := Fin 4

/-- A physical core number: die(3) y(5) x(5) core(3), held as its number (R2). -/
abbrev Pcn := Nat
/-- The model's own identity of a thread; it is never reused. -/
abbrev Uid := Nat
/-- The model's own identity of an operation in flight; identities rise in issue order. -/
abbrev OpId := Nat

end Sys2Proof
end

