-- ==== Sys2Proof/Syntax.lean ====
section
/-! DEFINITION. The instructions and events of spec/opcode_table.json: one constructor of `Instr` per row.
Rows with an encoding carry the fields of their layout (R269 to R285); rows without one are the steps that
the other agents of the device take (spec/95_what_each_step_holds.md), and carry what names the step. -/

namespace Sys2Proof

/-- Access widths .B .H .W .D (R273). -/
inductive Width | b8 | h16 | w32 | d64
deriving DecidableEq, Repr

/-- The two widths of AT and WT (R273). -/
inductive AWidth | w32 | d64
deriving DecidableEq, Repr

/-- Scalar floating-point formats (R278). -/
inductive FFmt | f32 | f64
deriving DecidableEq, Repr

/-- Vector lane types, codes 0 to 6 (R171). -/
inductive VType | f32 | bf16 | f16 | i32 | i16 | i8 | i64
deriving DecidableEq, Repr

/-- Formats of VCVT and MDRAIN, codes 0 to 8 (R181, R281). -/
inductive CFmt | f32 | bf16 | f16 | i32 | i16 | i8 | i64 | md8 | fp4
deriving DecidableEq, Repr

/-- The eight FCVT conversions, sub 0 to 7 (R278). -/
inductive FcvtOp | toF32 | toF64 | toI32 | toI64 | ofI32 | ofI64 | toBF16 | toF16
deriving DecidableEq, Repr

/-- The halfword position of MOVI and MOVK (R383). -/
abbrev Hw := Fin 4

/-- VRED's operation (R281). -/
inductive RedOp | sum | min | max
deriving DecidableEq, Repr

/-- VCMP's condition (R417). -/
inductive VCond | eq | ne | lt | le | gt | ge
deriving DecidableEq, Repr

/-- WATCH's condition (R65). -/
inductive WCond | eq | ne | lt | ge | ltu | geu
deriving DecidableEq, Repr

/-- Element formats of MMA (R180). -/
inductive MFmt | bf16 | fp16 | md8 | int8 | fp4
deriving DecidableEq, Repr

/-- A device memory address as the host or a firmware agent names it: a die and a physical address, a byte
offset in the function's BAR0 (R220), or, for the PF, the SR-IOV resources of a VF (R219, R241). -/
inductive HostAddr
  | mem (die : Fin 8) (pa : Nat)
  | bar (off : Nat)
  | sriov (vf : Nat)
deriving DecidableEq, Repr

/-- The PF's binding registers of one queue (R221, R222). -/
structure Binding where
  fn      : Nat
  qcbDie  : Nat
  qcbPa   : Nat
  die     : Nat
  prio    : Nat
  vf      : Nat
  quota   : Nat
  keyslot : Nat
deriving DecidableEq, Repr

/-- A request in Lantern's mailbox, or a write of a die's firmware-only registers (R12, R17, R230, R233, R237). -/
inductive LanternReq
  | fence     (die x y : Nat)
  | unfence   (die x y : Nat)
  | hyst      (die : Nat) (h : BitVec 4)
  | setAccess (target index : Nat) (w0 w1 : Word)
  | setTagged (die : Nat) (lo hi base : Word)
  | destroySlot (slot : Nat)
  | setOwner  (pcn : Nat) (v : BitVec 32)
  | setLmpu   (pcn page : Nat) (v : Byte)
  | rotateKey (die : Nat)
deriving DecidableEq, Repr

/-- One constructor per row of spec/opcode_table.json. -/
inductive Instr
  -- scalar ALU (R277, R312, R315, R327, R335, R370, R425, R427)
  | add (d a b : GReg) | addShort (d s : GReg) | sub (d a b : GReg) | subShort (d s : GReg)
  | and (d a b : GReg) | or (d a b : GReg) | xor (d a b : GReg)
  | shl (d a b : GReg) | shr (d a b : GReg) | sar (d a b : GReg)
  | min (d a b : GReg) | minu (d a b : GReg) | max (d a b : GReg) | maxu (d a b : GReg)
  | slt (d a b : GReg) | sltu (d a b : GReg) | seq (d a b : GReg)
  | mul (d a b : GReg) | mulh (d a b : GReg) | mulhu (d a b : GReg)
  | clz (d a : GReg) | ctz (d a : GReg) | popc (d a : GReg)
  | sext (d a : GReg) (w : Width) | zext (d a : GReg) (w : Width) | sel (d a b : GReg)
  -- immediates and moves (R269, R313, R314, R316, R369, R382, R383, R385, R389, R425)
  | addi (d a : GReg) (i : BitVec 14) | addiShort (d : GReg) (i : BitVec 7)
  | andi (d a : GReg) (i : BitVec 14) | ori (d a : GReg) (i : BitVec 14) | xori (d a : GReg) (i : BitVec 14)
  | shli (d a : GReg) (s : BitVec 6) | shliShort (d : GReg) (s : BitVec 6)
  | shri (d a : GReg) (s : BitVec 6) | sari (d a : GReg) (s : BitVec 6)
  | movi (d : GReg) (h : Hw) (i : BitVec 16) | movk (d : GReg) (h : Hw) (i : BitVec 16)
  | mov (d s : GReg) | addpc (d : GReg) (i : BitVec 19)
  | lit (d : GReg) (l : BitVec 32) | litZ (d : GReg) (l : BitVec 32) | litH (d : GReg) (l : BitVec 32)
  -- division (R337, R338, R387)
  | div (d a b : GReg) (k : Tok) | divu (d a b : GReg) (k : Tok)
  | rem (d a b : GReg) (k : Tok) | remu (d a b : GReg) (k : Tok)
  -- scalar floating point (R270, R341 to R355)
  | fadd (d a b : GReg) (f : FFmt) | fsub (d a b : GReg) (f : FFmt) | fmul (d a b : GReg) (f : FFmt)
  | ffma (d a b : GReg) (f : FFmt) | fmin (d a b : GReg) (f : FFmt) | fmax (d a b : GReg) (f : FFmt)
  | feq (d a b : GReg) (f : FFmt) | flt (d a b : GReg) (f : FFmt) | fle (d a b : GReg) (f : FFmt)
  | fclass (d a : GReg) (f : FFmt)
  | fsgn (d a b : GReg) (f : FFmt) | fsgnn (d a b : GReg) (f : FFmt) | fsgnx (d a b : GReg) (f : FFmt)
  | fcvt (d a : GReg) (f : FFmt) (c : FcvtOp)
  | faddk (d a : GReg) (c : BitVec 8) | fmulk (d a : GReg) (c : BitVec 8) | ffmak (d a : GReg) (c : BitVec 8)
  | ldk (d : GReg) (c : BitVec 8)
  | faddl (d a : GReg) (l : BitVec 32) | fmull (d a : GReg) (l : BitVec 32) | ffmal (d a : GReg) (l : BitVec 32)
  | fdiv (d a b : GReg) (k : Tok) (f : FFmt) | fsqrt (d a : GReg) (k : Tok) (f : FFmt)
  | ffmai (d m : GReg) (i : BitVec 20) | fmovi (d : GReg) (i : BitVec 20)
  | faddi (d m : GReg) (i : BitVec 20) | fmuli (d m : GReg) (i : BitVec 20)
  -- branches (R317, R318, R322 to R324, R360)
  | br (o : BitVec 24) | call (o : BitVec 24)
  | beq (a b : GReg) (o : BitVec 13) | bne (a b : GReg) (o : BitVec 13)
  | blt (a b : GReg) (o : BitVec 13) | bge (a b : GReg) (o : BitVec 13)
  | bltu (a b : GReg) (o : BitVec 13) | bgeu (a b : GReg) (o : BitVec 13)
  | bz (a : GReg) (o : BitVec 13) | bnz (a : GReg) (o : BitVec 13) | bnzShort (d : GReg) (o : BitVec 7)
  | jr (a : GReg) | callr (a : GReg)
  -- delays and tokens (R77, R86 to R92, R132)
  | dly (n : BitVec 4)
  | waitt (k : Tok) (n : BitVec 8) | waittShort (k : Tok) (n : BitVec 4)
  | tkrd (k : Tok) (g : GReg) | tkclr (k : Tok) | stmsk (j : BitVec 4) (m : BitVec 8)
  -- memory (R280, R363 to R368, R394 to R399, R418 to R421)
  | ld (t b : GReg) (s : Strm) (m : Sel) (w : Width) (x : Bool) (o : BitVec 6) | ldShort (d s : GReg)
  | st (t b : GReg) (s : Strm) (m : Sel) (w : Width) (o : BitVec 6) | stShort (d s : GReg)
  | vld (t : VReg) (b : GReg) (s : Strm) (m : Sel) (o : BitVec 9) | vldShort (d : VReg) (s : GReg)
  | vst (t : VReg) (b : GReg) (s : Strm) (m : Sel) (o : BitVec 9) | vstShort (s : VReg) (d : GReg)
  | ldx (t b : GReg) (s : Strm) (m : Sel) (k : Tok) (w : Width) (x : Bool)
  | ldxWf (t b : GReg) (s : Strm) (m : Sel) (k : Tok) (w : Width) (x : Bool)
  | ldxWfc (t b : GReg) (s : Strm) (m : Sel) (k : Tok) (w : Width) (x : Bool)
  | ldxMg (t b : GReg) (s : Strm) (m : Sel) (k : Tok) (w : Width) (x : Bool)
  | stx (t b : GReg) (s : Strm) (m : Sel) (k : Tok) (w : Width)
  | stxSf (t b : GReg) (s : Strm) (m : Sel) (k : Tok) (w : Width)
  | stxNl (t b : GReg) (s : Strm) (m : Sel) (k : Tok) | stxNh (t b : GReg) (s : Strm) (m : Sel) (k : Tok)
  | vldx (t : VReg) (b : GReg) (s : Strm) (m : Sel) (k : Tok)
  | vldxWf (t : VReg) (b : GReg) (s : Strm) (m : Sel) (k : Tok)
  | vldxWfc (t : VReg) (b : GReg) (s : Strm) (m : Sel) (k : Tok)
  | vstx (t : VReg) (b : GReg) (s : Strm) (m : Sel) (k : Tok)
  | vstxSf (t : VReg) (b : GReg) (s : Strm) (m : Sel) (k : Tok)
  | aadd (t b : GReg) (s : Strm) (m : Sel) (k : Tok) (w : AWidth)
  | aand (t b : GReg) (s : Strm) (m : Sel) (k : Tok) (w : AWidth)
  | aor (t b : GReg) (s : Strm) (m : Sel) (k : Tok) (w : AWidth)
  | axor (t b : GReg) (s : Strm) (m : Sel) (k : Tok) (w : AWidth)
  | amin (t b : GReg) (s : Strm) (m : Sel) (k : Tok) (w : AWidth)
  | amax (t b : GReg) (s : Strm) (m : Sel) (k : Tok) (w : AWidth)
  | aminu (t b : GReg) (s : Strm) (m : Sel) (k : Tok) (w : AWidth)
  | amaxu (t b : GReg) (s : Strm) (m : Sel) (k : Tok) (w : AWidth)
  | aswp (t b : GReg) (s : Strm) (m : Sel) (k : Tok) (w : AWidth)
  | acas (t b : GReg) (s : Strm) (m : Sel) (k : Tok) (w : AWidth)
  | chunk (t b : GReg) (s : Strm) (m : Sel) (k : Tok)
  | watch (v b : GReg) (s : Strm) (m : Sel) (c : WCond) (w : AWidth)
  | feclr (b : GReg) (s : Strm) (m : Sel) (c : BitVec 9) | feset (b : GReg) (s : Strm) (m : Sel) (c : BitVec 9)
  -- vector (R281, R410 to R417)
  | vadd (d a b : VReg) (k : KReg) (t : VType) | vaddShort (d s : VReg)
  | vsub (d a b : VReg) (k : KReg) (t : VType)
  | vmul (d a b : VReg) (k : KReg) (t : VType) | vmulShort (d s : VReg)
  | vfma (d a b : VReg) (k : KReg) (t : VType)
  | vmin (d a b : VReg) (k : KReg) (t : VType)
  | vmax (d a b : VReg) (k : KReg) (t : VType) | vmaxShort (d s : VReg)
  | vabs (d a : VReg) (k : KReg) (t : VType) | vneg (d a : VReg) (k : KReg) (t : VType)
  | vand (d a b : VReg) (k : KReg) (t : VType) | vor (d a b : VReg) (k : KReg) (t : VType)
  | vxor (d a b : VReg) (k : KReg) (t : VType) | vshl (d a b : VReg) (k : KReg) (t : VType)
  | vshr (d a b : VReg) (k : KReg) (t : VType) | vsar (d a b : VReg) (k : KReg) (t : VType)
  | vmov (d a : VReg) (k : KReg) (t : VType) | vmovShort (d s : VReg)
  | vsel (d a b : VReg) (k : KReg) (t : VType)
  | vmodadd (d a b : VReg) (k : KReg) | vmodsub (d a b : VReg) (k : KReg)
  | vmodmul (d a b : VReg) (k : KReg) | vntt (d a b : VReg) (k : KReg)
  | vcvt (d a : VReg) (k : KReg) (src dst : CFmt) (sr : Bool)
  | vred (d a : VReg) (o : RedOp) (k : KReg) (t : VType)
  | vperm (d a b : VReg) (k : KReg) (t : VType)
  | vbcast (d : VReg) (a : GReg) (k : KReg) (t : VType)
  | vext (d : GReg) (a : VReg) (lane : Fin 32) (t : VType)
  | vexp2 (d a : VReg) (k : KReg) (t : VType) | vrcp (d a : VReg) (k : KReg) (t : VType)
  | vrsqrt (d a : VReg) (k : KReg) (t : VType)
  | vcmp (d : KReg) (a b : VReg) (k : KReg) (t : VType) (c : VCond)
  | kand (d a b : KReg) | kor (d a b : KReg) | kxor (d a b : KReg) | knot (d a : KReg)
  -- matrix and copy commands (R180 to R183, R282, R372, R375, R380)
  | mma (a b : GReg) (k : Fin 16) (t : AccIx) (f : MFmt) (n : Tok) (m : Sel)
  | mmod (a b : GReg) (k : Fin 16) (t : AccIx) (n : Tok) (m : Sel)
  | mzero (d c : GReg) (a : AccIx) (k : Tok)
  | mload (d c : GReg) (a : AccIx) (k : Tok) (s : Strm) (m : Sel)
  | mdrain (d c : GReg) (a : AccIx) (k : Tok) (s : Strm) (m : Sel)
  | cpy (a b c : GReg) (k : Tok) (s : Strm) (m : Sel) | cpy2d (a b c : GReg) (k : Tok) (s : Strm) (m : Sel)
  | cpyl (a : GReg) (k : Tok) (s : Strm) (m : Sel) | mcrd (a b c : GReg) (k : Tok) (s : Strm) (m : Sel)
  -- tasks, groups, territory, threads (R283, R284)
  | spawn (a b : GReg) (k : Tok) (s : Strm) (m : Sel) | taskq (a : GReg) (k : Tok) (s : Strm) (m : Sel)
  | bind (a b c : GReg) (k : Tok) (s : Strm) (m : Sel) | signal (a b c : GReg) (k : Tok) (s : Strm) (m : Sel)
  | join (a : GReg) (k : Tok) (s : Strm) (m : Sel) | leave (a : GReg) (k : Tok) (s : Strm) (m : Sel)
  | gbar (a : GReg) | tshape (d a : GReg) (k : Tok) | tpress (a : GReg) (k : Tok)
  | upret | exit | yield | mig (a : GReg)
  | csrr (d : GReg) (c : BitVec 12) | csrw (a : GReg) (c : BitVec 12) | csrx (d a : GReg) (c : BitVec 12)
  | trap (i : BitVec 16) | tret | bkpt | pfx (o : Bool) (m : BitVec 8) (e : BitVec 15)
  -- EVENTS: the CSR writes whose effect is a step of its own (R28, R45, R160, R174, R195, R196, R199, R202, R210)
  | corestateWrite (v : Word) | jackFree (idx : Fin 32) | jackResend (idx : Fin 32)
  | dbgctlHalt | dbgctlStepWrite (v : Bool) | cfgWrite (v : Word) | upvecWrite (v : Word)
  | trapvecWrite (v : Word) | fstatWrite (v : Word) | trappcWrite (v : Word) | wrrwWrite (v : Word)
  -- results, homes and operations in flight
  | resultFallsDue (u : Uid) | orderingQueueRelease (op : OpId)
  | memoryReadPerform (op : OpId) (idx : Nat) | memoryWritePerform (op : OpId) (idx : Nat)
  | uncorrectableError (pcn off : Nat) | lineFillArrival (fill : Nat) | waitHintRetry (op : OpId)
  | atomicStep (op : OpId) | chunkStep (op : OpId) | bindStep (op : OpId) | signalStep (op : OpId)
  | poolAppend (req : Nat) | taskDispatch (pcn : Nat)
  | groupJoinStep (op : OpId) | groupLeaveStep (op : OpId) | gbarArrival (u : Uid) | watchArrival (op : OpId)
  | waitLoadArrival (op : OpId) | nibbleStoreStep (op : OpId)
  | postedStoreRefusal (op : OpId) | pstoreDelivery (u : Uid)
  | operationCompletion (op : OpId) | waittWake (u : Uid)
  -- threads
  | quantumExpiry (pcn : Nat) | threadEnd (u : Uid) | migrationDeparture (u : Uid) | migrationArrival (u : Uid)
  -- borders and territories
  | borderEpochSnapshot (die : Nat) | transferRequest (die : Nat) | borderDeadline (tile : Nat)
  | evacuation (tile : Nat) | moveCommit (tile : Nat) | seedCommit (tile : Nat)
  -- faults, DARK, suspension
  | dieFault (die : Nat) | deviceFault | darkApply (pcn : Nat)
  | territorySuspend (tag : Nat) | linkHoldTimeout (op : OpId) | suspendFlush (tag : Nat)
  | backgroundPageSave (pcn page : Nat) | pageClaim (pcn page : Nat)
  | territoryResume (tag : Nat) | restoreChunkOpen (tag : Nat)
  -- debug
  | debuggerStop (pcn : Nat) | debuggerResume (pcn : Nat)
  -- engines
  | matrixGrant (cluster : Nat) | matrixCompletion (op : OpId) | linkBeatArrival (idx : Nat)
  | copyCommandStart (pcn : Nat) | cpylElement (op : OpId) | mcrdLineRequest (op : OpId)
  | mcrdSectorDelivery (delivery sector pcn : Nat)
  -- pages and fabric
  | pageMigration (tag : Nat) (va : Word) (die : Nat) (pa : Nat)
  | meshPacketHop (op : OpId) | ringHop (pkt : Nat) | ringEjection (pkt : Nat)
  -- host
  | hostPostedWrite (fn : Nat) (a : HostAddr) (data : List Byte) (relaxed ide : Bool)
  | horizonBroadcast (n : Nat) | doorbell (q : Nat) | launchRecord (q : Nat) | launchIndexWait (q : Nat)
  | queueBind (q : Nat) (b : Binding) | hubCopyStart (fn chan : Nat) (data : Word)
  | powerClockStep (atLimit : Bool) | hubReset
  -- Lantern
  | lanternRequest (r : LanternReq) | keyRotationStart (die : Nat) | sweepLineCommit (die : Nat)
  | lockInterfaceRequest (vf : Nat) | startInterfaceRequest (vf : Nat) | stopInterfaceRequest (vf : Nat)
  | tdispError (vf : Nat)
  | getVersion (fn : Nat) | getCapabilities (fn : Nat) | negotiateAlgorithms (fn : Nat)
  | getDigests (fn : Nat) | getCertificate (fn slot : Nat) | challenge (fn : Nat)
  | getMeasurements (fn session index : Nat) | keyExchange (fn period : Nat) | finish (session : Nat)
  | heartbeat (session : Nat) | keyUpdate (session : Nat) | endSession (session : Nat)
  | loadKey (session : Nat) (key : BitVec 256) | sessionTimeout (session : Nat)
  | handoverStage (version : Nat) (digest : BitVec 256) | handoverCommit
  -- remaining rows
  | illegalEncoding (w : BitVec 32) | instructionFetchFill (pcn : Nat) | redirectedAccessCompletion (u : Uid)
  | hostRead (fn : Nat) (a : HostAddr) (len : Nat) (ide : Bool)
  | hubCopyCompletion (chan : Nat) | scaleUpSectorArrival (plane die pa : Nat) (data : List Byte)
  | livePlaneChange (plane : Fin 32) (live : Bool) | debuggerAttach (pcn : Nat) (att : Bool) (engfrz : BitVec 4)
deriving DecidableEq, Repr

end Sys2Proof
end

