-- ==== Sys2Proof/WellFormed.lean ====
section
/-! DEFINITION. Which instructions have an encoding: the limits on operands that the encoding rules state as ILLEGAL
values (R269 to R285 and the reference entries). -/

namespace Sys2Proof

/-- The lane count of a vector type (R171). -/
def VType.lanes : VType → Nat
  | .f32 => 8 | .bf16 => 16 | .f16 => 16 | .i32 => 8 | .i16 => 16 | .i8 => 32 | .i64 => 4

/-- F32, BF16 and F16 (R281). -/
def VType.isFp : VType → Bool
  | .f32 | .bf16 | .f16 => true
  | .i32 | .i16 | .i8 | .i64 => false

/-- Whether a row of the table is a step of the device, which has no encoding. -/
def Instr.isEvent : Instr → Bool
  | .add .. | .addShort .. | .sub .. | .subShort .. | .and .. | .or .. | .xor .. | .shl .. | .shr .. | .sar ..
  | .min .. | .minu .. | .max .. | .maxu .. | .slt .. | .sltu .. | .seq .. | .mul .. | .mulh .. | .mulhu ..
  | .clz .. | .ctz .. | .popc .. | .sext .. | .zext .. | .sel .. | .addi .. | .addiShort .. | .andi ..
  | .ori .. | .xori .. | .shli .. | .shliShort .. | .shri .. | .sari .. | .movi .. | .movk .. | .mov ..
  | .addpc .. | .lit .. | .litZ .. | .litH .. | .div .. | .divu .. | .rem .. | .remu .. | .fadd .. | .fsub ..
  | .fmul .. | .ffma .. | .fmin .. | .fmax .. | .feq .. | .flt .. | .fle .. | .fclass .. | .fsgn .. | .fsgnn ..
  | .fsgnx .. | .fcvt .. | .faddk .. | .fmulk .. | .ffmak .. | .ldk .. | .faddl .. | .fmull .. | .ffmal ..
  | .fdiv .. | .fsqrt .. | .ffmai .. | .fmovi .. | .faddi .. | .fmuli .. | .br .. | .call .. | .beq ..
  | .bne .. | .blt .. | .bge .. | .bltu .. | .bgeu .. | .bz .. | .bnz .. | .bnzShort .. | .jr .. | .callr ..
  | .dly .. | .waitt .. | .waittShort .. | .tkrd .. | .tkclr .. | .stmsk .. | .ld .. | .ldShort .. | .st ..
  | .stShort .. | .vld .. | .vldShort .. | .vst .. | .vstShort .. | .ldx .. | .ldxWf .. | .ldxWfc ..
  | .ldxMg .. | .stx .. | .stxSf .. | .stxNl .. | .stxNh .. | .vldx .. | .vldxWf .. | .vldxWfc .. | .vstx ..
  | .vstxSf .. | .aadd .. | .aand .. | .aor .. | .axor .. | .amin .. | .amax .. | .aminu .. | .amaxu ..
  | .aswp .. | .acas .. | .chunk .. | .watch .. | .feclr .. | .feset .. | .vadd .. | .vaddShort .. | .vsub ..
  | .vmul .. | .vmulShort .. | .vfma .. | .vmin .. | .vmax .. | .vmaxShort .. | .vabs .. | .vneg .. | .vand ..
  | .vor .. | .vxor .. | .vshl .. | .vshr .. | .vsar .. | .vmov .. | .vmovShort .. | .vsel .. | .vmodadd ..
  | .vmodsub .. | .vmodmul .. | .vntt .. | .vcvt .. | .vred .. | .vperm .. | .vbcast .. | .vext .. | .vexp2 ..
  | .vrcp .. | .vrsqrt .. | .vcmp .. | .kand .. | .kor .. | .kxor .. | .knot .. | .mma .. | .mmod ..
  | .mzero .. | .mload .. | .mdrain .. | .cpy .. | .cpy2d .. | .cpyl .. | .mcrd .. | .spawn .. | .taskq ..
  | .bind .. | .signal .. | .join .. | .leave .. | .gbar .. | .tshape .. | .tpress .. | .upret .. | .exit ..
  | .yield .. | .mig .. | .csrr .. | .csrw .. | .csrx .. | .trap .. | .tret .. | .bkpt .. | .pfx .. => false
  | .corestateWrite .. | .jackFree .. | .jackResend .. | .dbgctlHalt .. | .dbgctlStepWrite .. | .cfgWrite ..
  | .upvecWrite .. | .trapvecWrite .. | .fstatWrite .. | .trappcWrite .. | .wrrwWrite .. | .resultFallsDue ..
  | .orderingQueueRelease .. | .memoryReadPerform .. | .memoryWritePerform .. | .uncorrectableError ..
  | .lineFillArrival .. | .waitHintRetry .. | .atomicStep .. | .chunkStep .. | .bindStep .. | .signalStep ..
  | .poolAppend .. | .taskDispatch .. | .groupJoinStep .. | .groupLeaveStep .. | .gbarArrival ..
  | .watchArrival .. | .waitLoadArrival .. | .nibbleStoreStep .. | .postedStoreRefusal .. | .pstoreDelivery ..
  | .operationCompletion .. | .waittWake .. | .quantumExpiry .. | .threadEnd .. | .migrationDeparture ..
  | .migrationArrival .. | .borderEpochSnapshot .. | .transferRequest .. | .borderDeadline .. | .evacuation ..
  | .moveCommit .. | .seedCommit .. | .dieFault .. | .deviceFault .. | .darkApply .. | .territorySuspend ..
  | .linkHoldTimeout .. | .suspendFlush .. | .backgroundPageSave .. | .pageClaim .. | .territoryResume ..
  | .restoreChunkOpen .. | .debuggerStop .. | .debuggerResume .. | .matrixGrant .. | .matrixCompletion ..
  | .linkBeatArrival .. | .copyCommandStart .. | .cpylElement .. | .mcrdLineRequest .. | .mcrdSectorDelivery ..
  | .pageMigration .. | .meshPacketHop .. | .ringHop .. | .ringEjection .. | .hostPostedWrite ..
  | .horizonBroadcast .. | .doorbell .. | .launchRecord .. | .launchIndexWait .. | .queueBind ..
  | .hubCopyStart .. | .powerClockStep .. | .hubReset .. | .lanternRequest .. | .keyRotationStart ..
  | .sweepLineCommit .. | .lockInterfaceRequest .. | .startInterfaceRequest .. | .stopInterfaceRequest ..
  | .tdispError .. | .getVersion .. | .getCapabilities .. | .negotiateAlgorithms .. | .getDigests ..
  | .getCertificate .. | .challenge .. | .getMeasurements .. | .keyExchange .. | .finish .. | .heartbeat ..
  | .keyUpdate .. | .endSession .. | .loadKey .. | .sessionTimeout .. | .handoverStage .. | .handoverCommit ..
  | .illegalEncoding .. | .instructionFetchFill .. | .redirectedAccessCompletion .. | .hostRead ..
  | .hubCopyCompletion .. | .scaleUpSectorArrival .. | .livePlaneChange .. | .debuggerAttach .. => true

/-- Every operand has a value that the encoding admits. -/
def WellFormed : Instr → Bool
  | .sext _ _ w => w != .d64
  | .zext _ _ w => w != .d64
  | .fcvt _ _ f c => !(f == .f32 && c == .toF32) && !(f == .f64 && c == .toF64)
  | .dly n => n != 0
  | .stmsk j _ => decide (1 ≤ j.toNat) && decide (j.toNat ≤ 6)
  | .ld _ _ _ _ w x _ => !(x && w == .d64)
  | .ldx _ _ _ _ _ w x => !(x && w == .d64)
  | .ldxWf _ _ _ _ _ w x => !(x && w == .d64)
  | .ldxWfc _ _ _ _ _ w x => !(x && w == .d64)
  | .ldxMg _ _ _ _ _ w x => !(x && w == .d64)
  | .acas t _ _ _ _ _ => t.val % 2 == 0
  | .chunk t _ _ _ _ => t.val % 2 == 0
  | .feclr _ _ _ c => c != 0
  | .feset _ _ _ c => c != 0
  | .vfma _ _ _ _ t => t.isFp
  | .vshl _ _ _ _ t => !t.isFp
  | .vshr _ _ _ _ t => !t.isFp
  | .vsar _ _ _ _ t => !t.isFp
  | .vcvt _ _ _ src dst _ => src != dst && (!(src == .md8 || src == .fp4) || dst == .f32)
  | .vext _ _ l t => decide (l.val < t.lanes)
  | .vexp2 _ _ _ t => t.isFp
  | .vrcp _ _ _ t => t.isFp
  | .vrsqrt _ _ _ t => t.isFp
  | .mma _ _ k _ f _ _ => !(f == .fp4 && k.val % 2 == 0)
  | .tshape d _ _ => d.val % 2 == 0
  | .add .. | .addShort .. | .sub .. | .subShort .. | .and .. | .or .. | .xor .. | .shl .. | .shr .. | .sar ..
  | .min .. | .minu .. | .max .. | .maxu .. | .slt .. | .sltu .. | .seq .. | .mul .. | .mulh .. | .mulhu ..
  | .clz .. | .ctz .. | .popc .. | .sel .. | .addi .. | .addiShort .. | .andi .. | .ori .. | .xori ..
  | .shli .. | .shliShort .. | .shri .. | .sari .. | .movi .. | .movk .. | .mov .. | .addpc .. | .lit ..
  | .litZ .. | .litH .. | .div .. | .divu .. | .rem .. | .remu .. | .fadd .. | .fsub .. | .fmul .. | .ffma ..
  | .fmin .. | .fmax .. | .feq .. | .flt .. | .fle .. | .fclass .. | .fsgn .. | .fsgnn .. | .fsgnx ..
  | .faddk .. | .fmulk .. | .ffmak .. | .ldk .. | .faddl .. | .fmull .. | .ffmal .. | .fdiv .. | .fsqrt ..
  | .ffmai .. | .fmovi .. | .faddi .. | .fmuli .. | .br .. | .call .. | .beq .. | .bne .. | .blt .. | .bge ..
  | .bltu .. | .bgeu .. | .bz .. | .bnz .. | .bnzShort .. | .jr .. | .callr .. | .waitt .. | .waittShort ..
  | .tkrd .. | .tkclr .. | .ldShort .. | .st .. | .stShort .. | .vld .. | .vldShort .. | .vst .. | .vstShort ..
  | .stx .. | .stxSf .. | .stxNl .. | .stxNh .. | .vldx .. | .vldxWf .. | .vldxWfc .. | .vstx .. | .vstxSf ..
  | .aadd .. | .aand .. | .aor .. | .axor .. | .amin .. | .amax .. | .aminu .. | .amaxu .. | .aswp ..
  | .watch .. | .vadd .. | .vaddShort .. | .vsub .. | .vmul .. | .vmulShort .. | .vmin .. | .vmax ..
  | .vmaxShort .. | .vabs .. | .vneg .. | .vand .. | .vor .. | .vxor .. | .vmov .. | .vmovShort .. | .vsel ..
  | .vmodadd .. | .vmodsub .. | .vmodmul .. | .vntt .. | .vred .. | .vperm .. | .vbcast .. | .vcmp ..
  | .kand .. | .kor .. | .kxor .. | .knot .. | .mmod .. | .mzero .. | .mload .. | .mdrain .. | .cpy ..
  | .cpy2d .. | .cpyl .. | .mcrd .. | .spawn .. | .taskq .. | .bind .. | .signal .. | .join .. | .leave ..
  | .gbar .. | .tpress .. | .upret .. | .exit .. | .yield .. | .mig .. | .csrr .. | .csrw .. | .csrx ..
  | .trap .. | .tret .. | .bkpt .. | .pfx .. => true
  | .corestateWrite .. | .jackFree .. | .jackResend .. | .dbgctlHalt .. | .dbgctlStepWrite .. | .cfgWrite ..
  | .upvecWrite .. | .trapvecWrite .. | .fstatWrite .. | .trappcWrite .. | .wrrwWrite .. | .resultFallsDue ..
  | .orderingQueueRelease .. | .memoryReadPerform .. | .memoryWritePerform .. | .uncorrectableError ..
  | .lineFillArrival .. | .waitHintRetry .. | .atomicStep .. | .chunkStep .. | .bindStep .. | .signalStep ..
  | .poolAppend .. | .taskDispatch .. | .groupJoinStep .. | .groupLeaveStep .. | .gbarArrival ..
  | .watchArrival .. | .waitLoadArrival .. | .nibbleStoreStep .. | .postedStoreRefusal .. | .pstoreDelivery ..
  | .operationCompletion .. | .waittWake .. | .quantumExpiry .. | .threadEnd .. | .migrationDeparture ..
  | .migrationArrival .. | .borderEpochSnapshot .. | .transferRequest .. | .borderDeadline .. | .evacuation ..
  | .moveCommit .. | .seedCommit .. | .dieFault .. | .deviceFault .. | .darkApply .. | .territorySuspend ..
  | .linkHoldTimeout .. | .suspendFlush .. | .backgroundPageSave .. | .pageClaim .. | .territoryResume ..
  | .restoreChunkOpen .. | .debuggerStop .. | .debuggerResume .. | .matrixGrant .. | .matrixCompletion ..
  | .linkBeatArrival .. | .copyCommandStart .. | .cpylElement .. | .mcrdLineRequest .. | .mcrdSectorDelivery ..
  | .pageMigration .. | .meshPacketHop .. | .ringHop .. | .ringEjection .. | .hostPostedWrite ..
  | .horizonBroadcast .. | .doorbell .. | .launchRecord .. | .launchIndexWait .. | .queueBind ..
  | .hubCopyStart .. | .powerClockStep .. | .hubReset .. | .lanternRequest .. | .keyRotationStart ..
  | .sweepLineCommit .. | .lockInterfaceRequest .. | .startInterfaceRequest .. | .stopInterfaceRequest ..
  | .tdispError .. | .getVersion .. | .getCapabilities .. | .negotiateAlgorithms .. | .getDigests ..
  | .getCertificate .. | .challenge .. | .getMeasurements .. | .keyExchange .. | .finish .. | .heartbeat ..
  | .keyUpdate .. | .endSession .. | .loadKey .. | .sessionTimeout .. | .handoverStage .. | .handoverCommit ..
  | .illegalEncoding .. | .instructionFetchFill .. | .redirectedAccessCompletion .. | .hostRead ..
  | .hubCopyCompletion .. | .scaleUpSectorArrival .. | .livePlaneChange .. | .debuggerAttach .. => true

end Sys2Proof
end

