-- ==== Sys2Proof/Decode.lean ====
section
/-! DEFINITION. The decoder, total on any bytes (R267 to R286), and the encoder written from the same layouts.
An instruction word is a number: bit 0 is the least significant bit of the first halfword, and a literal word counts on
from bit 32. -/

namespace Sys2Proof

/-! ## Fields -/

/-- `len` bits of `w` from bit `lo` up. -/
abbrev fld (w lo len : Nat) : Nat := w / 2 ^ lo % 2 ^ len

/-- A 5-bit field that names a G register: bit 4 must be 0 (R271). -/
def g5 (n : Nat) : Option GReg := if h : n < 16 then some ⟨n, h⟩ else none
/-- A field that names a K register: 0 to 7 (R271). -/
def k5 (n : Nat) : Option KReg := if h : n < 8 then some ⟨n, h⟩ else none

abbrev g4 (n : Nat) : GReg := Fin.ofNat 16 n
abbrev v5 (n : Nat) : VReg := Fin.ofNat 32 n
abbrev k3 (n : Nat) : KReg := Fin.ofNat 8 n
abbrev t4 (n : Nat) : Tok := Fin.ofNat 16 n
abbrev s3 (n : Nat) : Strm := Fin.ofNat 8 n
abbrev m3 (n : Nat) : Sel := Fin.ofNat 8 n

/-- The width code of R273. -/
def Width.code : Width → Nat
  | .b8 => 0 | .h16 => 1 | .w32 => 2 | .d64 => 3
def Width.ofCode (n : Nat) : Width :=
  match n with | 0 => .b8 | 1 => .h16 | 2 => .w32 | _ => .d64

def AWidth.code : AWidth → Nat
  | .w32 => 0 | .d64 => 1
def AWidth.ofCode (n : Nat) : AWidth := if n = 0 then .w32 else .d64

/-- fmt of the FPU group; 2 and 3 are ILLEGAL (R278). -/
def FFmt.code : FFmt → Nat
  | .f32 => 0 | .f64 => 1
def FFmt.ofCode (n : Nat) : Option FFmt :=
  match n with | 0 => some .f32 | 1 => some .f64 | _ => none

/-- The type codes of R171; 7 is ILLEGAL outside VCVT. -/
def VType.code : VType → Nat
  | .f32 => 0 | .bf16 => 1 | .f16 => 2 | .i32 => 3 | .i16 => 4 | .i8 => 5 | .i64 => 6
def VType.ofCode (n : Nat) : Option VType :=
  match n with
  | 0 => some .f32 | 1 => some .bf16 | 2 => some .f16 | 3 => some .i32 | 4 => some .i16 | 5 => some .i8
  | 6 => some .i64 | _ => none

/-- The format codes of VCVT and DFMT (R181, R281). -/
def CFmt.code : CFmt → Nat
  | .f32 => 0 | .bf16 => 1 | .f16 => 2 | .i32 => 3 | .i16 => 4 | .i8 => 5 | .i64 => 6 | .md8 => 7 | .fp4 => 8
def CFmt.ofCode (n : Nat) : Option CFmt :=
  match n with
  | 0 => some .f32 | 1 => some .bf16 | 2 => some .f16 | 3 => some .i32 | 4 => some .i16 | 5 => some .i8
  | 6 => some .i64 | 7 => some .md8 | 8 => some .fp4 | _ => none

/-- sub of FCVT (R278). -/
def FcvtOp.code : FcvtOp → Nat
  | .toF32 => 0 | .toF64 => 1 | .toI32 => 2 | .toI64 => 3 | .ofI32 => 4 | .ofI64 => 5 | .toBF16 => 6 | .toF16 => 7
def FcvtOp.ofCode (n : Nat) : FcvtOp :=
  match n with
  | 0 => .toF32 | 1 => .toF64 | 2 => .toI32 | 3 => .toI64 | 4 => .ofI32 | 5 => .ofI64 | 6 => .toBF16 | _ => .toF16

def RedOp.code : RedOp → Nat
  | .sum => 0 | .min => 1 | .max => 2
def RedOp.ofCode (n : Nat) : Option RedOp :=
  match n with | 0 => some .sum | 1 => some .min | 2 => some .max | _ => none

def VCond.code : VCond → Nat
  | .eq => 0 | .ne => 1 | .lt => 2 | .le => 3 | .gt => 4 | .ge => 5
def VCond.ofCode (n : Nat) : Option VCond :=
  match n with
  | 0 => some .eq | 1 => some .ne | 2 => some .lt | 3 => some .le | 4 => some .gt | 5 => some .ge | _ => none

def WCond.code : WCond → Nat
  | .eq => 0 | .ne => 1 | .lt => 2 | .ge => 3 | .ltu => 4 | .geu => 5
def WCond.ofCode (n : Nat) : Option WCond :=
  match n with
  | 0 => some .eq | 1 => some .ne | 2 => some .lt | 3 => some .ge | 4 => some .ltu | 5 => some .geu | _ => none

def MFmt.code : MFmt → Nat
  | .bf16 => 0 | .fp16 => 1 | .md8 => 2 | .int8 => 3 | .fp4 => 4
def MFmt.ofCode (n : Nat) : Option MFmt :=
  match n with
  | 0 => some .bf16 | 1 => some .fp16 | 2 => some .md8 | 3 => some .int8 | 4 => some .fp4 | _ => none

/-! ## Layouts that serve several instructions (R272) -/

/-- Layouts A and T from the top down to b: three G registers. -/
def ggg (w : Nat) (f : GReg → GReg → GReg → Instr) : Option Instr := do
  let d ← g5 (fld w 27 5)
  let a ← g5 (fld w 22 5)
  let b ← g5 (fld w 17 5)
  some (f d a b)

/-- Two G registers and a field that must be 0. -/
def ggz (w z : Nat) (f : GReg → GReg → Instr) : Option Instr := do
  let d ← g5 (fld w 27 5)
  let a ← g5 (fld w 22 5)
  if z = 0 then some (f d a) else none

/-- Two G registers. -/
def gg (w : Nat) (f : GReg → GReg → Instr) : Option Instr := ggz w 0 f

/-- Three V registers, a mask and a type (layout V). -/
def vvv (w : Nat) (f : VReg → VReg → VReg → KReg → VType → Instr) : Option Instr := do
  let t ← VType.ofCode (fld w 11 3)
  some (f (v5 (fld w 27 5)) (v5 (fld w 22 5)) (v5 (fld w 17 5)) (k3 (fld w 14 3)) t)

/-- Two V registers, a mask and a type; b must be 0. -/
def vv (w : Nat) (f : VReg → VReg → KReg → VType → Instr) : Option Instr :=
  if fld w 17 5 = 0 then vvv w fun d a _ k t => f d a k t else none

/-- base, s, m of the memory layouts. -/
def mem3 (w : Nat) (f : GReg → Strm → Sel → α) : α := f (g4 (fld w 23 4)) (s3 (fld w 20 3)) (m3 (fld w 17 3))

/-- Layout MX with a G register. -/
def mxg (w : Nat) (f : GReg → GReg → Strm → Sel → Tok → Width → Bool → Instr) : Option Instr := do
  let t ← g5 (fld w 27 5)
  some (mem3 w fun b s m => f t b s m (t4 (fld w 13 4)) (Width.ofCode (fld w 11 2)) (fld w 10 1 == 1))

/-- Layout MX with a V register: w must be 3 and x 0 (R280). -/
def mxv (w : Nat) (f : VReg → GReg → Strm → Sel → Tok → Instr) : Option Instr :=
  if fld w 10 3 = 6 then some (mem3 w fun b s m => f (v5 (fld w 27 5)) b s m (t4 (fld w 13 4))) else none

/-- Layout CP: a, b, c, tk, s, m. -/
def cp (w : Nat) (f : GReg → GReg → GReg → Tok → Strm → Sel → Instr) : Option Instr :=
  some (f (g4 (fld w 28 4)) (g4 (fld w 24 4)) (g4 (fld w 20 4)) (t4 (fld w 16 4)) (s3 (fld w 13 3)) (m3 (fld w 10 3)))

/-- Layout CP with b and c zero. -/
def cpa (w : Nat) (f : GReg → Tok → Strm → Sel → Instr) : Option Instr :=
  if fld w 20 8 = 0 then cp w fun a _ _ k s m => f a k s m else none

/-! ## The groups (R276 to R285) -/

def decodeAlu (w : Nat) : Option Instr :=
  match fld w 8 9 with
  | 0 => ggg w .add | 1 => ggg w .sub | 2 => ggg w .and | 3 => ggg w .or | 4 => ggg w .xor
  | 5 => ggg w .shl | 6 => ggg w .shr | 7 => ggg w .sar
  | 8 => ggg w .min | 9 => ggg w .minu | 10 => ggg w .max | 11 => ggg w .maxu
  | 12 => ggg w .slt | 13 => ggg w .sltu | 14 => ggg w .seq
  | 15 => ggg w .mul | 16 => ggg w .mulh | 17 => ggg w .mulhu
  | 18 => ggz w (fld w 17 5) .clz | 19 => ggz w (fld w 17 5) .ctz | 20 => ggz w (fld w 17 5) .popc
  | 21 => if fld w 17 5 < 3 then gg w fun d a => .sext d a (Width.ofCode (fld w 17 5)) else none
  | 22 => if fld w 17 5 < 3 then gg w fun d a => .zext d a (Width.ofCode (fld w 17 5)) else none
  | 23 => ggg w .sel
  | _ => none

def decodeShift (w : Nat) : Option Instr :=
  if fld w 14 6 ≠ 0 then none
  else match fld w 20 2 with
    | 0 => gg w fun d a => .shli d a (BitVec.ofNat 6 (fld w 8 6))
    | 1 => gg w fun d a => .shri d a (BitVec.ofNat 6 (fld w 8 6))
    | 2 => gg w fun d a => .sari d a (BitVec.ofNat 6 (fld w 8 6))
    | _ => none

def decodeFpu (w : Nat) : Option Instr := do
  let f ← FFmt.ofCode (fld w 11 2)
  let sub := fld w 8 3
  match fld w 13 4 with
  | 0 => if sub = 0 then ggg w fun d a b => .fadd d a b f else none
  | 1 => if sub = 0 then ggg w fun d a b => .fsub d a b f else none
  | 2 => if sub = 0 then ggg w fun d a b => .fmul d a b f else none
  | 3 => if sub = 0 then ggg w fun d a b => .ffma d a b f else none
  | 4 => if sub = 0 then ggg w fun d a b => .fmin d a b f else none
  | 5 => if sub = 0 then ggg w fun d a b => .fmax d a b f else none
  | 6 => if sub = 0 then ggg w fun d a b => .feq d a b f else none
  | 7 => if sub = 0 then ggg w fun d a b => .flt d a b f else none
  | 8 => if sub = 0 then ggg w fun d a b => .fle d a b f else none
  | 9 => if sub = 0 then ggz w (fld w 17 5) fun d a => .fclass d a f else none
  | 10 =>
    match sub with
    | 0 => ggg w fun d a b => .fsgn d a b f
    | 1 => ggg w fun d a b => .fsgnn d a b f
    | 2 => ggg w fun d a b => .fsgnx d a b f
    | _ => none
  | 11 => ggz w (fld w 17 5) fun d a => .fcvt d a f (FcvtOp.ofCode sub)
  | _ => none

def decodeFpk (w : Nat) : Option Instr :=
  let c := BitVec.ofNat 8 (fld w 14 8)
  match fld w 8 6 with
  | 0 => gg w fun d a => .faddk d a c
  | 1 => gg w fun d a => .fmulk d a c
  | 2 => gg w fun d a => .ffmak d a c
  | 3 => ggz w (fld w 22 5) fun d _ => .ldk d c
  | _ => none

def decodeDiv (w : Nat) : Option Instr :=
  let k := t4 (fld w 13 4)
  match fld w 8 5 with
  | 0 => ggg w fun d a b => .div d a b k
  | 1 => ggg w fun d a b => .divu d a b k
  | 2 => ggg w fun d a b => .rem d a b k
  | 3 => ggg w fun d a b => .remu d a b k
  | _ => none

def decodeFdiv (w : Nat) : Option Instr :=
  let k := t4 (fld w 13 4)
  match fld w 8 5 with
  | 0 => ggg w fun d a b => .fdiv d a b k .f32
  | 1 => ggg w fun d a b => .fdiv d a b k .f64
  | 2 => ggz w (fld w 17 5) fun d a => .fsqrt d a k .f32
  | 3 => ggz w (fld w 17 5) fun d a => .fsqrt d a k .f64
  | _ => none

def decodeBcc (w : Nat) : Option Instr :=
  let a := g4 (fld w 28 4)
  let b := g4 (fld w 24 4)
  let o := BitVec.ofNat 13 (fld w 8 13)
  match fld w 21 3 with
  | 0 => some (.beq a b o) | 1 => some (.bne a b o) | 2 => some (.blt a b o) | 3 => some (.bge a b o)
  | 4 => some (.bltu a b o) | 5 => some (.bgeu a b o)
  | 6 => if fld w 24 4 = 0 then some (.bz a o) else none
  | _ => if fld w 24 4 = 0 then some (.bnz a o) else none

def decodeJr (w : Nat) : Option Instr :=
  if fld w 27 5 = 0 ∧ fld w 17 5 = 0 then
    match fld w 8 9 with
    | 0 => (g5 (fld w 22 5)).map .jr
    | 1 => (g5 (fld w 22 5)).map .callr
    | _ => none
  else none

/-- Layout TK (R92, R132). -/
def decodeTk (w : Nat) : Option Instr :=
  let k := t4 (fld w 28 4)
  let n := BitVec.ofNat 8 (fld w 20 8)
  match fld w 8 8 with
  | 0 => if fld w 16 4 = 0 then some (.waitt k n) else none
  | 1 => if fld w 20 8 = 0 then some (.tkrd k (g4 (fld w 16 4))) else none
  | 2 => if fld w 16 12 = 0 then some (.tkclr k) else none
  | 3 => if fld w 16 4 = 0 then some (.stmsk (BitVec.ofNat 4 (fld w 28 4)) n) else none
  | _ => none

def decodeLd (w : Nat) : Option Instr := do
  let t ← g5 (fld w 27 5)
  some (mem3 w fun b s m => .ld t b s m (Width.ofCode (fld w 15 2)) (fld w 14 1 == 1) (BitVec.ofNat 6 (fld w 8 6)))

def decodeSt (w : Nat) : Option Instr := do
  let t ← g5 (fld w 27 5)
  if fld w 14 1 = 0 then
    some (mem3 w fun b s m => .st t b s m (Width.ofCode (fld w 15 2)) (BitVec.ofNat 6 (fld w 8 6)))
  else none

def decodeLdx (w : Nat) : Option Instr :=
  match fld w 8 2 with
  | 0 => mxg w .ldx | 1 => mxg w .ldxWf | 2 => mxg w .ldxWfc | _ => mxg w .ldxMg

def decodeStx (w : Nat) : Option Instr :=
  if fld w 10 1 = 0 then
    match fld w 8 2 with
    | 0 => mxg w fun t b s m k wd _ => .stx t b s m k wd
    | 1 => mxg w fun t b s m k wd _ => .stxSf t b s m k wd
    | 2 => if fld w 11 2 = 0 then mxg w fun t b s m k _ _ => .stxNl t b s m k else none
    | _ => if fld w 11 2 = 0 then mxg w fun t b s m k _ _ => .stxNh t b s m k else none
  else none

def decodeVldx (w : Nat) : Option Instr :=
  match fld w 8 2 with
  | 0 => mxv w .vldx | 1 => mxv w .vldxWf | 2 => mxv w .vldxWfc | _ => none

def decodeVstx (w : Nat) : Option Instr :=
  match fld w 8 2 with
  | 0 => mxv w .vstx | 1 => mxv w .vstxSf | _ => none

def decodeAtom (w : Nat) : Option Instr := do
  let t ← g5 (fld w 27 5)
  let f (c : GReg → GReg → Strm → Sel → Tok → AWidth → Instr) : Option Instr :=
    some (mem3 w fun b s m => c t b s m (t4 (fld w 13 4)) (AWidth.ofCode (fld w 8 1)))
  match fld w 9 4 with
  | 0 => f .aadd | 1 => f .aand | 2 => f .aor | 3 => f .axor | 4 => f .amin | 5 => f .amax
  | 6 => f .aminu | 7 => f .amaxu | 8 => f .aswp | 9 => f .acas | _ => none

def decodeChunk (w : Nat) : Option Instr := do
  let t ← g5 (fld w 27 5)
  if fld w 8 5 = 0 then some (mem3 w fun b s m => .chunk t b s m (t4 (fld w 13 4))) else none

def decodeWatch (w : Nat) : Option Instr := do
  let v ← g5 (fld w 27 5)
  let c ← WCond.ofCode (fld w 14 3)
  if fld w 8 5 = 0 then some (mem3 w fun b s m => .watch v b s m c (AWidth.ofCode (fld w 13 1))) else none

def decodeFe (w : Nat) : Option Instr :=
  if fld w 27 4 = 0 then
    let c := BitVec.ofNat 9 (fld w 8 9)
    some (mem3 w fun b s m => if fld w 31 1 = 0 then .feclr b s m c else .feset b s m c)
  else none

def decodeVar (w : Nat) : Option Instr :=
  match fld w 8 3 with
  | 0 => vvv w .vadd | 1 => vvv w .vsub | 2 => vvv w .vmul | 3 => vvv w .vfma
  | 4 => vvv w .vmin | 5 => vvv w .vmax | 6 => vv w .vabs | _ => vv w .vneg

def decodeVlog (w : Nat) : Option Instr :=
  match fld w 8 3 with
  | 0 => vvv w .vand | 1 => vvv w .vor | 2 => vvv w .vxor | 3 => vvv w .vshl
  | 4 => vvv w .vshr | 5 => vvv w .vsar | 6 => vv w .vmov | _ => vvv w .vsel

def decodeVmod (w : Nat) : Option Instr :=
  if fld w 11 3 = 6 then
    match fld w 8 3 with
    | 0 => vvv w fun d a b k _ => .vmodadd d a b k
    | 1 => vvv w fun d a b k _ => .vmodsub d a b k
    | 2 => vvv w fun d a b k _ => .vmodmul d a b k
    | 3 => vvv w fun d a b k _ => .vntt d a b k
    | _ => none
  else none

/-- VCVT: with type 7, b[3:0] names the source and the destination is F32 (R281). -/
def decodeVcvt (w : Nat) : Option Instr := do
  let c ← CFmt.ofCode (fld w 17 4)
  let f (src dst : CFmt) : Option Instr :=
    some (.vcvt (v5 (fld w 27 5)) (v5 (fld w 22 5)) (k3 (fld w 14 3)) src dst (fld w 21 1 == 1))
  if fld w 11 3 = 7 then
    if c = .md8 ∨ c = .fp4 then f c .f32 else none
  else do
    let src ← CFmt.ofCode (fld w 11 3)
    f src c

def decodeVmsc (w : Nat) : Option Instr :=
  match fld w 8 3 with
  | 0 => decodeVcvt w
  | 1 => do
    let o ← RedOp.ofCode (fld w 17 5)
    vvv w fun d a _ k t => .vred d a o k t
  | 2 => vvv w .vperm
  | 3 => do
    let a ← g5 (fld w 22 5)
    vv w fun d _ k t => .vbcast d a k t
  | 4 => do
    let d ← g5 (fld w 27 5)
    if fld w 14 3 = 0 then vvv w fun _ a b _ t => .vext d a b t else none
  | 5 => vv w .vexp2 | 6 => vv w .vrcp | _ => vv w .vrsqrt

def decodeVcmp (w : Nat) : Option Instr := do
  let d ← k5 (fld w 27 5)
  let c ← VCond.ofCode (fld w 8 3)
  vvv w fun _ a b k t => .vcmp d a b k t c

def decodeKop (w : Nat) : Option Instr := do
  let d ← k5 (fld w 27 5)
  let a ← k5 (fld w 22 5)
  let b ← k5 (fld w 17 5)
  if fld w 11 6 = 0 then
    match fld w 8 3 with
    | 0 => some (.kand d a b) | 1 => some (.kor d a b) | 2 => some (.kxor d a b)
    | 3 => if b = 0 then some (.knot d a) else none
    | _ => none
  else none

/-- Layout E (R180). -/
def decodeMma (w : Nat) : Option Instr := do
  let f ← MFmt.ofCode (fld w 15 3)
  some (.mma (g4 (fld w 28 4)) (g4 (fld w 24 4)) (Fin.ofNat 16 (fld w 20 4)) (Fin.ofNat 4 (fld w 18 2)) f
    (t4 (fld w 11 4)) (m3 (fld w 8 3)))

def decodeMmod (w : Nat) : Option Instr :=
  if fld w 15 3 = 0 then
    some (.mmod (g4 (fld w 28 4)) (g4 (fld w 24 4)) (Fin.ofNat 16 (fld w 20 4)) (Fin.ofNat 4 (fld w 18 2))
      (t4 (fld w 11 4)) (m3 (fld w 8 3)))
  else none

/-- Layout MOPS (R181). -/
def decodeMops (w : Nat) : Option Instr :=
  let d := g4 (fld w 28 4)
  let c := g4 (fld w 24 4)
  let a : AccIx := Fin.ofNat 4 (fld w 22 2)
  let k := t4 (fld w 18 4)
  match fld w 8 4 with
  | 0 => if fld w 12 6 = 0 then some (.mzero d c a k) else none
  | 1 => some (.mload d c a k (s3 (fld w 15 3)) (m3 (fld w 12 3)))
  | 2 => some (.mdrain d c a k (s3 (fld w 15 3)) (m3 (fld w 12 3)))
  | _ => none

def decodeCp (w : Nat) : Option Instr :=
  match fld w 8 2 with
  | 0 => cp w .cpy | 1 => cp w .cpy2d | 2 => cpa w .cpyl | _ => cp w .mcrd

def decodeTask (w : Nat) : Option Instr :=
  match fld w 8 2 with
  | 0 => if fld w 20 4 = 0 then cp w fun a b _ k s m => .spawn a b k s m else none
  | 1 => cpa w .taskq
  | 2 => cp w .bind
  | _ => cp w .signal

def decodeGrp (w : Nat) : Option Instr :=
  match fld w 8 2 with
  | 0 => cpa w .join
  | 1 => cpa w .leave
  | 2 => if fld w 10 18 = 0 then some (.gbar (g4 (fld w 28 4))) else none
  | _ => none

/-- TERR (R284): fields not used must be 0. -/
def decodeTerr (w : Nat) : Option Instr :=
  match fld w 8 5 with
  | 0 => ggz w (fld w 17 5) fun d a => .tshape d a (t4 (fld w 13 4))
  | 1 =>
    if fld w 27 5 = 0 ∧ fld w 17 5 = 0 then (g5 (fld w 22 5)).map fun a => .tpress a (t4 (fld w 13 4)) else none
  | 2 => if fld w 13 19 = 0 then some .upret else none
  | _ => none

def decodeThr (w : Nat) : Option Instr :=
  match fld w 8 5 with
  | 0 => if fld w 13 19 = 0 then some .exit else none
  | 1 => if fld w 13 19 = 0 then some .yield else none
  | 2 => if fld w 27 5 = 0 ∧ fld w 13 9 = 0 then (g5 (fld w 22 5)).map .mig else none
  | _ => none

def decodeCsr (w : Nat) : Option Instr :=
  let c := BitVec.ofNat 12 (fld w 10 12)
  match fld w 8 2 with
  | 0 => ggz w (fld w 22 5) fun d _ => .csrr d c
  | 1 => ggz w (fld w 27 5) fun _ a => .csrw a c
  | 2 => gg w fun d a => .csrx d a c
  | _ => none

def decodeTr (w : Nat) : Option Instr :=
  if fld w 10 6 = 0 then
    match fld w 8 2 with
    | 0 => some (.trap (BitVec.ofNat 16 (fld w 16 16)))
    | 1 => if fld w 16 16 = 0 then some .tret else none
    | 2 => if fld w 16 16 = 0 then some .bkpt else none
    | _ => none
  else none

/-- Whether a first word takes a literal word (R274). -/
def takesLiteral (w : Nat) : Bool := fld w 0 8 == 0x25 || fld w 0 8 == 0x35

/-- LIT and the FPL group: the word and its literal (R274, R279). -/
def decodeLiteral (w lit : Nat) : Option Instr :=
  let l := BitVec.ofNat 32 lit
  if fld w 10 12 ≠ 0 then none
  else if fld w 0 8 = 0x25 then
    match fld w 8 2 with
    | 0 => ggz w (fld w 22 5) fun d _ => .lit d l
    | 1 => ggz w (fld w 22 5) fun d _ => .litZ d l
    | 2 => ggz w (fld w 22 5) fun d _ => .litH d l
    | _ => none
  else
    match fld w 8 2 with
    | 0 => gg w fun d a => .faddl d a l
    | 1 => gg w fun d a => .fmull d a l
    | 2 => gg w fun d a => .ffmal d a l
    | _ => none

/-- The F-form (R270). -/
def decodeF (w : Nat) : Option Instr :=
  let d := g4 (fld w 8 4)
  let m := g4 (fld w 4 4)
  let i := BitVec.ofNat 20 (fld w 12 20)
  match fld w 2 2 with
  | 0 => some (.ffmai d m i)
  | 1 => if fld w 4 4 = 0 then some (.fmovi d i) else none
  | 2 => some (.faddi d m i)
  | _ => some (.fmuli d m i)

/-- The 32-bit forms without a literal, by op6 (R276). -/
def decodeOp6 (w : Nat) : Option Instr :=
  match fld w 2 6 with
  | 0x01 => decodeAlu w
  | 0x02 => gg w fun d a => .addi d a (BitVec.ofNat 14 (fld w 8 14))
  | 0x03 => gg w fun d a => .andi d a (BitVec.ofNat 14 (fld w 8 14))
  | 0x04 => gg w fun d a => .ori d a (BitVec.ofNat 14 (fld w 8 14))
  | 0x05 => gg w fun d a => .xori d a (BitVec.ofNat 14 (fld w 8 14))
  | 0x06 => decodeShift w
  | 0x07 => do
    let d ← g5 (fld w 27 5)
    if fld w 8 1 = 0 then some (.movi d (Fin.ofNat 4 (fld w 25 2)) (BitVec.ofNat 16 (fld w 9 16)))
    else some (.movk d (Fin.ofNat 4 (fld w 25 2)) (BitVec.ofNat 16 (fld w 9 16)))
  | 0x08 => (g5 (fld w 27 5)).map fun d => .addpc d (BitVec.ofNat 19 (fld w 8 19))
  | 0x0A => decodeDiv w
  | 0x0B => decodeFpu w
  | 0x0C => decodeFpk w
  | 0x0E => decodeFdiv w
  | 0x10 => some (.br (BitVec.ofNat 24 (fld w 8 24)))
  | 0x11 => some (.call (BitVec.ofNat 24 (fld w 8 24)))
  | 0x12 => decodeBcc w
  | 0x13 => decodeJr w
  | 0x14 => decodeTk w
  | 0x18 => decodeLd w
  | 0x19 => decodeSt w
  | 0x1A => some (mem3 w fun b s m => .vld (v5 (fld w 27 5)) b s m (BitVec.ofNat 9 (fld w 8 9)))
  | 0x1B => some (mem3 w fun b s m => .vst (v5 (fld w 27 5)) b s m (BitVec.ofNat 9 (fld w 8 9)))
  | 0x1C => decodeLdx w
  | 0x1D => decodeStx w
  | 0x1E => decodeVldx w
  | 0x1F => decodeVstx w
  | 0x20 => decodeAtom w
  | 0x21 => decodeChunk w
  | 0x22 => decodeWatch w
  | 0x23 => decodeFe w
  | 0x28 => decodeVar w
  | 0x29 => decodeVlog w
  | 0x2A => decodeVmod w
  | 0x2B => decodeVmsc w
  | 0x2C => decodeVcmp w
  | 0x2D => decodeKop w
  | 0x30 => decodeMma w
  | 0x31 => decodeMmod w
  | 0x32 => decodeMops w
  | 0x34 => decodeCp w
  | 0x38 => decodeTask w
  | 0x39 => decodeGrp w
  | 0x3A => decodeTerr w
  | 0x3B => decodeThr w
  | 0x3C => decodeCsr w
  | 0x3D => decodeTr w
  | 0x3E => some (.pfx (fld w 31 1 == 1) (BitVec.ofNat 8 (fld w 23 8)) (BitVec.ofNat 15 (fld w 8 15)))
  | _ => none

/-- The 16-bit forms, by op4 (R269). -/
def decodeHalf (h : Nat) : Option Instr :=
  let d := g4 (fld h 8 4)
  let s := g4 (fld h 4 4)
  let vd := v5 (fld h 7 5)
  let vs := v5 (fld h 2 5)
  match fld h 12 4 with
  | 0 => if fld h 1 7 = 0 then some (.dly (BitVec.ofNat 4 (fld h 8 4))) else none
  | 1 => if fld h 1 3 = 0 then some (.mov d s) else none
  | 2 => if fld h 1 3 = 0 then some (.addShort d s) else none
  | 3 => if fld h 1 3 = 0 then some (.subShort d s) else none
  | 4 => some (.addiShort d (BitVec.ofNat 7 (fld h 1 7)))
  | 5 => if fld h 1 1 = 0 then some (.shliShort d (BitVec.ofNat 6 (fld h 2 6))) else none
  | 6 => if fld h 1 3 = 0 then some (.ldShort d s) else none
  | 7 => if fld h 1 3 = 0 then some (.stShort d s) else none
  | 8 => if fld h 1 3 = 0 then some (.waittShort (t4 (fld h 8 4)) (BitVec.ofNat 4 (fld h 4 4))) else none
  | 9 => some (.bnzShort d (BitVec.ofNat 7 (fld h 1 7)))
  | 10 => if fld h 1 1 = 0 then some (.vaddShort vd vs) else none
  | 11 => if fld h 1 1 = 0 then some (.vmulShort vd vs) else none
  | 12 => if fld h 1 1 = 0 then some (.vmaxShort vd vs) else none
  | 13 => if fld h 1 1 = 0 then some (.vmovShort vd vs) else none
  | 14 => if fld h 1 2 = 0 then some (.vldShort vd (g4 (fld h 3 4))) else none
  | _ => if fld h 1 2 = 0 then some (.vstShort vd (g4 (fld h 3 4))) else none

/-! ## The decoder -/

/-- What a fetch gives the core: an instruction and its size, a pattern that names none (with R193's TVAL), or a wish for
more bytes. -/
inductive Decoded
  | instr (i : Instr) (size : Nat)
  | illegal (tval : BitVec 32)
  | short (need : Nat)
deriving DecidableEq, Repr

/-- The limits that R269 to R285 put on operand values, applied to a candidate. -/
def keepIf (i : Option Instr) : Option Instr := i.filter WellFormed

def Decoded.ofOption (i : Option Instr) (size : Nat) (word : Nat) : Decoded :=
  match keepIf i with
  | some j => .instr j size
  | none => .illegal (BitVec.ofNat 32 word)

/-- Decodes an instruction of which the first `have_` bytes are known, `w` holding them little-endian (R267, R275). An
illegal first word takes no literal. -/
def decodeBits (have_ w : Nat) : Decoded :=
  if have_ < 2 then .short 2
  else if w % 2 = 0 then .ofOption (decodeHalf (fld w 0 16)) 2 (fld w 0 16)
  else if have_ < 4 then .short 4
  else
    let w32 := fld w 0 32
    if w % 4 = 3 then .ofOption (decodeF w32) 4 w32
    else if takesLiteral w32 then
      if (decodeLiteral w32 0).isNone then .illegal (BitVec.ofNat 32 w32)
      else if have_ < 8 then .short 8
      else .ofOption (decodeLiteral w32 (fld w 32 32)) 8 w32
    else .ofOption (decodeOp6 w32) 4 w32

/-- Little-endian bytes as a number (R4). -/
def bytesToNat : List Byte → Nat
  | [] => 0
  | b :: r => b.toNat + 256 * bytesToNat r

/-- `n` little-endian bytes of a number (R4). -/
def natToBytes : Nat → Nat → List Byte
  | 0, _ => []
  | n + 1, w => BitVec.ofNat 8 w :: natToBytes n (w / 256)

/-- The decoder on the bytes that stand at the pc. -/
def decode (bs : List Byte) : Decoded := decodeBits bs.length (bytesToNat bs)

/-- The instruction that the decoder reads from an instruction of the opcode table: its bits are `w`, those above
`nbits` zero, laid out little-endian with the first halfword lowest (R4, R267). -/
def decodeTableWord (nbits w : Nat) : Option Instr :=
  match decode (natToBytes 8 (w % 2 ^ nbits)) with
  | .instr i _ => some i
  | _ => none

/-! ## The encoder -/

/-- Layout A. -/
def encA (low fn d a b : Nat) : Nat := low + fn * 2 ^ 8 + b * 2 ^ 17 + a * 2 ^ 22 + d * 2 ^ 27
/-- Layouts I and S. -/
def encI (low d a i : Nat) : Nat := low + i * 2 ^ 8 + a * 2 ^ 22 + d * 2 ^ 27
/-- Layout L with its literal word. -/
def encL (low fn d a l : Nat) : Nat := low + fn * 2 ^ 8 + a * 2 ^ 22 + d * 2 ^ 27 + l * 2 ^ 32
/-- Layout T. -/
def encT (low fn d a b k : Nat) : Nat := low + fn * 2 ^ 8 + k * 2 ^ 13 + b * 2 ^ 17 + a * 2 ^ 22 + d * 2 ^ 27
/-- The FPU group (R278). -/
def encF (op fmt sub d a b : Nat) : Nat :=
  0x2D + sub * 2 ^ 8 + fmt * 2 ^ 11 + op * 2 ^ 13 + b * 2 ^ 17 + a * 2 ^ 22 + d * 2 ^ 27
/-- Layout C. -/
def encC (c a b o : Nat) : Nat := 0x49 + o * 2 ^ 8 + c * 2 ^ 21 + b * 2 ^ 24 + a * 2 ^ 28
/-- Layout TK. -/
def encTk (fn k n g : Nat) : Nat := 0x51 + fn * 2 ^ 8 + g * 2 ^ 16 + n * 2 ^ 20 + k * 2 ^ 28
/-- t, base, s and m of the memory layouts. -/
def encMem (low t b s m : Nat) : Nat := low + m * 2 ^ 17 + s * 2 ^ 20 + b * 2 ^ 23 + t * 2 ^ 27
/-- Layout MX. -/
def encMx (low q t b s m k w x : Nat) : Nat :=
  encMem low t b s m + q * 2 ^ 8 + x * 2 ^ 10 + w * 2 ^ 11 + k * 2 ^ 13
/-- Layout V. -/
def encV (low fn d a b k t : Nat) : Nat :=
  low + fn * 2 ^ 8 + t * 2 ^ 11 + k * 2 ^ 14 + b * 2 ^ 17 + a * 2 ^ 22 + d * 2 ^ 27
/-- Layout E. -/
def encE (low a b k t f n m : Nat) : Nat :=
  low + m * 2 ^ 8 + n * 2 ^ 11 + f * 2 ^ 15 + t * 2 ^ 18 + k * 2 ^ 20 + b * 2 ^ 24 + a * 2 ^ 28
/-- Layout MOPS. -/
def encMops (fn d c a k s m : Nat) : Nat :=
  0xC9 + fn * 2 ^ 8 + m * 2 ^ 12 + s * 2 ^ 15 + k * 2 ^ 18 + a * 2 ^ 22 + c * 2 ^ 24 + d * 2 ^ 28
/-- Layout CP. -/
def encCp (low fn a b c k s m : Nat) : Nat :=
  low + fn * 2 ^ 8 + m * 2 ^ 10 + s * 2 ^ 13 + k * 2 ^ 16 + c * 2 ^ 20 + b * 2 ^ 24 + a * 2 ^ 28
/-- A 16-bit form. -/
def enc16 (op r : Nat) : Nat := r + op * 2 ^ 12

/-- The number of bits of an instruction and the number they make; a step of the device has none. -/
def encode : Instr → Nat × Nat
  | .add d a b => (32, encA 0x05 0 d.val a.val b.val)
  | .sub d a b => (32, encA 0x05 1 d.val a.val b.val)
  | .and d a b => (32, encA 0x05 2 d.val a.val b.val)
  | .or d a b => (32, encA 0x05 3 d.val a.val b.val)
  | .xor d a b => (32, encA 0x05 4 d.val a.val b.val)
  | .shl d a b => (32, encA 0x05 5 d.val a.val b.val)
  | .shr d a b => (32, encA 0x05 6 d.val a.val b.val)
  | .sar d a b => (32, encA 0x05 7 d.val a.val b.val)
  | .min d a b => (32, encA 0x05 8 d.val a.val b.val)
  | .minu d a b => (32, encA 0x05 9 d.val a.val b.val)
  | .max d a b => (32, encA 0x05 10 d.val a.val b.val)
  | .maxu d a b => (32, encA 0x05 11 d.val a.val b.val)
  | .slt d a b => (32, encA 0x05 12 d.val a.val b.val)
  | .sltu d a b => (32, encA 0x05 13 d.val a.val b.val)
  | .seq d a b => (32, encA 0x05 14 d.val a.val b.val)
  | .mul d a b => (32, encA 0x05 15 d.val a.val b.val)
  | .mulh d a b => (32, encA 0x05 16 d.val a.val b.val)
  | .mulhu d a b => (32, encA 0x05 17 d.val a.val b.val)
  | .clz d a => (32, encA 0x05 18 d.val a.val 0)
  | .ctz d a => (32, encA 0x05 19 d.val a.val 0)
  | .popc d a => (32, encA 0x05 20 d.val a.val 0)
  | .sext d a w => (32, encA 0x05 21 d.val a.val w.code)
  | .zext d a w => (32, encA 0x05 22 d.val a.val w.code)
  | .sel d a b => (32, encA 0x05 23 d.val a.val b.val)
  | .addi d a i => (32, encI 0x09 d.val a.val i.toNat)
  | .andi d a i => (32, encI 0x0D d.val a.val i.toNat)
  | .ori d a i => (32, encI 0x11 d.val a.val i.toNat)
  | .xori d a i => (32, encI 0x15 d.val a.val i.toNat)
  | .shli d a s => (32, encI 0x19 d.val a.val (s.toNat + 0 * 2 ^ 12))
  | .shri d a s => (32, encI 0x19 d.val a.val (s.toNat + 1 * 2 ^ 12))
  | .sari d a s => (32, encI 0x19 d.val a.val (s.toNat + 2 * 2 ^ 12))
  | .movi d h i => (32, 0x1D + 0 * 2 ^ 8 + i.toNat * 2 ^ 9 + h.val * 2 ^ 25 + d.val * 2 ^ 27)
  | .movk d h i => (32, 0x1D + 1 * 2 ^ 8 + i.toNat * 2 ^ 9 + h.val * 2 ^ 25 + d.val * 2 ^ 27)
  | .addpc d i => (32, 0x21 + i.toNat * 2 ^ 8 + d.val * 2 ^ 27)
  | .lit d l => (64, encL 0x25 0 d.val 0 l.toNat)
  | .litZ d l => (64, encL 0x25 1 d.val 0 l.toNat)
  | .litH d l => (64, encL 0x25 2 d.val 0 l.toNat)
  | .faddl d a l => (64, encL 0x35 0 d.val a.val l.toNat)
  | .fmull d a l => (64, encL 0x35 1 d.val a.val l.toNat)
  | .ffmal d a l => (64, encL 0x35 2 d.val a.val l.toNat)
  | .div d a b k => (32, encT 0x29 0 d.val a.val b.val k.val)
  | .divu d a b k => (32, encT 0x29 1 d.val a.val b.val k.val)
  | .rem d a b k => (32, encT 0x29 2 d.val a.val b.val k.val)
  | .remu d a b k => (32, encT 0x29 3 d.val a.val b.val k.val)
  | .fdiv d a b k f => (32, encT 0x39 f.code d.val a.val b.val k.val)
  | .fsqrt d a k f => (32, encT 0x39 (2 + f.code) d.val a.val 0 k.val)
  | .fadd d a b f => (32, encF 0 f.code 0 d.val a.val b.val)
  | .fsub d a b f => (32, encF 1 f.code 0 d.val a.val b.val)
  | .fmul d a b f => (32, encF 2 f.code 0 d.val a.val b.val)
  | .ffma d a b f => (32, encF 3 f.code 0 d.val a.val b.val)
  | .fmin d a b f => (32, encF 4 f.code 0 d.val a.val b.val)
  | .fmax d a b f => (32, encF 5 f.code 0 d.val a.val b.val)
  | .feq d a b f => (32, encF 6 f.code 0 d.val a.val b.val)
  | .flt d a b f => (32, encF 7 f.code 0 d.val a.val b.val)
  | .fle d a b f => (32, encF 8 f.code 0 d.val a.val b.val)
  | .fclass d a f => (32, encF 9 f.code 0 d.val a.val 0)
  | .fsgn d a b f => (32, encF 10 f.code 0 d.val a.val b.val)
  | .fsgnn d a b f => (32, encF 10 f.code 1 d.val a.val b.val)
  | .fsgnx d a b f => (32, encF 10 f.code 2 d.val a.val b.val)
  | .fcvt d a f c => (32, encF 11 f.code c.code d.val a.val 0)
  | .faddk d a c => (32, 0x31 + 0 * 2 ^ 8 + c.toNat * 2 ^ 14 + a.val * 2 ^ 22 + d.val * 2 ^ 27)
  | .fmulk d a c => (32, 0x31 + 1 * 2 ^ 8 + c.toNat * 2 ^ 14 + a.val * 2 ^ 22 + d.val * 2 ^ 27)
  | .ffmak d a c => (32, 0x31 + 2 * 2 ^ 8 + c.toNat * 2 ^ 14 + a.val * 2 ^ 22 + d.val * 2 ^ 27)
  | .ldk d c => (32, 0x31 + 3 * 2 ^ 8 + c.toNat * 2 ^ 14 + d.val * 2 ^ 27)
  | .ffmai d m i => (32, 3 + 0 * 2 ^ 2 + m.val * 2 ^ 4 + d.val * 2 ^ 8 + i.toNat * 2 ^ 12)
  | .fmovi d i => (32, 3 + 1 * 2 ^ 2 + d.val * 2 ^ 8 + i.toNat * 2 ^ 12)
  | .faddi d m i => (32, 3 + 2 * 2 ^ 2 + m.val * 2 ^ 4 + d.val * 2 ^ 8 + i.toNat * 2 ^ 12)
  | .fmuli d m i => (32, 3 + 3 * 2 ^ 2 + m.val * 2 ^ 4 + d.val * 2 ^ 8 + i.toNat * 2 ^ 12)
  | .br o => (32, 0x41 + o.toNat * 2 ^ 8)
  | .call o => (32, 0x45 + o.toNat * 2 ^ 8)
  | .beq a b o => (32, encC 0 a.val b.val o.toNat)
  | .bne a b o => (32, encC 1 a.val b.val o.toNat)
  | .blt a b o => (32, encC 2 a.val b.val o.toNat)
  | .bge a b o => (32, encC 3 a.val b.val o.toNat)
  | .bltu a b o => (32, encC 4 a.val b.val o.toNat)
  | .bgeu a b o => (32, encC 5 a.val b.val o.toNat)
  | .bz a o => (32, encC 6 a.val 0 o.toNat)
  | .bnz a o => (32, encC 7 a.val 0 o.toNat)
  | .jr a => (32, encA 0x4D 0 0 a.val 0)
  | .callr a => (32, encA 0x4D 1 0 a.val 0)
  | .waitt k n => (32, encTk 0 k.val n.toNat 0)
  | .tkrd k g => (32, encTk 1 k.val 0 g.val)
  | .tkclr k => (32, encTk 2 k.val 0 0)
  | .stmsk j m => (32, encTk 3 j.toNat m.toNat 0)
  | .ld t b s m w x o => (32, encMem 0x61 t.val b.val s.val m.val + o.toNat * 2 ^ 8 + x.toNat * 2 ^ 14 + w.code * 2 ^ 15)
  | .st t b s m w o => (32, encMem 0x65 t.val b.val s.val m.val + o.toNat * 2 ^ 8 + w.code * 2 ^ 15)
  | .vld t b s m o => (32, encMem 0x69 t.val b.val s.val m.val + o.toNat * 2 ^ 8)
  | .vst t b s m o => (32, encMem 0x6D t.val b.val s.val m.val + o.toNat * 2 ^ 8)
  | .ldx t b s m k w x => (32, encMx 0x71 0 t.val b.val s.val m.val k.val w.code x.toNat)
  | .ldxWf t b s m k w x => (32, encMx 0x71 1 t.val b.val s.val m.val k.val w.code x.toNat)
  | .ldxWfc t b s m k w x => (32, encMx 0x71 2 t.val b.val s.val m.val k.val w.code x.toNat)
  | .ldxMg t b s m k w x => (32, encMx 0x71 3 t.val b.val s.val m.val k.val w.code x.toNat)
  | .stx t b s m k w => (32, encMx 0x75 0 t.val b.val s.val m.val k.val w.code 0)
  | .stxSf t b s m k w => (32, encMx 0x75 1 t.val b.val s.val m.val k.val w.code 0)
  | .stxNl t b s m k => (32, encMx 0x75 2 t.val b.val s.val m.val k.val 0 0)
  | .stxNh t b s m k => (32, encMx 0x75 3 t.val b.val s.val m.val k.val 0 0)
  | .vldx t b s m k => (32, encMx 0x79 0 t.val b.val s.val m.val k.val 3 0)
  | .vldxWf t b s m k => (32, encMx 0x79 1 t.val b.val s.val m.val k.val 3 0)
  | .vldxWfc t b s m k => (32, encMx 0x79 2 t.val b.val s.val m.val k.val 3 0)
  | .vstx t b s m k => (32, encMx 0x7D 0 t.val b.val s.val m.val k.val 3 0)
  | .vstxSf t b s m k => (32, encMx 0x7D 1 t.val b.val s.val m.val k.val 3 0)
  | .aadd t b s m k w => (32, encMem 0x81 t.val b.val s.val m.val + w.code * 2 ^ 8 + 0 * 2 ^ 9 + k.val * 2 ^ 13)
  | .aand t b s m k w => (32, encMem 0x81 t.val b.val s.val m.val + w.code * 2 ^ 8 + 1 * 2 ^ 9 + k.val * 2 ^ 13)
  | .aor t b s m k w => (32, encMem 0x81 t.val b.val s.val m.val + w.code * 2 ^ 8 + 2 * 2 ^ 9 + k.val * 2 ^ 13)
  | .axor t b s m k w => (32, encMem 0x81 t.val b.val s.val m.val + w.code * 2 ^ 8 + 3 * 2 ^ 9 + k.val * 2 ^ 13)
  | .amin t b s m k w => (32, encMem 0x81 t.val b.val s.val m.val + w.code * 2 ^ 8 + 4 * 2 ^ 9 + k.val * 2 ^ 13)
  | .amax t b s m k w => (32, encMem 0x81 t.val b.val s.val m.val + w.code * 2 ^ 8 + 5 * 2 ^ 9 + k.val * 2 ^ 13)
  | .aminu t b s m k w => (32, encMem 0x81 t.val b.val s.val m.val + w.code * 2 ^ 8 + 6 * 2 ^ 9 + k.val * 2 ^ 13)
  | .amaxu t b s m k w => (32, encMem 0x81 t.val b.val s.val m.val + w.code * 2 ^ 8 + 7 * 2 ^ 9 + k.val * 2 ^ 13)
  | .aswp t b s m k w => (32, encMem 0x81 t.val b.val s.val m.val + w.code * 2 ^ 8 + 8 * 2 ^ 9 + k.val * 2 ^ 13)
  | .acas t b s m k w => (32, encMem 0x81 t.val b.val s.val m.val + w.code * 2 ^ 8 + 9 * 2 ^ 9 + k.val * 2 ^ 13)
  | .chunk t b s m k => (32, encMem 0x85 t.val b.val s.val m.val + k.val * 2 ^ 13)
  | .watch v b s m c w => (32, encMem 0x89 v.val b.val s.val m.val + w.code * 2 ^ 13 + c.code * 2 ^ 14)
  | .feclr b s m c => (32, encMem 0x8D 0 b.val s.val m.val + c.toNat * 2 ^ 8)
  | .feset b s m c => (32, encMem 0x8D 16 b.val s.val m.val + c.toNat * 2 ^ 8)
  | .vadd d a b k t => (32, encV 0xA1 0 d.val a.val b.val k.val t.code)
  | .vsub d a b k t => (32, encV 0xA1 1 d.val a.val b.val k.val t.code)
  | .vmul d a b k t => (32, encV 0xA1 2 d.val a.val b.val k.val t.code)
  | .vfma d a b k t => (32, encV 0xA1 3 d.val a.val b.val k.val t.code)
  | .vmin d a b k t => (32, encV 0xA1 4 d.val a.val b.val k.val t.code)
  | .vmax d a b k t => (32, encV 0xA1 5 d.val a.val b.val k.val t.code)
  | .vabs d a k t => (32, encV 0xA1 6 d.val a.val 0 k.val t.code)
  | .vneg d a k t => (32, encV 0xA1 7 d.val a.val 0 k.val t.code)
  | .vand d a b k t => (32, encV 0xA5 0 d.val a.val b.val k.val t.code)
  | .vor d a b k t => (32, encV 0xA5 1 d.val a.val b.val k.val t.code)
  | .vxor d a b k t => (32, encV 0xA5 2 d.val a.val b.val k.val t.code)
  | .vshl d a b k t => (32, encV 0xA5 3 d.val a.val b.val k.val t.code)
  | .vshr d a b k t => (32, encV 0xA5 4 d.val a.val b.val k.val t.code)
  | .vsar d a b k t => (32, encV 0xA5 5 d.val a.val b.val k.val t.code)
  | .vmov d a k t => (32, encV 0xA5 6 d.val a.val 0 k.val t.code)
  | .vsel d a b k t => (32, encV 0xA5 7 d.val a.val b.val k.val t.code)
  | .vmodadd d a b k => (32, encV 0xA9 0 d.val a.val b.val k.val 6)
  | .vmodsub d a b k => (32, encV 0xA9 1 d.val a.val b.val k.val 6)
  | .vmodmul d a b k => (32, encV 0xA9 2 d.val a.val b.val k.val 6)
  | .vntt d a b k => (32, encV 0xA9 3 d.val a.val b.val k.val 6)
  | .vcvt d a k src dst sr => (32, if src = .md8 ∨ src = .fp4 then encV 0xAD 0 d.val a.val (src.code + 16 * sr.toNat) k.val 7
      else encV 0xAD 0 d.val a.val (dst.code + 16 * sr.toNat) k.val src.code)
  | .vred d a o k t => (32, encV 0xAD 1 d.val a.val o.code k.val t.code)
  | .vperm d a b k t => (32, encV 0xAD 2 d.val a.val b.val k.val t.code)
  | .vbcast d a k t => (32, encV 0xAD 3 d.val a.val 0 k.val t.code)
  | .vext d a l t => (32, encV 0xAD 4 d.val a.val l.val 0 t.code)
  | .vexp2 d a k t => (32, encV 0xAD 5 d.val a.val 0 k.val t.code)
  | .vrcp d a k t => (32, encV 0xAD 6 d.val a.val 0 k.val t.code)
  | .vrsqrt d a k t => (32, encV 0xAD 7 d.val a.val 0 k.val t.code)
  | .vcmp d a b k t c => (32, encV 0xB1 c.code d.val a.val b.val k.val t.code)
  | .kand d a b => (32, encV 0xB5 0 d.val a.val b.val 0 0)
  | .kor d a b => (32, encV 0xB5 1 d.val a.val b.val 0 0)
  | .kxor d a b => (32, encV 0xB5 2 d.val a.val b.val 0 0)
  | .knot d a => (32, encV 0xB5 3 d.val a.val 0 0 0)
  | .mma a b k t f n m => (32, encE 0xC1 a.val b.val k.val t.val f.code n.val m.val)
  | .mmod a b k t n m => (32, encE 0xC5 a.val b.val k.val t.val 0 n.val m.val)
  | .mzero d c a k => (32, encMops 0 d.val c.val a.val k.val 0 0)
  | .mload d c a k s m => (32, encMops 1 d.val c.val a.val k.val s.val m.val)
  | .mdrain d c a k s m => (32, encMops 2 d.val c.val a.val k.val s.val m.val)
  | .cpy a b c k s m => (32, encCp 0xD1 0 a.val b.val c.val k.val s.val m.val)
  | .cpy2d a b c k s m => (32, encCp 0xD1 1 a.val b.val c.val k.val s.val m.val)
  | .cpyl a k s m => (32, encCp 0xD1 2 a.val 0 0 k.val s.val m.val)
  | .mcrd a b c k s m => (32, encCp 0xD1 3 a.val b.val c.val k.val s.val m.val)
  | .spawn a b k s m => (32, encCp 0xE1 0 a.val b.val 0 k.val s.val m.val)
  | .taskq a k s m => (32, encCp 0xE1 1 a.val 0 0 k.val s.val m.val)
  | .bind a b c k s m => (32, encCp 0xE1 2 a.val b.val c.val k.val s.val m.val)
  | .signal a b c k s m => (32, encCp 0xE1 3 a.val b.val c.val k.val s.val m.val)
  | .join a k s m => (32, encCp 0xE5 0 a.val 0 0 k.val s.val m.val)
  | .leave a k s m => (32, encCp 0xE5 1 a.val 0 0 k.val s.val m.val)
  | .gbar a => (32, encCp 0xE5 2 a.val 0 0 0 0 0)
  | .tshape d a k => (32, encT 0xE9 0 d.val a.val 0 k.val)
  | .tpress a k => (32, encT 0xE9 1 0 a.val 0 k.val)
  | .upret => (32, encT 0xE9 2 0 0 0 0)
  | .exit => (32, encT 0xED 0 0 0 0 0)
  | .yield => (32, encT 0xED 1 0 0 0 0)
  | .mig a => (32, encT 0xED 2 0 a.val 0 0)
  | .csrr d c => (32, 0xF1 + 0 * 2 ^ 8 + c.toNat * 2 ^ 10 + 0 * 2 ^ 22 + d.val * 2 ^ 27)
  | .csrw a c => (32, 0xF1 + 1 * 2 ^ 8 + c.toNat * 2 ^ 10 + a.val * 2 ^ 22 + 0 * 2 ^ 27)
  | .csrx d a c => (32, 0xF1 + 2 * 2 ^ 8 + c.toNat * 2 ^ 10 + a.val * 2 ^ 22 + d.val * 2 ^ 27)
  | .trap i => (32, 0xF5 + i.toNat * 2 ^ 16)
  | .tret => (32, 0xF5 + 1 * 2 ^ 8)
  | .bkpt => (32, 0xF5 + 2 * 2 ^ 8)
  | .pfx o m e => (32, 0xF9 + e.toNat * 2 ^ 8 + m.toNat * 2 ^ 23 + o.toNat * 2 ^ 31)
  | .dly n => (16, enc16 0 (n.toNat * 2 ^ 8))
  | .mov d s => (16, enc16 1 (s.val * 2 ^ 4 + d.val * 2 ^ 8))
  | .addShort d s => (16, enc16 2 (s.val * 2 ^ 4 + d.val * 2 ^ 8))
  | .subShort d s => (16, enc16 3 (s.val * 2 ^ 4 + d.val * 2 ^ 8))
  | .ldShort d s => (16, enc16 6 (s.val * 2 ^ 4 + d.val * 2 ^ 8))
  | .stShort d s => (16, enc16 7 (s.val * 2 ^ 4 + d.val * 2 ^ 8))
  | .addiShort d i => (16, enc16 4 (i.toNat * 2 + d.val * 2 ^ 8))
  | .shliShort d s => (16, enc16 5 (s.toNat * 2 ^ 2 + d.val * 2 ^ 8))
  | .waittShort k n => (16, enc16 8 (n.toNat * 2 ^ 4 + k.val * 2 ^ 8))
  | .bnzShort d o => (16, enc16 9 (o.toNat * 2 + d.val * 2 ^ 8))
  | .vaddShort d s => (16, enc16 10 (s.val * 2 ^ 2 + d.val * 2 ^ 7))
  | .vmulShort d s => (16, enc16 11 (s.val * 2 ^ 2 + d.val * 2 ^ 7))
  | .vmaxShort d s => (16, enc16 12 (s.val * 2 ^ 2 + d.val * 2 ^ 7))
  | .vmovShort d s => (16, enc16 13 (s.val * 2 ^ 2 + d.val * 2 ^ 7))
  | .vldShort d s => (16, enc16 14 (s.val * 2 ^ 3 + d.val * 2 ^ 7))
  | .vstShort s d => (16, enc16 15 (d.val * 2 ^ 3 + s.val * 2 ^ 7))
  | .corestateWrite .. | .jackFree .. | .jackResend .. | .dbgctlHalt .. | .dbgctlStepWrite .. | .cfgWrite ..
  | .upvecWrite .. | .trapvecWrite .. | .fstatWrite .. | .trappcWrite .. | .wrrwWrite .. | .resultFallsDue ..
  | .orderingQueueRelease .. | .memoryReadPerform .. | .memoryWritePerform .. | .uncorrectableError ..
  | .lineFillArrival .. | .waitHintRetry .. | .atomicStep .. | .chunkStep .. | .bindStep .. | .signalStep ..
  | .poolAppend .. | .taskDispatch .. | .groupJoinStep .. | .groupLeaveStep .. | .gbarArrival ..
  | .watchArrival .. | .waitLoadArrival .. | .nibbleStoreStep .. | .postedStoreRefusal .. | .pstoreDelivery ..
  | .operationCompletion .. | .waittWake .. | .quantumExpiry .. | .threadEnd .. | .migrationDeparture ..
  | .migrationArrival .. | .borderEpochSnapshot .. | .transferRequest .. | .borderDeadline .. | .evacuation ..
  | .moveCommit .. | .seedCommit .. | .dieFault .. | .deviceFault .. | .darkApply .. | .territorySuspend ..
  | .linkHoldTimeout .. | .suspendFlush .. | .backgroundPageSave .. | .pageClaim .. | .territoryResume ..
  | .restoreChunkOpen .. | .debuggerStop .. | .debuggerResume .. | .matrixGrant .. | .matrixCompletion ..
  | .linkBeatArrival .. | .copyCommandStart .. | .cpylElement .. | .mcrdLineRequest .. | .mcrdSectorDelivery ..
  | .pageMigration .. | .meshPacketHop .. | .ringHop .. | .ringEjection .. | .hostPostedWrite ..
  | .horizonBroadcast .. | .doorbell .. | .launchRecord .. | .launchIndexWait .. | .queueBind ..
  | .hubCopyStart .. | .powerClockStep .. | .hubReset .. | .lanternRequest .. | .keyRotationStart ..
  | .sweepLineCommit .. | .lockInterfaceRequest .. | .startInterfaceRequest .. | .stopInterfaceRequest ..
  | .tdispError .. | .getVersion .. | .getCapabilities .. | .negotiateAlgorithms .. | .getDigests ..
  | .getCertificate .. | .challenge .. | .getMeasurements .. | .keyExchange .. | .finish .. | .heartbeat ..
  | .keyUpdate .. | .endSession .. | .loadKey .. | .sessionTimeout .. | .handoverStage .. | .handoverCommit ..
  | .illegalEncoding .. | .instructionFetchFill .. | .redirectedAccessCompletion .. | .hostRead ..
  | .hubCopyCompletion .. | .scaleUpSectorArrival .. | .livePlaneChange .. | .debuggerAttach .. => (0, 0)

/-- The bytes of an instruction, first halfword lowest. -/
def encodeBytes (i : Instr) : List Byte := natToBytes ((encode i).1 / 8) (encode i).2

/-- What R193 puts in TVAL for an ILLEGAL instruction: its word, or its halfword zero-extended. -/
def illegalTval (i : Instr) : BitVec 32 := BitVec.ofNat 32 (encode i).2

/-- The bytes an instruction takes in memory. -/
def Instr.size (i : Instr) : Nat := (encode i).1 / 8

end Sys2Proof
end

