-- ==== Sys2Proof/Config.lean ====
section
/-! DEFINITION. What an implementation fixes and what the manual leaves open: constants without a body, so that
nothing can evaluate them or prove a value of them. A claim about a result that uses one holds whatever it is. -/

namespace Sys2Proof

/-- The free values: each unpredictable value of the manual takes the next number of `State.fresh` (log entry 2). -/
opaque Config.freeVec : Nat → BitVec 256

/-- The wait hint of a refusal, implementation-defined from 0 to 255 (R118). -/
opaque Config.waitHint : Nat → BitVec 8

/-- Cycles for which a register fill holds issue (R42, R82), which the manual leaves open (log entry 86). -/
opaque Config.fillCycles : Nat → Nat

/-- Cycles that a scrub takes, at most 12,288 (step 6 of R31), by the cycle in which it begins. -/
opaque Config.scrubCycles : Nat → Fin 12289

/-- The ciphertext of a sector (R236): key instance, sector, version and plaintext. AES-256-GCM is named by the manual and not
defined in it (log entry 9). -/
opaque Config.cipher : Nat → Nat → Nat → BitVec 512 → BitVec 512

/-- The integrity tag of a sector (R236, R237): key instance, whether it is a GMAC tag, sector, version and plaintext (log entry 9). -/
opaque Config.tag : Nat → Bool → Nat → Nat → BitVec 512 → BitVec 128

/-- The bytes of a sealed chunk of a save image (R209): key instance, AAD, plaintext and the byte's place (log entry 9). -/
opaque Config.chunkByte : Nat → BitVec 128 → List Byte → Nat → Byte

/-- The tag of a sealed chunk of a save image (R209): key instance, AAD and plaintext (log entry 9). -/
opaque Config.chunkTag : Nat → BitVec 128 → List Byte → BitVec 128

/-- SHA-256 (R243), named by the manual and not defined in it (log entry 20). -/
opaque Config.sha256 : List Byte → BitVec 256

/-- The part of an SPDM response that the manual leaves to SPDM 1.3 and to the device's keys (R242, log entry 21). -/
opaque Config.spdmBody : Nat → List Byte

/-- The contents of measurement blocks 1, 2 and 4 (R243): ROM, Lantern and the device's configuration. -/
opaque Config.measurement : Nat → List Byte

/-- Packets beyond the first that a die's ring ejection buffer holds (R217 names the buffer and gives no size). -/
opaque Config.ejectSlots : Nat

end Sys2Proof
end

