-- ==== Sys2Proof/Machine/State.lean ====
section
/-! DEFINITION. The state of the Thoran 6508 as plain data: every piece of architectural state that spec/ names,
the operations in flight, and the model's own fields (`fresh`, `nextId`, `schedule`, `cur`, `mark`, `front`, `back`, `bankLog`), with
`State.reset`. Functions over it stand in the other files of Machine/. -/

namespace Sys2Proof.Machine

/-- A sparse table keyed by a number: keys strictly rising. -/
abbrev AMap (α : Type) := List (Nat × α)

/-! ## Registers, tokens and streams (R40, R79 to R95) -/

/-- The registers the hazard rules speak of, by the identifiers of R81. -/
inductive Reg
  | g (r : GReg) | v (r : VReg) | k (r : KReg) | fstat
deriving DecidableEq, Repr

/-- A fixed-latency result that has not yet fallen due (R78, R80). `mask` holds the bits it writes;
for FSTAT the bits are ORed in (R160). `superseded`: a later-issued producer has already fallen due. `seq`: operations
numbered below it issued before it (R80). -/
structure PendingWrite where
  reg        : Reg
  value      : Vec
  mask       : Vec
  due        : Nat
  superseded : Bool
  seq        : Nat
deriving DecidableEq, Repr

/-- The counters of one token (R84). -/
structure TokenCtr where
  issued : BitVec 16
  done   : BitVec 16
deriving DecidableEq, Repr

/-- The counters of one stream (R129), as laid out at image offset 0x0A8 (R40). -/
structure StreamCtr where
  issued : BitVec 6
  done   : BitVec 6
deriving DecidableEq, Repr

/-- A token's 32-byte fault record (R88). -/
structure FaultRec where
  pc     : Word
  addr   : Word
  reason : Byte
  more   : BitVec 16
deriving DecidableEq, Repr

/-- A bank of tokens, streams and predecessor masks: the thread's live one, or the handler's shadow (R95). -/
structure TokenBank where
  tokens  : Vector TokenCtr 16
  streams : Vector StreamCtr 8
  sm      : Vector Byte 8
  records : Vector (Option FaultRec) 16
deriving DecidableEq, Repr

/-- The prefix in force for the next instruction (R285, R386); `pc` is the PFX's own address (R213). -/
structure PfxState where
  mo    : Bool
  mask8 : Byte
  ext15 : BitVec 15
  pc    : Word
deriving DecidableEq, Repr

/-! ## Threads (R39 to R50) -/

/-- Whether a thread is an upcall thread, and of which kind (R29). -/
inductive Upcall | none | loss | gain
deriving DecidableEq, Repr

/-- What a WAITING thread waits for (R43). -/
inductive Wait
  | token (k : Tok) (n size : Nat)   -- WAITT of `size` bytes (R86)
  | exitDrain                   -- EXIT, UPRET (R72, R409)
  | migDrain (dest : Pcn)       -- MIG, LDX.MG (R70)
  | retDrain                    -- TRET (R95)
  | watch (op : OpId)           -- WATCH, not yet accepted (R66)
  | gbar (a : Word)             -- GBAR, not yet performed (R357)
deriving DecidableEq, Repr

/-- How a thread stands at its destination: as after MIG or LDX.MG (R70), or as the evacuation found it (R31). -/
inductive Arrival
  | mig | ready | waiting (w : Wait) | parked
deriving DecidableEq, Repr

/-- The states of R43. -/
inductive TStatus
  | ready | running | waiting (w : Wait) | parked | migrating (dest : Pcn) (a : Arrival)
deriving DecidableEq, Repr

/-- The load that an LDX.MG performs on arrival (R368). -/
structure MgLoad where
  addr : Word
  t    : GReg
  tok  : Tok
  strm : Strm
  mask : Byte
  w    : Width
  x    : Bool
deriving DecidableEq, Repr

/-- A redirected stack access that holds issue (R68): `va` is its global address, `local` the address it formed. -/
structure Redirect where
  va    : Word
  laddr : Word
  bytes : Nat
  store : Option (List Byte)
  dst   : Reg
  sx    : Bool
  size  : Nat
  strm  : Strm
  mask  : Byte
deriving DecidableEq, Repr

/-- A thread with everything its context image holds (R40, R41) and where it stands. -/
structure Thread where
  job        : Nat
  tid        : BitVec 32
  lcn        : BitVec 32
  pcn        : Pcn
  image      : Option Nat
  slot       : Option Nat
  status     : TStatus
  upcall     : Upcall
  preferred  : Bool
  g          : Vector Word 16
  v          : Vector Vec 32
  k          : Vector Mask 8
  pc         : Word
  pfx        : Option PfxState
  fmode      : BitVec 9
  fstat      : BitVec 5
  srctr      : Word
  modq       : Word
  upArg      : Word
  pending    : List PendingWrite
  landed     : List (Reg × Nat × Nat × Vec)  -- writes in their last cycle: register, cycle, place in issue order, bits (R80)
  live       : TokenBank
  shadow     : TokenBank
  shadowFail : BitVec 16
  shadowRec  : Option FaultRec
  inHandler  : Bool
  trapPc     : Word
  cause      : Word
  tval       : Word
  tframe     : Word
  fStatus    : Word
  fTokOut    : BitVec 128
  fPc        : Word
  fAddr      : Word
  coreName   : Option Pcn
  readySince : Nat
  lastIssue  : Nat
  quantumAt  : Option Nat               -- the issue cycle in which its quantum began, once it has issued since R44 chose it (R45)
  mgLoad     : Option MgLoad
  redirect   : Option Redirect
  cold       : List Reg                 -- registers not read since the thread took its slot, whose lines are not loaded (R42)
  coldPoison : List (Reg × Nat)         -- registers whose image granule is poisoned, with its address (R111)
  stackFrom  : Option (Word × Word)     -- base and top of the stack it left, once its source image is gone (R31)
  notBefore  : Nat                      -- the first cycle at which the thread may issue (R77, R195, R406)
  doneAt     : List (Nat × Bool × Tok)  -- DONEs counted: the cycle, whether in the shadow bank, and the token; WAITT sees them a cycle later (R85)
  asks       : Bool                     -- a migration that was refused, and asks again from `notBefore` on (R70, R118)
deriving DecidableEq, Repr

/-! ## Task records and pools (R49 to R54) -/

/-- A task record (R49). -/
structure TaskRec where
  entry : Word
  arg0  : Word
  arg1  : Word
  arg2  : Word
  arg3  : Word
  hint0 : Word
  hint1 : Word
  lcn   : BitVec 32
  flags : BitVec 32
deriving DecidableEq, Repr

/-- A pooled record; `returned`: it came back under R31 or R203 and stands before its band. -/
structure PoolRec where
  task     : TaskRec
  returned : Bool
deriving DecidableEq, Repr

/-- A record on its way to a pool (R52): from TASKQ, SPAWN, or a firing held in a pool-request buffer.
`home` numbers the buffer's holder, `op` is the operation that counts DONE when the pool accepts. -/
structure PoolReq where
  id   : Nat
  tag  : Nat
  ser  : Nat
  home : Option Nat
  op   : Option OpId
  task : TaskRec
  src  : Nat                            -- the tile that sends it
deriving DecidableEq, Repr

/-! ## Operations in flight (R83, R84, R129 to R139) -/

/-- The qualifier of MX loads and stores (R280). -/
inductive LdQual | plain | wf | wfc
deriving DecidableEq, Repr

inductive StQual | plain | sf | nl | nh
deriving DecidableEq, Repr

inductive AtomOp | add | and | or | xor | min | max | minu | maxu | swp | cas
deriving DecidableEq, Repr

/-- A tokened or streamed operation with the values it captured at issue. -/
inductive OpKind
  | alu   (d : GReg) (v : Word)                                        -- DIV, DIVU, REM, REMU
  | fpu   (d : GReg) (v : Word) (flags en : BitVec 5)                  -- FDIV, FSQRT
  | load  (a : Word) (n : Nat) (dst : Reg) (sx : Bool) (q : LdQual)
  | store (a : Word) (n : Nat) (data : List Byte) (q : StQual)
  | atom  (o : AtomOp) (a : Word) (n : Nat) (v nv : Word) (t : GReg)
  | chunk (a : Word) (t : GReg)
  | watch (a : Word) (n : Nat) (c : WCond) (v : Word)
  | fe    (a : Word) (count : Nat) (set : Bool)
  | spawn (rec tgt : Word)
  | taskq (rec : Word)
  | bind  (o rec n : Word)
  | signal (o p len : Word)
  | join  (a : Word)
  | leave (a : Word)
  | tshape (bm : Word) (d : GReg)
  | tpress (v : Word)
  | cpy   (d src len : Word)
  | cpy2d (d src sh : Word)
  | cpyl  (h : Word)
  | mcrd  (off src rec : Word)
  | mma   (a b : Word) (k : Nat) (t : AccIx) (f : MFmt) (sat : Bool)
  | mmod  (a b : Word) (k : Nat) (t : AccIx) (q : Word)
  | mzero (ctl : Word) (t : AccIx)
  | mload (dst ctl : Word) (t : AccIx)
  | mdrain (dst ctl obj n0 : Word) (lcn : BitVec 32) (t : AccIx) (sigOk : Bool)   -- sigOk: its counter object has a register (R181)
deriving DecidableEq, Repr

/-- One piece of an engine command: `rd` is read into `data`, then `wr` is written (R138); at most one
64-byte sector each. -/
structure Piece where
  rd   : Option Word
  wr   : Option Word
  len  : Nat
  data : Option (List Byte)
deriving DecidableEq, Repr

/-- Where an operation stands. -/
inductive Phase
  | queued                              -- in the ordering queue, or in an engine queue
  | travel (die x y : Nat)              -- a request packet at a router of the die's mesh (R214)
  | onRing                              -- forwarded, on the ring (R126, R215)
  | arrived                             -- at its home
  | atOwner (die : Nat)                 -- forwarded, at the owning die's home (R126)
  | refused (retryAt : Nat)             -- refused with a wait hint (R118)
  | returning (ok : Bool)               -- its response is on its way to its core (R214, R215, R218)
  | waiting                             -- in a bank's wait entry or a slice's watch entry (R65, R109)
  | started                             -- an engine command that has started
  | pooling (die : Nat)                 -- its record is on its way to a ready pool, from a home on that die (R52)
  | performed                           -- performed; its value is in `result`
  | failed (r : FaultRec)               -- failed under R88, not yet counted
  | finished                            -- its effect on registers made; DONE held for in-order counting (R84)
deriving DecidableEq, Repr

/-- An operation in flight. `edges`: the stream and mask it waits on; `recd`: a record it leaves although it
completes (R188, R391). -/
structure Op where
  uid     : Uid
  job     : Nat
  pcn     : Pcn
  pc      : Word
  kind    : OpKind
  phase   : Phase
  tok     : Option Tok
  strm    : Option Strm
  mask    : Byte
  inShadow : Bool
  counted : Bool                        -- its stream DONE has counted
  jidx    : Option Nat                  -- journal entry of a posted store
  hop     : Bool                        -- its probe or read of the first phase is done
  result  : List Byte
  pieces  : List Piece
  wrote   : Bool                        -- an engine command has performed a write
  recd    : Option FaultRec
  sent    : Bool                        -- the access that forwards it has been counted (R127)
  aux     : Nat                         -- progress: elements walked, lines requested, beats sent
  slot    : Fin 4                       -- the race party of its thread's slot, and the region it issued in (R145, R146)
  region  : Nat
  stepped : Bool                        -- a single step issued it (R212)
  resent  : Bool                        -- a store resent through JACK counts nowhere (R199)
deriving DecidableEq, Repr

/-! ## Cores (R42 to R46, R103, R107, R173, R174, R197, R199, R202, R210) -/

inductive CoreStatus | live | scrub | dark
deriving DecidableEq, Repr

/-- A journal entry (R197); `held`: refused and waiting for JACK (R198). -/
structure JEntry where
  uid    : Uid
  op     : OpId
  pc     : Word
  addr   : Word
  data   : List Byte
  qual   : StQual
  tok    : Tok
  held   : Bool
  told   : Bool                         -- its PSTORE has been delivered
  inShadow : Bool
  reason : Byte
deriving DecidableEq, Repr

inductive AccMode | fp32 | i32 | mod64
deriving DecidableEq, Repr

/-- An accumulator tile, elements row-major (R173). -/
structure Acc where
  mode  : AccMode
  elems : List (BitVec 64)
deriving DecidableEq, Repr

/-- A cache line with its data: of the instruction cache (R268) or of the L1 (R112). -/
structure Line where
  job  : Nat
  addr : Nat
  data : List Byte
deriving DecidableEq, Repr

/-- A core. -/
structure Core where
  status    : CoreStatus
  splim     : Word
  ovfptr    : Word
  hzchk     : Bool
  slice     : BitVec 4
  sliceNext : Option (BitVec 4)
  l1fuse    : Bool
  wrrw      : BitVec 4
  hgmask    : BitVec 4
  step      : Bool
  att       : Bool
  engfrz    : BitVec 4
  halted    : Bool
  haltGrp   : BitVec 4                  -- the core's groups that a stop has halted
  stepping  : Bool
  stopCause : Option Nat
  debugFault : Option FaultRec
  nextIssue : Nat
  journal   : AMap JEntry
  copyQ     : List OpId
  matQ      : List OpId
  copyBusy  : Option OpId
  acc       : Vector Acc 4
  icache    : List Line
  l1        : List Line
  regions   : Vector Nat 4
  dispatched : Option TaskRec
  lastRan    : Option Uid                -- the thread that began to issue last (R44)
  correctable : Nat
  darkAt    : Option Word               -- the GTS by which Lantern sets it DARK, once asked (R202)
deriving DecidableEq, Repr

/-! ## Tiles, jobs, moves (R10 to R38, R201 to R209) -/

/-- The owner of a tile: the fields of the owner register that its eight cores share (R10). -/
structure Tile where
  job  : Nat
  lock : Bool
deriving DecidableEq, Repr

/-- What is kept of a suspended core: the core with its engine record (accumulators and queues), and in the record of core 0 of a
tile the beats of its link FIFOs (R204, R208). -/
structure EngineRec where
  pcn   : Pcn
  core  : Core
  beats : AMap (List (Option (List Byte)))
deriving DecidableEq, Repr

/-- A saved chunk of 4 KiB (R206, R208): a page of a core, or from number 64 on a chunk of its engine-record part; its bytes, the granules
that were full, and for a confidential job the key instance, the AAD and the tag under which it was sealed (R209). -/
structure SavedPage where
  pcn    : Pcn
  page   : Nat
  data   : List Byte
  full   : List Nat
  sealed : Option (Nat × BitVec 128 × BitVec 128)
deriving DecidableEq, Repr

/-- Bytes on their way to a save area for core `pcn`: `data`, and zeros after it (R208). -/
structure Saving where
  pcn  : Pcn
  addr : Word
  len  : Nat
  data : List Byte
deriving DecidableEq, Repr

/-- What is kept of a suspended territory (R204 to R209). `haltAt`: the core cycle of the halt; `lock`: the territory was locked;
`kept`: pages still in place in their banks, as core × 48 + page; `lmpu`: the LMPU entries of its cores, by the same numbers (R103);
`restoring`: a resumption has begun, and has opened the first `opened` chunks. `id` numbers its accesses to the save area: `writing` have not
performed yet, and `got` is what has been read of the next chunk. -/
structure SaveImage where
  gts       : Word
  haltAt    : Nat
  lock      : Bool
  tiles     : List Nat
  engines   : List EngineRec
  flushed   : Bool
  store     : List SavedPage
  kept      : List Nat
  lmpu      : AMap Byte
  restoring : Bool
  opened    : Nat
  id        : Nat
  writing   : List Saving
  got       : List (Word × List Byte)
deriving DecidableEq, Repr

/-- `ended`: its last thread has exited, and its operations in flight complete (R36). -/
inductive JobStatus | active | suspended | ended | frozen
deriving DecidableEq, Repr

/-- A job and its territory descriptor (R13, R15, R23, R28, R46, R51, R57, R195, R224). -/
structure Job where
  serial   : Nat
  weight   : Nat
  backlog  : Nat
  floor    : Nat
  ceiling  : Nat
  lockReq  : Bool
  anchor   : Nat
  epoch    : BitVec 32
  seed     : Word
  ptRoot   : Word
  cbBase   : Word
  nimg     : Nat
  spill    : Nat
  conf     : Bool
  rc       : Bool
  l1fuse   : Bool
  lz       : Bool
  trapVec  : Word
  upVec    : Word
  tidNext  : BitVec 32
  queue    : Nat
  vf       : Nat
  keyslot  : Nat
  doneCtr  : Word
  saveArea : Word
  saveBytes : Word
  pool     : List PoolRec
  starve   : Vector Nat 3
  status   : JobStatus
  saved    : Option SaveImage
  seedGts  : Word
  measure  : BitVec 256
  image    : List (BitVec 32)           -- the launch's constant-bank image (R224), which no job can write (R104)
  faultCause : Nat                      -- the CAUSE that escalated to the freeze, or 0 (R201, R225)
deriving DecidableEq, Repr

/-- A move in transit (R21, R22, R31), a seed being taken (R35), or a tile that a job's end or freeze sends to idle (R36, R201).
`deadline` is in GTS; `scrubAt`: the cycle in which the scrub began, once `evacuated`; `locked`: it holds transit locks, as a move that passed
validation and a seed do (R21, R35); `toIdle`: its gainer has stopped, and it commits to idle (R36, R37). -/
structure Move where
  tile      : Nat
  donor     : Nat
  gainer    : Nat
  seq       : Nat
  upcall    : Option Uid
  deadline  : Word
  stopped   : Bool
  evacuated : Bool
  scrubAt   : Nat
  toIdle    : Bool
  locked    : Bool
  launch    : Option Nat
deriving DecidableEq, Repr

/-- A signed transfer request (R20): the tile, and the gainer's neighbour tile. -/
structure Request where
  tile   : Nat
  near   : Nat
  donor  : Nat
  gainer : Nat
deriving DecidableEq, Repr

/-- Per-die state. -/
structure Die where
  hyst     : BitVec 4
  epochAt  : Nat                        -- core cycle of the next border epoch's cycle 0 (R17)
  requests : List Request
  serial   : Nat                        -- launch-serial counter (R57)
  tagLo    : Word
  tagHi    : Word
  tagBase  : Word
  sweep    : Option Nat                 -- SWP, while a memory-key sweep runs (R239)
  keyNo    : Nat                        -- generation of the die's memory key
  counters : AMap (BitVec 32)           -- access counters: slice × 4096 + ACI (R127)
deriving DecidableEq, Repr

/-! ## Memory side (R97 to R128, R145) -/

/-- A race-detection party: core × 4 + kind (R145), with its region. -/
structure RaceTag where
  writer  : Option (Nat × Nat)
  readers : List (Nat × Nat)
deriving DecidableEq, Repr

/-- The entry of a sector in its die's tag carve-out (R236 to R238): whether its tag is the GMAC tag of a CLEAR sector or the GCM tag
of a sealed one, the key instance it is under (0: the die's own integrity key), its version (0 when CLEAR), and whether the sector no
longer matches it. `State.tagRow` gives its bytes. Memory holds the plaintext (log entry 9). -/
structure Seal where
  clear   : Bool
  key     : Nat
  version : Nat
  bad     : Bool
deriving DecidableEq, Repr

/-- Everything held per address. Addresses are the keys of Maps.lean; granules are address key ÷ 16, sectors ÷ 64. -/
structure MemSys where
  mem      : List Host.Cell
  full     : List Nat                   -- granules whose full-empty bit is full (R107)
  poison   : List Nat                   -- poisoned granules of banks and sectors of HBM, by address key (R111, R238)
  weak     : List Nat                   -- granules holding a correctable error (R110)
  lmpu     : AMap Byte                  -- core × 48 + page (R103)
  lmap     : List Nat                   -- core × 48 + page, the bits that are set (R106)
  race     : AMap RaceTag
  seals    : AMap Seal
deriving DecidableEq, Repr

/-- A watch entry of a slice (R65), or a parked GBAR (R63). -/
structure Watch where
  slice : Nat                           -- die × 64 + slice
  key   : Nat                           -- address key of the word
  n     : Nat
  cond  : Option WCond                  -- none: a group's generation
  value : Word
  uid   : Uid
  op    : Option OpId
deriving DecidableEq, Repr

/-- A line that a slice holds: its sectors that are present and those that are dirty, bit i for sector i (R117). -/
structure SliceLine where
  slice   : Nat
  line    : Nat                         -- address key
  present : Byte
  dirty   : Byte
deriving DecidableEq, Repr

/-- A request refused for a line, in order of first refusal; `who` numbers the operation, thread, fill or record that asks and asks
again from `retryAt` on (R118). -/
structure LineRefusal where
  slice   : Nat
  line    : Nat
  who     : Nat
  retryAt : Nat
deriving DecidableEq, Repr

/-- Under what a fill checks the tags of its sectors: the key instance of the window, 0 for the die's own integrity key, and the
master that asked (R233, R236, R238). `clear`: the page that was asked for is CLEAR. -/
structure FillCheck where
  clear  : Bool
  inst   : Nat
  master : Nat
deriving DecidableEq, Repr

/-- A line fill in flight at a slice (R117 to R119). `owner`: the die or host (8) that owns the line, for a line that is not to be
cached but forwarded; `va`, `pte`: the address and leaf it is asked for under. -/
structure Fill where
  id    : Nat
  slice : Nat
  check : FillCheck
  owner : Option Nat
  va    : Word
  pte   : Word
  line  : Nat                           -- address key of the line
  mcrd  : Option (Nat × Int)            -- job tag and bank offset of the line's first byte, if an MCRD started it
  ops   : List OpId
deriving DecidableEq, Repr

/-- One sector of a multicast delivery to one core (R188). -/
structure DPart where
  pcn    : Pcn
  sector : Nat
  off    : Nat
  data   : List Byte
deriving DecidableEq, Repr

/-- A multicast delivery of one line (R187, R188). `ops`: the commands that asked for it; it is remembered while one of them runs, as a later
request for the line is refused (R119). -/
structure Delivery where
  id    : Nat
  line  : Nat
  job   : Nat
  serial : Nat
  parts : List (DPart × List OpId)
  ops   : List OpId
deriving DecidableEq, Repr

structure TlbEntry where
  slice : Nat
  tag   : Nat
  vpage : Nat
  pte   : Word
deriving DecidableEq, Repr

/-- The slot class of a ring packet (R216). -/
inductive RingClass | vc0 | vc1 | e0 | e1
deriving DecidableEq, Repr

/-- What a response tells the requester (R88, R118, R214): it has performed, has failed, or is refused with a hint. -/
inductive Back
  | done
  | fail (r : FaultRec)
  | retry (hint : Nat)
deriving DecidableEq, Repr

/-- What a packet carries: an operation's request or its response, a forwarded access of an agent that is no operation or its
response, the request or the response of a trip, a migrating thread or its return, or a sector of a delivery. -/
inductive Msg
  | req (op : OpId)
  | back (op : OpId) (b : Back)
  | fwd (id : Nat)
  | fwdBack (id : Nat)
  | trip (id : Nat)
  | tripBack (id : Nat)
  | mig (uid : Uid)
  | migBack (uid : Uid) (hint : Option Nat)  -- refused with a hint, or turned away (R70, R379)
  | sector (delivery sector : Nat)
deriving DecidableEq, Repr

/-- A packet on a mesh of a die (R214): its channel's class (0 request, 1 signal, 2 response, 3 multicast), its source and
destination tiles, and the tile whose router holds it. Only a multicast packet has several destinations: those of its branch (R188). `seq`:
its place in the order of sending, which the copies of a multicast packet share. -/
structure MeshPkt where
  id   : Nat
  seq  : Nat
  cls  : Nat
  src  : Nat
  dsts : List Nat
  at_  : Nat
  msg  : Msg
deriving DecidableEq, Repr

/-- A packet on a die's link to the hub, towards the hub or back (R218). -/
structure LinkPkt where
  id   : Nat
  die  : Nat
  back : Bool
  msg  : Msg
deriving DecidableEq, Repr

/-- Where a forwarded access of an engine, of a fill or of a redirected access stands (R126). -/
inductive FwdStage
  | out
  | there
  | back (data : List Byte) (bad : Option Word)
  | done (data : List Byte) (bad : Option Word)
deriving DecidableEq, Repr

/-- A forwarded access: a read of a 512-byte line, or a write within one 64-byte sector (R126). `bad`, in its stage, is the first
address that cannot be had. -/
structure Fwd where
  id    : Nat
  who   : Nat
  tag   : Nat
  owner : Nat
  va    : Word
  pte   : Word
  key   : Nat
  wr    : Option (List Byte)
  stage : FwdStage
deriving DecidableEq, Repr

/-- What an access comes to at its home, for an agent that is no load-store unit: its bytes, a failure, or a refusal with a hint. -/
inductive TripRes
  | ok (data : List Byte)
  | fail (r : Byte) (a : Word)
  | retry (hint : Nat)
deriving DecidableEq, Repr

/-- Where a trip stands: its request is on its way, at its home, its response is on its way, it is over, or it waits to be sent again. -/
inductive TripStage
  | out
  | there
  | back (r : TripRes)
  | done (r : TripRes)
  | again (at_ : Nat)
deriving DecidableEq, Repr

/-- An access over the mesh of an agent that is no load-store unit (R214): an engine, an instruction fetch, a redirected stack access, a GBAR
or a pool request, numbered `who`. -/
structure Trip where
  id    : Nat
  who   : Nat
  cls   : Nat
  src   : Nat
  dst   : Nat
  a     : Word
  n     : Nat
  wr    : Bool
  stage : TripStage
deriving DecidableEq, Repr

/-- A packet on the die ring (R215, R216). `since`: the cycle from which it has waited for its injection (R217), or in which its last flit
has come over the link into its input. -/
structure RingPkt where
  id      : Nat
  since   : Nat
  src     : Nat
  dst     : Nat
  at_     : Nat
  flits   : Nat
  crossed : Bool
  cls     : RingClass
  msg     : Msg
deriving DecidableEq, Repr

/-- A systolic beat on its way into a FIFO (R178). `key`: the key instance under which a confidential job's seal unit sealed it for
transit, and the transmit counter of its IV (R190, R236). -/
structure LinkBeat where
  fifo : Nat                            -- cluster × 4 + direction it enters from
  op   : OpId                           -- the command that sends it
  data : List Byte
  key  : Option (Nat × Nat)
deriving DecidableEq, Repr

/-- A cluster's matrix unit and its arbiter's place in the round (R173, R175). -/
structure MatrixUnit where
  busy   : Option OpId
  turn   : Nat
  grants : Nat
deriving DecidableEq, Repr

/-- Slices, bank queues, ring and links. -/
structure Fabric where
  watches    : List Watch
  fills      : List Fill
  refusals   : List LineRefusal             -- in order of first refusal (R118)
  resident   : List SliceLine           -- oldest first
  tlb        : List TlbEntry
  deliveries : List Delivery
  poolReqs   : List PoolReq
  ring       : List RingPkt
  ringLeft   : List (Nat × Nat × RingClass × Nat)  -- flits that left a stop's input, by cycle, stop and class: the report of that cycle still counts them (R217)
  mesh       : List MeshPkt             -- in the order in which they were sent (R214)
  hubLink    : List LinkPkt             -- in the order in which they were sent (R218)
  fwds       : List Fwd
  trips      : List Trip
  migrating  : List (Nat × Nat × Nat)   -- pages being migrated: job tag, virtual page, and the page's key (R128)
  flight     : List LinkBeat
  links      : AMap (List (Option (List Byte)))  -- FIFO contents: cluster × 4 + direction; none: a beat that did not open (R190)
  sealCtr    : AMap Word                -- the transmit counters of the clusters' seal units (R236)
  matrix     : AMap MatrixUnit
deriving DecidableEq, Repr

/-! ## Hub and Lantern (R149, R219 to R247) -/

/-- A command processor's capability for an object in memory: where it begins and its bytes (R227). -/
structure Cap where
  base : Nat
  len  : Nat
deriving DecidableEq, Repr

/-- A queue as its command processor knows it (R221 to R225): `ring` is the capability for its records, and `head` its place among them, as
found at the last doorbell. -/
structure Queue where
  bound   : Bool
  regs    : Binding                     -- the PF's binding registers
  cached  : Binding                     -- the fields read at bind
  fault   : Bool
  asked   : Bool                        -- a doorbell waits to be acted on
  tail    : Option Nat                  -- the TAIL last read, while the processor reads records
  waiting : Bool                        -- a launch waits for a job index (R430)
  ring    : Cap
  head    : Nat
  record  : Cap                         -- the capabilities for the record that it last took, its seed records and its save area
  seeds   : Cap
  area    : Cap
  due     : Bool                        -- the fields of its control block are still to be read at bind, as its line is busy
  wants   : List (Nat × Nat × Nat)      -- writes to its control block that wait for a busy line: offset, bytes and value
  alarm   : Bool                        -- the vector that is raised after them
deriving DecidableEq, Repr

/-- A launch accepted and on its way to its seed commit (R224, R35). `qrec`: the ring index of its record. -/
structure Launch where
  id     : Nat
  qrec   : Nat
  queue  : Nat
  tag    : Nat
  job    : Job
  tasks  : List TaskRec
  image  : List (BitVec 32)
  hint   : Option Nat
deriving DecidableEq, Repr

/-- A host posted write that has a number and has not performed (R149). -/
structure HeldWrite where
  num  : Nat
  fn   : Nat
  addr : HostAddr
  data : List Byte
  ide  : Bool
deriving DecidableEq, Repr

/-- A template of the hub copy engine (R226). -/
structure Template where
  src : Word
  dst : Word
  len : Nat
  dev : Nat
deriving DecidableEq, Repr

/-- A hub-copy channel: starts in order, whether the sectors of the oldest have been sent to another device, and its status bits (R226,
R228). -/
structure Channel where
  starts  : List (Nat × Template)
  sent    : Bool
  overrun : Bool
  error   : Bool
deriving DecidableEq, Repr

/-- The algorithms that Lantern supports (R242). -/
inductive Alg | slhDsaSha2_128s | sha256 | secp384r1 | aes256Gcm
deriving DecidableEq, Repr

/-- What the host or another device observes. `msix`: a vector of a function. -/
inductive Out
  | msix (fn vector : Nat)
  | readData (fn : Nat) (data : List Byte)
  | unsupported (fn : Nat)
  | scaleSector (plane dev : Nat) (addr : Word) (data : List Byte)
  | ack (plane : Nat)
  | spdm (fn : Nat) (name : String) (body : List Byte)
  | spdmError (fn : Nat)
  | algorithms (fn : Nat) (extendedAsym hash measurementHash exchange aead : Alg)
  | lantern (code : Nat)
  | tdisp (vf : Nat) (ok : Bool)
  | event (name : String) (n : Nat)
  | faultRecord (tag : Nat) (r : FaultRec)   -- the shadow record that a job fault reports (R95)
deriving DecidableEq, Repr

/-- A completion word that waits for a busy line (R118, R149, R225, R239): the job as it was when it ended. -/
structure Notice where
  tag    : Nat
  job    : Job
  status : Nat
  cause  : Nat
deriving DecidableEq, Repr

structure Hub where
  ready     : Bool
  bringUp   : Nat                       -- bring-up steps done, 0 to 6 (R229)
  seqNo     : Nat                       -- last sequence number given (R149)
  horizon   : Nat
  held      : List HeldWrite
  queues    : AMap Queue
  launches  : List Launch
  templates : AMap Byte                 -- the copy-template table's bytes (R220)
  channels  : AMap Channel
  planes    : BitVec 32                 -- live switch planes (R228)
  sriov     : AMap Word                 -- the SR-IOV resources of each VF (R219, R241)
  notices   : List Notice               -- completion words not yet written, oldest first
  out       : List Out                  -- newest first
deriving DecidableEq, Repr

/-- A key slot (R231); `inst` is a number of its own for every key loaded. -/
structure KeySlot where
  key     : BitVec 256
  session : Nat
  vf      : Nat
  inst    : Nat
deriving DecidableEq, Repr

/-- An SPDM session (R242 to R245); `period` in seconds, `deadline` in GTS. -/
structure Session where
  fn       : Nat
  secured  : Bool
  period   : Nat
  deadline : Word
  keyGen   : Nat
deriving DecidableEq, Repr

inductive Tdisp | unlocked | locked | run | error
deriving DecidableEq, Repr

/-- A valid or invalid entry of a per-master access table, as its two doublewords (R233). -/
structure AccessEntry where
  target : Nat
  index  : Nat
  w0     : Word
  w1     : Word
deriving DecidableEq, Repr

structure Lantern where
  access    : List AccessEntry
  slots     : AMap KeySlot
  sessions  : AMap Session
  tdisp     : AMap Tdisp
  fwVersion : Nat
  fwDigest  : BitVec 256
  staged    : Option (Nat × BitVec 256)
  mlog      : List (Nat × BitVec 256)   -- the measurement log's commits, newest first
  dropLog   : List (Nat × Nat × Word)   -- 8 entries, newest first (R241)
  tagLog    : List (Nat × Nat)          -- tag mismatches: sector and master (R238)
  lost      : List Nat                  -- the PF's event log of lost sessions (R246)
  measured  : List (Nat × Nat × Word × BitVec 256)   -- session, job tag, seed GTS, measurement (R243)
deriving DecidableEq, Repr

/-! ## The whole state -/

/-- Which agent moves next (the model's own, log entry 1): a core issues, an event happens, an error of one bit strikes a byte of a
bank (R110), or the sector of a die's HBM that holds a byte no longer matches its tag (R238). -/
inductive Turn
  | issue (pcn : Pcn)
  | event (i : Instr)
  | upset (pcn off : Nat)
  | corrupt (die pa : Nat)
deriving DecidableEq, Repr

/-- The machine. -/
structure State where
  now      : Nat                        -- core cycle
  gts      : Word                       -- R3, R229
  gtsPhase : Nat                        -- the phase of GTS within a core cycle (R229)
  clockMHz : Nat                        -- R229
  cur      : Uid                        -- the thread whose instruction is executing
  fresh    : Nat                        -- numbers the free values taken so far
  nextId   : Nat                        -- the next unused Uid, OpId and message number
  schedule : List Turn
  mark     : Option (Word × Nat × Nat)  -- GTS, rank and source number of the last ranked event (R3)
  front    : Nat                        -- the latest cycle that a step has come to
  back     : Nat                        -- the cycle of the last step that was no issue: no issue comes before it
  looks    : List Pcn                   -- banks whose full-empty bits changed in cycle `lookAt`, and whose waiting loads have not looked (R108)
  lookAt   : Nat
  groups   : Vector (Option Nat) 4      -- the first stop of each halt group, as its cause (R211)
  bankLog  : List (Nat × Nat × Nat)     -- granules accessed at the present GTS, with their cycle and their place in the order of R102
  ms       : MemSys
  fallow   : Core                       -- the core that every core not listed in `cores` is
  cores    : AMap Core
  threads  : AMap Thread
  tiles    : AMap Tile
  jobs     : AMap Job
  dies     : AMap Die
  ops      : AMap Op
  moves    : List Move
  fab      : Fabric
  hub      : Hub
  lan      : Lantern
deriving DecidableEq, Repr

/-- Why a step stops with a fault. -/
inductive Fault
  /-- Raised by `step` when the schedule lets a core issue that the device does not have (R1, R2). Safe: the run stops. -/
  | noSuchCore (pcn : Nat)
deriving DecidableEq, Repr

/-- Why an instruction is refused. -/
inductive Refusal
  /-- Raised by a dispatch arm of an instruction that has no meaning yet. Safe: the run stops. -/
  | notModelled (mnemonic : String)
deriving DecidableEq, Repr

/-! ## Reset -/

/-- All counters zero, SM7 = 0xFF and the other masks zero, no records (R50, R95, R131). -/
def TokenBank.reset : TokenBank where
  tokens  := Vector.replicate 16 ⟨0, 0⟩
  streams := Vector.replicate 8 ⟨0, 0⟩
  sm      := (Vector.replicate 8 0).set 7 0xFF
  records := Vector.replicate 16 none

/-- A thread as R50 and R46 create it, before its record's values are put in; no thread of the machine is this one
until a task starts. The registers are zero (R50). -/
def Thread.reset : Thread where
  job := 0
  tid := 0
  lcn := 0
  pcn := 0
  image := none
  slot := none
  status := .parked
  upcall := .none
  preferred := false
  g := Vector.replicate 16 0
  v := Vector.replicate 32 0
  k := Vector.replicate 8 0
  pc := 0
  pfx := none
  fmode := 0
  fstat := 0
  srctr := 0
  modq := 0
  upArg := 0
  pending := []
  landed := []
  live := TokenBank.reset
  shadow := TokenBank.reset
  shadowFail := 0
  shadowRec := none
  inHandler := false
  trapPc := 0
  cause := 0
  tval := 0
  tframe := 0
  fStatus := 0
  fTokOut := 0
  fPc := 0
  fAddr := 0
  coreName := none
  readySince := 0
  lastIssue := 0
  quantumAt := none
  mgLoad := none
  redirect := none
  cold := []
  coldPoison := []
  stackFrom := none
  notBefore := 0
  doneAt := []
  asks := false

/-- A tile of FP32 zeros, as at launch and at scrub (R173). -/
def Acc.reset : Acc := ⟨.fp32, List.replicate 256 0⟩

/-- A core after bring-up: LIVE (R229), its CSRs at the launch values of R46 (log entry 4 for SPLIM). -/
def Core.reset : Core where
  status := .live
  splim := 0
  ovfptr := 0
  hzchk := false
  slice := 15
  sliceNext := none
  l1fuse := false
  wrrw := 1
  hgmask := 0
  step := false
  att := false
  engfrz := 0
  halted := false
  haltGrp := 0
  stepping := false
  stopCause := none
  debugFault := none
  nextIssue := 0
  journal := []
  copyQ := []
  matQ := []
  copyBusy := none
  acc := Vector.replicate 4 Acc.reset
  icache := []
  l1 := []
  regions := Vector.replicate 4 0
  dispatched := none
  lastRan := none
  correctable := 0
  darkAt := none

/-- A core before step 5 of bring-up has set it LIVE (R229; log entry 85). -/
def Core.unset : Core := { Core.reset with status := .dark }

/-- An idle tile (R12, R229). -/
def Tile.reset : Tile := ⟨0, false⟩

/-- A job record with nothing in it. -/
def Job.reset : Job where
  serial := 0
  weight := 1
  backlog := 0
  floor := 1
  ceiling := 1
  lockReq := false
  anchor := 0
  epoch := 1
  seed := 0
  ptRoot := 0
  cbBase := 0x2000
  nimg := 3
  spill := 0
  conf := false
  rc := false
  l1fuse := false
  lz := false
  trapVec := 0
  upVec := 0
  tidNext := 1
  queue := 0
  vf := 0
  keyslot := 0
  doneCtr := 0
  saveArea := 0
  saveBytes := 0
  pool := []
  starve := Vector.replicate 3 0
  status := .active
  saved := none
  seedGts := 0
  measure := 0
  image := []
  faultCause := 0

/-- A die after bring-up; its first border epoch starts one epoch after reset (log entry 5). -/
def Die.reset : Die where
  hyst := 0
  epochAt := 4096
  requests := []
  serial := 0
  tagLo := 0
  tagHi := 0
  tagBase := 0
  sweep := none
  keyNo := 0
  counters := []

def MatrixUnit.reset : MatrixUnit := ⟨none, 0, 0⟩

def Channel.reset : Channel := ⟨[], false, false, false⟩

/-- Binding registers that nothing has written. -/
def Binding.unset : Binding := ⟨0, 0, 0, 0, 0, 0, 0, 0⟩

def Queue.reset : Queue where
  bound := false
  regs := Binding.unset
  cached := Binding.unset
  fault := false
  asked := false
  tail := none
  waiting := false
  ring := ⟨0, 0⟩
  head := 0
  record := ⟨0, 0⟩
  seeds := ⟨0, 0⟩
  area := ⟨0, 0⟩
  due := false
  wants := []
  alarm := false

def MemSys.reset : MemSys := ⟨[], [], [], [], [], [], [], []⟩

def Fabric.reset : Fabric where
  watches := []
  fills := []
  refusals := []
  resident := []
  tlb := []
  deliveries := []
  poolReqs := []
  ring := []
  ringLeft := []
  mesh := []
  hubLink := []
  fwds := []
  trips := []
  migrating := []
  flight := []
  links := []
  sealCtr := []
  matrix := []

/-- The hub when its die leaves reset: no bring-up step done, no doorbell accepted (R229). -/
def Hub.reset : Hub where
  ready := false
  bringUp := 0
  seqNo := 0
  horizon := 0
  held := []
  queues := []
  launches := []
  templates := []
  channels := []
  planes := BitVec.allOnes 32
  sriov := []
  notices := []
  out := []

def Lantern.reset : Lantern where
  access := []
  slots := []
  sessions := []
  tdisp := []
  fwVersion := 0
  fwDigest := 0
  staged := none
  mlog := []
  dropLog := []
  tagLog := []
  lost := []
  measured := []

/-- The machine as the hub die leaves reset: GTS 0, no step of bring-up done (R229), every tile idle, memory with nothing listed. -/
def State.reset : State where
  now := 0
  gts := 0
  gtsPhase := 0
  clockMHz := 2700
  cur := 0
  fresh := 0
  nextId := 1
  schedule := []
  mark := none
  front := 0
  back := 0
  looks := []
  lookAt := 0
  groups := Vector.replicate 4 none
  bankLog := []
  ms := MemSys.reset
  fallow := Core.unset
  cores := []
  threads := []
  tiles := []
  jobs := []
  dies := []
  ops := []
  moves := []
  fab := Fabric.reset
  hub := Hub.reset
  lan := Lantern.reset

end Sys2Proof.Machine
end

