-- ==== Sys2Proof/Machine/Maps.lean ====
section
/-! DEFINITION. Tables, sorted sets of numbers, and memory as a list of cells in one canonical form; the keys under which
banks, HBM and host memory are held. -/

namespace Sys2Proof.Machine

/-! ## Tables and sets -/

def mapGet? {α : Type} : AMap α → Nat → Option α
  | [], _ => none
  | (k, v) :: r, i => if k = i then some v else mapGet? r i

/-- Puts a value at a key, keeping the keys rising. -/
def mapSet {α : Type} : AMap α → Nat → α → AMap α
  | [], i, x => [(i, x)]
  | (k, v) :: r, i, x =>
    if i < k then (i, x) :: (k, v) :: r
    else if i = k then (i, x) :: r
    else (k, v) :: mapSet r i x

def mapErase {α : Type} : AMap α → Nat → AMap α
  | [], _ => []
  | (k, v) :: r, i => if k = i then r else (k, v) :: mapErase r i

def setIns : List Nat → Nat → List Nat
  | [], i => [i]
  | k :: r, i => if i < k then i :: k :: r else if i = k then k :: r else k :: setIns r i

def setDel : List Nat → Nat → List Nat
  | [], _ => []
  | k :: r, i => if k = i then r else k :: setDel r i

/-- The numbers of `n` consecutive keys from `a`. -/
def span (a n : Nat) : List Nat := (List.range n).map (a + ·)

/-! ## Memory -/

/-- A byte that nothing has written reads 0 (log entry 3). -/
def memGet (m : List Host.Cell) (a : Nat) : Byte := (mapGet? m a).getD 0

/-- Writing what an unlisted address reads as removes the entry. -/
def memPut (m : List Host.Cell) (a : Nat) (b : Byte) : List Host.Cell :=
  if b = 0 then mapErase m a else mapSet m a b

def memRead (m : List Host.Cell) : Nat → Nat → List Byte
  | _, 0 => []
  | a, n + 1 => memGet m a :: memRead m (a + 1) n

def memWrite (m : List Host.Cell) : Nat → List Byte → List Host.Cell
  | _, [] => m
  | a, b :: r => memWrite (memPut m a b) (a + 1) r

/-- The cells outside `n` addresses from `a`. -/
def memClear (m : List Host.Cell) (a n : Nat) : List Host.Cell :=
  m.filter fun c => decide (c.1 < a) || decide (a + n ≤ c.1)

/-- The canonical form: addresses strictly rising, and no entry that an unlisted address reads as. -/
def Memory.wf : List Host.Cell → Bool
  | [] => true
  | [c] => c.2 != 0
  | c :: d :: r => c.2 != 0 && decide (c.1 < d.1) && Memory.wf (d :: r)

/-! ## Bytes and words (R4) -/

/-- Little-endian bytes as a number. -/
def leNat : List Byte → Nat
  | [] => 0
  | b :: r => b.toNat + 256 * leNat r

/-- `n` little-endian bytes of a number. -/
def leBytes : Nat → Nat → List Byte
  | 0, _ => []
  | n + 1, w => BitVec.ofNat 8 w :: leBytes n (w / 256)

def leWord (bs : List Byte) : Word := BitVec.ofNat 64 (leNat bs)

/-- A loaded value, zero- or sign-extended to 64 bits. -/
def extendBytes (bs : List Byte) (sx : Bool) : Word :=
  if sx then (BitVec.ofNat (8 * bs.length) (leNat bs)).signExtend 64 else leWord bs

/-- A doubleword of a list of bytes. -/
def dwordAt (bs : List Byte) (i : Nat) : Nat := leNat ((bs.drop (8 * i)).take 8)
/-- A 32-bit word of a list of bytes. -/
def wordAt (bs : List Byte) (i : Nat) : Nat := leNat ((bs.drop (4 * i)).take 4)

/-! ## Keys -/

/-- The key of a byte of a core's bank. -/
abbrev bankKey (pcn off : Nat) : Nat := pcn * 2 ^ 18 + off
/-- The key of a byte of a die's HBM. -/
abbrev hbmKey (die pa : Nat) : Nat := 2 ^ 56 + die * 2 ^ 52 + pa % 2 ^ 52
/-- The key of a byte of host memory. -/
abbrev hostKey (pa : Nat) : Nat := 2 ^ 57 + pa % 2 ^ 52
/-- The key of a byte of a physical page: OWNER 0 to 7 a die, 8 the host (R124). -/
def ownerKey (owner pa : Nat) : Nat := if owner = 8 then hostKey pa else hbmKey owner pa

/-- Bytes of a bank (R1). -/
abbrev bankBytes : Nat := 0x30000
/-- The event record's place (R29). -/
abbrev eventOff : Nat := 0x2FFE0

def dieOf (pcn : Pcn) : Nat := pcn / 8192
/-- The tile of a core, with its die: die × 1,024 + raster. -/
def tileOf (pcn : Pcn) : Nat := pcn / 8
def coreIx (pcn : Pcn) : Nat := pcn % 8
def xOf (tile : Nat) : Nat := tile % 32
def yOf (tile : Nat) : Nat := tile / 32 % 32
def tileAt (die x y : Nat) : Nat := die * 1024 + y * 32 + x

end Sys2Proof.Machine
end

