-- ==== Sys2Proof/Machine/Access.lean ====
section
/-! DEFINITION. Accessors of the state, the clock, results that have not fallen due, register reads, and the counters of
tokens and streams. -/

namespace Sys2Proof.Machine

/-! ## Accessors -/

def State.thread (s : State) (u : Uid) : Thread := (mapGet? s.threads u).getD Thread.reset
def State.setThread (s : State) (u : Uid) (t : Thread) : State := { s with threads := mapSet s.threads u t }
def State.modThread (s : State) (u : Uid) (f : Thread → Thread) : State := s.setThread u (f (s.thread u))
def State.core (s : State) (p : Pcn) : Core := (mapGet? s.cores p).getD s.fallow
def State.setCore (s : State) (p : Pcn) (c : Core) : State := { s with cores := mapSet s.cores p c }
def State.modCore (s : State) (p : Pcn) (f : Core → Core) : State := s.setCore p (f (s.core p))
def State.tile (s : State) (t : Nat) : Tile := (mapGet? s.tiles t).getD Tile.reset
def State.setTile (s : State) (t : Nat) (x : Tile) : State := { s with tiles := mapSet s.tiles t x }
def State.job (s : State) (tag : Nat) : Job := (mapGet? s.jobs tag).getD Job.reset
def State.setJob (s : State) (tag : Nat) (j : Job) : State := { s with jobs := mapSet s.jobs tag j }
def State.modJob (s : State) (tag : Nat) (f : Job → Job) : State := s.setJob tag (f (s.job tag))
def State.die (s : State) (d : Nat) : Die := (mapGet? s.dies d).getD Die.reset
def State.setDie (s : State) (d : Nat) (x : Die) : State := { s with dies := mapSet s.dies d x }
def State.modDie (s : State) (d : Nat) (f : Die → Die) : State := s.setDie d (f (s.die d))
def State.op? (s : State) (i : OpId) : Option Op := mapGet? s.ops i
def State.setOp (s : State) (i : OpId) (o : Op) : State := { s with ops := mapSet s.ops i o }
def State.dropOp (s : State) (i : OpId) : State := { s with ops := mapErase s.ops i }

/-- The thread whose instruction is executing. -/
def State.me (s : State) : Thread := s.thread s.cur
def State.setMe (s : State) (t : Thread) : State := s.setThread s.cur t
def State.modMe (s : State) (f : Thread → Thread) : State := s.setMe (f s.me)
/-- Its core and its job. -/
def State.myCore (s : State) : Core := s.core s.me.pcn
def State.modMyCore (s : State) (f : Core → Core) : State := s.modCore s.me.pcn f
def State.myJob (s : State) : Job := s.job s.me.job

/-- The TRAPPC of a trap at this point: the instruction, or the PFX that governs it (R213). -/
def Thread.trapPoint (t : Thread) : Word := (t.pfx.map (·.pc)).getD t.pc

/-- The party of a thread's slot. -/
def Thread.party (t : Thread) : Fin 4 := if t.slot = some 1 then 1 else 0

/-- Closes a region of a core: party 0 and 1 the slots, 2 the copy engine, 3 the matrix commands. -/
def State.closeParty (s : State) (p : Pcn) (party : Fin 4) : State :=
  s.modCore p fun c => { c with regions := c.regions.set party (c.regions[party] + 1) }

def State.modMs (s : State) (f : MemSys → MemSys) : State := { s with ms := f s.ms }
def State.modFab (s : State) (f : Fabric → Fabric) : State := { s with fab := f s.fab }
def State.modHub (s : State) (f : Hub → Hub) : State := { s with hub := f s.hub }
def State.modLan (s : State) (f : Lantern → Lantern) : State := { s with lan := f s.lan }
def State.say (s : State) (o : Out) : State := s.modHub fun h => { h with out := o :: h.out }

/-- A number not used before. -/
def State.takeId (s : State) : Nat × State := (s.nextId, { s with nextId := s.nextId + 1 })
/-- A free value not taken before (log entry 2). -/
def State.takeFree (s : State) : BitVec 256 × State := (Config.freeVec s.fresh, { s with fresh := s.fresh + 1 })

/-- A job's tag: die in [11:9], local index in [8:0]. -/
def tagOf (die idx : Nat) : Nat := die * 512 + idx
def tagDie (tag : Nat) : Nat := tag / 512
def tagIx (tag : Nat) : Nat := tag % 512
/-- The tag that a tile's owner register names (R10). -/
def State.owner (s : State) (tile : Nat) : Nat := tagOf (tile / 1024) (s.tile tile).job
def State.liveJob? (s : State) (tag : Nat) : Option Job := mapGet? s.jobs tag

/-! ## The clock (R3, R229) -/

/-- Advances the clock by `c` core cycles. -/
def State.passCycles (s : State) (c : Nat) : State :=
  let ph := s.gtsPhase + c * 1000
  { s with
    now := s.now + c
    gts := s.gts + BitVec.ofNat 64 (ph / s.clockMHz)
    gtsPhase := ph % s.clockMHz }

/-- Advances the clock to cycle `t`, or leaves it. -/
def State.advanceTo (s : State) (t : Nat) : State := s.passCycles (t - s.now)

/-- The first cycle that bears the present GTS. -/
def State.windowStart (s : State) : Nat := s.now - s.gtsPhase / 1000

/-- Comes to cycle `t`: forward, or back to an earlier cycle of the present GTS (R3; log entry 1). -/
def State.moveTo (s : State) (t : Nat) : State :=
  let ph := s.gtsPhase + 1000 * t - 1000 * s.now
  { s with
    now := t
    gts := s.gts + BitVec.ofNat 64 (ph / s.clockMHz)
    gtsPhase := ph % s.clockMHz }

/-! ## Registers -/

/-- A register as a 256-bit pattern. -/
def Thread.raw (t : Thread) : Reg → Vec
  | .g r => (t.g[r]).setWidth 256
  | .v r => t.v[r]
  | .k r => (t.k[r]).setWidth 256
  | .fstat => t.fstat.setWidth 256

/-- Bits of `m` from `v`, the others from `o`. -/
def merge (o v m : Vec) : Vec := (o &&& ~~~m) ||| (v &&& m)

/-- Writes the bits of `m`. K0 is a register of its own and its writes are discarded before they come here (R362). -/
def Thread.putRaw (t : Thread) (r : Reg) (v m : Vec) : Thread :=
  let x := merge (t.raw r) v m
  match r with
  | .g i => { t with g := t.g.set i (x.setWidth 64) }
  | .v i => { t with v := t.v.set i x }
  | .k i => { t with k := t.k.set i (x.setWidth 32) }
  | .fstat => { t with fstat := x.setWidth 5 }

/-- All bits of a register. -/
def fullMask : Reg → Vec
  | .g _ => BitVec.setWidth 256 (BitVec.allOnes 64)
  | .v _ => BitVec.allOnes 256
  | .k _ => BitVec.setWidth 256 (BitVec.allOnes 32)
  | .fstat => BitVec.setWidth 256 (BitVec.allOnes 5)

/-! ## Results that have not fallen due (R78 to R80) -/

/-- Inserts by due cycle, after those due in the same cycle that issued earlier. -/
def insDue (p : PendingWrite) : List PendingWrite → List PendingWrite
  | [] => [p]
  | q :: r => if q.due ≤ p.due then q :: insDue p r else p :: q :: r

/-- By due cycle, and within one cycle by issue (R80). -/
def sortDue (l : List PendingWrite) : List PendingWrite := l.foldl (fun acc p => insDue p acc) []

/-- What is left after cycle `now`; a producer is superseded when a later-issued one of its register has fallen due. Flags are ORed
into FSTAT, and none supersedes another (R160). -/
def stillPending (now : Nat) : List PendingWrite → List PendingWrite
  | [] => []
  | p :: r =>
    if p.due ≤ now then stillPending now r
    else
      { p with superseded := p.superseded || r.any fun q => decide (q.reg = p.reg) && decide (q.due ≤ now) && decide (p.reg ≠ .fstat) }
        :: stillPending now r

/-- The bits of a register that instructions issued after place `at_` have written in cycle `cycle`. -/
def Thread.writtenLater (t : Thread) (r : Reg) (cycle at_ : Nat) : Vec :=
  (t.landed.filter fun e => decide (e.1 = r) && decide (e.2.1 = cycle) && decide (at_ < e.2.2.1)).foldl (fun m e => m ||| e.2.2.2) 0

/-- A write falls due in a cycle: of two in one cycle the later-issued one stays (R80). -/
def Thread.land (t : Thread) (r : Reg) (v m : Vec) (cycle at_ : Nat) : Thread :=
  { t.putRaw r v (m &&& ~~~(t.writtenLater r cycle at_)) with landed := t.landed ++ [(r, cycle, at_, m)] }

/-- The place of a fixed-latency producer in issue order, and that of an operation. -/
def PendingWrite.place (p : PendingWrite) : Nat := 2 * p.seq
def opPlace (id : OpId) : Nat := 2 * id + 1

/-- Lets every result due by cycle `now` fall due, in order (R80). -/
def Thread.settle (t : Thread) (now : Nat) : Thread :=
  let due := sortDue (t.pending.filter fun p => decide (p.due ≤ now))
  let t' := due.foldl (fun t p => t.land p.reg p.value p.mask p.due p.place) t
  { t' with pending := stillPending now t.pending, landed := t'.landed.filter fun e => decide (now ≤ e.2.1) }

/-- The producers that make a read of `r` under-waited (R79). -/
def Thread.producers (t : Thread) (r : Reg) : List PendingWrite :=
  t.pending.filter fun p => decide (p.reg = r) && !p.superseded

/-- The destination registers of an operation (R87). -/
def OpKind.dests : OpKind → List Reg
  | .alu d _ => [.g d]
  | .fpu d _ _ _ => [.g d]
  | .load _ _ dst _ _ => [dst]
  | .atom _ _ _ _ _ t => [.g t]
  | .chunk _ t => [.g t, .g (t + 1)]
  | .tshape _ d => [.g d, .g (d + 1)]
  | .store .. | .watch .. | .fe .. | .spawn .. | .taskq .. | .bind .. | .signal .. | .join .. | .leave ..
  | .tpress .. | .cpy .. | .cpy2d .. | .cpyl .. | .mcrd .. | .mma .. | .mmod .. | .mzero .. | .mload .. | .mdrain .. => []

/-- The outstanding tokened operations of a thread that guard `r` (R87), oldest first. -/
def State.guards (s : State) (u : Uid) (r : Reg) : List (OpId × Op) :=
  s.ops.filter fun p => decide (p.2.uid = u) && p.2.tok.isSome && p.2.kind.dests.contains r

/-- What an operation has for its destination `r`: its result once it is fixed, or the value before it once the result
stands in the register (R87). FDIV and FSQRT that will fail on an enabled flag have no result (R88, R350). -/
def Op.alternative (o : Op) (r : Reg) : Option Vec :=
  let part (bs : List Byte) : Vec := BitVec.ofNat 256 (leNat bs)
  match o.kind, o.phase with
  | .alu _ v, .queued => some (v.setWidth 256)
  | .fpu _ v fl en, .queued => if fl &&& en = 0 then some (v.setWidth 256) else none
  | k, .performed | k, .returning true =>
    match k with
    | .chunk _ t | .tshape _ t => some (part (if r = .g t then o.result.take 8 else o.result.drop 8))
    | .load _ _ (.g _) sx _ => some ((extendBytes o.result sx).setWidth 256)
    | _ => some (part o.result)
  | .chunk _ t, .finished | .tshape _ t, .finished =>
    some (part (if r = .g t then o.result.take 8 else o.result.drop 8))
  | _, .finished => if o.result = [] then none else some (part o.result)
  | _, _ => none

/-- Reads a register as operand number `idx` of the executing instruction: an under-waited read and a read of a
token-guarded register return the old value or the new one, by free choice (R79, R87). -/
def State.readReg (s : State) (idx : Nat) (r : Reg) : Vec :=
  let t := s.me
  let ps := t.producers r
  let free := Config.freeVec (s.fresh + idx)
  let v := ps.zipIdx.foldl (fun v (p, j) => if free.getLsbD j then merge v p.value p.mask else v) (t.raw r)
  (s.guards s.cur r).zipIdx.foldl
    (fun v (p, j) =>
      match p.2.alternative r with
      | some w => if free.getLsbD (128 + j) then w else v
      | none => v) v

def State.readG (s : State) (idx : Nat) (r : GReg) : Word := (s.readReg idx (.g r)).setWidth 64
def State.readV (s : State) (idx : Nat) (r : VReg) : Vec := s.readReg idx (.v r)
/-- K0 reads as all bits set (R362). -/
def State.readK (s : State) (idx : Nat) (r : KReg) : Mask :=
  if r = 0 then BitVec.allOnes 32 else (s.readReg idx (.k r)).setWidth 32

/-- The mask operand as a register that is read: K0 is no read (R172, R362). -/
def kRead (k : KReg) : List Reg := if k = 0 then [] else [.k k]

/-- The free values that one instruction may take for its operands. -/
def operandSlots : Nat := 8

/-- Schedules a fixed-latency result of the executing instruction (R78). A write to K0 is discarded (R362). -/
def State.retire (s : State) (r : Reg) (lat : Nat) (v m : Vec) : State :=
  if r = .k 0 then s
  else s.modMe fun t => { t with
    pending := t.pending ++ [⟨r, v, m, s.now + lat, false, s.nextId⟩]
    coldPoison := t.coldPoison.filter fun x => decide (x.1 ≠ r) }

def State.retireG (s : State) (r : GReg) (lat : Nat) (v : Word) : State :=
  s.retire (.g r) lat (v.setWidth 256) (fullMask (.g r))

/-! ## Tokens and streams (R84, R129) -/

def TokenCtr.out (c : TokenCtr) : Nat := (c.issued - c.done).toNat
def StreamCtr.out (c : StreamCtr) : Nat := (c.issued - c.done).toNat

/-- The bank that a thread's instructions name (R95). -/
def Thread.bank (t : Thread) : TokenBank := if t.inHandler then t.shadow else t.live
def Thread.modBank (t : Thread) (shadow : Bool) (f : TokenBank → TokenBank) : Thread :=
  if shadow then { t with shadow := f t.shadow } else { t with live := f t.live }

def TokenBank.issueTok (b : TokenBank) (k : Tok) : TokenBank :=
  { b with tokens := b.tokens.set k { b.tokens[k] with issued := b.tokens[k].issued + 1 } }
def TokenBank.doneTok (b : TokenBank) (k : Tok) : TokenBank :=
  { b with tokens := b.tokens.set k { b.tokens[k] with done := b.tokens[k].done + 1 } }
def TokenBank.issueStrm (b : TokenBank) (k : Strm) : TokenBank :=
  { b with streams := b.streams.set k { b.streams[k] with issued := b.streams[k].issued + 1 } }
def TokenBank.doneStrm (b : TokenBank) (k : Strm) : TokenBank :=
  { b with streams := b.streams.set k { b.streams[k] with done := b.streams[k].done + 1 } }

/-- Every stream drained and every token at OUT = 0. -/
def TokenBank.drained (b : TokenBank) : Bool :=
  b.tokens.toList.all (fun c => c.out == 0) && b.streams.toList.all (fun c => c.out == 0)

/-- Adds a failure to a token's record slot (R88). -/
def TokenBank.addRecord (b : TokenBank) (k : Tok) (r : FaultRec) : TokenBank :=
  { b with records := b.records.set k (some
      (match b.records[k] with
       | none => { r with more := 0 }
       | some old => { old with more := if old.more = 0xFFFF then old.more else old.more + 1 })) }

/-- Records a failure: on the token's slot, or in the handler's failure bits and shadow record (R88, R95). -/
def Thread.addFailure (t : Thread) (shadow : Bool) (k : Tok) (r : FaultRec) : Thread :=
  if shadow then
    { t with
      shadowFail := t.shadowFail ||| (1#16 <<< k.val)
      shadowRec := some
        (match t.shadowRec with
         | none => { r with more := 0 }
         | some old => { old with more := if old.more = 0xFFFF then old.more else old.more + 1 }) }
  else { t with live := t.live.addRecord k r }

/-- Whether a token of the bank in force holds a record, or its failure bit (R90, R95). -/
def Thread.hasRecord (t : Thread) (k : Tok) : Bool :=
  if t.inHandler then t.shadowFail.getLsbD k.val else t.live.records[k].isSome

/-- The mask that selector `m` names (R131). -/
def Thread.maskOf (t : Thread) (m : Sel) : Byte := t.bank.sm[m]

/-! ## The journal (R197) -/

/-- The lowest journal entry not in use. -/
def freeEntry (j : AMap JEntry) : Option Nat := (List.range 32).find? fun i => (mapGet? j i).isNone

/-- Held entries of a thread, lowest first. -/
def Core.heldFor (c : Core) (u : Uid) : List (Nat × JEntry) :=
  c.journal.filter fun e => e.2.held && decide (e.2.uid = u)

end Sys2Proof.Machine
end

