-- ==== Sys2Proof/Machine/Translate.lean ====
section
/-! DEFINITION. The address windows, the home slice, the walk of a job's page tree, the rights of a page and the per-master
access tables (R97 to R101, R115, R121 to R126, R232 to R237), in the order of R429. -/

namespace Sys2Proof.Machine

/-! ## Windows (R97, R98, R101) -/

/-- Where an address leads, for a core. -/
inductive Win
  | bank (pcn off : Nat) (coreWindow : Bool)
  | otherDie
  | global
  | none
deriving DecidableEq, Repr

/-- The window of an address formed by core `p`. -/
def winOf (p : Pcn) (a : Word) : Win :=
  let n := a.toNat
  if n < bankBytes then .bank p n false
  else if n < 0x1000000 then
    if 0x100000 ≤ n ∧ n < 0x300000 ∧ n % 0x40000 < bankBytes then
      .bank (p / 8 * 8 + (n - 0x100000) / 0x40000) (n % 0x40000) false
    else .none
  else if n < 2 ^ 52 then .global
  else if n < 2 ^ 63 then .none
  else if n / 2 ^ 37 % 2 ^ 26 ≠ 0 ∨ n / 2 ^ 18 % 8 ≠ 0 ∨ bankBytes ≤ n % 2 ^ 18 then .none
  else if n / 2 ^ 34 % 8 ≠ dieOf p then .otherDie
  else .bank (n / 2 ^ 21 % 2 ^ 16) (n % 2 ^ 18) true

/-- A range of bytes lies in one window, in one bank if it is local (R99). -/
def rangeIn (p : Pcn) (a : Word) (n : Nat) : Bool :=
  if n = 0 then true
  else match winOf p a, winOf p (a + BitVec.ofNat 64 (n - 1)) with
    | .bank q o _, .bank q' o' _ => decide (q = q') && decide (o' = o + (n - 1))
    | .global, .global => decide (a.toNat + (n - 1) < 2 ^ 52)
    | _, _ => false

/-! ## Home slices (R114, R115) -/

/-- The home of a virtual address on its die, 0 to 63. -/
def homeOf (a : Word) : Nat :=
  let f (i : Nat) : BitVec 6 := a.extractLsb' i 6
  (f 9 ^^^ f 15 ^^^ f 21 ^^^ f 27 ^^^ f 33 ^^^ f 39 ^^^ f 45 ^^^ (a.extractLsb' 51 1).setWidth 6).toNat

/-- A slice's number in the device. -/
def sliceNo (die : Nat) (a : Word) : Nat := die * 64 + homeOf a

/-- The tile at whose router a slice attaches (R114). -/
def sliceX (sl : Nat) : Nat := 4 * (sl % 8) + 1
def sliceY (sl : Nat) : Nat := 4 * (sl % 64 / 8) + 1

/-! ## Page tree (R121 to R124) -/

def wfld (w : Word) (lo len : Nat) : Nat := w.toNat / 2 ^ lo % 2 ^ len
def wbit (w : Word) (i : Nat) : Bool := w.getLsbD i

/-- HBM bytes of one stack: 80 GB (R1). -/
def hbmBytes : Nat := 80000000000

/-- A doubleword of a die's own memory; none beyond it. -/
def State.hbmWord (s : State) (die pa : Nat) : Option Word :=
  if pa + 8 ≤ hbmBytes then some (leWord (memRead s.ms.mem (hbmKey die pa) 8)) else none

/-- A non-leaf entry is well formed: V, its reserved fields, a node kind, and the alignment of a FLAT node (R123). -/
def nodeOk (e : Word) : Bool :=
  wbit e 0 && decide (wfld e 52 12 = 0) && decide (wfld e 3 9 = 0) &&
  (decide (wfld e 1 2 = 2) || (decide (wfld e 1 2 = 1) && decide (wfld e 12 9 = 0)))

/-- One level of the walk: the entry that `e` gives for an 18-bit index (R122). -/
def State.walkLevel (s : State) (die : Nat) (e : Word) (idx : Nat) : Option Word :=
  if !nodeOk e then none
  else
    let base := wfld e 12 40 * 4096
    if wfld e 1 2 = 1 then s.hbmWord die (base + 8 * idx)
    else
      match s.hbmWord die (base + 8 * (idx / 512)) with
      | none => none
      | some f =>
        if nodeOk f && decide (wfld f 1 2 = 2) then s.hbmWord die (wfld f 12 40 * 4096 + 8 * (idx % 512)) else none

/-- A PAGE entry that names a page: V, the kind, no reserved bit, an owner that exists (R124, R125). -/
def leafOk (e : Word) : Bool :=
  wbit e 0 && decide (wfld e 1 2 = 0) && decide (wfld e 13 3 = 0) && decide (wfld e 9 4 ≤ 8)

/-- The walk of a tree from its root entry (R122). -/
def State.walk (s : State) (die : Nat) (root va : Word) : Option Word :=
  match s.walkLevel die root (wfld va 34 18) with
  | none => none
  | some e =>
    match s.walkLevel die e (wfld va 16 18) with
    | none => none
    | some l => if leafOk l then some l else none

def pteOwner (e : Word) : Nat := wfld e 9 4
def pteClear (e : Word) : Bool := wbit e 8
def pteSealed (e : Word) : Bool := wbit e 7
def ptePin (e : Word) : Bool := wbit e 6
def pteL1 (e : Word) : Bool := wbit e 5
def pteW (e : Word) : Bool := wbit e 4
def pteR (e : Word) : Bool := wbit e 3
def pteAci (e : Word) : Nat := wfld e 52 12
/-- The physical address of a virtual one under its leaf. -/
def ptePa (e va : Word) : Nat := wfld e 16 36 * 65536 + wfld va 0 16

/-- The line of a key. -/
def lineOf (key : Nat) : Nat := key / 512 * 512

/-- Whether a host write that has a number and is held lies in a line (R149). -/
def State.lineHeld (s : State) (line : Nat) : Bool :=
  s.hub.held.any fun h => match h.addr with
    | .mem d pa => decide (lineOf (hbmKey d.val pa) ≤ line) && decide (line ≤ lineOf (hbmKey d.val (pa + h.data.length - 1)))
    | .bar _ | .sriov _ => false

/-- Whether a line of HBM is the one that its die's key sweep has locked (R239). -/
def State.lineSwept (s : State) (line : Nat) : Bool :=
  decide (2 ^ 56 ≤ line) && decide (line < 2 ^ 57) &&
  decide ((s.die (line / 2 ^ 52 % 16)).sweep = some (line % 2 ^ 52 / 512))

/-- The addresses of the entries that one level of the walk reads (R122). -/
def State.levelReads (s : State) (die : Nat) (e : Word) (idx : Nat) : List Nat :=
  let base := wfld e 12 40 * 4096
  if wfld e 1 2 = 1 then [base + 8 * idx]
  else [base + 8 * (idx / 512), wfld ((s.hbmWord die (base + 8 * (idx / 512))).getD 0) 12 40 * 4096 + 8 * (idx % 512)]

/-- The address of the entry that a level gives. -/
def State.levelPa (s : State) (die : Nat) (e : Word) (idx : Nat) : Nat := ((s.levelReads die e idx).getLast?).getD 0

/-- The addresses that a walk reads, the leaf's last. -/
def State.walkReads (s : State) (die : Nat) (root va : Word) : List Nat :=
  let up := s.levelReads die root (wfld va 34 18)
  up ++ s.levelReads die ((s.hbmWord die ((up.getLast?).getD 0)).getD 0) (wfld va 16 18)

/-- The address of the leaf of a virtual address, in the memory of the job's die. -/
def State.leafPa (s : State) (die : Nat) (root va : Word) : Nat := ((s.walkReads die root va).getLast?).getD 0

/-- A slice has a leaf in its TLB. -/
def State.tlbHit (s : State) (slice tag : Nat) (va : Word) : Bool :=
  s.fab.tlb.any fun t => decide (t.slice = slice) && decide (t.tag = tag) && decide (t.vpage = va.toNat / 65536)

/-- A walk that must wait: it is a slice read, and a line it reads is held behind the host horizon or locked by a key sweep
(R118, R121, R149, R239). -/
def State.walkWaits (s : State) (slice tag : Nat) (root va : Word) : Bool :=
  (s.hub.held != [] || s.dies.any fun d => d.2.sweep.isSome) && !s.tlbHit slice tag va &&
  (s.walkReads (slice / 64) root va).any fun pa =>
    s.lineHeld (lineOf (hbmKey (slice / 64) pa)) || s.lineSwept (lineOf (hbmKey (slice / 64) pa))

/-- The leaf for a virtual address at a slice: its TLB's entry, or the walk's (R121). -/
def State.leafAt (s : State) (slice tag : Nat) (root va : Word) : Option Word :=
  match s.fab.tlb.find? fun t => decide (t.slice = slice) && decide (t.tag = tag) && decide (t.vpage = va.toNat / 65536) with
  | some t => some t.pte
  | none => s.walk (slice / 64) root va

/-- A key in a page that is being migrated: no access performs there meanwhile, whoever asks (R128). -/
def State.keyMoving (s : State) (key : Nat) : Bool := s.fab.migrating.any fun m => decide (m.2.2 = key / 65536 * 65536)

/-- A page of a job that is being migrated: the one that the migration names, or another job's address of the same page (R116, R128). -/
def State.pageMoving (s : State) (tag : Nat) (va : Word) : Bool :=
  s.fab.migrating.any (fun m => decide (m.1 = tag) && decide (m.2.1 = va.toNat / 65536)) ||
  (s.fab.migrating != [] &&
    match s.leafAt (sliceNo (tagDie tag) va) tag (s.job tag).ptRoot va with
    | some e => s.keyMoving (ownerKey (pteOwner e) (ptePa e va))
    | none => false)

/-- Puts a walked leaf into the TLB, the oldest entry leaving a full one (R121). -/
def State.tlbFill (s : State) (slice tag : Nat) (root va : Word) : State :=
  let here := s.fab.tlb.filter fun t => decide (t.slice = slice)
  if here.any fun t => decide (t.tag = tag) && decide (t.vpage = va.toNat / 65536) then s
  else match s.walk (slice / 64) root va with
    | none => s
    | some pte =>
      let keep := if 2048 ≤ here.length then
          match here with
          | [] => s.fab.tlb
          | old :: _ => s.fab.tlb.erase old
        else s.fab.tlb
      s.modFab fun f => { f with tlb := keep ++ [⟨slice, tag, va.toNat / 65536, pte⟩] }

/-! ## Per-master access tables (R232 to R234) -/

/-- Targets: slices 0 to 511, then the HBM controllers, the hub copy engine and the host interface. -/
def tgtHbm (die : Nat) : Nat := 512 + die
def tgtHubCopy : Nat := 520
def tgtHost : Nat := 521

def masterJob (tag : Nat) : Nat := tag
def masterFn (fn : Nat) : Nat := 0x4000 + fn
def masterFw (id : Nat) : Nat := 0x8000 + id

def AccessEntry.seal (e : AccessEntry) : Bool := wbit e.w1 38
def AccessEntry.keyslot (e : AccessEntry) : Nat := wfld e.w1 54 10

/-- A valid entry of the master that covers the bytes and grants the right. -/
def AccessEntry.passes (e : AccessEntry) (target master pa n : Nat) (rd wr : Bool) : Bool :=
  decide (e.target = target) && wbit e.w1 39 && decide (wfld e.w0 48 16 = master) &&
  decide (wfld e.w0 0 36 ≤ pa / 65536) && decide ((pa + (n - 1)) / 65536 ≤ wfld e.w1 0 36) &&
  (!rd || wbit e.w1 36) && (!wr || wbit e.w1 37)

/-- The die's tag carve-out: one 32-byte entry per sector of the tagged region (R237). -/
def Die.inCarveOut (d : Die) (pa n : Nat) : Bool :=
  let size := (d.tagHi.toNat - d.tagLo.toNat) / 64 * 32
  decide (0 < size) && decide (d.tagBase.toNat < pa + n) && decide (pa < d.tagBase.toNat + size)

/-- The entry that passes an access at a target: the lowest-numbered one (R234). Entries stand in rising order. -/
def State.tableEntry (s : State) (target master die pa n : Nat) (rd wr : Bool) : Option AccessEntry :=
  if die < 8 && (s.die die).inCarveOut pa n then none
  else s.lan.access.find? fun e => e.passes target master pa n rd wr

/-! ## Lines that an access touches -/

/-- The parts of `n` bytes at a key that lie in one line each, as offsets and lengths. -/
def lineParts (key n : Nat) : List (Nat × Nat) :=
  (span (key / 512) ((key + n - 1) / 512 - key / 512 + 1)).map fun l =>
    (max key (l * 512) - key, min (key + n) (l * 512 + 512) - max key (l * 512))

/-! ## An access to a page, in the order of R429 -/

/-- What an access asks of its page. `sliceOp`: an operation of R120; `fwd`: it may be forwarded to another die. -/
structure Ask where
  rd      : Bool
  wr      : Bool
  sliceOp : Bool
  fwd     : Bool
deriving DecidableEq, Repr

/-- A translated access: the owner (a die, or 8 for the host), the physical address, the leaf, and the window's entry. `wait`: it is
refused, because its page is being migrated or its walk must wait (R118). -/
inductive Xlat
  | wait
  | ok (owner pa : Nat) (pte : Word) (entry : AccessEntry)
  | fail (reason : Byte)
deriving DecidableEq, Repr

/-- The slice that serves a page: the home on the owner's die, or the issuing die's home for host memory (R126). -/
def servingSlice (die owner : Nat) (va : Word) : Nat := if owner < 8 then sliceNo owner va else sliceNo die va

/-- What a slice holds of a line: its sectors present. -/
def State.presentAt (s : State) (slice line : Nat) : Byte :=
  ((s.fab.resident.find? fun r => decide (r.slice = slice) && decide (r.line = line)).map (·.present)).getD 0

/-- The sectors of one line that `n` bytes at a key touch, bit i for sector i. -/
def sectorMask (key n : Nat) : Byte :=
  (List.range 8).foldl (fun (m : Byte) i =>
    if key / 64 % 8 ≤ i ∧ i ≤ key / 64 % 8 + ((key + n - 1) / 64 - key / 64) then m ||| (1#8 <<< i) else m) 0

/-- Whether the sectors of a line that `n` bytes at a key touch are present in a slice. -/
def State.isResident (s : State) (slice key n : Nat) : Bool :=
  s.presentAt slice (lineOf key) &&& sectorMask key n == sectorMask key n

/-- The entry that lets a master's access to a die's memory through, where the homes of the bytes are those of `home`: in the table of every
slice that they touch, and in that of the HBM controller for a line that must come from HBM; it is the first slice's (R232, R234). -/
def State.pathEntry (s : State) (master die : Nat) (home : Word) (pa n : Nat) (rd wr : Bool) : Option AccessEntry :=
  let part (x : Nat × Nat) : Option AccessEntry :=
    let sl := sliceNo die (home + BitVec.ofNat 64 x.1)
    match s.tableEntry sl master die (pa + x.1) x.2 rd wr with
    | none => none
    | some e =>
      if s.isResident sl (hbmKey die (pa + x.1)) x.2 || (s.tableEntry (tgtHbm die) master die (pa + x.1) x.2 rd wr).isSome then some e
      else none
  if hbmBytes < pa + n || !(lineParts (hbmKey die pa) n).all (fun x => (part x).isSome) then none
  else ((lineParts (hbmKey die pa) n).head?).bind part

/-- The same for a page's owner: a die, or the host, at whose interface it is checked. -/
def State.ownerEntry (s : State) (master owner : Nat) (home : Word) (pa n : Nat) (rd wr : Bool) : Option AccessEntry :=
  if owner = 8 then s.tableEntry tgtHost master 8 pa n rd wr else s.pathEntry master owner home pa n rd wr

/-- The key instance in a key slot; an empty slot gives the number of no key. -/
def State.slotInst (s : State) (slot : Nat) : Nat := ((mapGet? s.lan.slots slot).map (·.inst)).getD (2 ^ 64)

/-- The key instance that tags the CLEAR pages of a window: slot 0 names the die's own integrity key, number 0 (R233). -/
def State.winInst (s : State) (e : AccessEntry) : Nat := if e.keyslot = 0 then 0 else s.slotInst e.keyslot

/-- The table entry that lets a job's access to an owner's memory pass: at the serving slice, and at the HBM controller
when the line must come from HBM; for host memory at the host interface (R126, R232, R234). -/
def State.jobEntry (s : State) (tag owner pa n : Nat) (va : Word) (rd wr : Bool) : Option AccessEntry :=
  if owner = 8 then s.tableEntry tgtHost (masterJob tag) 8 pa n rd wr
  else
    let sl := sliceNo owner va
    match s.tableEntry sl (masterJob tag) owner pa n rd wr with
    | none => none
    | some e =>
      if s.isResident sl (ownerKey owner pa) n then some e
      else if (s.tableEntry (tgtHbm owner) (masterJob tag) owner pa n rd wr).isSome then some e else none

/-- Translates `n` bytes at a virtual address for a job, at its die's home slice, as its leaf stands (R121 to R126, R235, R237, R429). -/
def State.xlatNow (s : State) (tag : Nat) (va : Word) (n : Nat) (q : Ask) : Xlat :=
  let die := tagDie tag
  let job := s.job tag
  match s.leafAt (sliceNo die va) tag job.ptRoot va with
  | none => .fail 0x01
  | some e =>
    let owner := pteOwner e
    let pa := ptePa e va
    let kind := pteClear e || pteSealed e
    let d := s.die owner
    if pteClear e && pteSealed e then .fail 0x02
    else if job.conf && !kind then .fail 0x02
    else if decide (owner < 8) && kind && !(decide (d.tagLo.toNat ≤ pa) && decide (pa + n ≤ d.tagHi.toNat)) then .fail 0x02
    else if pteL1 e && pteW e then .fail 0x02
    else if (q.rd && !pteR e) || (q.wr && !pteW e) then .fail 0x02
    else match s.jobEntry tag owner pa n va q.rd q.wr with
      | none => .fail 0x02
      | some a =>
        if job.conf && !a.seal then .fail 0x02
        else if q.sliceOp && !pteClear e then .fail 0x03
        else if q.sliceOp && (decide (owner = 8) || (decide (owner ≠ die) && !q.fwd)) then .fail 0x04
        else .ok owner pa e a

/-- Translates `n` bytes, or refuses the access: its page is being migrated, or its walk must wait (R118, R121, R128). -/
def State.xlat (s : State) (tag : Nat) (va : Word) (n : Nat) (q : Ask) : Xlat :=
  if s.pageMoving tag va || s.walkWaits (sliceNo (tagDie tag) va) tag (s.job tag).ptRoot va then .wait
  else s.xlatNow tag va n q

/-- A line that `n` bytes at a key touch is held by a host write, locked by a key sweep, or in a page being migrated: no access performs
there now (R118, R128, R149, R239). -/
def State.keyBusy (s : State) (key n : Nat) : Bool :=
  (span (key / 512) ((key + n - 1) / 512 - key / 512 + 1)).any fun l =>
    s.lineHeld (l * 512) || s.lineSwept (l * 512) || s.keyMoving (l * 512)

/-- Whether a page may be fetched from: mapped with R = 1, and let pass by the tables (R268); a refusal is no failure. -/
def State.fetchable (s : State) (tag : Nat) (va : Word) : Bool :=
  match s.xlat tag va 2 ⟨true, false, false, true⟩ with
  | .fail _ => false
  | _ => true

end Sys2Proof.Machine
end

