-- ==== Sys2Proof/Machine/Bank.lean ====
section
/-! DEFINITION. Bytes at their home: the protection and allocation state of banks, full-empty bits and their waiters, poison,
the watch entries of slices, and what it is for an operation to perform or fail (R65, R88, R103 to R111, R130). -/

namespace Sys2Proof.Machine

/-! ## Operations: performing and failing (R84, R88, R129, R130) -/

/-- The first address that an operand descriptor names (R176): its index list's for GATHER, 0 for LINK. -/
def descAddr (d : Word) : Word :=
  match (d.extractLsb' 62 2).toNat with
  | 0 => BitVec.ofNat 64 (d.toNat % 2 ^ 52)
  | 1 => BitVec.ofNat 64 (d.toNat / 2 ^ 24 % 2 ^ 24)
  | 2 => 0
  | _ => BitVec.ofNat 64 (2 ^ 63 + d.toNat % 2 ^ 37)

/-- The first address an operation touches; a copy reads its source first, and a record before anything else. -/
def OpKind.addr : OpKind → Word
  | .alu .. | .fpu .. | .tpress .. | .mzero .. => 0
  | .load a .. | .store a .. | .atom _ a .. | .chunk a _ | .watch a .. | .fe a .. | .join a | .leave a => a
  | .spawn r _ | .taskq r => r
  | .bind o _ _ | .signal o _ _ => o
  | .tshape bm _ => bm
  | .cpy _ src _ => src
  | .cpy2d _ _ sh => sh
  | .cpyl h => h
  | .mcrd _ _ r => r
  | .mma a .. | .mmod a .. => descAddr a
  | .mload dst .. | .mdrain dst .. => dst

/-- The fault record of a failing operation (R88). -/
def Op.failure (o : Op) (reason : Byte) (addr : Word) : FaultRec := ⟨o.pc, addr, reason, 0⟩

/-- Counts an operation in its stream, once, while its thread lives. -/
def State.countStream (s : State) (o : Op) : State :=
  match o.strm with
  | some k =>
    if o.counted || (mapGet? s.threads o.uid).isNone then s
    else s.modThread o.uid fun t => t.modBank o.inShadow fun b => b.doneStrm k
  | none => s

/-! ## Where a request goes (R101, R115, R214) -/

/-- The tile of the router at an address's home. -/
def homeTile (p : Pcn) (a : Word) : Nat :=
  match winOf p a with
  | .bank q _ _ => tileOf q
  | _ => tileAt (dieOf p) (sliceX (homeOf a)) (sliceY (homeOf a))

/-- The tile that an operation's request travels to. -/
def Op.goal (o : Op) : Nat :=
  match o.kind with
  | .spawn r tgt => if o.hop then homeTile o.pcn tgt else homeTile o.pcn r
  | .signal ob _ _ => if o.hop then homeTile o.pcn ob else tileOf o.pcn
  | .taskq _ | .tshape _ _ => tileOf o.pcn
  | k => homeTile o.pcn k.addr

/-- The tile at which an operation performs: a started command and one that has not left perform at their core. -/
def Op.standsAt (o : Op) : Nat :=
  match o.phase with
  | .queued | .started | .performed | .finished | .failed _ | .returning _ => tileOf o.pcn
  | _ => o.goal

/-! ## Responses (R118, R214, R215, R218) -/

/-- What a response does at its core: the operation has performed, has failed, or is asked again after max(hint, 1) × 4 cycles. -/
def State.backAt (s : State) (id : OpId) (b : Back) : State :=
  match s.op? id with
  | none => s
  | some o => s.setOp id { o with phase := match b with
    | .done => .performed
    | .fail r => .failed r
    | .retry h => .refused (s.now + max h 1 * 4) }

/-- A trip goes on to another stage. -/
def State.stageTrip (s : State) (id : Nat) (f : TripStage → TripStage) : State :=
  s.modFab fun x => { x with trips := x.trips.map fun (t : Trip) => if t.id = id then { t with stage := f t.stage } else t }

/-- A migrating thread is back at its source: it asks again after max(hint, 1) × 4 cycles, or is READY at its MIG again (R70, R118, R379). -/
def State.migReturned (s : State) (u : Uid) (hint : Option Nat) : State :=
  if (mapGet? s.threads u).isNone then s
  else match hint with
    | some h => s.modThread u fun t => { t with asks := true, notBefore := s.now + max h 1 * 4 }
    | none => s.modThread u fun t => { t with status := .ready, readySince := s.now, pc := t.trapPoint, pfx := none, mgLoad := none }

/-- What a packet does at its destination. Those that only mark where something is are gone. -/
def State.deliverMsg (s : State) (m : Msg) : State :=
  match m with
  | .back id b => s.backAt id b
  | .trip id => s.stageTrip id fun _ => .there
  | .tripBack id => s.stageTrip id fun
    | .back r => .done r
    | x => x
  | .migBack u h => s.migReturned u h
  | .req _ | .fwd _ | .fwdBack _ | .mig _ | .sector .. => s

/-- Sends a packet over a die's mesh, or delivers it within the tile (R214). -/
def State.sendMesh (s : State) (cls src dst : Nat) (m : Msg) : State :=
  if src = dst then s.deliverMsg m
  else
    let (i, s) := s.takeId
    s.modFab fun f => { f with mesh := f.mesh ++ [⟨i, i, cls, src, [dst], src, m⟩] }

/-! ## Accesses over the mesh of agents that are no load-store unit (R118, R214) -/

/-- What an access comes to for the agent that makes it: it goes on, has its bytes, or has failed. -/
inductive Got
  | wait (s : State)
  | ok (s : State) (data : List Byte)
  | fail (s : State) (r : Byte) (a : Word)

/-- What it comes to at its home, which may also refuse it with a hint. -/
inductive AtHome
  | wait (s : State)
  | retry (s : State) (hint : Nat)
  | ok (s : State) (data : List Byte)
  | fail (s : State) (r : Byte) (a : Word)

/-- The number under which a trip's request asks at its home: its agent's own within the tile. -/
def Trip.asker (t : Trip) : Nat := if t.src = t.dst then t.who else t.id

/-- A refusal with the next wait hint. -/
def State.hinted (s : State) : AtHome := .retry { s with fresh := s.fresh + 1 } (Config.waitHint s.fresh).toNat

def State.setTrip (s : State) (t : Trip) : State :=
  s.modFab fun x => { x with trips := x.trips.filter (fun (o : Trip) => decide (o.id ≠ t.id)) ++ [t] }
def State.dropTrip (s : State) (id : Nat) : State :=
  s.modFab fun x => { x with trips := x.trips.filter fun t => decide (t.id ≠ id) }

/-- The end of a trip at its agent, which asks again after max(hint, 1) × 4 cycles if it was refused (R118). -/
def State.endTrip (s : State) (t : Trip) (r : TripRes) : Got :=
  match r with
  | .ok d => .ok (s.dropTrip t.id) d
  | .fail r a => .fail (s.dropTrip t.id) r a
  | .retry h =>
    let (i, s) := if t.id = t.who then s.takeId else (t.id, s)
    .wait (s.setTrip { t with id := i, stage := .again (s.now + max h 1 * 4) })

/-- A trip's response leaves its home; within the tile there is none to send. What a DARK core returns travels as a signal (R214). -/
def State.answerTrip (s : State) (t : Trip) (r : TripRes) : Got :=
  if t.src = t.dst then s.endTrip t r
  else
    let cls := match r with
      | .fail x _ => if x = 0x06 then 1 else 2
      | _ => 2
    .wait ((s.setTrip { t with stage := .back r }).sendMesh cls t.dst t.src (.tripBack t.id))

/-- A trip at its home: `act` is what the access does there. -/
def State.tripThere (s : State) (t : Trip) (act : Trip → State → AtHome) : Got :=
  match act t s with
  | .wait s => .wait s
  | .retry s h => s.answerTrip t (.retry h)
  | .ok s d => s.answerTrip t (.ok d)
  | .fail s r a => s.answerTrip t (.fail r a)

/-- An access of `n` bytes at `a` by agent `who` of tile `src` at a home on tile `dst`: its request and its response are packets, and the
access performs at the home, when the agent looks after the request has come. Within the tile it performs at once. -/
def State.trip (s : State) (who cls src dst : Nat) (a : Word) (n : Nat) (wr : Bool)
    (act : Trip → State → AtHome) : Got :=
  match s.fab.trips.find? fun t => decide (t.who = who) && decide (t.a = a) && decide (t.n = n) && t.wr == wr && decide (t.dst = dst) with
  | none =>
    if src = dst then s.tripThere ⟨who, who, cls, src, dst, a, n, wr, .there⟩ act
    else
      let (i, s) := s.takeId
      .wait ((s.setTrip ⟨i, who, cls, src, dst, a, n, wr, .out⟩).sendMesh cls src dst (.trip i))
  | some t =>
    match t.stage with
    | .out | .back _ => .wait s
    | .there => s.tripThere t act
    | .done r => s.endTrip t r
    | .again at_ =>
      if s.now < at_ then .wait s
      else if src = dst then s.tripThere t act
      else .wait ((s.setTrip { t with stage := .out }).sendMesh cls src dst (.trip t.id))

/-- An agent at a tile whose access would have to be refused before it set out asks again after the next hint (R118): `n = 0` marks its trip,
which goes nowhere. -/
def State.retryLater (s : State) (who tile : Nat) : State :=
  let h := (Config.waitHint s.fresh).toNat
  let (i, s) := { s with fresh := s.fresh + 1 }.takeId
  s.modFab fun x => { x with trips := x.trips.filter (fun t => !(decide (t.who = who) && decide (t.n = 0))) ++
    [⟨i, who, 0, tile, tile, 0, 0, false, .again (s.now + max h 1 * 4)⟩] }

/-- Whether it may ask again now. -/
def State.retryDue (s : State) (who : Nat) : Bool :=
  !s.fab.trips.any fun t => decide (t.who = who) && decide (t.n = 0) && match t.stage with
    | .again at_ => decide (s.now < at_)
    | _ => false

/-- Puts a multicast packet on a die's mesh, for the tiles other than its source's own (R188). -/
def State.sendMulti (s : State) (src : Nat) (dsts : List Nat) (m : Msg) : State :=
  let dsts := dsts.filter fun t => decide (t ≠ src)
  if dsts = [] then s
  else
    let (i, s) := s.takeId
    s.modFab fun f => { f with mesh := f.mesh ++ [⟨i, i, 3, src, dsts, src, m⟩] }

/-! ## The ring and the links -/

/-- Flits of a ring packet that carries `n` bytes: a header and up to three of data (R215). -/
def flitsFor (n : Nat) : Nat := 1 + min 3 ((n + 31) / 32)

/-- Puts `k` packets of `n` bytes each with one message on the ring (R215). -/
def State.sendRing (s : State) (src dst n : Nat) (m : Msg) : Nat → State
  | 0 => s
  | k + 1 =>
    let (i, s') := s.takeId
    (s'.modFab fun f => { f with ring := f.ring ++ [⟨i, s.now, src, dst, src, flitsFor n, false, .vc0, m⟩] }).sendRing src dst n m k

/-- Sends a transfer of `n` bytes over the ring: one of more than 96 bytes is split into packets of one sector each (R215). -/
def State.sendTransfer (s : State) (src dst n : Nat) (m : Msg) : State :=
  if n ≤ 96 then s.sendRing src dst n m 1 else s.sendRing src dst 64 m ((n + 63) / 64)

/-- Sends a message over a die's link to the hub (R218). -/
def State.sendLink (s : State) (die : Nat) (back : Bool) (m : Msg) : State :=
  let (i, s) := s.takeId
  s.modFab fun f => { f with hubLink := f.hubLink ++ [⟨i, die, back, m⟩] }

/-- The bytes of a response: a forwarded read brings a whole line (R126). -/
def Op.backBytes (o : Op) (b : Back) : Nat :=
  match b, o.kind with
  | .done, .load .. => 512
  | .done, .atom _ _ n _ _ _ => n
  | _, _ => 0

/-- The class of a response: what a DARK core returns travels as a signal (R214). -/
def Back.cls : Back → Nat
  | .fail r => if r.reason = 0x06 then 1 else 2
  | _ => 2

/-- The response of an operation leaves the home at which it stands: from another die over the ring, from the host over the hub link,
and over the mesh to its core. `o` is the operation as it stood there. -/
def State.respond (s : State) (id : OpId) (o : Op) (b : Back) : State :=
  let away (s : State) : State :=
    match s.op? id with
    | some x => s.setOp id { x with phase := .returning (b == .done) }
    | none => s
  match (match o.phase with
    | .pooling d => if d = dieOf o.pcn then o.phase else .atOwner d
    | p => p) with
  | .atOwner d =>
    if d = 8 then (away s).sendLink (dieOf o.pcn) true (.back id b)
    else (away s).sendTransfer d (dieOf o.pcn) (o.backBytes b) (.back id b)
  | _ =>
    if o.standsAt = tileOf o.pcn then s.backAt id b else (away s).sendMesh b.cls o.standsAt (tileOf o.pcn) (.back id b)

/-- An operation performs: its result is fixed, its stream counts it, and a posted store leaves the journal (R130, R197).
One without a token is then over. -/
def State.performOp (s : State) (id : OpId) (result : List Byte) : State :=
  match s.op? id with
  | none => s
  | some o =>
    let s := s.countStream o
    let s := match o.jidx with
      | some j => s.modCore o.pcn fun c => { c with journal := mapErase c.journal j }
      | none => s
    if o.tok.isNone then s.dropOp id
    else (s.setOp id { o with counted := true, result := result, jidx := none }).respond id o .done

/-- An operation fails; it counts DONE in its turn (R88). -/
def State.failOp (s : State) (id : OpId) (reason : Byte) (addr : Word) : State :=
  match s.op? id with
  | none => s
  | some o => s.respond id o (.fail (o.failure reason addr))

/-- An operation is refused with a wait hint and asked again by its core (R118). -/
def State.refuse (s : State) (id : OpId) : State :=
  match s.op? id with
  | none => s
  | some o => ({ s with fresh := s.fresh + 1 }).respond id o (.retry (Config.waitHint s.fresh).toNat)

/-- A response of operation `id`. -/
def Msg.isBack (m : Msg) (id : OpId) : Bool :=
  match m with
  | .back i _ => decide (i = id)
  | _ => false

/-- The operation whose request or response a message is. -/
def Msg.op? : Msg → Option OpId
  | .req i | .back i _ => some i
  | _ => none

/-- A discard at a border deadline, a scrub or a shutdown: reported with REASON 0x07 on the token, in place of any condition that has
not been reported; a posted store leaves the journal (R31, R109, R429). -/
def State.discardReported (s : State) (id : OpId) : State :=
  match s.op? id with
  | none => s
  | some o =>
    let s := match o.jidx with
      | some j => s.modCore o.pcn fun c => { c with journal := mapErase c.journal j }
      | none => s
    match o.phase with
    | .performed | .finished | .returning true => s
    | _ =>
      (s.modFab fun f => { f with
          mesh := f.mesh.filter fun p => !p.msg.isBack id
          ring := f.ring.filter fun p => !p.msg.isBack id
          hubLink := f.hubLink.filter fun p => !p.msg.isBack id }).setOp id { o with phase := .failed (o.failure 0x07 o.kind.addr), jidx := none }

/-- Whether a command belongs to the matrix queue. -/
def OpKind.isMatrix : OpKind → Bool
  | .mma .. | .mmod .. | .mzero .. | .mload .. | .mdrain .. => true
  | _ => false

def OpKind.party (k : OpKind) : Fin 4 := if k.isMatrix then 3 else 2

/-- A matrix unit that no longer executes command `id`. -/
def MatrixUnit.free (m : MatrixUnit) (id : OpId) : MatrixUnit := if m.busy = some id then { m with busy := none } else m

/-- A delivery is remembered while a sector of it is on its way, or a command that asked for it runs (R119). -/
def Delivery.alive (d : Delivery) : Bool := d.parts != [] || d.ops != []

/-- An engine lets go of a command, and its region closes (R145). -/
def State.releaseEngine (s : State) (id : OpId) (o : Op) : State :=
  let s := s.closeParty o.pcn o.kind.party
  let s := s.modFab fun f => { f with
    trips := f.trips.filter fun t => decide (t.who ≠ id)
    deliveries := (f.deliveries.map fun (d : Delivery) => { d with ops := d.ops.filter fun i => decide (i ≠ id) }).filter Delivery.alive }
  if o.kind.isMatrix then
    s.modFab fun f => { f with matrix := f.matrix.map fun e => (e.1, e.2.free id) }
  else s.modCore o.pcn fun c => if c.copyBusy = some id then { c with copyBusy := none } else c

/-! ## MCRD's record (R187) -/

def mcrdCols (bs : List Byte) : Nat := 2 ^ (3 - (bs.getD 0x0A 0).toNat)
def mcrdLen (bs : List Byte) : Nat := wordAt bs 3

/-- The coordinates of the tiles that MASK names, and the cores of each. -/
def mcrdTiles (bs : List Byte) : List (Nat × Nat × Byte) :=
  (List.range 8).filterMap fun t =>
    let b := bs.getD t 0
    if b = 0 then none
    else some ((bs.getD 8 0).toNat + t % mcrdCols bs, (bs.getD 9 0).toNat + t / mcrdCols bs, b)

/-- The cores that a record names. -/
def mcrdCores (die : Nat) (bs : List Byte) : List Pcn :=
  (mcrdTiles bs).flatMap fun t => ((List.range 8).filter fun c => t.2.2.getLsbD c).map fun c => tileAt die t.1 t.2.1 * 8 + c

/-! ## Granules (R107, R111) -/

/-- The granules of `n` bytes at a key. -/
def granules (key n : Nat) : List Nat := if n = 0 then [] else span (key / 16) ((key + n - 1) / 16 - key / 16 + 1)

/-- The granules that `n` bytes at a key cover whole. -/
def wholeGranules (key n : Nat) : List Nat :=
  (granules key n).filter fun g => decide (key ≤ g * 16) && decide (g * 16 + 16 ≤ key + n)

/-- The first poisoned granule among those touched. -/
def State.poisonedIn (s : State) (key n : Nat) : Option Nat := (granules key n).find? fun g => s.ms.poison.contains g

/-- The first poisoned granule that a write touches without covering it (R111). -/
def State.poisonedPartly (s : State) (key n : Nat) : Option Nat :=
  (granules key n).find? fun g => s.ms.poison.contains g && !(wholeGranules key n).contains g

/-- Corrects single-bit errors met by a read, and counts them (R110). -/
def State.correct (s : State) (key n : Nat) : State :=
  let hit := (granules key n).filter fun g => s.ms.weak.contains g
  if hit = [] then s
  else
    let s := s.modMs fun m => { m with weak := hit.foldl setDel m.weak }
    s.modCore (key / 2 ^ 18) fun c => { c with correctable := c.correctable + hit.length }

/-! ## The LMPU (R103, R104) -/

def State.lmpuEntry (s : State) (pcn page : Nat) : Byte := (mapGet? s.ms.lmpu (pcn * 48 + page)).getD 0

/-- The job's right to one byte of a bank. -/
def State.lmpuByte (s : State) (pcn off : Nat) (wr : Bool) : Bool :=
  if eventOff ≤ off then !wr
  else
    let e := s.lmpuEntry pcn (off / 4096)
    !e.getLsbD 4 && (if wr then e.getLsbD 1 else e.getLsbD 0)

/-- The right to a range: rights are per page, and the event record begins at one address. -/
def State.lmpuOk (s : State) (pcn off n : Nat) (wr : Bool) : Bool :=
  (span (off / 4096) ((off + n - 1) / 4096 - off / 4096 + 1)).all (fun p => s.lmpuByte pcn (max off (p * 4096)) wr) &&
  s.lmpuByte pcn (off + n - 1) wr

/-- A bank serves an access of a job: the owner check, then DARK, then the LMPU (R24, R203, R429 at 6). -/
def State.bankCheck (s : State) (tag pcn off n : Nat) (wr : Bool) : Option Byte :=
  if s.owner (tileOf pcn) ≠ tag then some 0x05
  else if (s.core pcn).status = .dark then some 0x06
  else if !s.lmpuOk pcn off n wr then some 0x02
  else none

/-! ## Race tags (R145 to R147) -/

/-- A party: core × 4 + kind. -/
abbrev Party := Nat

def partyOf (p : Pcn) (kind : Fin 4) : Party := p * 4 + kind.val

/-- The region that a party is in. -/
def State.regionOf (s : State) (q : Party) : Nat := (s.core (q / 4)).regions.toList.getD (q % 4) 0

/-- Whether a bank's page is race-checked. -/
def State.isRc (s : State) (pcn off : Nat) : Bool := (s.lmpuEntry pcn (off / 4096)).getLsbD 2

/-- Records an access of a party in a region in its sector's tag (R146). -/
def State.raceRecord (s : State) (key : Nat) (q : Party) (region : Nat) (wr : Bool) : State :=
  let t := (mapGet? s.ms.race (key / 64)).getD ⟨none, []⟩
  let t' : RaceTag := if wr then ⟨some (q, region), []⟩ else ⟨t.writer, (q, region) :: t.readers.filter fun e => decide (e.1 ≠ q)⟩
  s.modMs fun m => { m with race := mapSet m.race (key / 64) t' }

/-- An access to a bank by party `kind` of core `p` in a region: from inside its cluster it is recorded if the page is RC; from outside it
is not (R146). -/
def State.noteIn (s : State) (p q off n : Nat) (kind : Fin 4) (region : Nat) (wr : Bool) : State :=
  if tileOf p = tileOf q && s.isRc q off then
    (List.range ((off % 64 + n + 63) / 64)).foldl
      (fun s i => s.raceRecord (bankKey q (off / 64 * 64 + i * 64)) (partyOf p kind) region wr) s
  else s

/-- An access in the region that its party is in. -/
def State.noteAccess (s : State) (p q off n : Nat) (kind : Fin 4) (wr : Bool) : State :=
  s.noteIn p q off n kind (s.regionOf (partyOf p kind)) wr

/-- An access of an operation of the load-store unit: in the slot and the region in which it issued (log entry 79). -/
def State.noteOp (s : State) (o : Op) (q off n : Nat) (wr : Bool) : State := s.noteIn o.pcn q off n o.slot o.region wr

/-! ## Waiting loads (R108, R109) -/

/-- The bank place a waiting load of core `p` names. -/
def Op.bankPlace (o : Op) : Option (Nat × Nat) :=
  match winOf o.pcn o.kind.addr with
  | .bank q off _ => some (q, off)
  | _ => none

/-- The address of granule `g` for an access at address `a` and key `key`. -/
def granuleAt (a : Word) (key g : Nat) : Word := a + BitVec.ofNat 64 (g * 16) - BitVec.ofNat 64 key

/-- The check of R108 for a load of `n` bytes at a bank key, and what it does when it is satisfied; none: it waits on. -/
def State.waitCheck (s : State) (id : OpId) (a : Word) (key n : Nat) (clear : Bool) : Option State :=
  if (granules key n).all fun g => s.ms.full.contains g then
    match s.poisonedIn key n with
    | some g => some (s.failOp id 0x09 (granuleAt a key g))
    | none =>
      let s := s.correct key n
      let s := match s.op? id with
        | some o => s.noteOp o (key / 2 ^ 18) (key % 2 ^ 18) n false
        | none => s
      let data := memRead s.ms.mem key n
      let s := if clear then s.modMs fun m => { m with full := (granules key n).foldl setDel m.full } else s
      some (s.performOp id data)
  else none

/-- The waiting loads of a bank in order of arrival. -/
def State.waitersAt (s : State) (pcn : Nat) : List OpId :=
  let here := s.ops.filter fun p => decide (p.2.phase = .waiting) && decide (p.2.bankPlace.map (·.1) = some pcn) &&
    (match p.2.kind with | .load .. => true | _ => false)
  let ins := fun (l : List (Nat × Op)) (p : Nat × Op) =>
    (l.takeWhile fun q => decide (q.2.aux ≤ p.2.aux)) ++ [p] ++ (l.dropWhile fun q => decide (q.2.aux ≤ p.2.aux))
  (here.foldl ins []).map (·.1)

/-- Lets the waiting loads of a bank look at the bits again, the first to arrive first. -/
def State.wakeWaiters (s : State) (pcn : Nat) : State :=
  (s.waitersAt pcn).foldl (fun s id =>
    match s.op? id with
    | some o =>
      match o.kind, o.bankPlace with
      | .load _ n _ _ q, some (p, off) => (s.waitCheck id o.kind.addr (bankKey p off) n (q == .wfc)).getD s
      | _, _ => s
    | none => s) s

/-- The bank cycle of the last changes of full-empty bits ends: the waiting loads of those banks look (R102, R108, R352). -/
def State.lookAll (s : State) : State := s.looks.foldl State.wakeWaiters { s with looks := [] }

/-- Bits of a bank change in this cycle: its waiting loads look at the end of it. -/
def State.feChanged (s : State) (pcn : Nat) : State :=
  let s := if s.lookAt = s.now then s else s.lookAll
  { s with looks := setIns s.looks pcn, lookAt := s.now }

/-- Sets or clears full-empty bits of a bank's granules, in one bank cycle (R107). -/
def State.feChange (s : State) (pcn : Nat) (gs : List Nat) (set : Bool) : State :=
  (s.modMs fun m => { m with full := gs.foldl (if set then setIns else setDel) m.full }).feChanged pcn

/-! ## Writes at a bank -/

/-- Raw bytes of a bank: the memory, the allocation map, and the poison and the errors of granules covered whole (R106, R110, R111). -/
def State.bankStore (s : State) (pcn off : Nat) (bs : List Byte) : State :=
  let key := bankKey pcn off
  s.modMs fun m => { m with
    mem := memWrite m.mem key bs
    poison := (wholeGranules key bs.length).foldl setDel m.poison
    weak := (wholeGranules key bs.length).foldl setDel m.weak
    lmap := ((granules key bs.length).map fun g => pcn * 48 + g * 16 % 2 ^ 18 / 4096).foldl setIns m.lmap }

/-- A write that performs at a bank; `full`: it sets the bits of the granules it touches. -/
def State.bankWrite (s : State) (pcn off : Nat) (bs : List Byte) (full : Bool) : State :=
  let s := s.bankStore pcn off bs
  if full then s.feChange pcn (granules (bankKey pcn off) bs.length) true else s

/-- The writes of one indivisible step at a bank, each an offset, bytes, and whether it sets full-empty bits. -/
def State.bankWrites (s : State) (pcn off : Nat) (ws : List (Nat × List Byte × Bool)) : State :=
  let s := ws.foldl (fun s w =>
    let s := s.bankStore pcn (off + w.1) w.2.1
    if w.2.2 then s.modMs fun m => { m with full := (granules (bankKey pcn (off + w.1)) w.2.1.length).foldl setIns m.full } else s) s
  if ws.any (·.2.2) then s.feChanged pcn else s

/-! ## Slices: watches (R65) -/

/-- WATCH's test on the bytes of the word. -/
def watchTest (c : WCond) (n : Nat) (mem v : Word) : Bool :=
  let w := 8 * n
  let a := mem.setWidth w
  let b := v.setWidth w
  match c with
  | .eq => a == b
  | .ne => a != b
  | .lt => a.slt b
  | .ge => !a.slt b
  | .ltu => a.ult b
  | .geu => !a.ult b

/-- A parked thread becomes READY (R43); one that an evacuation holds on its way is READY when it arrives (R66). -/
def State.wake (s : State) (u : Uid) : State :=
  match (s.thread u).status with
  | .parked | .waiting _ => s.modThread u fun t => { t with status := .ready, readySince := s.now }
  | .migrating q .parked => s.modThread u fun t => { t with status := .migrating q .ready }
  | _ => s

/-- Whether a watch entry is satisfied by memory as it stands. -/
def State.watchHolds (s : State) (w : Watch) : Bool :=
  let v := leWord (memRead s.ms.mem w.key w.n)
  match w.cond with
  | some c => watchTest c w.n v w.value
  | none => v != w.value

/-- Ends a watch entry: its thread wakes, and its WATCH performs. -/
def State.endWatch (s : State) (w : Watch) : State :=
  let s := s.wake w.uid
  match w.op with
  | some id => s.performOp id []
  | none => s

/-- After a write of `n` bytes at a key, the entries that watch a byte of it are evaluated (R65 step 3). -/
def State.watchWrites (s : State) (key n : Nat) : State :=
  let hit := s.fab.watches.filter fun w => decide (w.key < key + n) && decide (key < w.key + w.n) && s.watchHolds w
  if hit = [] then s
  else
    let s := s.modFab fun f => { f with watches := f.watches.filter fun w => !hit.contains w }
    hit.foldl State.endWatch s

/-! ## Sealed and tagged sectors (R236 to R238; log entry 9) -/

/-- The sectors that `n` bytes at a key touch. -/
def sectors (key n : Nat) : List Nat := if n = 0 then [] else span (key / 64) ((key + n - 1) / 64 - key / 64 + 1)

/-- A sector's entry in the tag carve-out. -/
def State.sealOf (s : State) (sec : Nat) : Option Seal := mapGet? s.ms.seals sec

/-- What memory holds of a sealed sector. -/
def State.cipherOf (s : State) (sec : Nat) (z : Seal) : List Byte :=
  leBytes 64 (Config.cipher z.key sec z.version (BitVec.ofNat 512 (leNat (memRead s.ms.mem (sec * 64) 64)))).toNat

/-- The place of a sector's entry in the carve-out of its die, and its 32 bytes: TAG, VERSION and zeros (R237). -/
def State.tagRow (s : State) (die pa : Nat) : Option (Nat × List Byte) :=
  let d := s.die die
  if d.tagLo.toNat ≤ pa ∧ pa < d.tagHi.toNat then
    let sec := hbmKey die pa / 64
    let data := BitVec.ofNat 512 (leNat (memRead s.ms.mem (sec * 64) 64))
    let row : List Byte := match s.sealOf sec with
      | some z => leBytes 16 (Config.tag z.key z.clear sec z.version data).toNat ++ leBytes 6 z.version ++ List.replicate 10 0
      | none => List.replicate 32 0
    some (d.tagBase.toNat + (pa - d.tagLo.toNat) / 64 * 32, row)
  else none

/-- A byte as an access to a page sees it: only a SEALED page opens a sealed sector. -/
def State.seenByte (s : State) (pte : Word) (a : Nat) : Byte :=
  match s.sealOf (a / 64) with
  | some z => if pteSealed pte || z.clear then memGet s.ms.mem a else (s.cipherOf (a / 64) z).getD (a % 64) 0
  | none => memGet s.ms.mem a

/-- `n` bytes as an access to a page sees them. -/
def State.seen (s : State) (pte : Word) (key n : Nat) : List Byte :=
  if (sectors key n).any fun sec => (s.sealOf sec).isSome then (span key n).map (s.seenByte pte)
  else memRead s.ms.mem key n

/-- Whether `n` bytes at a key cover a sector whole. -/
def coversSector (key n sec : Nat) : Bool := decide (key ≤ sec * 64) && decide (sec * 64 + 64 ≤ key + n)

/-- A sector that is written without being sealed: it is sealed no longer, and what it keeps is what memory held. A CLEAR sector takes
the GMAC tag of its window's key instance, which a sector written in part matches no better than before (R236, R238). -/
def State.unsealSector (s : State) (clear : Option Nat) (key n sec : Nat) : State :=
  let whole := coversSector key n sec
  let bad := !whole && ((s.sealOf sec).map (·.bad)).getD false
  let s := match s.sealOf sec with
    | some z =>
      let bs := s.cipherOf sec z
      s.modMs fun m => { m with
        seals := mapErase m.seals sec
        mem := if whole || z.clear then m.mem else memWrite m.mem (sec * 64) bs }
    | none => s
  match clear with
  | some k => if sec * 64 < 2 ^ 57 then s.modMs fun m => { m with seals := mapSet m.seals sec ⟨true, k, 0, bad⟩ } else s
  | none => s

/-- The sectors of a line held by a slice that a write makes dirty (R117). -/
def SliceLine.soil (l : SliceLine) (key n : Nat) : SliceLine :=
  { l with dirty := (List.range 8).foldl (fun (m : Byte) i =>
      if (sectors key n).contains (l.line / 64 + i) then m ||| (1#8 <<< i) else m) l.dirty }

/-- A write that performs at a slice. Whole sectors lose their poison (R238). -/
def State.sliceWrite (s : State) (key : Nat) (bs : List Byte) : State :=
  let whole := (wholeGranules key bs.length).filter fun g =>
    decide (key ≤ g / 4 * 64) && decide (g / 4 * 64 + 64 ≤ key + bs.length)
  let s := s.modMs fun m => { m with
    mem := memWrite m.mem key bs
    poison := whole.foldl setDel m.poison }
  let s := s.modFab fun f => { f with resident := f.resident.map fun l => l.soil key bs.length }
  s.watchWrites key bs.length

/-- A write to a page that is not SEALED; `clear`: the key instance that tags it, if the page is CLEAR. -/
def State.plainWrite (s : State) (clear : Option Nat) (key : Nat) (bs : List Byte) : State :=
  ((sectors key bs.length).foldl (State.unsealSector · clear key bs.length) s).sliceWrite key bs

/-- The seals of the sectors of a write to a SEALED page: each takes its next version under the key. One that is written in part matches its
tag no better than before. -/
def State.sealWrite (s : State) (inst key n : Nat) : State :=
  s.modMs fun m => { m with seals := (sectors key n).foldl (fun z sec =>
    mapSet z sec ⟨false, inst, ((mapGet? z sec).map (·.version)).getD 0 + 1, !coversSector key n sec &&
      ((mapGet? z sec).map (·.bad)).getD false⟩) m.seals }

/-- A sector whose version would wrap (R236). -/
def State.versionWraps (s : State) (pte : Word) (key n : Nat) : Bool :=
  pteSealed pte && (sectors key n).any fun sec => decide (2 ^ 48 - 1 ≤ ((s.sealOf sec).map (·.version)).getD 0)

/-- Logs a tag mismatch (R238). -/
def State.logTag (s : State) (sec master : Nat) : State := s.modLan fun l => { l with tagLog := (sec, master) :: l.tagLog }

/-- Sectors whose fill did not match are poisoned and logged. -/
def State.poisonSectors (s : State) (secs : List Nat) (master : Nat) : State :=
  let s := secs.foldl (fun s sec => s.logTag sec master) s
  s.modMs fun m => { m with poison := (secs.flatMap fun sec => span (sec * 4) 4).foldl setIns m.poison }

/-- The fill of the tagged sectors of `n` bytes at a key, for an access of a master that is no job's load or store: a CLEAR sector that is not
present in its slice and does not match is poisoned and logged (R236, R238). `home`: the address that the homes of the bytes are those of;
`tag`: the key instance of the window, if the bytes are on a CLEAR page; `part`: of the sectors not covered whole. -/
def State.checkTags (s : State) (die : Nat) (home : Word) (key n : Nat) (tag : Option Nat) (master : Nat) (part : Bool) : State :=
  match tag with
  | none => s
  | some inst =>
    s.poisonSectors ((sectors key n).filter fun sec =>
      !(part && coversSector key n sec) &&
      !s.isResident (sliceNo die (home + BitVec.ofNat 64 (sec * 64) - BitVec.ofNat 64 key)) (sec * 64) 64 &&
      (s.poisonedIn (sec * 64) 64).isNone &&
      match s.sealOf sec with
      | some z => z.clear && (z.bad || decide (z.key ≠ inst))
      | none => false) master

/-- A write of part of a sector that is poisoned: it cannot be merged (R111, R238). -/
def State.unmergeable (s : State) (key n : Nat) : Bool :=
  (sectors key n).any fun sec => !coversSector key n sec && (s.poisonedIn (sec * 64) 64).isSome

/-- Adds 1 to the access counter that a PTE names, saturating (R127). -/
def State.countForward (s : State) (die : Nat) (va pte : Word) : State :=
  let aci := pteAci pte
  if aci = 0 then s
  else
    let k := homeOf va * 4096 + aci
    s.modDie die fun d =>
      let c := (mapGet? d.counters k).getD 0
      { d with counters := mapSet d.counters k (if c = BitVec.allOnes 32 then c else c + 1) }

end Sys2Proof.Machine
end

