-- ==== Sys2Proof/Machine/Territory.lean ====
section
/-! DEFINITION. Territories as sets of tiles, the scrub, and the scopes that end work: the end of a job, the freeze of a job,
die or device, and what they do to moves in transit (R11, R31, R36, R37, R201, R225). -/

namespace Sys2Proof.Machine

/-! ## Tiles of a job -/

/-- The tiles whose owner registers carry a tag (R11). -/
def State.tilesOf (s : State) (tag : Nat) : List Nat :=
  (s.tiles.filter fun p => decide (p.1 / 1024 = tagDie tag) && decide (p.2.job = tagIx tag)).map (·.1)

def coresOf (tile : Nat) : List Pcn := span (tile * 8) 8

/-- Whether a tag is idle's, which is no job (R12). -/
def isIdle (tag : Nat) : Bool := tagIx tag == 0

def State.jobActive (s : State) (tag : Nat) : Bool :=
  match s.liveJob? tag with
  | some j => decide (j.status = .active)
  | none => false

/-- Whether a job lives: it has neither ended nor been frozen. -/
def Job.live (j : Job) : Bool := decide (j.status = .active) || decide (j.status = .suspended)

/-- The tag that a move commits to: its gainer, or idle once the gainer has stopped (R36, R37). -/
def Move.goal (m : Move) : Nat := if m.toIdle then tagOf (tagDie m.gainer) 0 else m.gainer

/-- The projected count of R17. -/
def State.projected (s : State) (tag : Nat) : Int :=
  let n : Int := if isIdle tag then
      1024 - ((s.tiles.filter fun p => decide (p.1 / 1024 = tagDie tag) && decide (p.2.job ≠ 0)).length : Int)
    else (s.tilesOf tag).length
  n + (s.moves.filter fun m => decide (m.goal = tag)).length - (s.moves.filter fun m => decide (m.donor = tag)).length

def State.lockTile (s : State) (t : Nat) (b : Bool) : State := s.setTile t { s.tile t with lock := b }

def State.bumpEpoch (s : State) (tag : Nat) : State :=
  match s.liveJob? tag with
  | some j => s.setJob tag { j with epoch := j.epoch + 1 }
  | none => s

def State.mapCores (s : State) (f : Pcn → Core → Core) : State :=
  { s with cores := s.cores.map fun e => (e.1, f e.1 e.2) }

/-! ## Discarding operations -/

/-- Takes the named operations out of the machine without a report (R201, R203). A record that TASKQ or SPAWN has sent goes with them; a
firing has performed, and its record goes on (R52). -/
def State.discardOps (s : State) (p : Op → Bool) : State :=
  let ids := (s.ops.filter fun e => p e.2).map (·.1)
  if ids = [] then s
  else
    let out (i : OpId) : Bool := !ids.contains i
    { s with
      ops := s.ops.filter fun e => out e.1
      cores := s.cores.map fun (k, c) => (k, { c with
        journal := c.journal.filter fun e => out e.2.op
        copyQ := c.copyQ.filter out
        matQ := c.matQ.filter out
        copyBusy := c.copyBusy.filter out })
      fab := { s.fab with
        watches := s.fab.watches.filter fun w => (w.op.map out).getD true
        fills := s.fab.fills.map fun f => { f with ops := f.ops.filter out }
        deliveries := (s.fab.deliveries.map fun (d : Delivery) =>
          { d with parts := d.parts.map fun q => (q.1, q.2.filter out), ops := d.ops.filter out }).filter Delivery.alive
        poolReqs := (s.fab.poolReqs.filter fun r => r.home.isSome || (r.op.map out).getD true).map fun r =>
          { r with op := r.op.filter out }
        mesh := s.fab.mesh.filter fun k => (k.msg.op?.map out).getD true
        hubLink := s.fab.hubLink.filter fun k => (k.msg.op?.map out).getD true
        fwds := s.fab.fwds.filter fun f => out f.who && (s.fab.trips.find? fun t => decide (t.id = f.who)).all fun t => out t.who
        trips := s.fab.trips.filter fun t => out t.who
        flight := s.fab.flight.filter fun b => out b.op
        ring := s.fab.ring.filter fun k => (k.msg.op?.map out).getD true
        matrix := s.fab.matrix.map fun (k, m) => (k, { m with busy := m.busy.filter out }) } }

/-- Agents no longer ask for what they asked the fabric for: their refusals, and their accesses on their way (R73). -/
def Fabric.quit (f : Fabric) (gone : List Nat) : Fabric :=
  let trips := (f.trips.filter fun t => gone.contains t.who).map (·.id)
  { f with
    refusals := f.refusals.filter fun r => !gone.contains r.who && !trips.contains r.who
    fwds := f.fwds.filter fun x => !gone.contains x.who && !trips.contains x.who
    trips := f.trips.filter fun t => !gone.contains t.who }

/-- What the fabric holds for threads that are gone is forgotten. -/
def Fabric.forget (f : Fabric) (gone : List Uid) : Fabric :=
  { f.quit gone with watches := f.watches.filter fun w => !gone.contains w.uid }

/-- Ends threads: their registers, images and watch entries are gone. -/
def State.dropThreads (s : State) (p : Thread → Bool) : State :=
  let gone := (s.threads.filter fun e => p e.2).map (·.1)
  if gone = [] then s
  else { s with threads := s.threads.filter fun e => !p e.2, fab := s.fab.forget gone }

/-- The operations of a thread that is gone: those that have performed or failed are over, the others go on in the order of their streams
(R31, R409) and count on no token; its held journal entries are freed. -/
def State.orphan (s : State) (u : Uid) : State :=
  let over_ (o : Op) : Bool :=
    match o.phase with
    | .performed | .finished | .failed _ | .returning _ => decide (o.uid = u)
    | _ => false
  { s with
    ops := (s.ops.filter fun e => !over_ e.2).map fun e =>
      if e.2.uid = u then (e.1, { e.2 with tok := none }) else e
    cores := s.cores.map fun e => (e.1, { e.2 with journal := e.2.journal.filter fun j => !(j.2.held && decide (j.2.uid = u)) }) }

def State.dropThread (s : State) (u : Uid) : State :=
  let s := s.orphan u
  { s with threads := mapErase s.threads u, fab := s.fab.forget [u] }

/-! ## The scrub (step 6 of R31, R109) -/

/-- Pages of suspended jobs that stay in place in a bank (R206). -/
def State.keptPage (s : State) (p page : Nat) : Bool :=
  s.jobs.any fun e => (e.2.saved.map fun v => v.kept.contains (p * 48 + page)).getD false

/-- Clears one page of a bank, with its bits. -/
def State.clearPage (s : State) (p page : Nat) : State :=
  let here (k : Nat) : Bool := decide (k / 4096 = p * 64 + page)
  s.modMs fun m => { m with
    mem := m.mem.filter fun c => !here c.1
    full := m.full.filter fun g => !here (g * 16)
    poison := m.poison.filter fun g => !here (g * 16)
    weak := m.weak.filter fun g => !here (g * 16)
    race := m.race.filter fun e => !here (e.1 * 64)
    lmap := setDel m.lmap (p * 48 + page) }

/-- SPLIM as the launch sets it (R224). -/
def Job.splim0 (j : Job) : Nat := eventOff - j.spill * 1024

/-- Whether a job that was granted a core must first claim a page there: its context area, its constant bank or its spill
carve-out (R206; log entry 31). -/
def State.claimsDue (s : State) (p : Pcn) : Bool :=
  let tag := s.owner (tileOf p)
  let j := s.job tag
  s.jobs.any fun e => decide (e.1 ≠ tag) && (e.2.saved.map fun v => v.kept.any fun k =>
    decide (k / 48 = p) && (decide (k % 48 ≤ j.cbBase.toNat / 4096) || decide (j.splim0 / 4096 ≤ k % 48))).getD false

/-- Whether a job is suspended and flushed: its load-store units release nothing (R204). -/
def State.jobFlushed (s : State) (tag : Nat) : Bool := ((s.job tag).saved.map (·.flushed)).getD false

/-- Clears a core's bank, bits, entries, caches and queues; loads that wait on the bank fail with REASON 0x07. -/
def State.scrubCore (s : State) (p : Pcn) : State :=
  let s := (s.waitersAt p).foldl State.discardReported s
  let goes (off : Nat) : Bool := !s.keptPage p (off / 4096)
  let cell (k : Nat) : Bool := decide (k / 2 ^ 18 ≠ p) || !goes (k % 2 ^ 18)
  let page (k : Nat) : Bool := decide (k / 48 ≠ p) || s.keptPage p (k % 48)
  let s := s.modMs fun m => { m with
    mem := m.mem.filter fun c => cell c.1
    full := m.full.filter fun g => cell (g * 16)
    poison := m.poison.filter fun g => cell (g * 16)
    weak := m.weak.filter fun g => cell (g * 16)
    lmpu := m.lmpu.filter fun e => decide (e.1 / 48 ≠ p)
    lmap := m.lmap.filter page
    race := m.race.filter fun e => decide (e.1 * 64 / 2 ^ 18 ≠ p) }
  s.modCore p fun c => { Core.reset with
    status := .scrub
    att := c.att
    engfrz := c.engfrz
    correctable := c.correctable
    nextIssue := c.nextIssue }

/-- Scrubs a tile's cores and empties its link FIFOs. -/
def State.scrubTile (s : State) (t : Nat) : State :=
  let s := (coresOf t).foldl State.scrubCore s
  s.modFab fun f => { f with
    links := f.links.filter fun e => decide (e.1 / 4 ≠ t)
    flight := f.flight.filter fun b => decide (b.fifo / 4 ≠ t)
    matrix := mapErase f.matrix t }

/-! ## The settle step (step 3 of R31) -/

/-- Whether an address names a byte of a tile's banks, for a core. -/
def inTile (p : Pcn) (t : Nat) (a : Word) : Bool :=
  match winOf p a with
  | .bank q _ _ => decide (tileOf q = t)
  | _ => false

/-- Whether an operation reads or writes a tile's banks. -/
def Op.touches (o : Op) (t : Nat) : Bool :=
  let i := inTile o.pcn t
  (o.pieces.any fun p => (p.rd.map i).getD false || (p.wr.map i).getD false) ||
  match o.kind with
  | .alu .. | .fpu .. | .tpress .. | .mzero .. => false
  | .spawn r tgt => i tgt || (!o.hop && i r)
  | .signal ob p len => i ob || (!o.hop && len != 0 && i p)
  | .cpy d src _ => i d || i src
  | .mma a b .. | .mmod a b .. => decide (o.phase = .queued) && ((wfld a 62 2 != 2 && i (descAddr a)) || (wfld b 62 2 != 2 && i (descAddr b)))
  | .cpy2d .. | .cpyl .. | .mcrd .. => decide (o.phase = .queued) && i o.kind.addr
  | k => i k.addr

/-- Whether an MCRD names a core of a tile: by its record, kept or still in its bank. -/
def State.mcrdNames (s : State) (o : Op) (t : Nat) : Bool :=
  match o.kind with
  | .mcrd _ _ r =>
    let bs := if o.result = [] then
        match winOf o.pcn r with
        | .bank q off _ => memRead s.ms.mem (bankKey q off) 16
        | _ => []
      else o.result
    (mcrdCores (dieOf o.pcn) bs).any fun q => decide (tileOf q = t)
  | _ => false

/-- An operation whose record is on its way to a pool. -/
def Op.isPooling (o : Op) : Bool :=
  match o.phase with
  | .pooling _ => true
  | _ => false

/-- Settles the operations in flight of its owner at a tile whose cores have stopped: one that had performed a write completes, and the
others that touch its banks or stand in its engine queues are discarded. -/
def State.settleTile (s : State) (t : Nat) : State :=
  let queued (id : OpId) : Bool := (coresOf t).any fun p => (s.core p).copyQ.contains id || (s.core p).matQ.contains id
  let hit := s.ops.filter fun e => decide (e.2.job = s.owner t) && (e.2.touches t || queued e.1) && !e.2.wrote && !s.mcrdNames e.2 t &&
    !e.2.isPooling
  hit.foldl (fun s e =>
    let s := if e.2.phase = .started then s.releaseEngine e.1 e.2 else s
    let s := s.mapCores fun _ c => { c with copyQ := c.copyQ.erase e.1, matQ := c.matQ.erase e.1 }
    s.discardReported e.1) s

/-! ## Moves in transit when a party stops (R36, R37) -/

/-- Cancels a move before its stop: its locks clear, its upcall ends, both epochs advance (R37). -/
def State.cancelMove (s : State) (m : Move) : State :=
  let s := { s with moves := s.moves.erase m }
  let s := match m.upcall with
    | some u =>
      let t := s.thread u
      (if t.slot.isSome then s.closeParty t.pcn t.party else s).dropThread u
    | none => s
  (s.bumpEpoch m.donor).bumpEpoch m.goal

/-- A freeze or suspension of a job: each of its moves is cancelled, or goes on after its stop (R37). -/
def State.settleMoves (s : State) (tag : Nat) : State :=
  let mine := s.moves.filter fun m => decide (m.donor = tag) || decide (m.goal = tag)
  mine.foldl (fun s m =>
    if !m.stopped then s.cancelMove m
    else if m.goal = tag then
      { s with moves := s.moves.map fun (x : Move) => if x = m then { x with toIdle := true } else x }
    else s) s

/-- The moves towards a job that is over commit to idle, and no later job that is given its tag is named by them (R36, R201). -/
def State.movesToIdle (s : State) (tag : Nat) : State :=
  { s with moves := s.moves.map fun (m : Move) =>
      if m.gainer = tag then { m with gainer := tagOf (tagDie tag) 0, toIdle := true } else m }

/-- The donors of the moves towards a job that its stop cancels, and whose loss upcalls end with them. -/
def State.cancelledDonors (s : State) (tag : Nat) : List Nat :=
  (s.moves.filter fun m => decide (m.goal = tag) && !m.stopped).map (·.donor)

/-! ## Preparing a bank (R104, R106, R206) -/

/-- The launch's LMPU entry of a page (R104). -/
def Job.lmpuPage (j : Job) (page : Nat) : Byte :=
  let cb := j.cbBase.toNat / 4096
  let sp := j.splim0 / 4096
  if page < cb then 0b10000
  else if page = cb then 0b00001
  else if sp ≤ page then 0b00011
  else BitVec.ofNat 8 (3 + (if j.rc ∧ page ≤ cb + 8 then 4 else 0) + (if j.lz then 8 else 0))

/-- Pages of a core are mapped for a job: their LMPU entries, and the LMAP bits of those that the launch assigns (R104, R106). -/
def State.mapPages (s : State) (tag : Nat) (p : Pcn) (pages : List Nat) : State :=
  let j := s.job tag
  let cb := j.cbBase.toNat / 4096
  s.modMs fun m => { m with
    lmpu := pages.foldl (fun l k => mapSet l (p * 48 + k) (j.lmpuPage k)) m.lmpu
    lmap := ([cb, 47].filter pages.contains).foldl (fun l k => setIns l (p * 48 + k)) m.lmap }

/-- A core of a job's tile is made ready, but for pages that a suspended job keeps there. -/
def State.mapBank (s : State) (tag : Nat) (p : Pcn) : State := s.mapPages tag p ((List.range 48).filter fun k => !s.keptPage p k)

/-- The constant bank's page as a launch fills it: the image, then zeros (R104, R224). -/
def cbPage (image : List (BitVec 32)) : List Byte :=
  let bs := image.flatMap fun w => leBytes 4 w.toNat
  bs ++ List.replicate (4096 - bs.length) 0

/-- Pages that a suspended job kept in a bank are the bank's new owner's: mapped, and the constant bank filled, if it was one of them
(R206, R207). `was`: the suspended job. -/
def State.takePages (s : State) (was p : Nat) (pages : List Nat) : State :=
  let tag := s.owner (tileOf p)
  let j := s.job tag
  if isIdle tag || tag == was then s
  else
    let s := s.mapPages tag p pages
    if pages.contains (j.cbBase.toNat / 4096) then s.bankStore p j.cbBase.toNat (cbPage j.image) else s

/-! ## What a core may do -/

/-- Whether a core may take work: LIVE, of an active job, on a tile that a border move has not stopped (R31, R201, R204). -/
def State.coreUp (s : State) (p : Pcn) : Bool :=
  decide ((s.core p).status = .live) && s.jobActive (s.owner (tileOf p)) && !s.claimsDue p &&
  !s.moves.any fun m => decide (m.tile = tileOf p) && m.stopped

/-- Whether a blocked thread of a core may trap, or return from a handler: not while the core issues nothing (R31, R204, R212). -/
def State.mayDeliver (s : State) (p : Pcn) : Bool := s.coreUp p && !(s.core p).halted

/-! ## Completion word and territory release (R36, R225) -/

/-- The queues of a function in the order of their numbers within it (R221). -/
def State.queuesOf (s : State) (fn : Nat) : List Nat :=
  (s.hub.queues.filter fun e => e.2.bound && decide (e.2.regs.fn = fn)).map (·.1)

/-- Raises the MSI-X vector of a queue: that of its function numbered as the queue is within the function (R219, R225; log entry 84). -/
def State.raiseVector (s : State) (q : Nat) : State :=
  let fn := ((mapGet? s.hub.queues q).map (·.regs.fn)).getD 0
  s.say (.msix fn ((s.queuesOf fn).idxOf q))

/-- A session that has heard nothing for 2 × HeartbeatPeriod (R245). -/
def Session.due (x : Session) (gts : Word) : Bool := x.secured && x.period != 0 && !gts.ult x.deadline

/-- The deadline of the session that a job's key belongs to has come: its timeout is ordered ahead of any end of the job (R246). -/
def State.sessionDue (s : State) (j : Job) : Bool :=
  match (mapGet? s.lan.slots j.keyslot).bind fun k => mapGet? s.lan.sessions k.session with
  | some x => x.due s.gts
  | none => false

/-- The machine in which a job's accesses translate as at its end, whatever its tag is now given to. -/
def Notice.view (x : Notice) (s : State) : State :=
  if (s.liveJob? x.tag).map (·.serial) = some x.job.serial then s
  else (s.setJob x.tag x.job).modFab fun f => { f with tlb := f.tlb.filter fun t => decide (t.tag ≠ x.tag) }

/-- The word of a notice, written as the job's access, and the vector raised after it (R225); none: a line that it needs is busy. One that
cannot be merged into its sector is not written (R111, R238). -/
def State.tryNotice (s : State) (x : Notice) : Option State :=
  let va := x.job.doneCtr
  let die := tagDie x.tag
  let w := x.status + x.cause % 256 * 256 + (s.gts.toNat % 2 ^ 48) * 65536
  let v := x.view s
  if v.walkWaits (sliceNo die va) x.tag x.job.ptRoot va then none
  else match v.xlatNow x.tag va 8 ⟨false, true, true, true⟩ with
    | .ok owner pa pte e =>
      let key := ownerKey owner pa
      if s.keyBusy key 8 then none
      else
        let s := if owner = die then s else s.countForward die va pte
        let s := s.checkTags owner va key 8 (some (s.winInst e)) (masterJob x.tag) true
        let s := if s.unmergeable key 8 then s else s.plainWrite (some (s.winInst e)) key (leBytes 8 w)
        some (s.raiseVector x.job.queue)
    | _ => some (s.raiseVector x.job.queue)

/-- The completion words that can be written now are, in the order in which their jobs ended. -/
def State.runNotices (s : State) : State :=
  s.hub.notices.foldl (fun s x =>
    match s.tryNotice x with
    | some s => s.modHub fun h => { h with notices := h.notices.erase x }
    | none => s) s

/-- A job's completion word is due (R225). A session that was lost by then is its status (R246). -/
def State.notify (s : State) (tag : Nat) (status cause : Nat) : State :=
  let j := s.job tag
  let (status, cause) := if s.sessionDue j then (0x05, 0) else (status, cause)
  (s.modHub fun h => { h with notices := h.notices ++ [⟨tag, j, status, cause⟩] }).runNotices

/-- A tile on its way to idle: step 6 of R31 begins at once, or when the job's operations have completed (`scrub`). -/
def State.releaseTile (s : State) (tag : Nat) (scrub : Bool) (t : Nat) : State :=
  let s := if scrub then s.scrubTile t else s
  let (id, s) := s.takeId
  { s with moves := s.moves ++ [⟨t, tag, tagOf (tagDie tag) 0, id, none, s.gts, true, scrub, s.now, true, false, none⟩] }

/-- Sends every tile of a job that is not in transit through steps 6 and 7 of R31 towards idle (R36, R201). No request has passed for
such a tile, and it holds no transit lock (R21). -/
def State.releaseTerritory (s : State) (tag : Nat) (scrub : Bool) : State :=
  let mine := (s.tilesOf tag).filter fun t => !s.moves.any fun m => decide (m.tile = t)
  let s := mine.foldl (fun s t => s.releaseTile tag scrub t) s
  if (s.tilesOf tag) = [] then { s with jobs := s.jobs.filter fun e => decide (e.1 ≠ tag) } else s

/-- Records on their way to a pool that is gone: discarded, and a firing by another job completes (R52). -/
def State.dropPoolReqs (s : State) (tag : Nat) : State :=
  let (gone, keep) := s.fab.poolReqs.partition fun r => decide (r.tag = tag) && decide (r.ser = (s.job tag).serial)
  let s := s.modFab fun f => { f.quit (gone.map (·.id)) with poolReqs := keep }
  gone.foldl (fun s r =>
    match r.op with
    | some id => s.performOp id []
    | none => s) s

/-- Whether a job has operations in flight. -/
def State.jobBusy (s : State) (tag : Nat) : Bool := s.ops.any fun e => decide (e.2.job = tag)

/-- The end of a job: its last thread has exited and its pool is empty (R36). Its tiles are scrubbed once its operations in flight have
completed. -/
def State.endJob (s : State) (tag : Nat) : State :=
  let s := s.movesToIdle tag
  let s := s.notify tag 0x01 0
  let s := s.dropPoolReqs tag
  let s := s.modJob tag fun j => { j with status := .ended }
  s.releaseTerritory tag (!s.jobBusy tag)

/-- Whether a job has nothing left to run: no thread, no record in its pool, and none that its pool has dispatched to a core and that has not
started there, which is neither (log entry 88). -/
def State.jobSpent (s : State) (tag : Nat) : Bool :=
  match s.liveJob? tag with
  | none => false
  | some j =>
    decide (j.status = .active) && j.pool.isEmpty &&
    !(s.threads.any fun e => decide (e.2.job = tag)) &&
    !(s.cores.any fun e => e.2.dispatched.isSome && decide (s.owner (tileOf e.1) = tag))

/-- The shadow record of a handler that a job fault reports (R95). -/
def State.reportShadow (s : State) (t : Thread) : State :=
  match t.shadowRec with
  | some r => s.say (.faultRecord t.job r)
  | none => s

/-- Ends the job if nothing is left of it to run. -/
def State.endIfSpent (s : State) (tag : Nat) : State := if s.jobSpent tag then s.endJob tag else s

/-- The freeze of a job (R201): LOCK, stop, discard, empty the pool, notify, and let the territory pass to idle.
`status` is the completion status, `cause` the CAUSE that escalated. -/
def State.freezeJob (s : State) (tag : Nat) (status cause : Nat) : State :=
  match s.liveJob? tag with
  | none => s
  | some j =>
    if j.status = .frozen then s
    else
      let s := (s.tilesOf tag).foldl (fun s t => s.lockTile t true) s
      let donors := s.cancelledDonors tag
      let s := donors.foldl (fun s a => s.endIfSpent a) ((s.settleMoves tag).movesToIdle tag)
      let s := s.dropThreads fun t => decide (t.job = tag)
      let s := s.discardOps fun o => decide (o.job = tag)
      let s := s.mapCores fun k c =>
        if s.owner (tileOf k) = tag then
          { c with dispatched := none, journal := [], copyQ := [], matQ := [], copyBusy := none }
        else c
      let s := s.modFab fun f => { f with deliveries := f.deliveries.filter fun d => !(decide (d.job = tag) && decide (d.serial = j.serial)) }
      let s := s.dropPoolReqs tag
      let s := s.modFab fun f => f.quit ((j.saved.map (·.id)).toList)
      let kept := (j.saved.map (·.kept)).getD []
      let s := kept.foldl (fun s k => s.clearPage (k / 48) (k % 48)) s
      let s := if j.status = .ended then s else s.notify tag status cause
      let s := s.modJob tag fun j => { j with status := .frozen, pool := [], saved := none, faultCause := cause }
      let s := ((kept.map (· / 48)).dedup).foldl (fun s p => s.takePages tag p ((kept.filter fun k => decide (k / 48 = p)).map (· % 48))) s
      s.releaseTerritory tag true

/-- Every job of a die freezes (R201). -/
def State.freezeDie (s : State) (die status : Nat) : State :=
  (s.jobs.filter fun e => decide (tagDie e.1 = die)).foldl (fun s e => s.freezeJob e.1 status 0) s

/-- Every job of the device freezes (R201). -/
def State.freezeDevice (s : State) (status : Nat) : State :=
  s.jobs.foldl (fun s e => s.freezeJob e.1 status 0) s

end Sys2Proof.Machine
end

