-- ==== Sys2Proof/Machine/Ops.lean ====
section
/-! DEFINITION. The operations that every meaning is made of: beginning and ending an instruction, the hazard checks, taking
an exception (R191 to R196) and returning from one (R95, R196, R406), and the delivery of token records and of refused
posted stores (R89, R198). -/

namespace Sys2Proof.Machine

/-- The outcome of a step of this machine. -/
abbrev Res := Host.Outcome State Fault Refusal

/-! ## Causes (R193) -/

def cIllegal : Nat := 0x01
def cPriv : Nat := 0x02
def cAlign : Nat := 0x03
def cLmpu : Nat := 0x04
def cAddr : Nat := 0x05
def cHazard : Nat := 0x06
def cUnderwait : Nat := 0x07
def cRace : Nat := 0x08
def cPstore : Nat := 0x09
def cAsync : Nat := 0x0A
def cTrapi : Nat := 0x0B
def cBkpt : Nat := 0x0C
def cFpx : Nat := 0x0D
def cModq : Nat := 0x0E
def cLmue : Nat := 0x0F
def cTokstate : Nat := 0x10
def cSpill : Nat := 0x11

/-- What a trap reports. `pair`: TRAPPC is a PFX although no prefix is in force: the trap is raised at the PFX itself (R213). -/
structure Trap where
  pair   : Bool
  code   : Nat
  tval   : Word
  tframe : Word
  fpc    : Word
  faddr  : Word
deriving DecidableEq, Repr

/-- A trap with no frame fields of its own. -/
def trapOf (code : Nat) (tval : Word) : Trap := ⟨false, code, tval, 0, 0, 0⟩

/-- A trap raised at a PFX (R213, R285). -/
def Trap.atPfx (t : Trap) : Trap := { t with pair := true }

/-- FPC and FADDR of a record (R195). -/
def trapOfRecord (code : Nat) (tval : Word) (r : FaultRec) : Trap :=
  let more := if 15 < r.more.toNat then 15 else r.more.toNat
  ⟨false, code, tval, 0, BitVec.ofNat 64 (more * 2 ^ 60 + r.reason.toNat * 2 ^ 52 + r.pc.toNat % 2 ^ 52), r.addr⟩

/-! ## Race regions (R145) -/

/-- Closes the region of the executing thread's slot. -/
def State.closeRegion (s : State) : State := s.closeParty s.me.pcn s.me.party

/-! ## Taking an exception -/

/-- STATUS of the trap frame (R195). -/
def Thread.statusWord (t : Thread) (held cause : Nat) (pair : Bool) : Word :=
  let strout := (List.range 8).foldl (fun n j => n + (t.live.streams.toList.getD j ⟨0, 0⟩).out * 2 ^ (16 + 6 * j)) 0
  BitVec.ofNat 64 (strout + (if t.pfx.isSome || pair then 2 ^ 14 else 0) + held % 64 * 2 ^ 8 + cause % 256)

/-- TOKOUT of the trap frame (R195). -/
def Thread.tokOut (t : Thread) : BitVec 128 :=
  BitVec.ofNat 128 ((List.range 16).foldl (fun n k => n + (t.live.tokens.toList.getD k ⟨0, 0⟩).out % 256 * 256 ^ k) 0)

/-- The thread after entry: the frame, the shadow bank, InHandler, and the handler's address (R95, R195). -/
def Thread.enter (t : Thread) (vec : Word) (held : Nat) (tr : Trap) : Thread :=
  { t with
    trapPc := t.trapPoint
    tval := tr.tval
    cause := BitVec.ofNat 64 tr.code
    tframe := tr.tframe
    fStatus := t.statusWord held tr.code tr.pair
    fTokOut := t.tokOut
    fPc := tr.fpc
    fAddr := tr.faddr
    shadow := TokenBank.reset
    shadowFail := 0
    shadowRec := none
    inHandler := true
    pfx := none
    pc := vec }

/-- Taking an exception in the executing thread (R195): a job fault with TRAPVEC = 0 or inside a handler, else the entry.
The first instruction of the handler issues no earlier than 3 cycles on. A thread that was blocked becomes READY there. -/
def State.takeTrap (s : State) (tr : Trap) : State :=
  let t := s.me
  let vec := (s.job t.job).trapVec
  if vec = 0 || t.inHandler then s.freezeJob t.job 0x02 tr.code
  else
    let held := (s.myCore.heldFor s.cur).length
    let s := s.closeRegion
    if t.status = .running then
      let s := s.modMe fun t => { t.enter vec held tr with lastIssue := s.now }
      s.modMyCore fun c => { c with nextIssue := s.now + 3 }
    else s.modMe fun t => { t.enter vec held tr with status := .ready, readySince := s.now, notBefore := s.now + 3 }

/-! ## Beginning and ending an instruction (R75 to R77) -/

/-- The cycle in which a thread of a core would issue: the first that the core and the thread allow, at the present GTS or later, and after
whatever another agent did last. Cores issue at one GTS in the order of R3, so that the cycle may be an earlier one of that GTS. -/
def State.turnAt (s : State) (c : Core) (t : Thread) : Nat := max (max c.nextIssue t.notBefore) (max s.back s.windowStart)

/-- The instruction's issue cycle comes, and the results due by then have fallen due. The quantum of a thread that R44 has just chosen
begins (R45). -/
def State.begin (s : State) : State :=
  let s := s.moveTo (s.turnAt s.myCore s.me)
  s.modMe fun t => { t.settle s.now with lastIssue := s.now, quantumAt := t.quantumAt.or (some s.now) }

/-- Ends an instruction of `size` bytes: the next issues `cost` cycles after it. -/
def State.finish (s : State) (size cost : Nat) : State :=
  let s := s.modMe fun t => { t with pc := t.pc + BitVec.ofNat 64 size, pfx := none }
  let s := s.modMyCore fun c => { c with nextIssue := s.now + cost }
  { s with fresh := s.fresh + operandSlots }

/-- Ends an instruction at another address, as a taken branch: 2 bubble cycles (R76). -/
def State.jumpTo (s : State) (target : Word) : State :=
  let s := s.modMe fun t => { t with pc := target, pfx := none }
  let s := s.modMyCore fun c => { c with nextIssue := s.now + 3 }
  { s with fresh := s.fresh + operandSlots }

/-- Thread `u`, blocked at an instruction of `size` bytes, becomes READY at the next one (R43). -/
def State.unblock (s : State) (u : Uid) (size : Nat) : State :=
  s.modThread u fun t => { t with
    pc := t.pc + BitVec.ofNat 64 size, pfx := none, status := .ready, readySince := s.now }

/-- A held issue: one cycle passes (R82). -/
def State.hold (s : State) : State := s.passCycles 1

/-- The executing thread is held in the cycle in which it would issue: time passes to the next one, and nothing else changes. -/
def State.holdMe (s : State) : State := s.moveTo (s.turnAt s.myCore s.me + 1)

/-! ## Checked mode (R81, R87) -/

/-- The register identifiers of R81. -/
def Reg.ident : Reg → Nat
  | .g r => r.val
  | .v r => 0x20 + r.val
  | .k r => 0x40 + r.val
  | .fstat => 0x50

/-- An under-waited read. -/
def State.readHazard (s : State) (r : Reg) : Option Trap :=
  match (s.me.producers r).getLast? with
  | some p => some (trapOf cHazard (BitVec.ofNat 64 (r.ident + (p.due - s.now) * 256)))
  | none => none

/-- A write that would fall due no later than an earlier one; of several, the latest (log entry 58). -/
def State.writeHazard (s : State) (lat : Nat) (r : Reg) : Option Trap :=
  let late := (s.me.pending.filter fun p => decide (p.reg = r) && decide (s.now + lat ≤ p.due)).foldl (fun m p => max m p.due) 0
  if r = .fstat ∨ late = 0 then none
  else some (trapOf cHazard (BitVec.ofNat 64 (r.ident + (late - (s.now + lat) + 1) * 256)))

/-- An access to a token-guarded register. -/
def State.guardHazard (s : State) (r : Reg) : Option Trap :=
  match (s.guards s.cur r).getLast? with
  | some (_, o) => some (trapOf cUnderwait (BitVec.ofNat 64 (r.ident + (o.tok.map (·.val)).getD 0 * 256)))
  | none => none

/-- The checks of checked mode, in the order of R194. `lat = 0`: a tokened operation, whose writes have no fixed latency. When one
instruction meets several, TVAL names the first in the order of its operands, reads before writes (log entry 58). -/
def State.hazard (s : State) (reads writes : List Reg) (lat : Nat) : Option Trap :=
  if !s.myCore.hzchk then none
  else
    ((reads.findSome? s.readHazard).or
      (if lat = 0 then none else writes.findSome? (s.writeHazard lat))).or
      ((reads ++ writes).findSome? s.guardHazard)

/-- A register fill from a poisoned granule of the context area (R111). -/
def State.coldTrap (s : State) (reads : List Reg) : Option Trap :=
  (s.me.coldPoison.find? fun x => reads.contains x.1).map fun x => trapOf cLmue (BitVec.ofNat 64 x.2)

/-- The causes that come between UNDERWAIT and LMUE in the order of R194. -/
def beforeLmue : List Nat := [cModq, cAddr, cAlign, cSpill, cLmpu, cRace]

/-- Whether `t`, which an instruction made of `s`, is the entry of a trap that comes before LMUE, or the job fault that such a trap escalated
to, or that is no trap's. -/
def State.trapFirst (s t : State) : Bool :=
  (!s.me.inHandler && t.me.inHandler && beforeLmue.contains t.me.cause.toNat) ||
  ((s.liveJob? s.me.job).map (·.status) != (t.liveJob? s.me.job).map (·.status) &&
    ((t.job s.me.job).faultCause == 0 || beforeLmue.contains (t.job s.me.job).faultCause))

/-- What an instruction does once its registers have passed checked mode: `body`, unless a register fill met a poisoned granule and the
body raised no earlier cause (R111, R194). -/
def State.afterChecks (s : State) (reads : List Reg) (body : State → State) : State :=
  match s.coldTrap reads with
  | none => body s
  | some tr => if s.trapFirst (body s) then body s else s.takeTrap tr

/-- An instruction that meets no cause before HAZARD: it begins, is checked, and does `body`. -/
def State.issue (s : State) (reads writes : List Reg) (lat : Nat) (body : State → State) : Res :=
  let s := s.begin
  .next (match s.hazard reads writes lat with
    | some tr => s.takeTrap tr
    | none => s.afterChecks reads body)

/-- A trap raised before the hazard checks (ILLEGAL, PRIV). -/
def State.raise (s : State) (tr : Trap) : Res := .next (s.begin.takeTrap tr)

/-- R193's TVAL of an ILLEGAL instruction: the 32 bits fetched at TRAPPC; those of its PFX when it has one. -/
def State.illegalWord (s : State) (i : Instr) : Word :=
  match s.me.pfx with
  | some p => (Sys2Proof.illegalTval (Instr.pfx p.mo p.mask8 p.ext15)).setWidth 64
  | none => (Sys2Proof.illegalTval i).setWidth 64

/-! ## Token records (R89, R95) -/

/-- The trap that delivers the record of token `k` of the bank in force, if it holds one. -/
def Thread.recordTrap (t : Thread) (k : Tok) : Option Trap :=
  if t.inHandler then
    if t.shadowFail.getLsbD k.val then
      some (match t.shadowRec with
        | some r => trapOfRecord cAsync (BitVec.ofNat 64 k.val) r
        | none => trapOf cAsync (BitVec.ofNat 64 k.val))
    else none
  else
    match t.live.records[k] with
    | none => none
    | some r =>
      if r.reason = 0x0A then some (trapOfRecord cFpx (r.addr &&& 0x1F) r)
      else some (trapOfRecord cAsync (BitVec.ofNat 64 k.val) r)

/-- Empties the slot of token `k` (R89). -/
def Thread.emptySlot (t : Thread) (k : Tok) : Thread := { t with live := { t.live with records := t.live.records.set k none } }

/-- The first token whose record a drain delivers. -/
def Thread.firstRecord (t : Thread) : Option Tok := (List.finRange 16).find? t.hasRecord

/-- Delivers the record of token `k` at the executing instruction. -/
def State.deliver (s : State) (k : Tok) : State :=
  match s.me.recordTrap k with
  | none => s
  | some tr =>
    let s := if s.me.inHandler then s.reportShadow s.me else s
    (s.modMe fun t => if t.inHandler then t else t.emptySlot k).takeTrap tr

/-! ## Refused posted stores (R198) -/

/-- The lowest journal entry that is held for a thread and has not been reported. -/
def State.pstoreFor (s : State) (u : Uid) : Option (Nat × JEntry) :=
  let t := s.thread u
  if t.inHandler then none
  else ((s.core t.pcn).heldFor u).find? fun e => !e.2.told

/-- The trap of a refused posted store, before the executing thread's next instruction; `pair`: that is a PFX (R195, R198). -/
def State.trapPstore (s : State) (e : Nat × JEntry) (pair : Bool) : State :=
  let s := s.modMyCore fun c => { c with journal := mapSet c.journal e.1 { e.2 with told := true } }
  s.takeTrap { trapOfRecord cPstore (BitVec.ofNat 64 e.1) ⟨e.2.pc, e.2.addr, e.2.reason, 0⟩ with pair := pair }

/-! ## Return from an exception (R95, R196, R406) -/

/-- The executing thread blocks where it stands; another may issue in the next cycle (R75). An upcall thread that blocks is preferred no
longer (R29). -/
def State.block (s : State) (w : Wait) : State :=
  let s := s.modMe fun t => { t with status := .waiting w, preferred := false }
  let s := s.modMyCore fun c => { c with nextIssue := s.now + 1 }
  { s with fresh := s.fresh + operandSlots }

/-- The return proper: the live counters and mask table, and the pc from TRAPPC. -/
def State.returnFromTrap (s : State) : State :=
  let s := s.closeRegion
  let s := s.modMe fun t => { t with inHandler := false }
  s.jumpTo s.me.trapPc

end Sys2Proof.Machine
end

