-- ==== Sys2Proof/Machine/Operands.lean ====
section
/-! DEFINITION. Operand forms: immediates and offsets with and without a PFX (R273, R285), the masks of streams (R131, R134),
effective addresses, the checks of addresses at issue (R99, R100), stack redirection (R67, R68), and instruction fetch
(R268). -/

namespace Sys2Proof.Machine

/-! ## PFX (R134, R213, R285) -/

/-- The bytes that a PFX adds to an address. -/
def Thread.pfxOff (t : Thread) : Word :=
  match t.pfx with
  | some p => p.ext15.signExtend 64
  | none => 0

/-- A signed field, with the PFX's ext15 as its high part when there is one. -/
def Thread.wide (t : Thread) {n : Nat} (f : BitVec n) : Word :=
  match t.pfx with
  | some p => (p.ext15 ++ f).signExtend 64
  | none => f.signExtend 64

/-- The mask that selector `m` gives the executing instruction. -/
def Thread.mask (t : Thread) (m : Sel) : Byte :=
  match t.pfx with
  | some p => if p.mo then p.mask8 else t.maskOf m
  | none => t.maskOf m

/-- How a PFX may govern an instruction: not at all, without a mask, or with one when its own m field is 0. -/
inductive PfxUse
  | no
  | plain
  | masked (m : Sel)
deriving DecidableEq, Repr

def Instr.pfxUse : Instr → PfxUse
  | .addi .. | .andi .. | .ori .. | .xori .. => .plain
  | .beq .. | .bne .. | .blt .. | .bge .. | .bltu .. | .bgeu .. | .bz .. | .bnz .. => .plain
  | .gbar .. => .plain
  | .ld _ _ _ m _ _ _ | .st _ _ _ m _ _ | .vld _ _ _ m _ | .vst _ _ _ m _ => .masked m
  | .ldx _ _ _ m _ _ _ | .ldxWf _ _ _ m _ _ _ | .ldxWfc _ _ _ m _ _ _ | .ldxMg _ _ _ m _ _ _ => .masked m
  | .stx _ _ _ m _ _ | .stxSf _ _ _ m _ _ | .stxNl _ _ _ m _ | .stxNh _ _ _ m _ => .masked m
  | .vldx _ _ _ m _ | .vldxWf _ _ _ m _ | .vldxWfc _ _ _ m _ | .vstx _ _ _ m _ | .vstxSf _ _ _ m _ => .masked m
  | .aadd _ _ _ m _ _ | .aand _ _ _ m _ _ | .aor _ _ _ m _ _ | .axor _ _ _ m _ _ | .amin _ _ _ m _ _
  | .amax _ _ _ m _ _ | .aminu _ _ _ m _ _ | .amaxu _ _ _ m _ _ | .aswp _ _ _ m _ _ | .acas _ _ _ m _ _ => .masked m
  | .chunk _ _ _ m _ | .watch _ _ _ m _ _ | .feclr _ _ m _ | .feset _ _ m _ => .masked m
  | .cpy _ _ _ _ _ m | .cpy2d _ _ _ _ _ m | .cpyl _ _ _ m | .mcrd _ _ _ _ _ m => .masked m
  | .mload _ _ _ _ _ m | .mdrain _ _ _ _ _ m => .masked m
  | .spawn _ _ _ _ m | .taskq _ _ _ m | .bind _ _ _ _ _ m | .signal _ _ _ _ _ m | .join _ _ _ m | .leave _ _ _ m => .masked m
  | _ => .no

/-- Whether a PFX may stand before an instruction (R134, R285). -/
def pfxLegal (mo : Bool) (mask8 : Byte) (i : Instr) : Bool :=
  (mo || mask8 == 0) &&
  match Instr.pfxUse i with
  | .no => false
  | .plain => !mo
  | .masked m => !mo || m == 0

/-! ## Addresses checked at issue (R97 to R100) -/

def Width.bytes : Width → Nat
  | .b8 => 1 | .h16 => 2 | .w32 => 4 | .d64 => 8
def AWidth.bytes : AWidth → Nat
  | .w32 => 4 | .d64 => 8

/-- An address in the local window (R97). -/
def isLocal (p : Pcn) (a : Word) : Bool :=
  match winOf p a with
  | .bank _ _ cw => !cw
  | _ => false

def isBank (p : Pcn) (a : Word) : Bool :=
  match winOf p a with
  | .bank .. => true
  | _ => false

def isGlobal (p : Pcn) (a : Word) : Bool := winOf p a == .global

/-- An address in any window that this core may name (R99). -/
def inWindow (p : Pcn) (a : Word) : Bool := isBank p a || isGlobal p a

/-- The ADDR and ALIGN checks of an access of `n` bytes at `a`, given whether its window is one it may use. -/
def addrTrap (ok : Bool) (a : Word) (n : Nat) : Option Trap :=
  if !ok then some (trapOf cAddr a)
  else if a.toNat % n ≠ 0 then some (trapOf cAlign a)
  else none

/-! ## Stacks (R67, R68) -/

/-- Z of R67. -/
def stackShare (splim : Word) (nimg : Nat) : Nat :=
  let size := eventOff - splim.toNat
  if size < 256 * nimg then 0 else size / nimg / 256 * 256

/-- The base of image k's stack. -/
def stackBase (splim : Word) (nimg k : Nat) : Word := splim + BitVec.ofNat 64 (k * stackShare splim nimg)
/-- Its top. -/
def stackTop (splim : Word) (nimg k : Nat) : Word := splim + BitVec.ofNat 64 ((k + 1) * stackShare splim nimg)

/-- The stack base of the executing thread. -/
def State.myStackBase (s : State) : Word := stackBase s.myCore.splim s.myJob.nimg (s.me.image.getD 0)

/-- A local access through G14 below the stack base is redirected (R68). -/
def State.isRedirected (s : State) (b : GReg) (a : Word) : Bool :=
  decide (b = 14) && isLocal s.me.pcn a && a.ult s.myStackBase

/-- The global address of a redirected access. -/
def State.redirectVa (s : State) (a : Word) : Word :=
  s.myCore.ovfptr + BitVec.ofNat 64 ((s.me.image.getD 0 + 1) * 0x100000) - (s.myStackBase - a)

/-- Whether a redirected access traps SPILL (R68): too deep, a bad OVFPTR, or a page that is unmapped or not writable. -/
def State.redirectTrap (s : State) (a : Word) (n : Nat) (store : Bool) : Option Trap :=
  let va := s.redirectVa a
  let o := s.myCore.ovfptr
  let bad := trapOf cSpill va
  if 0x100000 < (s.myStackBase - a).toNat then some bad
  else if o.toNat < 0x1000000 ∨ o.toNat % 65536 ≠ 0 then some bad
  else match s.xlat s.me.job va n ⟨!store, true, false, true⟩ with
    | .fail _ => some bad
    | _ => none

/-! ## Instruction fetch (R267, R268) -/

/-- What a fetch of bytes gives: the bytes, a line that the instruction cache lacks, or a failure at an address. -/
inductive Fetched
  | bytes (bs : List Byte)
  | miss (va : Word)
  | fail (va : Word)
deriving DecidableEq, Repr

/-- Bytes of an instruction-cache line (log entry 7). -/
def ilineBytes : Nat := 64

/-- One halfword through the core's instruction cache. -/
def State.fetchHalf (s : State) (p : Pcn) (tag : Nat) (va : Word) : Fetched :=
  let a := va.toNat
  if a < 0x1000000 ∨ 2 ^ 52 ≤ a then .fail va
  else
    match (s.core p).icache.find? fun l => decide (l.job = tag) && decide (l.addr = a / ilineBytes) with
    | some l => .bytes ((l.data.drop (a % ilineBytes)).take 2)
    | none => if s.fetchable tag va then .miss va else .fail va

/-- `n` further halfwords after the bytes already fetched. -/
def State.fetchMore (s : State) (p : Pcn) (tag : Nat) : Nat → Word → List Byte → Fetched
  | 0, _, bs => .bytes bs
  | n + 1, va, bs =>
    match s.fetchHalf p tag va with
    | .bytes h => s.fetchMore p tag n (va + 2) (bs ++ h)
    | r => r

/-- An instruction as fetched and decoded at an address. -/
inductive FetchedInstr
  | instr (i : Instr) (size : Nat)
  | illegal (tval : BitVec 32)
  | miss (va : Word)
  | fail (va : Word)
deriving DecidableEq, Repr

/-- Fetches as many halfwords as the decoder asks for, at most eight bytes. -/
def State.fetchGo (s : State) (p : Pcn) (tag : Nat) (pc : Word) : Nat → List Byte → FetchedInstr
  | 0, _ => .illegal 0
  | fuel + 1, bs =>
    match decode bs with
    | .instr i n => .instr i n
    | .illegal t => .illegal t
    | .short need =>
      match s.fetchMore p tag ((need - bs.length) / 2) (pc + BitVec.ofNat 64 bs.length) bs with
      | .bytes bs' => s.fetchGo p tag pc fuel bs'
      | .miss va => .miss va
      | .fail va => .fail va

/-- The instruction at an address, for a job on a core. -/
def State.fetchInstr (s : State) (p : Pcn) (tag : Nat) (pc : Word) : FetchedInstr := s.fetchGo p tag pc 4 []

end Sys2Proof.Machine
end

