-- ==== Sys2Proof/Machine/Scalar.lean ====
section
/-! DEFINITION. The scalar integer instructions (R312, R313, R315, R316, R327, R335, R369 to R371, R382, R383, R385, R389,
R425, R427) and ADDPC (R314). None raises a flag; latencies are those of R78. -/

namespace Sys2Proof.Machine

/-! ## The shapes -/

/-- Gd from Ga and Gb. -/
def State.alu3 (s : State) (size lat : Nat) (d a b : GReg) (f : Word → Word → Word) : Res :=
  s.issue [.g a, .g b] [.g d] lat fun s => (s.retireG d lat (f (s.readG 0 a) (s.readG 1 b))).finish size 1

/-- Gd from Ga. -/
def State.alu2 (s : State) (size lat : Nat) (d a : GReg) (f : Word → Word) : Res :=
  s.issue [.g a] [.g d] lat fun s => (s.retireG d lat (f (s.readG 0 a))).finish size 1

/-- Gd from nothing. -/
def State.alu1 (s : State) (size : Nat) (d : GReg) (v : Word) : Res :=
  s.issue [] [.g d] 1 fun s => (s.retireG d 1 v).finish size 1

/-- Gd from Ga and a signed immediate, which a PFX widens to 29 bits (R285). -/
def State.aluImm (s : State) (d a : GReg) (i : BitVec 14) (f : Word → Word → Word) : Res :=
  s.issue [.g a] [.g d] 1 fun s => (s.retireG d 1 (f (s.readG 0 a) (s.me.wide i))).finish 4 1

/-! ## Functions -/

/-- A shift amount: Gb[5:0] (R371). -/
def shAmt (b : Word) : Nat := b.toNat % 64
def shlW (a b : Word) : Word := a <<< shAmt b
def shrW (a b : Word) : Word := a >>> shAmt b
def sarW (a b : Word) : Word := a.sshiftRight (shAmt b)
def minW (a b : Word) : Word := if a.slt b then a else b
def minuW (a b : Word) : Word := if a.ult b then a else b
def maxW (a b : Word) : Word := if a.slt b then b else a
def maxuW (a b : Word) : Word := if a.ult b then b else a
def boolW (b : Bool) : Word := if b then 1 else 0
def sltW (a b : Word) : Word := boolW (a.slt b)
def sltuW (a b : Word) : Word := boolW (a.ult b)
def seqW (a b : Word) : Word := boolW (a == b)
/-- The high 64 bits of the signed product. -/
def mulhW (a b : Word) : Word := BitVec.ofInt 64 (a.toInt * b.toInt / 2 ^ 64)
/-- The high 64 bits of the unsigned product. -/
def mulhuW (a b : Word) : Word := BitVec.ofNat 64 (a.toNat * b.toNat / 2 ^ 64)

/-- Zero bits above the highest 1 (R327). -/
def clzW (a : Word) : Word := if a = 0 then 64 else BitVec.ofNat 64 (63 - Nat.log2 a.toNat)
/-- Zero bits below the lowest 1 (R335). -/
def ctzW (a : Word) : Word := BitVec.ofNat 64 (((List.range 64).find? a.getLsbD).getD 64)
def popcW (a : Word) : Word := BitVec.ofNat 64 ((List.range 64).countP a.getLsbD)

/-- Bits of a width. -/
def widthBits : Width → Nat
  | .b8 => 8 | .h16 => 16 | .w32 => 32 | .d64 => 64
def sextW (w : Width) (a : Word) : Word := (a.setWidth (widthBits w)).signExtend 64
def zextW (w : Width) (a : Word) : Word := (a.setWidth (widthBits w)).setWidth 64

/-- A halfword placed at position `h`. -/
def atHw (h : Hw) (i : BitVec 16) : Word := i.setWidth 64 <<< (16 * h.val)
/-- MOVK: the halfword at position `h` replaced (R383). -/
def insertHw (old : Word) (h : Hw) (i : BitVec 16) : Word := (old &&& ~~~(atHw h 0xFFFF)) ||| atHw h i

/-! ## Meanings -/

def execAdd (d a b : GReg) (s : State) : Res := s.alu3 4 1 d a b (· + ·)
def execSub (d a b : GReg) (s : State) : Res := s.alu3 4 1 d a b (· - ·)
def execAnd (d a b : GReg) (s : State) : Res := s.alu3 4 1 d a b (· &&& ·)
def execOr (d a b : GReg) (s : State) : Res := s.alu3 4 1 d a b (· ||| ·)
def execXor (d a b : GReg) (s : State) : Res := s.alu3 4 1 d a b (· ^^^ ·)
def execShl (d a b : GReg) (s : State) : Res := s.alu3 4 1 d a b shlW
def execShr (d a b : GReg) (s : State) : Res := s.alu3 4 1 d a b shrW
def execSar (d a b : GReg) (s : State) : Res := s.alu3 4 1 d a b sarW
def execMin (d a b : GReg) (s : State) : Res := s.alu3 4 1 d a b minW
def execMinu (d a b : GReg) (s : State) : Res := s.alu3 4 1 d a b minuW
def execMax (d a b : GReg) (s : State) : Res := s.alu3 4 1 d a b maxW
def execMaxu (d a b : GReg) (s : State) : Res := s.alu3 4 1 d a b maxuW
def execSlt (d a b : GReg) (s : State) : Res := s.alu3 4 1 d a b sltW
def execSltu (d a b : GReg) (s : State) : Res := s.alu3 4 1 d a b sltuW
def execSeq (d a b : GReg) (s : State) : Res := s.alu3 4 1 d a b seqW
def execMul (d a b : GReg) (s : State) : Res := s.alu3 4 3 d a b (· * ·)
def execMulh (d a b : GReg) (s : State) : Res := s.alu3 4 3 d a b mulhW
def execMulhu (d a b : GReg) (s : State) : Res := s.alu3 4 3 d a b mulhuW
/-- The 16-bit form is ADD Gd, Gd, Gs (R269). -/
def execAddShort (d r : GReg) (s : State) : Res := s.alu3 2 1 d d r (· + ·)
def execSubShort (d r : GReg) (s : State) : Res := s.alu3 2 1 d d r (· - ·)
def execClz (d a : GReg) (s : State) : Res := s.alu2 4 2 d a clzW
def execCtz (d a : GReg) (s : State) : Res := s.alu2 4 2 d a ctzW
def execPopc (d a : GReg) (s : State) : Res := s.alu2 4 2 d a popcW
def execSext (d a : GReg) (w : Width) (s : State) : Res := s.alu2 4 1 d a (sextW w)
def execZext (d a : GReg) (w : Width) (s : State) : Res := s.alu2 4 1 d a (zextW w)

/-- SEL reads Gd as its condition: Ga where it is not 0, Gb otherwise (R370, R371). -/
def execSel (d a b : GReg) (s : State) : Res :=
  s.issue [.g a, .g b, .g d] [.g d] 1 fun s =>
    (s.retireG d 1 (if s.readG 2 d ≠ 0 then s.readG 0 a else s.readG 1 b)).finish 4 1

def execAddi (d a : GReg) (i : BitVec 14) (s : State) : Res := s.aluImm d a i (· + ·)
def execAndi (d a : GReg) (i : BitVec 14) (s : State) : Res := s.aluImm d a i (· &&& ·)
def execOri (d a : GReg) (i : BitVec 14) (s : State) : Res := s.aluImm d a i (· ||| ·)
def execXori (d a : GReg) (i : BitVec 14) (s : State) : Res := s.aluImm d a i (· ^^^ ·)
def execAddiShort (d : GReg) (i : BitVec 7) (s : State) : Res := s.alu2 2 1 d d (· + i.signExtend 64)
def execShli (d a : GReg) (n : BitVec 6) (s : State) : Res := s.alu2 4 1 d a (· <<< n.toNat)
def execShri (d a : GReg) (n : BitVec 6) (s : State) : Res := s.alu2 4 1 d a (· >>> n.toNat)
def execSari (d a : GReg) (n : BitVec 6) (s : State) : Res := s.alu2 4 1 d a (BitVec.sshiftRight · n.toNat)
def execShliShort (d : GReg) (n : BitVec 6) (s : State) : Res := s.alu2 2 1 d d (· <<< n.toNat)
def execMovi (d : GReg) (h : Hw) (i : BitVec 16) (s : State) : Res := s.alu1 4 d (atHw h i)
def execMovk (d : GReg) (h : Hw) (i : BitVec 16) (s : State) : Res := s.alu2 4 1 d d (insertHw · h i)
/-- MOV is ORI Gd, Gs, 0 (R269, R382). -/
def execMov (d r : GReg) (s : State) : Res := s.alu2 2 1 d r id
/-- ADDPC adds a halfword offset to its own address (R268, R314). -/
def execAddpc (d : GReg) (i : BitVec 19) (s : State) : Res :=
  s.alu1 4 d (s.me.pc + i.signExtend 64 * 2)
def execLit (d : GReg) (l : BitVec 32) (s : State) : Res := s.alu1 8 d (l.signExtend 64)
def execLitZ (d : GReg) (l : BitVec 32) (s : State) : Res := s.alu1 8 d (l.setWidth 64)
/-- LIT.H keeps Gd[31:0], which it reads at issue (R369). -/
def execLitH (d : GReg) (l : BitVec 32) (s : State) : Res :=
  s.alu2 8 1 d d fun g => l ++ g.setWidth 32

/-- DLY (R77, R339). -/
def execDly (n : BitVec 4) (s : State) : Res := s.issue [] [] 0 fun s =>
  (s.modMe fun t => { t with notBefore := s.now + n.toNat }).finish 2 n.toNat

end Sys2Proof.Machine
end

