-- ==== Sys2Proof/Machine/Branch.lean ====
section
/-! DEFINITION. Branches, calls and returns (R317, R318, R322 to R324, R360). An offset counts halfwords from the branch
itself, not from its PFX (R268). -/

namespace Sys2Proof.Machine

/-- A conditional branch of `size` bytes on two operands: taken with 2 bubbles, or on to the next instruction (R76, R318). -/
def State.branch2 (s : State) (a b : GReg) (o : BitVec 13) (c : Word → Word → Bool) : Res :=
  s.issue [.g a, .g b] [] 0 fun s =>
    if c (s.readG 0 a) (s.readG 1 b) then s.jumpTo (s.me.pc + s.me.wide o * 2) else s.finish 4 1

/-- A conditional branch on one operand. -/
def State.branch1 (s : State) (size : Nat) (a : GReg) (off : Word) (c : Word → Bool) : Res :=
  s.issue [.g a] [] 0 fun s =>
    if c (s.readG 0 a) then s.jumpTo (s.me.pc + off * 2) else s.finish size 1

def execBeq (a b : GReg) (o : BitVec 13) (s : State) : Res := s.branch2 a b o (· == ·)
def execBne (a b : GReg) (o : BitVec 13) (s : State) : Res := s.branch2 a b o (· != ·)
def execBlt (a b : GReg) (o : BitVec 13) (s : State) : Res := s.branch2 a b o BitVec.slt
def execBge (a b : GReg) (o : BitVec 13) (s : State) : Res := s.branch2 a b o fun x y => !x.slt y
def execBltu (a b : GReg) (o : BitVec 13) (s : State) : Res := s.branch2 a b o BitVec.ult
def execBgeu (a b : GReg) (o : BitVec 13) (s : State) : Res := s.branch2 a b o fun x y => !x.ult y
def execBz (a : GReg) (o : BitVec 13) (s : State) : Res := s.branch1 4 a (s.me.wide o) (· == 0)
def execBnz (a : GReg) (o : BitVec 13) (s : State) : Res := s.branch1 4 a (s.me.wide o) (· != 0)
def execBnzShort (d : GReg) (o : BitVec 7) (s : State) : Res := s.branch1 2 d (o.signExtend 64) (· != 0)

/-- BR (R322). -/
def execBr (o : BitVec 24) (s : State) : Res :=
  s.issue [] [] 0 fun s => s.jumpTo (s.me.pc + o.signExtend 64 * 2)

/-- CALL: LK takes the address of the next instruction, at latency 1 (R323). -/
def execCall (o : BitVec 24) (s : State) : Res :=
  s.issue [] [.g 15] 1 fun s => (s.retireG 15 1 (s.me.pc + 4)).jumpTo (s.me.pc + o.signExtend 64 * 2)

/-- JR, and RET as JR G15 (R360, R388). -/
def execJr (a : GReg) (s : State) : Res :=
  s.issue [.g a] [] 0 fun s => s.jumpTo (s.readG 0 a &&& ~~~1)

/-- CALLR: the target is read before LK is written (R324). -/
def execCallr (a : GReg) (s : State) : Res :=
  s.issue [.g a] [.g 15] 1 fun s => (s.retireG 15 1 (s.me.pc + 4)).jumpTo (s.readG 0 a &&& ~~~1)

end Sys2Proof.Machine
end

