-- ==== Sys2Proof/Machine/Csr.lean ====
section
/-! DEFINITION. Halt groups (R210, R211), CSRR, CSRW and CSRX (R332 to R334) with the registers of R333, and the CSR writes
that opcode_table.json lists as steps of their own (R28, R45, R160, R174, R195, R196, R199, R202, R210). -/

namespace Sys2Proof.Machine

/-! ## Stops (R211) -/

/-- What raised a stop, as a group records it (log entry 10: R211 gives no code). -/
def stopHalt : Nat := 0
def stopBkpt : Nat := 1
def stopStep : Nat := 2
def stopDebugger : Nat := 3

/-- The core that a core becomes when a stop halts it. -/
def Core.halt (c : Core) (cause : Nat) : Core :=
  { c with halted := true, stepping := false, stopCause := c.stopCause.or (some cause) }

/-- Halts every member of the groups in `groups`, on all dies; a group's first stop is its cause. -/
def State.haltGroups (s : State) (groups : BitVec 4) (cause : Nat) : State :=
  let s := { s with groups := Vector.ofFn fun g => if groups.getLsbD g.val then s.groups[g].or (some cause) else s.groups[g] }
  s.mapCores fun _ c =>
    if c.hgmask &&& groups ≠ 0 then { c.halt cause with haltGrp := c.haltGrp ||| (c.hgmask &&& groups) } else c

/-- A stop that names a core: it halts, and so do its groups. -/
def State.stopCore (s : State) (p : Pcn) (cause : Nat) : State :=
  (s.modCore p fun c => c.halt cause).haltGroups (s.core p).hgmask cause

/-- A single step ends: the core halts (R212). -/
def State.endStep (s : State) (p : Pcn) : State := if (s.core p).stepping then s.stopCore p stopStep else s

/-- Groups that halt no core any more have no cause. -/
def State.freeGroups (s : State) : State :=
  { s with groups := Vector.ofFn fun g =>
      if s.cores.any fun e => e.2.halted && e.2.haltGrp.getLsbD g.val then s.groups[g] else none }

/-! ## Reads (R333) -/

/-- STATE of R10. -/
def CoreStatus.code : CoreStatus → Nat
  | .live => 0 | .scrub => 1 | .dark => 2

/-- CORESTATE as a read gives it (R202). -/
def State.coreStateWord (s : State) : Word :=
  let p := s.me.coreName.getD s.me.pcn
  BitVec.ofNat 64 ((s.core p).status.code * 2 ^ 13 + p % 8192)

/-- JRNL (R199). -/
def State.jrnlWord (s : State) : Word :=
  let c := s.myCore
  BitVec.ofNat 64 (c.journal.length * 2 ^ 32 + (c.heldFor s.cur).foldl (fun n e => n + 2 ^ e.1) 0)

/-- CFG (R45). -/
def Core.cfgWord (c : Core) : Word :=
  BitVec.ofNat 64 ((if c.l1fuse then 256 else 0) + c.slice.toNat * 16 + (if c.hzchk then 1 else 0))

/-- DBGCTL (R210). -/
def Core.dbgctlWord (c : Core) : Word :=
  BitVec.ofNat 64 (c.engfrz.toNat * 256 + (if c.step then 4 else 0) + (if c.att then 1 else 0))

/-- A CSR as the executing thread reads it; an unlisted number reads 0 (R334). FSTAT is operand 1. UPARG of a thread that
is no upcall thread reads 0, or what that thread last wrote to it (R28, R46; log entry 76). -/
def State.csrRead (s : State) (n : Nat) : Word :=
  let t := s.me
  let c := s.myCore
  let j := s.myJob
  match n with
  | 0x000 => t.tid.setWidth 64
  | 0x001 => t.lcn.setWidth 64
  | 0x002 => BitVec.ofNat 64 t.pcn
  | 0x003 => BitVec.ofNat 64 (t.job % 4096 + j.serial % 65536 * 65536)
  | 0x004 => s.gts
  | 0x010 => t.fmode.setWidth 64
  | 0x011 => (s.readReg 1 .fstat).setWidth 64
  | 0x012 => j.seed
  | 0x013 => t.srctr
  | 0x014 => t.modq
  | 0x020 => BitVec.ofNat 64 (t.image.getD 0 * 0x800)
  | 0x021 => j.cbBase
  | 0x022 => c.splim
  | 0x023 => c.ovfptr
  | 0x030 => j.trapVec
  | 0x031 => t.trapPc
  | 0x032 => t.cause
  | 0x033 => t.tval
  | 0x034 => t.tframe
  | 0x035 => j.upVec
  | 0x036 => t.upArg
  | 0x040 => c.cfgWord
  | 0x041 => c.wrrw.setWidth 64
  | 0x050 => s.jrnlWord
  | 0x060 => c.hgmask.setWidth 64
  | 0x061 => c.dbgctlWord
  | 0x070 => s.coreStateWord
  | _ => 0

/-! ## Writes whose effect is a step of its own -/

/-- TRAPVEC: a value below 0x0100_0000 or an odd one stores 0 (R195). -/
def State.writeTrapvec (s : State) (v : Word) : State :=
  s.modJob s.me.job fun j => { j with trapVec := if v.toNat < 0x1000000 ∨ v.getLsbD 0 then 0 else v }

/-- UPVEC (R28). -/
def State.writeUpvec (s : State) (v : Word) : State := s.modJob s.me.job fun j => { j with upVec := v }

/-- FSTAT: in the issue cycle; updates that fall due later are ORed into it (R160). -/
def State.writeFstat (s : State) (v : Word) : State := s.modMe fun t => { t with fstat := v.setWidth 5 }

/-- TRAPPC with bit 0 cleared (R196). -/
def State.writeTrappc (s : State) (v : Word) : State := s.modMe fun t => { t with trapPc := v &&& ~~~1 }

/-- CFG: HZCHK at once, SLICE at the next quantum, L1FUSE ignored (R45). -/
def State.writeCfg (s : State) (v : Word) : State :=
  s.modMyCore fun c => { c with hzchk := v.getLsbD 0, sliceNext := some (v.extractLsb' 4 4) }

/-- WRRW: 0 is stored as 1 (R174). -/
def State.writeWrrw (s : State) (v : Word) : State :=
  s.modMyCore fun c => { c with wrrw := if v.setWidth 4 = 0#4 then 1 else v.setWidth 4 }

/-- DBGCTL.STEP, only while a debugger is attached (R210). -/
def State.writeStepBit (s : State) (b : Bool) : State := s.modMyCore fun c => if c.att then { c with step := b } else c

/-- DBGCTL.HALT: stops every group in GRP (R210). -/
def State.writeHalt (s : State) : State := s.haltGroups s.myCore.hgmask stopHalt

/-- JACK with RETRY = 0: frees an entry held for the writing thread (R199). -/
def State.freeHeld (s : State) (i : Nat) : State :=
  match mapGet? s.myCore.journal i with
  | some e => if e.held && decide (e.uid = s.cur) then s.modMyCore fun c => { c with journal := mapErase c.journal i } else s
  | none => s

/-- JACK with RETRY = 1: the store goes again, counted nowhere and ordered after nothing (R199). -/
def State.resendHeld (s : State) (i : Nat) : State :=
  match mapGet? s.myCore.journal i with
  | some e =>
    if e.held && decide (e.uid = s.cur) then
      let (id, s) := s.takeId
      let t := s.me
      let s := s.setOp id {
        uid := s.cur, job := t.job, pcn := t.pcn, pc := e.pc, kind := .store e.addr e.data.length e.data e.qual
        phase := .queued, tok := none, strm := none, mask := 0, inShadow := e.inShadow, counted := true, jidx := some i
        hop := false, result := [], pieces := [], wrote := false, recd := none, sent := false, aux := 0
        slot := t.party, region := s.regionOf (partyOf t.pcn t.party), stepped := false, resent := true }
      s.modMyCore fun c => { c with journal := mapSet c.journal i { e with held := false, told := false, op := id } }
    else s
  | none => s

/-- The core that a CORESTATE write names: on the writer's die. -/
def State.namedCore (s : State) (v : Word) : Pcn := dieOf s.me.pcn * 8192 + v.toNat % 8192

/-- The traps of a CORESTATE write (R202). -/
def State.coreStateTrap (s : State) (v : Word) : Option Trap :=
  let p := s.namedCore v
  if v.extractLsb' 13 2 ≠ 2#2 ∨ p = s.me.pcn then some (trapOf cPriv 0x070)
  else if s.owner (tileOf p) ≠ s.me.job then some (trapOf cAddr v)
  else none

/-- CORESTATE: the thread names a core and asks Lantern to set it DARK, which it does within 10 µs (R202). -/
def State.writeCoreState (s : State) (v : Word) : State :=
  match s.coreStateTrap v with
  | some tr => s.takeTrap tr
  | none =>
    let p := s.namedCore v
    let s := s.modMe fun t => { t with coreName := some p }
    s.modCore p fun c => if c.status = .dark then c else { c with darkAt := some (c.darkAt.getD (s.gts + 10000)) }

/-! ## The instructions -/

/-- A number that can be written (R333). -/
def csrWritable (n : Nat) : Bool :=
  [0x010, 0x011, 0x013, 0x014, 0x022, 0x023, 0x030, 0x031, 0x032, 0x033, 0x034, 0x035, 0x036, 0x040, 0x041, 0x051, 0x060,
    0x061, 0x070].contains n

/-- A write to a writable CSR that does not trap. -/
def State.csrWrite (s : State) (n : Nat) (v : Word) : State :=
  match n with
  | 0x010 => s.modMe fun t => { t with fmode := v.setWidth 9 }
  | 0x011 => s.writeFstat v
  | 0x013 => s.modMe fun t => { t with srctr := v }
  | 0x014 => s.modMe fun t => { t with modq := v }
  | 0x022 => s.modMyCore fun c => { c with splim := v }
  | 0x023 => s.modMyCore fun c => { c with ovfptr := v }
  | 0x030 => s.writeTrapvec v
  | 0x031 => s.writeTrappc v
  | 0x032 => s.modMe fun t => { t with cause := v }
  | 0x033 => s.modMe fun t => { t with tval := v }
  | 0x034 => s.modMe fun t => { t with tframe := v }
  | 0x035 => s.writeUpvec v
  | 0x036 => s.modMe fun t => { t with upArg := v }
  | 0x040 => s.writeCfg v
  | 0x041 => s.writeWrrw v
  | 0x051 => if v.getLsbD 8 then s.resendHeld (v.toNat % 32) else s.freeHeld (v.toNat % 32)
  | 0x060 => s.modMyCore fun c => { c with hgmask := v.setWidth 4 }
  | 0x061 =>
    let s := s.writeStepBit (v.getLsbD 2)
    if v.getLsbD 1 then s.writeHalt else s
  | 0x070 => s.writeCoreState v
  | _ => s

/-- FSTAT is the only CSR that a read can find not yet due. -/
def csrReads (n : Nat) : List Reg := if n = 0x011 then [.fstat] else []

def execCsrr (d : GReg) (c : BitVec 12) (s : State) : Res :=
  s.issue (csrReads c.toNat) [.g d] 2 fun s => (s.retireG d 2 (s.csrRead c.toNat)).finish 4 1

/-- The PRIV trap of a write, which comes before HAZARD (R194, R334). -/
def State.csrPriv (s : State) (n : Nat) (v : Word) : Option Trap :=
  if !csrWritable n then some (trapOf cPriv (BitVec.ofNat 64 n))
  else if n = 0x070 then (s.coreStateTrap v).filter fun tr => decide (tr.code = cPriv)
  else none

/-- The ADDR trap of a write. -/
def State.csrAddr (s : State) (n : Nat) (v : Word) : Option Trap := if n = 0x070 then s.coreStateTrap v else none

def execCsrw (a : GReg) (c : BitVec 12) (s : State) : Res :=
  let n := c.toNat
  match s.begin.csrPriv n (s.begin.readG 0 a) with
  | some tr => s.raise tr
  | none => s.issue [.g a] [] 0 fun s =>
    let v := s.readG 0 a
    match s.csrAddr n v with
    | some tr => s.takeTrap tr
    | none => (s.csrWrite n v).finish 4 1

def execCsrx (d a : GReg) (c : BitVec 12) (s : State) : Res :=
  let n := c.toNat
  match s.begin.csrPriv n (s.begin.readG 0 a) with
  | some tr => s.raise tr
  | none => s.issue (.g a :: csrReads n) [.g d] 2 fun s =>
    let v := s.readG 0 a
    match s.csrAddr n v with
    | some tr => s.takeTrap tr
    | none => ((s.csrWrite n v).retireG d 2 (s.csrRead n)).finish 4 1

/-! ## The steps of these writes, by the executing thread -/

def execCorestateWrite (v : Word) (s : State) : Res := .next (s.writeCoreState v)
def execJackFree (idx : Fin 32) (s : State) : Res := .next (s.freeHeld idx.val)
def execJackResend (idx : Fin 32) (s : State) : Res := .next (s.resendHeld idx.val)
def execDbgctlHalt (s : State) : Res := .next s.writeHalt
def execDbgctlStepWrite (v : Bool) (s : State) : Res := .next (s.writeStepBit v)
def execCfgWrite (v : Word) (s : State) : Res := .next (s.writeCfg v)
def execUpvecWrite (v : Word) (s : State) : Res := .next (s.writeUpvec v)
def execTrapvecWrite (v : Word) (s : State) : Res := .next (s.writeTrapvec v)
def execFstatWrite (v : Word) (s : State) : Res := .next (s.writeFstat v)
def execTrappcWrite (v : Word) (s : State) : Res := .next (s.writeTrappc v)
def execWrrwWrite (v : Word) (s : State) : Res := .next (s.writeWrrw v)

end Sys2Proof.Machine
end

