-- ==== Sys2Proof/Machine/Token.lean ====
section
/-! DEFINITION. WAITT, TKRD, TKCLR (R86, R89 to R91, R403, R422), STMSK (R132) and PFX (R134, R213, R285, R386), with the
wake of a blocked WAITT and of a waiting TRET. -/

namespace Sys2Proof.Machine

/-! ## WAITT -/

/-- The DONEs of token `k` of the bank in force that count in cycle `now`: an instruction that issues in it does not see them (R85). -/
def Thread.unseen (t : Thread) (now : Nat) (k : Tok) : Nat :=
  (t.doneAt.filter fun e => decide (now ≤ e.1) && e.2.1 == t.inHandler && decide (e.2.2 = k)).length

/-- OUT of token `k` as an instruction that issues in cycle `now` sees it. -/
def Thread.outAt (t : Thread) (now : Nat) (k : Tok) : Nat := t.bank.tokens[k].out + t.unseen now k

/-- The condition of WAITT Tk, n in the bank in force. -/
def Thread.tokenAt (t : Thread) (now : Nat) (k : Tok) (n : Nat) : Bool := decide (t.outAt now k ≤ n)

/-- WAITT of `size` bytes: it blocks, delivers a record, or passes (R422). -/
def State.waitt (s : State) (k : Tok) (n size : Nat) : Res :=
  s.issue [] [] 0 fun s =>
    let s := s.closeRegion
    if !s.me.tokenAt s.now k n then s.block (.token k n size)
    else if s.me.hasRecord k then s.deliver k
    else s.finish size 1

def execWaitt (k : Tok) (n : BitVec 8) (s : State) : Res := s.waitt k n.toNat 4
def execWaittShort (k : Tok) (n : BitVec 4) (s : State) : Res := s.waitt k n.toNat 2

/-! ## TRET (R95, R196, R406) -/

/-- What TRET does once the shadow bank has drained: a failure bit still set is a trap inside the handler, a job fault, which reports the
shadow record (R95); else the live bank is in force again and the pc is TRAPPC. `blocked`: the thread had waited. -/
def State.finishTret (s : State) (blocked : Bool) : State :=
  if s.me.shadowFail ≠ 0 then (s.reportShadow s.me).freezeJob s.me.job 0x02 cAsync
  else if blocked then
    s.closeRegion.modMe fun t => { t with
      inHandler := false, pfx := none, pc := t.trapPc, status := .ready, readySince := s.now
      notBefore := s.now + 3 }
  else s.returnFromTrap

def execTret (s : State) : Res :=
  if !s.me.inHandler then s.raise (trapOf cIllegal (s.illegalWord .tret))
  else s.issue [] [] 0 fun s => if s.me.shadow.drained then s.finishTret false else s.block .retDrain

/-! ## The wake of a blocked WAITT or TRET (R73) -/

/-- The condition that a blocked thread waits on in its own counters. -/
def Thread.waitMet (t : Thread) : Bool :=
  match t.status with
  | .waiting (.token k n _) => decide (t.bank.tokens[k].out ≤ n)
  | .waiting .retDrain => t.shadow.drained
  | _ => false

/-- A blocked WAITT passes or delivers its record; a waiting TRET returns. A core that is halted or stopped delivers nothing: the record waits
until it issues again (R212). -/
def execWaittWake (u : Uid) (s : State) : Res :=
  .next (
    if !(s.thread u).waitMet then s
    else
      let s := { s with cur := u }
      let may := s.mayDeliver s.me.pcn
      match s.me.status with
      | .waiting (.token k _ size) => if !s.me.hasRecord k then s.unblock u size else if may then s.deliver k else s
      | .waiting .retDrain => if may then s.finishTret true else s
      | _ => s)

/-! ## TKRD, TKCLR, STMSK -/

/-- The value of TKRD (R90). -/
def Thread.tokenWord (t : Thread) (now : Nat) (k : Tok) : Word :=
  let c := t.bank.tokens[k]
  let done := (c.done - BitVec.ofNat 16 (t.unseen now k)).toNat
  BitVec.ofNat 64 (c.issued.toNat + done * 2 ^ 16 + t.outAt now k % 256 * 2 ^ 32 + (if t.hasRecord k then 2 ^ 40 else 0))

def execTkrd (k : Tok) (g : GReg) (s : State) : Res :=
  s.issue [] [.g g] 2 fun s => (s.retireG g 2 (s.me.tokenWord s.now k)).finish 4 1

def execTkclr (k : Tok) (s : State) : Res :=
  s.issue [] [] 0 fun s =>
    if s.me.outAt s.now k ≠ 0 then s.takeTrap (trapOf cTokstate (BitVec.ofNat 64 k.val))
    else if s.me.hasRecord k then s.deliver k
    else
      (s.modMe fun t => t.modBank t.inHandler fun b => { b with tokens := b.tokens.set k ⟨0, 0⟩ }).finish 4 1

/-- STMSK writes SM1 to SM6 of the bank in force; any other number is ILLEGAL. -/
def execStmsk (j : BitVec 4) (m : BitVec 8) (s : State) : Res :=
  if j.toNat = 0 ∨ 6 < j.toNat then s.raise (trapOf cIllegal (s.illegalWord (.stmsk j m)))
  else s.issue [] [] 0 fun s =>
    (s.modMe fun t => t.modBank t.inHandler fun b =>
      { b with sm := b.sm.set (Fin.ofNat 8 j.toNat) m }).finish 4 1

/-! ## PFX -/

/-- Whether a PFX cannot stand before the bytes at `va`, as far as they can be had without its literal: a 16-bit instruction, bits that no
instruction has, or one that is not eligible. It is ILLEGAL then, whether or not the rest can be fetched (R194, R285). -/
def State.governsNone (s : State) (t : Thread) (mo : Bool) (mask8 : BitVec 8) (va : Word) : Bool :=
  match s.fetchMore t.pcn t.job 1 va [] with
  | .bytes h =>
    match decode h with
    | .short _ =>
      match s.fetchMore t.pcn t.job 1 (va + 2) h with
      | .bytes bs =>
        match decode (bs ++ List.replicate 4 0) with
        | .instr i _ => !pfxLegal mo mask8 i
        | .illegal _ => true
        | .short _ => false
      | _ => false
    | _ => true
  | _ => false

/-- A PFX of a thread that is ILLEGAL by its own word (R134, R386), or by what stands after it at `va`. -/
def State.pfxBad (s : State) (t : Thread) (mo : Bool) (mask8 : BitVec 8) (va : Word) : Bool :=
  (!mo && mask8 != 0) || s.governsNone t mo mask8 va

/-- PFX: the pair is decoded here, and a misplaced PFX traps with the PFX's own word (R386). -/
def execPfx (mo : Bool) (mask8 : BitVec 8) (ext15 : BitVec 15) (s : State) : Res :=
  let bad := s.raise (trapOf cIllegal ((Sys2Proof.illegalTval (.pfx mo mask8 ext15)).setWidth 64)).atPfx
  let t := s.me
  if s.pfxBad t mo mask8 (t.pc + 4) then bad
  else match s.fetchInstr t.pcn t.job (t.pc + 4) with
  | .miss _ => .next s.holdMe
  | .fail va => s.raise (trapOf cAddr va).atPfx
  | .illegal _ => bad
  | .instr i size =>
    if size = 2 ∨ !pfxLegal mo mask8 i then bad
    else s.issue [] [] 0 fun s =>
      let s := s.modMe fun t => { t with pfx := some ⟨mo, mask8, ext15, t.pc⟩, pc := t.pc + 4 }
      let s := s.modMyCore fun c => { c with nextIssue := s.now + 1 }
      { s with fresh := s.fresh + operandSlots }

end Sys2Proof.Machine
end

