-- ==== Sys2Proof/Machine/Local.lean ====
section
/-! DEFINITION. Pipeline accesses to local memory: LD, ST, VLD, VST and their short forms (R363, R364, R394, R395, R418,
R419), race checks on RC pages (R145 to R147), and stack redirection (R68). -/

namespace Sys2Proof.Machine

/-! ## Race checks (R145 to R147) -/

/-- The recorded access that an access by party `q` conflicts with: party and whether it was a write (R146). Of several, the writer comes
first, and then the readers from the last that read (log entry 79). -/
def State.raceConflict (s : State) (key : Nat) (q : Party) (wr : Bool) : Option (Party × Bool) :=
  match mapGet? s.ms.race (key / 64) with
  | none => none
  | some t =>
    let live (e : Party × Nat) : Bool := decide (e.1 ≠ q) && decide (s.regionOf e.1 = e.2)
    match t.writer.filter live with
    | some w => some (w.1, true)
    | none => if wr then (t.readers.find? live).map fun e => (e.1, false) else none

/-- TFRAME of a RACE trap (R147). -/
def raceFrame (e : Party × Bool) : Word :=
  BitVec.ofNat 64 ((if e.2 then 32 else 0) + e.1 % 4 * 8 + e.1 / 4 % 8)

/-! ## The checks of a pipeline access, in the order of R194 -/

/-- The traps of an access of `n` bytes at a bank: LMPU, RACE, LMUE (R364, R395). `whole`: a write that covers whole
granules, so that poison does not stop it (R111, R419). -/
def State.bankTrap (s : State) (a : Word) (q off n : Nat) (wr whole : Bool) : Option Trap :=
  let key := bankKey q off
  if !s.lmpuOk q off n wr then some (trapOf cLmpu a)
  else
    match (if s.isRc q off then s.raceConflict key (partyOf s.me.pcn s.me.party) wr else none) with
    | some e => some { trapOf cRace a with tframe := raceFrame e }
    | none =>
      if whole then none
      else (s.poisonedIn key n).map fun g => trapOf cLmue (granuleAt a key g)

/-- A pipeline access of `n` bytes at `a`: the trap it takes, a redirected access, or the place it has in a bank. -/
inductive LocalPlace
  | trap (t : Trap)
  | redirect (va : Word)
  | bank (q off : Nat)
deriving DecidableEq, Repr

def State.localPlace (s : State) (b : GReg) (a : Word) (n : Nat) (wr whole : Bool) : LocalPlace :=
  match winOf s.me.pcn a with
  | .bank q off false =>
    if s.isRedirected b a then
      if a.toNat % n ≠ 0 then .trap (trapOf cAlign a)
      else match s.redirectTrap a n wr with
        | some t => .trap t
        | none => .redirect (s.redirectVa a)
    else if (s.core q).status = .dark then .trap (trapOf cAddr a)
    else if a.toNat % n ≠ 0 then .trap (trapOf cAlign a)
    else match s.bankTrap a q off n wr whole with
      | some t => .trap t
      | none => .bank q off
  | _ => .trap (trapOf cAddr a)

/-! ## Loads and stores -/

/-- The latency of a local load: 3 into G, 4 into V (R78). -/
def loadLatency : Reg → Nat
  | .v _ => 4
  | _ => 3

/-- A loaded value as the register takes it. -/
def loadValue (dst : Reg) (bs : List Byte) (sx : Bool) : Vec :=
  match dst with
  | .v _ => BitVec.ofNat 256 (leNat bs)
  | _ => (extendBytes bs sx).setWidth 256

/-- A local load of `n` bytes by an instruction of `size` bytes, whose offset is already formed. -/
def State.localLoad (s : State) (size : Nat) (dst : Reg) (b : GReg) (st : Strm) (m : Sel) (off : State → Word) (n : Nat)
    (sx : Bool) : Res :=
  let lat := loadLatency dst
  s.issue [.g b] [dst] lat fun s =>
    let a := s.readG 0 b + off s
    match s.localPlace b a n false false with
    | .trap t => s.takeTrap t
    | .redirect va => s.modMe fun t => { t with redirect := some ⟨va, a, n, none, dst, sx, size, st, t.mask m⟩ }
    | .bank q o =>
      let s := s.noteAccess s.me.pcn q o n s.me.party false
      let s := s.correct (bankKey q o) n
      (s.retire dst lat (loadValue dst (memRead s.ms.mem (bankKey q o) n) sx) (fullMask dst)).finish size 1

/-- A local store of `n` bytes of a register. -/
def State.localStore (s : State) (size : Nat) (src : Reg) (b : GReg) (st : Strm) (m : Sel) (off : State → Word) (n : Nat) : Res :=
  s.issue [.g b, src] [] 0 fun s =>
    let a := s.readG 0 b + off s
    let data := leBytes n (s.readReg 1 src).toNat
    match s.localPlace b a n true (decide (n = 32)) with
    | .trap t => s.takeTrap t
    | .redirect va => s.modMe fun t => { t with redirect := some ⟨va, a, n, some data, src, false, size, st, t.mask m⟩ }
    | .bank q o =>
      ((s.noteAccess s.me.pcn q o n s.me.party true).bankWrite q o data false).finish size 1

/-- LD's offset, scaled (R273, R285). -/
def ldOff (w : Width) (o : BitVec 6) (s : State) : Word := s.me.wide o * BitVec.ofNat 64 (Width.bytes w)
/-- VLD's offset, scaled by 32. -/
def vldOff (o : BitVec 9) (s : State) : Word := s.me.wide o * 32
def noOff (_ : State) : Word := 0

/-- LD: s and m only name its stream (R133, R136). -/
def execLd (t b : GReg) (st : Strm) (m : Sel) (w : Width) (x : Bool) (o : BitVec 6) (s : State) : Res :=
  s.localLoad 4 (.g t) b st m (ldOff w o) (Width.bytes w) x
def execLdShort (d b : GReg) (s : State) : Res := s.localLoad 2 (.g d) b 0 0 noOff 8 false
def execSt (t b : GReg) (st : Strm) (m : Sel) (w : Width) (o : BitVec 6) (s : State) : Res :=
  s.localStore 4 (.g t) b st m (ldOff w o) (Width.bytes w)
def execStShort (d b : GReg) (s : State) : Res := s.localStore 2 (.g d) b 0 0 noOff 8
def execVld (t : VReg) (b : GReg) (st : Strm) (m : Sel) (o : BitVec 9) (s : State) : Res :=
  s.localLoad 4 (.v t) b st m (vldOff o) 32 false
def execVldShort (d : VReg) (b : GReg) (s : State) : Res := s.localLoad 2 (.v d) b 0 0 noOff 32 false
def execVst (t : VReg) (b : GReg) (st : Strm) (m : Sel) (o : BitVec 9) (s : State) : Res :=
  s.localStore 4 (.v t) b st m (vldOff o) 32
def execVstShort (v : VReg) (b : GReg) (s : State) : Res := s.localStore 2 (.v v) b 0 0 noOff 32

end Sys2Proof.Machine
end

