-- ==== Sys2Proof/Machine/Float.lean ====
section
/-! DEFINITION. Number formats and rounding (R151 to R163). A finite value is an exact fraction of natural numbers
with a sign; every operation computes exactly and rounds once. -/

namespace Sys2Proof.Machine

/-- The rounding modes of FMODE.RM (R159). -/
inductive RMode | rne | rtz | rup | rdn
deriving DecidableEq, Repr

/-- FMODE.RM's code (R159). -/
def RMode.ofBits (b : BitVec 2) : RMode :=
  match b.toNat with
  | 0 => .rne | 1 => .rtz | 2 => .rup | _ => .rdn

/-- Flags as FSTAT lays them out: NV, DZ, OF, UF, NX in bits 4 to 0 (R160). -/
abbrev FFlags := BitVec 5

def flagNV : FFlags := 0b10000
def flagDZ : FFlags := 0b01000
def flagOF : FFlags := 0b00100
def flagUF : FFlags := 0b00010
def flagNX : FFlags := 0b00001

/-- An IEEE 754 binary format: exponent bits and fraction bits (R151). -/
structure Fmt where
  ebits : Nat
  mbits : Nat
deriving DecidableEq, Repr

def Fmt.f64  : Fmt := ⟨11, 52⟩
def Fmt.f32  : Fmt := ⟨8, 23⟩
def Fmt.f16  : Fmt := ⟨5, 10⟩
def Fmt.bf16 : Fmt := ⟨8, 7⟩

def Fmt.width (f : Fmt) : Nat := f.ebits + f.mbits + 1
def Fmt.bias (f : Fmt) : Nat := 2 ^ (f.ebits - 1) - 1
/-- The encoding of +Inf. -/
def Fmt.infBits (f : Fmt) : Nat := (2 ^ f.ebits - 1) * 2 ^ f.mbits
/-- The encoding of the largest finite value. -/
def Fmt.maxBits (f : Fmt) : Nat := f.infBits - 1
/-- The canonical NaN (R154). -/
def Fmt.nanBits (f : Fmt) : Nat := f.infBits + 2 ^ (f.mbits - 1)
/-- The sign bit's weight. -/
def Fmt.signBit (f : Fmt) : Nat := 2 ^ (f.ebits + f.mbits)

/-- A value: a NaN, an infinity, or (−1)^neg × num ÷ den with den > 0. -/
inductive FVal
  | nan (signalling : Bool)
  | inf (neg : Bool)
  | fin (neg : Bool) (num den : Nat)
deriving DecidableEq, Repr

def FVal.isNan : FVal → Bool
  | .nan _ => true
  | _ => false

def FVal.isSnan : FVal → Bool
  | .nan sig => sig
  | _ => false

/-- 2^e as a fraction, for a possibly negative e. -/
def pow2Num (e : Int) : Nat := if 0 ≤ e then 2 ^ e.toNat else 1
def pow2Den (e : Int) : Nat := if 0 ≤ e then 1 else 2 ^ (-e).toNat

/-- The value of an IEEE encoding (R151). -/
def Fmt.decode (f : Fmt) (bits : Nat) : FVal :=
  let neg := bits / f.signBit % 2 == 1
  let e := bits / 2 ^ f.mbits % 2 ^ f.ebits
  let m := bits % 2 ^ f.mbits
  if e = 2 ^ f.ebits - 1 then
    if m = 0 then .inf neg else .nan (m / 2 ^ (f.mbits - 1) == 0)
  else
    let sig := if e = 0 then m else m + 2 ^ f.mbits
    let ex : Int := (if e = 0 then 1 else (e : Int)) - f.bias - f.mbits
    .fin neg (sig * pow2Num ex) (pow2Den ex)

/-- An exact result: magnitude num ÷ den, or a little above it when `sticky` (by less than any rounding can tell apart
from the next fraction of den). -/
structure Exact where
  neg    : Bool
  num    : Nat
  den    : Nat
  sticky : Bool
deriving DecidableEq, Repr

/-- ⌊log₂ (num ÷ den)⌋ for num, den > 0. -/
def log2Frac (num den : Nat) : Int :=
  let e : Int := (Nat.log2 num : Int) - (Nat.log2 den : Int)
  if pow2Num e * den ≤ num * pow2Den e then e else e - 1

/-- Whether rounding goes up from ⌊n ÷ d⌋. -/
def roundsUp (rm : RMode) (neg : Bool) (n d : Nat) (sticky : Bool) : Bool :=
  let q := n / d
  let r := n % d
  let inexact := r != 0 || sticky
  match rm with
  | .rne => decide (d < 2 * r) || (decide (2 * r = d) && (sticky || q % 2 == 1))
  | .rtz => false
  | .rup => inexact && !neg
  | .rdn => inexact && neg

/-- A fraction rounded to an integer: its magnitude, and whether it was inexact. -/
def roundNat (rm : RMode) (neg : Bool) (n d : Nat) (sticky : Bool) : Nat × Bool :=
  (n / d + (if roundsUp rm neg n d sticky then 1 else 0), n % d != 0 || sticky)

/-- How the rounding step of an operation or conversion is taken: under RM, or with a stochastic draw (R162). -/
inductive Rounding
  | mode (rm : RMode)
  | stoch (r : Nat)
deriving DecidableEq, Repr

/-- What an overflow gives (R161): ±Inf unless the mode rounds towards zero; stochastic rounding is not directed. -/
def overflowToInf (rd : Rounding) (neg : Bool) : Bool :=
  match rd with
  | .stoch _ => true
  | .mode .rne => true
  | .mode .rtz => false
  | .mode .rup => !neg
  | .mode .rdn => neg

/-- Rounds an exact value to an IEEE format (R153, R161, R163). `sat`: an overflow gives the largest finite value. -/
def Fmt.round (f : Fmt) (rd : Rounding) (sat : Bool) (x : Exact) : Nat × FFlags :=
  let sgn := if x.neg then f.signBit else 0
  if x.num = 0 && !x.sticky then (sgn, 0)
  else
    let emin : Int := 1 - f.bias
    let e := if x.num = 0 then emin - f.mbits - 2 else log2Frac x.num x.den
    let ee := if e < emin then emin else e
    let ulp : Int := ee - f.mbits
    let n := x.num * pow2Den ulp
    let d := x.den * pow2Num ulp
    let inexact := n % d != 0 || x.sticky
    let base := (ee - emin).toNat * 2 ^ f.mbits
    match rd with
    | .mode rm =>
      let bits := base + (roundNat rm x.neg n d x.sticky).1
      let ulp' : Int := e - f.mbits
      let unb := (roundNat rm x.neg (x.num * pow2Den ulp') (x.den * pow2Num ulp') x.sticky).1
      let tiny := decide (e < emin) && !(decide (e = emin - 1) && decide (unb = 2 ^ (f.mbits + 1)))
      if f.infBits ≤ bits then
        ((if sat || !overflowToInf rd x.neg then f.maxBits else f.infBits) + sgn, flagOF ||| flagNX)
      else
        (bits + sgn, (if inexact then flagNX else 0) ||| (if inexact && tiny then flagUF else 0))
    | .stoch r =>
      let lo0 := base + n / d
      let past := decide (f.infBits ≤ lo0)
      let lo := if past then f.maxBits else lo0
      -- the threshold is ⌊65,536 × (|x| − lo) ÷ (hi − lo)⌋; at or beyond the next value it exceeds every draw
      let thr := if past then 65536 else 65536 * (n % d) / d
      let bits := if r < thr then lo + 1 else lo
      if f.infBits ≤ bits then
        ((if sat then f.maxBits else f.infBits) + sgn, flagOF ||| flagNX)
      else
        let tiny := decide (bits < 2 ^ f.mbits)
        (bits + sgn, (if inexact then flagNX else 0) ||| (if inexact && tiny then flagUF else 0))

/-! ## Arithmetic (R153, R154) -/

/-- The canonical NaN with NV. -/
def Fmt.invalid (f : Fmt) : Nat × FFlags := (f.nanBits, flagNV)

/-- A NaN result of an operation whose operands hold the given values: NV when one of them is signalling. -/
def Fmt.quiet (f : Fmt) (xs : List FVal) : Nat × FFlags :=
  (f.nanBits, if xs.any FVal.isSnan then flagNV else 0)

/-- Sum of two signed fractions; an exact zero of opposite signs is +0, or −0 under RDN (R153). -/
def addFrac (rm : RMode) (an : Bool) (a b : Nat) (bn : Bool) (c d : Nat) : Exact :=
  let x : Int := (if an then -((a * d : Nat) : Int) else ((a * d : Nat) : Int))
  let y : Int := (if bn then -((c * b : Nat) : Int) else ((c * b : Nat) : Int))
  let z := x + y
  if z = 0 then ⟨if an == bn then an else rm == .rdn, 0, b * d, false⟩
  else ⟨decide (z < 0), z.natAbs, b * d, false⟩

def Fmt.add (f : Fmt) (rm : RMode) (a b : FVal) : Nat × FFlags :=
  match a, b with
  | .fin an n d, .fin bn n' d' => f.round (.mode rm) false (addFrac rm an n d bn n' d')
  | .inf x, .inf y => if x == y then (f.infBits + (if x then f.signBit else 0), 0) else f.invalid
  | .inf x, .fin _ _ _ => (f.infBits + (if x then f.signBit else 0), 0)
  | .fin _ _ _, .inf y => (f.infBits + (if y then f.signBit else 0), 0)
  | _, _ => f.quiet [a, b]

def FVal.negate : FVal → FVal
  | .nan sig => .nan sig
  | .inf n => .inf (!n)
  | .fin n x d => .fin (!n) x d

/-- The exact product as a value, or nothing for 0 × ∞. A NaN factor gives a quiet NaN. -/
def FVal.mul (a b : FVal) : Option FVal :=
  match a, b with
  | .fin an n d, .fin bn n' d' => some (.fin (an != bn) (n * n') (d * d'))
  | .inf x, .inf y => some (.inf (x != y))
  | .inf x, .fin y n _ => if n = 0 then none else some (.inf (x != y))
  | .fin y n _, .inf x => if n = 0 then none else some (.inf (x != y))
  | _, _ => some (.nan false)

def Fmt.ofVal (f : Fmt) (rm : RMode) (x : FVal) : Nat × FFlags :=
  match x with
  | .nan _ => (f.nanBits, 0)
  | .inf n => (f.infBits + (if n then f.signBit else 0), 0)
  | .fin n num den => f.round (.mode rm) false ⟨n, num, den, false⟩

def Fmt.mul (f : Fmt) (rm : RMode) (a b : FVal) : Nat × FFlags :=
  if a.isNan || b.isNan then f.quiet [a, b]
  else match FVal.mul a b with
    | none => f.invalid
    | some p => f.ofVal rm p

/-- a × b + c rounded once; 0 × ∞ is invalid even when the addend is a quiet NaN (R154). -/
def Fmt.fma (f : Fmt) (rm : RMode) (a b c : FVal) : Nat × FFlags :=
  match FVal.mul a b with
  | none => f.invalid
  | some p => if a.isNan || b.isNan || c.isNan then f.quiet [a, b, c] else f.add rm p c

/-- Division; DZ for a finite non-zero dividend and a zero divisor (R154, R160, R350). -/
def Fmt.div (f : Fmt) (rm : RMode) (a b : FVal) : Nat × FFlags :=
  match a, b with
  | .fin an n d, .fin bn n' d' =>
    if n' = 0 then
      if n = 0 then f.invalid else (f.infBits + (if an != bn then f.signBit else 0), flagDZ)
    else f.round (.mode rm) false ⟨an != bn, n * d', d * n', false⟩
  | .inf _, .inf _ => f.invalid
  | .inf x, .fin y _ _ => (f.infBits + (if x != y then f.signBit else 0), 0)
  | .fin x _ _, .inf y => (if x != y then f.signBit else 0, 0)
  | _, _ => f.quiet [a, b]

/-- Newton's iteration from above, on fuel. -/
def isqrtLoop : Nat → Nat → Nat → Nat
  | 0, _, x => x
  | k + 1, n, x =>
    let y := (x + n / x) / 2
    if y < x then isqrtLoop k n y else x

/-- ⌊√n⌋. -/
def isqrt (n : Nat) : Nat :=
  if n = 0 then 0 else isqrtLoop (Nat.log2 n + 2) n (2 ^ (Nat.log2 n / 2 + 1))

/-- Binary places kept of an irrational square root. -/
def sqrtPlaces : Nat := 700

/-- √(num ÷ den) of a positive fraction. -/
def sqrtFrac (num den : Nat) : Exact :=
  let r := isqrt (num * 2 ^ (2 * sqrtPlaces) / den)
  ⟨false, r, 2 ^ sqrtPlaces, r * r * den != num * 2 ^ (2 * sqrtPlaces)⟩

/-- Square root; √−0 = −0, of a number below −0 invalid (R154, R350). -/
def Fmt.sqrt (f : Fmt) (rm : RMode) (a : FVal) : Nat × FFlags :=
  match a with
  | .nan _ => f.quiet [a]
  | .inf n => if n then f.invalid else (f.infBits, 0)
  | .fin neg n d =>
    if n = 0 then (if neg then f.signBit else 0, 0)
    else if neg then f.invalid
    else f.round (.mode rm) false (sqrtFrac n d)

/-- VRCP (R416). -/
def Fmt.rcp (f : Fmt) (rm : RMode) (a : FVal) : Nat × FFlags :=
  f.div rm (.fin false 1 1) a

/-- VRSQRT (R416). -/
def Fmt.rsqrt (f : Fmt) (rm : RMode) (a : FVal) : Nat × FFlags :=
  match a with
  | .nan _ => f.quiet [a]
  | .inf n => if n then f.invalid else (0, 0)
  | .fin neg n d =>
    if n = 0 then (f.infBits + (if neg then f.signBit else 0), flagDZ)
    else if neg then f.invalid
    else f.round (.mode rm) false (sqrtFrac d n)

/-- Binary places kept of 2^x. -/
def exp2Places : Nat := 200
/-- ⌊ln 2 × 2^200⌋. -/
def ln2Fixed : Nat := 0xb17217f7d1cf79abc9e3b39803f2f6af40f343267298b62d8a

/-- The sum of zᵏ ÷ k! from the k-th term on, in fixed point. -/
def expSeries : Nat → Nat → Nat → Nat → Nat
  | 0, _, _, _ => 0
  | fuel + 1, k, z, term => term + expSeries fuel (k + 1) z (term * z / 2 ^ exp2Places / (k + 1))

/-- 2^(num ÷ den), for a signed fraction of magnitude below 4,096 (beyond, ±4,096 stands for it: every format's result is
the same). Exact when the exponent is an integer, and otherwise irrational. -/
def exp2Frac (neg : Bool) (num den : Nat) : Exact :=
  if 4096 * den ≤ num then
    if neg then ⟨false, 1, 2 ^ 4096, true⟩ else ⟨false, 2 ^ 4096, 1, false⟩
  else
    let i : Int := if neg then -(((num + den - 1) / den : Nat) : Int) else ((num / den : Nat) : Int)
    let fr : Nat := if neg then ((num + den - 1) / den) * den - num else num % den
    if fr = 0 then ⟨false, pow2Num i, pow2Den i, false⟩
    else
      let z := fr * ln2Fixed / den
      let y := expSeries 64 0 z (2 ^ exp2Places)
      ⟨false, y * pow2Num i, 2 ^ exp2Places * pow2Den i, true⟩

/-- VEXP2 (R153, R416). -/
def Fmt.exp2 (f : Fmt) (rm : RMode) (a : FVal) : Nat × FFlags :=
  match a with
  | .nan _ => f.quiet [a]
  | .inf n => if n then (0, 0) else (f.infBits, 0)
  | .fin neg n d => f.round (.mode rm) false (exp2Frac neg n d)

/-! ## Comparison, minimum and maximum (R155) -/

/-- −1, 0 or 1 as a is below, equal to or above b; the zeros are equal. Neither may be a NaN. -/
def FVal.cmp (a b : FVal) : Int :=
  match a, b with
  | .inf x, .inf y => if x == y then 0 else if x then -1 else 1
  | .inf x, _ => if x then -1 else 1
  | _, .inf y => if y then 1 else -1
  | .fin an n d, .fin bn n' d' =>
    let x : Int := (if an then -((n * d' : Nat) : Int) else ((n * d' : Nat) : Int))
    let y : Int := (if bn then -((n' * d : Nat) : Int) else ((n' * d : Nat) : Int))
    if x < y then -1 else if x = y then 0 else 1
  | _, _ => 0

def FVal.isNegZero : FVal → Bool
  | .fin neg n _ => neg && n == 0
  | _ => false

/-- Whether a comes before b in the order of FMIN, in which −0 is below +0 (R155). -/
def FVal.before (a b : FVal) : Bool :=
  decide (a.cmp b < 0) || (decide (a.cmp b = 0) && a.isNegZero && !b.isNegZero)

/-- FMIN (`isMax = false`) and FMAX on encodings (R155, R354). -/
def Fmt.minMax (f : Fmt) (isMax : Bool) (x y : Nat) : Nat × FFlags :=
  let a := f.decode x
  let b := f.decode y
  let fl := if a.isSnan || b.isSnan then flagNV else 0
  match a.isNan, b.isNan with
  | true, true => (f.nanBits, fl)
  | true, false => (y, fl)
  | false, true => (x, fl)
  | false, false => (if isMax then (if a.before b then y else x) else (if b.before a then y else x), fl)

/-- FEQ: NV only for a signalling NaN (R155). -/
def FVal.eqTest (a b : FVal) : Bool × FFlags :=
  if a.isNan || b.isNan then (false, if a.isSnan || b.isSnan then flagNV else 0)
  else (decide (a.cmp b = 0), 0)

/-- FLT and FLE: NV for any NaN (R155). -/
def FVal.ordTest (orEq : Bool) (a b : FVal) : Bool × FFlags :=
  if a.isNan || b.isNan then (false, flagNV)
  else (decide (a.cmp b < 0) || (orEq && decide (a.cmp b = 0)), 0)

/-- FCLASS's bit number (R346). -/
def Fmt.classBit (f : Fmt) (bits : Nat) : Nat :=
  match f.decode bits with
  | .nan sig => if sig then 8 else 9
  | .inf n => if n then 0 else 7
  | .fin neg n _ =>
    if n = 0 then (if neg then 3 else 4)
    else
      let normal := bits / 2 ^ f.mbits % 2 ^ f.ebits != 0
      if neg then (if normal then 1 else 2) else (if normal then 6 else 5)

/-! ## MD8 and FP4 (R156 to R158) -/

/-- 10^d as a fraction. -/
def pow10Num (d : Int) : Nat := if 0 ≤ d then 10 ^ d.toNat else 1
def pow10Den (d : Int) : Nat := if 0 ≤ d then 1 else 10 ^ (-d).toNat

/-- The decade and the fraction width of a body from 2 to 127, with its fraction field (R157). -/
def md8Fields (body : Nat) : Int × Nat × Nat :=
  if 64 ≤ body then ((if body / 32 % 2 = 0 then -1 else 0), 5, body % 32)
  else if 32 ≤ body then
    ((match body / 8 % 4 with | 0 => -3 | 1 => -2 | 2 => 1 | _ => 2), 3, body % 8)
  else if 16 ≤ body then
    ((match body / 4 % 4 with | 0 => -5 | 1 => -4 | 2 => 3 | _ => 4), 2, body % 4)
  else if 8 ≤ body then
    ((match body / 2 % 4 with | 0 => -7 | 1 => -6 | 2 => 5 | _ => 6), 1, body % 2)
  else if 4 ≤ body then
    ((match body % 4 with | 0 => -9 | 1 => -8 | 2 => 7 | _ => 8), 0, 0)
  else ((if body = 2 then -10 else 9), 0, 0)

/-- The magnitude of a body from 2 to 127 (R157). -/
def md8Mag (body : Nat) : Nat × Nat :=
  let (d, f, fr) := md8Fields body
  ((2 ^ f + 9 * fr) * pow10Num d, 2 ^ f * pow10Den d)

/-- The value of an MD8 byte (R157). -/
def md8Decode (b : Nat) : FVal :=
  let neg := b / 128 % 2 == 1
  let body := b % 128
  if body = 0 then (if neg then .nan false else .fin false 0 1)
  else if body = 1 then .inf neg
  else .fin neg (md8Mag body).1 (md8Mag body).2

/-- The bodies in rising order of magnitude, from 10⁻¹⁰ to 10⁹. -/
def md8Order : List Nat :=
  [2, 4, 5] ++ [8, 9, 10, 11] ++ (List.range 8).map (· + 16) ++ (List.range 16).map (· + 32) ++
  (List.range 64).map (· + 64) ++ (List.range 16).map (· + 48) ++ (List.range 8).map (· + 24) ++
  [12, 13, 14, 15] ++ [6, 7, 3]

/-- Codes with their magnitudes, in rising order: zero first. -/
def md8Table : List (Nat × Nat × Nat) := (0, 0, 1) :: md8Order.map fun b => (b, md8Mag b)

/-- The FP4 codes with their magnitudes, in halves (R156). -/
def fp4Table : List (Nat × Nat × Nat) :=
  [(0, 0, 2), (1, 1, 2), (2, 2, 2), (3, 3, 2), (4, 4, 2), (5, 6, 2), (6, 8, 2), (7, 12, 2)]

/-- The value of an FP4 element (R156). -/
def fp4Decode (b : Nat) : FVal :=
  .fin (b / 8 % 2 == 1) ((fp4Table.getD (b % 8) (0, 0, 2)).2.1) 2

/-- The table's last entry not above num ÷ den, and the entry after it. -/
def bracket : List (Nat × Nat × Nat) → Nat → Nat → (Nat × Nat × Nat) → (Nat × Nat × Nat) × Option (Nat × Nat × Nat)
  | [], _, _, lo => (lo, none)
  | e :: r, num, den, lo => if e.2.1 * den ≤ num * e.2.2 then bracket r num den e else (lo, some e)

/-- Rounds a magnitude to a table whose next value beyond its end is `beyond`. `evenCode c`: the code whose low bit is
clear wins a tie (R158); when both or neither have it clear the smaller magnitude wins. Answers the code, whether the
result is the value beyond the end, and whether it is inexact. -/
def roundTable (t : List (Nat × Nat × Nat)) (beyond : Nat × Nat × Nat) (rd : Rounding) (x : Exact) :
    Nat × Bool × Bool :=
  let (lo, hi?) := bracket t x.num x.den (0, 0, 1)
  let hi := hi?.getD beyond
  -- (|x| − lo) ÷ (hi − lo) as a fraction n ÷ d
  let n := (x.num * lo.2.2 - lo.2.1 * x.den) * hi.2.2
  let d := x.den * (hi.2.1 * lo.2.2 - lo.2.1 * hi.2.2)
  let inexact := n != 0 || x.sticky
  let past := decide (d ≤ n)
  let up := past || match rd with
    | .stoch r => decide (r < 65536 * n / d)
    | .mode .rne =>
      decide (d < 2 * n) || (decide (2 * n = d) && (x.sticky || (hi.1 % 2 == 0 && lo.1 % 2 == 1)))
    | .mode .rtz => false
    | .mode .rup => inexact && !x.neg
    | .mode .rdn => inexact && x.neg
  (if up then hi.1 else lo.1, up && hi?.isNone, inexact)

/-- A finite value converted to MD8 (R158, R161, R163). -/
def md8Round (rd : Rounding) (sat : Bool) (x : Exact) : Nat × FFlags :=
  let s := if x.neg then 128 else 0
  -- beyond 10⁹ comes 10¹⁰; its code's low bit is set, so the tie at 5.5 × 10⁹ goes to 10⁹ (R158)
  let (c, past, inexact) := roundTable md8Table (1, 10 ^ 10, 1) rd x
  if past then
    ((if sat || !overflowToInf rd x.neg then 3 else 1) + s, flagOF ||| flagNX)
  else (if c = 0 then 0 else c + s, if inexact then flagNX else 0)

/-- A finite value converted to FP4 (R156, R161, R163): beyond 6 comes 8, and overflow gives ±6. -/
def fp4Round (rd : Rounding) (x : Exact) : Nat × FFlags :=
  let s := if x.neg then 8 else 0
  let (c, past, inexact) := roundTable fp4Table (8, 16, 2) rd x
  if past then (7 + s, flagOF ||| flagNX) else (c + s, if inexact then flagNX else 0)

/-! ## Conversions (R161) -/

/-- To an IEEE format (R161). -/
def Fmt.convert (f : Fmt) (rd : Rounding) (sat : Bool) (x : FVal) : Nat × FFlags :=
  match x with
  | .nan sig => (f.nanBits, if sig then flagNV else 0)
  | .inf n => ((if sat then f.maxBits else f.infBits) + (if n then f.signBit else 0), 0)
  | .fin n num den => f.round rd sat ⟨n, num, den, false⟩

/-- To MD8 (R161). -/
def md8Convert (rd : Rounding) (sat : Bool) (x : FVal) : Nat × FFlags :=
  match x with
  | .nan sig => (0x80, if sig then flagNV else 0)
  | .inf n => ((if sat then 3 else 1) + (if n then 128 else 0), 0)
  | .fin n num den => md8Round rd sat ⟨n, num, den, false⟩

/-- To FP4 (R161). -/
def fp4Convert (rd : Rounding) (x : FVal) : Nat × FFlags :=
  match x with
  | .nan _ => (0, flagNV)
  | .inf n => (7 + (if n then 8 else 0), flagNV)
  | .fin n num den => fp4Round rd ⟨n, num, den, false⟩

/-- To a signed integer of w bits, under RM (R161). -/
def intConvert (w : Nat) (rm : RMode) (x : FVal) : Int × FFlags :=
  let hi : Int := 2 ^ (w - 1) - 1
  let lo : Int := -(2 ^ (w - 1))
  match x with
  | .nan _ => (0, flagNV)
  | .inf n => (if n then lo else hi, flagNV)
  | .fin n num den =>
    let (m, inexact) := roundNat rm n num den false
    let v : Int := if n then -(m : Int) else m
    if v < lo then (lo, flagNV) else if hi < v then (hi, flagNV)
    else (v, if inexact then flagNX else 0)

/-- An integer as a value. -/
def FVal.ofInt (i : Int) : FVal := .fin (decide (i < 0)) i.natAbs 1

end Sys2Proof.Machine
end

