-- ==== Sys2Proof/Machine/Flags.lean ====
section
/-! DEFINITION. FMODE and FSTAT: rounding control, the flags an instruction raises and FPX (R159, R160), and the draws of
stochastic rounding (R162, R164). -/

namespace Sys2Proof.Machine

/-- FMODE.RM (R159). -/
def Thread.rm (t : Thread) : RMode := RMode.ofBits (t.fmode.extractLsb' 0 2)
/-- FMODE.SR. -/
def Thread.srOn (t : Thread) : Bool := t.fmode.getLsbD 2
/-- FMODE.SAT. -/
def Thread.sat (t : Thread) : Bool := t.fmode.getLsbD 3
/-- The flags whose enables act: none inside a handler (R195). -/
def Thread.enables (t : Thread) : FFlags := if t.inHandler then 0 else t.fmode.extractLsb' 4 5

/-- ORs flags into FSTAT at latency `lat` (R160). An instruction that raises none is no producer of FSTAT (log entry 87). -/
def State.raiseFlags (s : State) (lat : Nat) (fl : FFlags) : State :=
  if fl = 0 then s else s.retire .fstat lat (fl.setWidth 256) (fl.setWidth 256)

/-- Ends an instruction that writes `v` to bits `m` of `r` and raises `fl`, or traps FPX and writes nothing (R160). -/
def State.finishFp (s : State) (size lat : Nat) (r : Reg) (v m : Vec) (fl : FFlags) : State :=
  if fl &&& s.me.enables ≠ 0 then s.takeTrap (trapOf cFpx (fl.setWidth 64))
  else ((s.retire r lat v m).raiseFlags lat fl).finish size 1

/-! ## Draws (R164) -/

def mix64 (z : Word) : Word :=
  let z := (z ^^^ (z >>> 30)) * 0xBF58476D1CE4E5B9
  let z := (z ^^^ (z >>> 27)) * 0x94D049BB133111EB
  z ^^^ (z >>> 31)

def drawGamma : Word := 0x9E3779B97F4A7C15

/-- draw(n) of a thread with the given seed and LCN. -/
def draw (seed : Word) (lcn : BitVec 32) (n : Word) : Word :=
  mix64 ((seed ^^^ (lcn.setWidth 64 * drawGamma)) + n * drawGamma)

/-- The 16 bits of element `i` of an instruction that begins at draw `n`. -/
def drawElem (seed : Word) (lcn : BitVec 32) (n : Word) (i : Nat) : Nat :=
  ((draw seed lcn (n + BitVec.ofNat 64 (i / 4))).extractLsb' (16 * (i % 4)) 16).toNat

/-- Draws that N elements take. -/
def drawsOf (n : Nat) : Nat := (n + 3) / 4

/-- The rounding of element `i` of a conversion: stochastic or under RM (R162). -/
def State.rounding (s : State) (stoch : Bool) (i : Nat) : Rounding :=
  if stoch then .stoch (drawElem s.myJob.seed s.me.lcn s.me.srctr i) else .mode s.me.rm

end Sys2Proof.Machine
end

