-- ==== Sys2Proof/Machine/ScalarFp.lean ====
section
/-! DEFINITION. The scalar floating-point instructions of fixed latency (R336, R341 to R348, R353 to R355) and LDK (R365). -/

namespace Sys2Proof.Machine

def FFmt.fmt : FFmt → Fmt
  | .f32 => Fmt.f32 | .f64 => Fmt.f64

/-- The bits of an operand: an FP32 operand is G[31:0] (R336). -/
def fpBits (f : Fmt) (w : Word) : Nat := w.toNat % 2 ^ f.width

/-- A result in G, with the bits above the format 0 (R152). -/
def fpG (n : Nat) : Vec := BitVec.ofNat 256 n

/-- Ends a floating-point instruction that writes Gd. -/
def State.finishG (s : State) (size lat : Nat) (d : GReg) (r : Nat × FFlags) : State :=
  s.finishFp size lat (.g d) (fpG r.1) (fullMask (.g d)) r.2

/-- Gd from Ga and Gb. -/
def State.fp3 (s : State) (lat : Nat) (d a b : GReg) (f : FFmt) (op : Fmt → RMode → Nat → Nat → Nat × FFlags) : Res :=
  s.issue [.g a, .g b] [.g d] lat fun s =>
    s.finishG 4 lat d (op (FFmt.fmt f) s.me.rm (fpBits (FFmt.fmt f) (s.readG 0 a)) (fpBits (FFmt.fmt f) (s.readG 1 b)))

/-- Gd ← Ga op c, for an FP32 constant of the instruction. -/
def State.fpConst (s : State) (size : Nat) (d a : GReg) (c : Nat) (op : Fmt → RMode → FVal → FVal → Nat × FFlags) : Res :=
  s.issue [.g a] [.g d] 4 fun s =>
    s.finishG size 4 d (op Fmt.f32 s.me.rm (Fmt.f32.decode (fpBits Fmt.f32 (s.readG 0 a))) (Fmt.f32.decode c))

/-- Gd ← Gd × Ga + c, for an FP32 constant of the instruction; Gd is read (R342). -/
def State.fpFmaConst (s : State) (size : Nat) (d a : GReg) (c : Nat) : Res :=
  s.issue [.g a, .g d] [.g d] 4 fun s =>
    s.finishG size 4 d (Fmt.f32.fma s.me.rm (Fmt.f32.decode (fpBits Fmt.f32 (s.readG 1 d)))
      (Fmt.f32.decode (fpBits Fmt.f32 (s.readG 0 a))) (Fmt.f32.decode c))

/-- Lifts an operation on values to encodings. -/
def onVals (op : Fmt → RMode → FVal → FVal → Nat × FFlags) (f : Fmt) (rm : RMode) (x y : Nat) : Nat × FFlags :=
  op f rm (f.decode x) (f.decode y)

def Fmt.sub (f : Fmt) (rm : RMode) (a b : FVal) : Nat × FFlags := f.add rm a b.negate

/-- A comparison as 0 or 1. -/
def testBit (t : FVal → FVal → Bool × FFlags) (f : Fmt) (_ : RMode) (x y : Nat) : Nat × FFlags :=
  let r := t (f.decode x) (f.decode y)
  (if r.1 then 1 else 0, r.2)

/-- The first operand with its sign taken from `sgn` of the two signs (R355). -/
def withSign (sgn : Bool → Bool → Bool) (f : Fmt) (_ : RMode) (x y : Nat) : Nat × FFlags :=
  let sa := x / f.signBit % 2 == 1
  let sb := y / f.signBit % 2 == 1
  (x % f.signBit + (if sgn sa sb then f.signBit else 0), 0)

def execFadd (d a b : GReg) (f : FFmt) (s : State) : Res := s.fp3 4 d a b f (onVals Fmt.add)
def execFsub (d a b : GReg) (f : FFmt) (s : State) : Res := s.fp3 4 d a b f (onVals Fmt.sub)
def execFmul (d a b : GReg) (f : FFmt) (s : State) : Res := s.fp3 4 d a b f (onVals Fmt.mul)
/-- FFMA reads Gd as its addend (R342). -/
def execFfma (d a b : GReg) (f : FFmt) (s : State) : Res :=
  s.issue [.g a, .g b, .g d] [.g d] 4 fun s =>
    let m := FFmt.fmt f
    s.finishG 4 4 d (m.fma s.me.rm (m.decode (fpBits m (s.readG 0 a))) (m.decode (fpBits m (s.readG 1 b)))
      (m.decode (fpBits m (s.readG 2 d))))
def execFmin (d a b : GReg) (f : FFmt) (s : State) : Res := s.fp3 2 d a b f fun m _ x y => m.minMax false x y
def execFmax (d a b : GReg) (f : FFmt) (s : State) : Res := s.fp3 2 d a b f fun m _ x y => m.minMax true x y
def execFeq (d a b : GReg) (f : FFmt) (s : State) : Res := s.fp3 2 d a b f (testBit FVal.eqTest)
def execFlt (d a b : GReg) (f : FFmt) (s : State) : Res := s.fp3 2 d a b f (testBit (FVal.ordTest false))
def execFle (d a b : GReg) (f : FFmt) (s : State) : Res := s.fp3 2 d a b f (testBit (FVal.ordTest true))
/-- FCLASS sets the one bit of the operand's class (R346). -/
def execFclass (d a : GReg) (f : FFmt) (s : State) : Res :=
  s.issue [.g a] [.g d] 2 fun s =>
    s.finishG 4 2 d (2 ^ (FFmt.fmt f).classBit (fpBits (FFmt.fmt f) (s.readG 0 a)), 0)
def execFsgn (d a b : GReg) (f : FFmt) (s : State) : Res := s.fp3 2 d a b f (withSign fun _ sb => sb)
def execFsgnn (d a b : GReg) (f : FFmt) (s : State) : Res := s.fp3 2 d a b f (withSign fun _ sb => !sb)
def execFsgnx (d a b : GReg) (f : FFmt) (s : State) : Res := s.fp3 2 d a b f (withSign fun sa sb => sa != sb)

/-! ## FCVT (R347, R348) -/

/-- The destination format of a conversion to floating point. -/
def fcvtDst (f : FFmt) : FcvtOp → Option Fmt
  | .toF32 => some Fmt.f32 | .toF64 => some Fmt.f64 | .toBF16 => some Fmt.bf16 | .toF16 => some Fmt.f16
  | .ofI32 | .ofI64 => some (FFmt.fmt f)
  | .toI32 | .toI64 => none

/-- Whether the conversion's target is one of R162's, so that FMODE.SR rounds it stochastically. -/
def fcvtMayDraw (f : FFmt) (c : FcvtOp) : Bool :=
  match fcvtDst f c with
  | some m => m != Fmt.f64
  | none => false

/-- The result of a conversion with the given rounding. -/
def fcvtResult (f : FFmt) (c : FcvtOp) (rm : RMode) (rd : Rounding) (sat : Bool) (w : Word) : Nat × FFlags :=
  let src := (FFmt.fmt f).decode (fpBits (FFmt.fmt f) w)
  let toInt (n : Nat) : Nat × FFlags :=
    let r := intConvert n rm src
    ((BitVec.ofInt 64 r.1).toNat, r.2)
  match c with
  | .toI32 => toInt 32
  | .toI64 => toInt 64
  | .ofI32 => (FFmt.fmt f).convert rd sat (FVal.ofInt (w.setWidth 32).toInt)
  | .ofI64 => (FFmt.fmt f).convert rd sat (FVal.ofInt w.toInt)
  | .toF32 => Fmt.f32.convert rd sat src
  | .toF64 => Fmt.f64.convert rd sat src
  | .toBF16 => Fmt.bf16.convert rd sat src
  | .toF16 => Fmt.f16.convert rd sat src

/-- FCVT; a stochastic one takes one draw, unless it traps (R160, R348). -/
def execFcvt (d a : GReg) (f : FFmt) (c : FcvtOp) (s : State) : Res :=
  s.issue [.g a] [.g d] 3 fun s =>
    let st := s.me.srOn && fcvtMayDraw f c
    let r := fcvtResult f c s.me.rm (s.rounding st 0) s.me.sat (s.readG 0 a)
    if r.2 &&& s.me.enables ≠ 0 then s.takeTrap (trapOf cFpx (r.2.setWidth 64))
    else
      let s := if st then s.modMe fun t => { t with srctr := t.srctr + 1 } else s
      s.finishG 4 3 d r

/-! ## The constant bank (R344, R365) -/

/-- The word CB[c] of the own bank. -/
def State.cbOff (s : State) (c : BitVec 8) : Nat := s.myJob.cbBase.toNat % 2 ^ 18 + 4 * c.toNat

/-- A read of the constant bank: the LMPU's right, then poison, which trap precisely (R104, R111). -/
def State.withCb (s : State) (c : BitVec 8) (body : Nat → State → State) : State :=
  let off := s.cbOff c
  let p := s.me.pcn
  if !s.lmpuOk p off 4 false then s.takeTrap (trapOf cLmpu (BitVec.ofNat 64 off))
  else match s.poisonedIn (bankKey p off) 4 with
    | some g => s.takeTrap (trapOf cLmue (BitVec.ofNat 64 (g * 16 % 2 ^ 18)))
    | none =>
      let s := s.correct (bankKey p off) 4
      body (leNat (memRead s.ms.mem (bankKey p off) 4)) s

def execFaddk (d a : GReg) (c : BitVec 8) (s : State) : Res :=
  s.issue [.g a] [.g d] 4 fun s => s.withCb c fun k s =>
    s.finishG 4 4 d (Fmt.f32.add s.me.rm (Fmt.f32.decode (fpBits Fmt.f32 (s.readG 0 a))) (Fmt.f32.decode k))
def execFmulk (d a : GReg) (c : BitVec 8) (s : State) : Res :=
  s.issue [.g a] [.g d] 4 fun s => s.withCb c fun k s =>
    s.finishG 4 4 d (Fmt.f32.mul s.me.rm (Fmt.f32.decode (fpBits Fmt.f32 (s.readG 0 a))) (Fmt.f32.decode k))
def execFfmak (d a : GReg) (c : BitVec 8) (s : State) : Res :=
  s.issue [.g a, .g d] [.g d] 4 fun s => s.withCb c fun k s =>
    s.finishG 4 4 d (Fmt.f32.fma s.me.rm (Fmt.f32.decode (fpBits Fmt.f32 (s.readG 1 d)))
      (Fmt.f32.decode (fpBits Fmt.f32 (s.readG 0 a))) (Fmt.f32.decode k))
/-- LDK (R365). -/
def execLdk (d : GReg) (c : BitVec 8) (s : State) : Res :=
  s.issue [] [.g d] 3 fun s => s.withCb c fun k s => (s.retireG d 3 (BitVec.ofNat 64 k)).finish 4 1

/-! ## Literal and immediate forms (R343, R345) -/

def execFaddl (d a : GReg) (l : BitVec 32) (s : State) : Res := s.fpConst 8 d a l.toNat Fmt.add
def execFmull (d a : GReg) (l : BitVec 32) (s : State) : Res := s.fpConst 8 d a l.toNat Fmt.mul
def execFfmal (d a : GReg) (l : BitVec 32) (s : State) : Res := s.fpFmaConst 8 d a l.toNat

/-- The FP32 pattern whose high 20 bits are the immediate (R270). -/
def fImm (i : BitVec 20) : Nat := i.toNat * 2 ^ 12

def execFaddi (d m : GReg) (i : BitVec 20) (s : State) : Res := s.fpConst 4 d m (fImm i) Fmt.add
def execFmuli (d m : GReg) (i : BitVec 20) (s : State) : Res := s.fpConst 4 d m (fImm i) Fmt.mul
def execFfmai (d m : GReg) (i : BitVec 20) (s : State) : Res := s.fpFmaConst 4 d m (fImm i)
/-- FMOVI copies the bits and raises nothing (R154, R343). -/
def execFmovi (d : GReg) (i : BitVec 20) (s : State) : Res :=
  s.issue [] [.g d] 4 fun s => (s.retireG d 4 (BitVec.ofNat 64 (fImm i))).finish 4 1

end Sys2Proof.Machine
end

