-- ==== Sys2Proof/Machine/Tokened.lean ====
section
/-! DEFINITION. The issue of tokened and streamed operations: division and FDIV/FSQRT (R337, R338, R350, R387), LDX, STX,
VLDX, VSTX (R366 to R368, R397, R398, R421), atomics (R310), CHUNK (R326), WATCH (R424), FESET and FECLR (R352), and the
task, group and territory operations (R320, R359, R391, R393, R402, R404, R408). What each does at its home is a step of
its own. -/

namespace Sys2Proof.Machine

/-! ## Holds (R82) and launching an operation -/

/-- What an operation needs of its core before it issues. -/
structure Needs where
  tok     : Option Tok
  strm    : Option Strm
  queue   : Bool          -- it enters the ordering queue
  posted  : Bool          -- it takes a journal entry
  copy    : Bool          -- it enters the copy queue
  matrix  : Bool          -- it enters the matrix queue
deriving DecidableEq, Repr

def needTok (k : Tok) : Needs := ⟨some k, none, false, false, false, false⟩
def needMem (k : Tok) (st : Strm) : Needs := ⟨some k, some st, true, false, false, false⟩

/-- The memory operations of a core that wait in its ordering queue. -/
def State.waitingOps (s : State) (p : Pcn) : Nat :=
  (s.ops.filter fun e => decide (e.2.pcn = p) && decide (e.2.phase = .queued) && e.2.strm.isSome &&
    !(s.core p).copyQ.contains e.1 && !(s.core p).matQ.contains e.1).length

/-- Whether the core holds issue (R82). -/
def State.mustHold (s : State) (n : Needs) : Bool :=
  let t := s.me
  let c := s.myCore
  (match n.tok with
   | some k => decide (t.bank.tokens[k].out = 255)
   | none => false) ||
  (match n.strm with
   | some k => decide (63 ≤ t.bank.streams[k].out)
   | none => false) ||
  (n.queue && decide (32 ≤ s.waitingOps t.pcn)) ||
  (n.posted && (freeEntry c.journal).isNone) ||
  (n.copy && decide (2 ≤ c.copyQ.length)) ||
  (n.matrix && decide (2 ≤ c.matQ.length))

/-- An instruction that may be held: it holds, traps, or does `body`. -/
def State.issueOp (s : State) (n : State → Needs) (reads dests : List Reg) (body : State → State) : Res :=
  let b := s.begin
  if b.mustHold (n b) then .next s.holdMe
  else .next (match b.hazard reads dests 0 with
    | some tr => b.takeTrap tr
    | none => b.afterChecks reads body)

/-- Issues an operation: counts it on its token and stream, and puts it into the machine with what it captured (R84, R129,
R132, R197). Answers its identity. -/
def State.launch (s : State) (k : OpKind) (tok : Option Tok) (strm : Option Strm) (mask : Byte) (posted : Bool) : OpId × State :=
  let t := s.me
  let (id, s) := s.takeId
  let jidx := if posted then freeEntry s.myCore.journal else none
  let s := s.modMe fun t => t.modBank t.inHandler fun b =>
    let b := match tok with | some k => b.issueTok k | none => b
    match strm with | some k => b.issueStrm k | none => b
  let op : Op := {
    uid := s.cur, job := t.job, pcn := t.pcn, pc := t.trapPoint, kind := k, phase := .queued, tok := tok, strm := strm
    mask := mask, inShadow := t.inHandler, counted := strm.isNone, jidx := jidx, hop := false, result := [], pieces := []
    wrote := false, recd := none, sent := false, aux := 0
    slot := t.party, region := s.regionOf (partyOf t.pcn t.party), stepped := s.myCore.stepping, resent := false }
  let s := s.setOp id op
  match jidx, k, tok with
  | some j, .store a _ data q, some tk =>
    let e : JEntry := ⟨s.cur, id, t.trapPoint, a, data, q, tk, false, false, t.inHandler, 0⟩
    (id, s.modMyCore fun c => { c with journal := mapSet c.journal j e })
  | _, _, _ => (id, s)

/-- Issues an operation and goes on to the next instruction. -/
def State.launchOn (s : State) (k : OpKind) (tok : Option Tok) (strm : Option Strm) (mask : Byte) (posted : Bool) : State :=
  (s.launch k tok strm mask posted).2.finish 4 1

/-! ## Division (R338, R387) -/

def divW (x y : Word) : Word := if y = 0 then BitVec.allOnes 64 else x.sdiv y
def divuW (x y : Word) : Word := if y = 0 then BitVec.allOnes 64 else x / y
def remW (x y : Word) : Word := if y = 0 then x else x.srem y
def remuW (x y : Word) : Word := if y = 0 then x else x % y

def State.divide (s : State) (d a b : GReg) (k : Tok) (f : Word → Word → Word) : Res :=
  s.issueOp (fun _ => needTok k) [.g a, .g b] [.g d] fun s =>
    s.launchOn (.alu d (f (s.readG 0 a) (s.readG 1 b))) (some k) none 0 false

def execDiv (d a b : GReg) (k : Tok) (s : State) : Res := s.divide d a b k divW
def execDivu (d a b : GReg) (k : Tok) (s : State) : Res := s.divide d a b k divuW
def execRem (d a b : GReg) (k : Tok) (s : State) : Res := s.divide d a b k remW
def execRemu (d a b : GReg) (k : Tok) (s : State) : Res := s.divide d a b k remuW

/-! ## FDIV, FSQRT (R350): operands, RM and the enables are captured at issue -/

def execFdiv (d a b : GReg) (k : Tok) (f : FFmt) (s : State) : Res :=
  s.issueOp (fun _ => needTok k) [.g a, .g b] [.g d] fun s =>
    let m := FFmt.fmt f
    let r := m.div s.me.rm (m.decode ((s.readG 0 a).toNat % 2 ^ m.width)) (m.decode ((s.readG 1 b).toNat % 2 ^ m.width))
    s.launchOn (.fpu d (BitVec.ofNat 64 r.1) r.2 s.me.enables) (some k) none 0 false

def execFsqrt (d a : GReg) (k : Tok) (f : FFmt) (s : State) : Res :=
  s.issueOp (fun _ => needTok k) [.g a] [.g d] fun s =>
    let m := FFmt.fmt f
    let r := m.sqrt s.me.rm (m.decode ((s.readG 0 a).toNat % 2 ^ m.width))
    s.launchOn (.fpu d (BitVec.ofNat 64 r.1) r.2 s.me.enables) (some k) none 0 false

/-! ## Loads (R367, R421) -/

/-- The address G[base] + PfxOff, read as operand 0. -/
def State.baseAddr (s : State) (b : GReg) : Word := s.readG 0 b + s.me.pfxOff

def State.tokLoad (s : State) (dst : Reg) (b : GReg) (st : Strm) (m : Sel) (k : Tok) (n : Nat) (sx : Bool) (q : LdQual) : Res :=
  s.issueOp (fun _ => needMem k st) [.g b] [dst] fun s =>
    let a := s.baseAddr b
    match addrTrap (inWindow s.me.pcn a) a n with
    | some t => s.takeTrap t
    | none =>
      let s' := s.launchOn (.load a n dst sx q) (some k) (some st) (s.me.mask m) false
      if q = .plain then s' else s'.closeRegion

def execLdx (t b : GReg) (st : Strm) (m : Sel) (k : Tok) (w : Width) (x : Bool) (s : State) : Res :=
  s.tokLoad (.g t) b st m k (Width.bytes w) x .plain
def execLdxWf (t b : GReg) (st : Strm) (m : Sel) (k : Tok) (w : Width) (x : Bool) (s : State) : Res :=
  s.tokLoad (.g t) b st m k (Width.bytes w) x .wf
def execLdxWfc (t b : GReg) (st : Strm) (m : Sel) (k : Tok) (w : Width) (x : Bool) (s : State) : Res :=
  s.tokLoad (.g t) b st m k (Width.bytes w) x .wfc
def execVldx (t : VReg) (b : GReg) (st : Strm) (m : Sel) (k : Tok) (s : State) : Res :=
  s.tokLoad (.v t) b st m k 32 false .plain
def execVldxWf (t : VReg) (b : GReg) (st : Strm) (m : Sel) (k : Tok) (s : State) : Res :=
  s.tokLoad (.v t) b st m k 32 false .wf
def execVldxWfc (t : VReg) (b : GReg) (st : Strm) (m : Sel) (k : Tok) (s : State) : Res :=
  s.tokLoad (.v t) b st m k 32 false .wfc

/-! ## Stores (R398, R421) -/

/-- A store outside the local window is posted (R197). -/
def State.isPosted (s : State) (a : Word) : Bool := !isLocal s.me.pcn a

def State.tokStore (s : State) (src : Reg) (b : GReg) (st : Strm) (m : Sel) (k : Tok) (n : Nat) (q : StQual) : Res :=
  s.issueOp (fun s => { needMem k st with posted := s.isPosted (s.baseAddr b) }) [.g b, src] [] fun s =>
    let a := s.baseAddr b
    match addrTrap (inWindow s.me.pcn a) a n with
    | some t => s.takeTrap t
    | none =>
      let v := (s.readReg 1 src).toNat
      let data := match q with
        | .nl | .nh => leBytes 1 (v % 16)
        | _ => leBytes n v
      let s' := s.launchOn (.store a n data q) (some k) (some st) (s.me.mask m) (s.isPosted a)
      if q = .sf then s'.closeRegion else s'

def execStx (t b : GReg) (st : Strm) (m : Sel) (k : Tok) (w : Width) (s : State) : Res :=
  s.tokStore (.g t) b st m k (Width.bytes w) .plain
def execStxSf (t b : GReg) (st : Strm) (m : Sel) (k : Tok) (w : Width) (s : State) : Res :=
  s.tokStore (.g t) b st m k (Width.bytes w) .sf
def execStxNl (t b : GReg) (st : Strm) (m : Sel) (k : Tok) (s : State) : Res := s.tokStore (.g t) b st m k 1 .nl
def execStxNh (t b : GReg) (st : Strm) (m : Sel) (k : Tok) (s : State) : Res := s.tokStore (.g t) b st m k 1 .nh
def execVstx (t : VReg) (b : GReg) (st : Strm) (m : Sel) (k : Tok) (s : State) : Res := s.tokStore (.v t) b st m k 32 .plain
def execVstxSf (t : VReg) (b : GReg) (st : Strm) (m : Sel) (k : Tok) (s : State) : Res := s.tokStore (.v t) b st m k 32 .sf

/-! ## Atomics (R310) -/

def State.atomic (s : State) (o : AtomOp) (t b : GReg) (st : Strm) (m : Sel) (k : Tok) (w : AWidth) : Res :=
  let n := AWidth.bytes w
  let more : List Reg := if o = .cas then [.g (t + 1)] else []
  s.issueOp (fun _ => needMem k st) ([.g b, .g t] ++ more) [.g t] fun s =>
    let a := s.baseAddr b
    match addrTrap (inWindow s.me.pcn a) a n with
    | some tr => s.takeTrap tr
    | none =>
      let cut (v : Word) : Word := BitVec.ofNat 64 (v.toNat % 2 ^ (8 * n))
      (s.launchOn (.atom o a n (cut (s.readG 1 t)) (if o = .cas then cut (s.readG 2 (t + 1)) else 0) t)
        (some k) (some st) (s.me.mask m) false).closeRegion

def execAadd (t b : GReg) (st : Strm) (m : Sel) (k : Tok) (w : AWidth) (s : State) : Res := s.atomic .add t b st m k w
def execAand (t b : GReg) (st : Strm) (m : Sel) (k : Tok) (w : AWidth) (s : State) : Res := s.atomic .and t b st m k w
def execAor (t b : GReg) (st : Strm) (m : Sel) (k : Tok) (w : AWidth) (s : State) : Res := s.atomic .or t b st m k w
def execAxor (t b : GReg) (st : Strm) (m : Sel) (k : Tok) (w : AWidth) (s : State) : Res := s.atomic .xor t b st m k w
def execAmin (t b : GReg) (st : Strm) (m : Sel) (k : Tok) (w : AWidth) (s : State) : Res := s.atomic .min t b st m k w
def execAmax (t b : GReg) (st : Strm) (m : Sel) (k : Tok) (w : AWidth) (s : State) : Res := s.atomic .max t b st m k w
def execAminu (t b : GReg) (st : Strm) (m : Sel) (k : Tok) (w : AWidth) (s : State) : Res := s.atomic .minu t b st m k w
def execAmaxu (t b : GReg) (st : Strm) (m : Sel) (k : Tok) (w : AWidth) (s : State) : Res := s.atomic .maxu t b st m k w
def execAswp (t b : GReg) (st : Strm) (m : Sel) (k : Tok) (w : AWidth) (s : State) : Res := s.atomic .swp t b st m k w
def execAcas (t b : GReg) (st : Strm) (m : Sel) (k : Tok) (w : AWidth) (s : State) : Res := s.atomic .cas t b st m k w

/-- CHUNK names a loop object in the global space (R326). -/
def execChunk (t b : GReg) (st : Strm) (m : Sel) (k : Tok) (s : State) : Res :=
  s.issueOp (fun _ => needMem k st) [.g b] [.g t, .g (t + 1)] fun s =>
    let a := s.baseAddr b
    match addrTrap (isGlobal s.me.pcn a) a 32 with
    | some tr => s.takeTrap tr
    | none => (s.launchOn (.chunk a t) (some k) (some st) (s.me.mask m) false).closeRegion

/-! ## WATCH (R424), FESET and FECLR (R352): streamed, not tokened -/

/-- WATCH: the thread waits until the slice accepts the request (R66). -/
def execWatch (v b : GReg) (st : Strm) (m : Sel) (c : WCond) (w : AWidth) (s : State) : Res :=
  s.issueOp (fun _ => ⟨none, some st, true, false, false, false⟩) [.g b, .g v] [] fun s =>
    let a := s.baseAddr b
    match addrTrap (isGlobal s.me.pcn a) a (AWidth.bytes w) with
    | some tr => s.takeTrap tr
    | none =>
      let n := AWidth.bytes w
      let val := BitVec.ofNat 64 ((s.readG 1 v).toNat % 2 ^ (8 * n))
      let (id, s) := s.launch (.watch a n c val) none (some st) (s.me.mask m) false
      s.closeRegion.block (.watch id)

/-- The traps of a run of `c` granules (R352), with every ADDR check before ALIGN. -/
def State.feTrap (s : State) (a : Word) (c : Nat) : Option Trap :=
  match winOf s.me.pcn a with
  | .bank q off false =>
    if bankBytes < off + 16 * c ∨ (s.core q).status = .dark then some (trapOf cAddr a)
    else if a.toNat % 16 ≠ 0 then some (trapOf cAlign a)
    else if !s.lmpuOk q off (16 * c) true then some (trapOf cLmpu a)
    else none
  | _ => some (trapOf cAddr a)

def State.feOp (s : State) (b : GReg) (st : Strm) (m : Sel) (c : BitVec 9) (set : Bool) : Res :=
  s.issueOp (fun _ => ⟨none, some st, true, false, false, false⟩) [.g b] [] fun s =>
    let a := s.baseAddr b
    match s.feTrap a c.toNat with
    | some tr => s.takeTrap tr
    | none => (s.launchOn (.fe a c.toNat set) none (some st) (s.me.mask m) false).closeRegion

def execFeclr (b : GReg) (st : Strm) (m : Sel) (c : BitVec 9) (s : State) : Res := s.feOp b st m c false
def execFeset (b : GReg) (st : Strm) (m : Sel) (c : BitVec 9) (s : State) : Res := s.feOp b st m c true

/-! ## Tasks, counters and groups -/

/-- SPAWN's target core (R393): 0 is the own bank. -/
def isSpawnTarget (p : Pcn) (tgt : Word) : Bool := isBank p tgt

/-- SPAWN (R393); ILLEGAL in an upcall thread (R29). -/
def execSpawn (a b : GReg) (k : Tok) (st : Strm) (m : Sel) (s : State) : Res :=
  if s.me.upcall ≠ .none then s.raise (trapOf cIllegal (s.illegalWord (.spawn a b k st m)))
  else s.issueOp (fun _ => needMem k st) [.g a, .g b] [] fun s =>
    let rec_ := s.baseAddr a
    let tgt := s.readG 1 b
    let p := s.me.pcn
    if !(isLocal p rec_ || isGlobal p rec_) then s.takeTrap (trapOf cAddr rec_)
    else if !isSpawnTarget p tgt then s.takeTrap (trapOf cAddr tgt)
    else if rec_.toNat % 64 ≠ 0 then s.takeTrap (trapOf cAlign rec_)
    else (s.launchOn (.spawn rec_ tgt) (some k) (some st) (s.me.mask m) false).closeRegion

/-- TASKQ (R402). -/
def execTaskq (a : GReg) (k : Tok) (st : Strm) (m : Sel) (s : State) : Res :=
  s.issueOp (fun _ => needMem k st) [.g a] [] fun s =>
    let rec_ := s.baseAddr a
    match addrTrap (isLocal s.me.pcn rec_) rec_ 64 with
    | some tr => s.takeTrap tr
    | none => (s.launchOn (.taskq rec_) (some k) (some st) (s.me.mask m) false).closeRegion

/-- BIND (R320). -/
def execBind (a b c : GReg) (k : Tok) (st : Strm) (m : Sel) (s : State) : Res :=
  s.issueOp (fun _ => needMem k st) [.g a, .g b, .g c] [] fun s =>
    let o := s.baseAddr a
    match addrTrap (inWindow s.me.pcn o) o 128 with
    | some tr => s.takeTrap tr
    | none => (s.launchOn (.bind o (s.readG 1 b) (s.readG 2 c)) (some k) (some st) (s.me.mask m) false).closeRegion

/-- A payload length that SIGNAL carries (R391). -/
def payloadLen (len : Word) : Bool := len == 32 || len == 64 || len == 96

/-- SIGNAL: every ADDR check comes before any ALIGN check (R391). -/
def execSignal (a b c : GReg) (k : Tok) (st : Strm) (m : Sel) (s : State) : Res :=
  s.issueOp (fun _ => needMem k st) [.g a, .g b, .g c] [] fun s =>
    let o := s.baseAddr a
    let p := s.readG 1 b
    let len := s.readG 2 c
    if !inWindow s.me.pcn o then s.takeTrap (trapOf cAddr o)
    else if payloadLen len && !(isLocal s.me.pcn p && rangeIn s.me.pcn p len.toNat) then s.takeTrap (trapOf cAddr p)
    else if o.toNat % 128 ≠ 0 then s.takeTrap (trapOf cAlign o)
    else if payloadLen len && p.toNat % 32 ≠ 0 then s.takeTrap (trapOf cAlign p)
    else (s.launchOn (.signal o p len) (some k) (some st) (s.me.mask m) false).closeRegion

/-- JOIN and LEAVE (R359). -/
def State.groupOp (s : State) (kind : Word → OpKind) (a : GReg) (k : Tok) (st : Strm) (m : Sel) : Res :=
  s.issueOp (fun _ => needMem k st) [.g a] [] fun s =>
    let o := s.baseAddr a
    match addrTrap (isGlobal s.me.pcn o) o 16 with
    | some tr => s.takeTrap tr
    | none => (s.launchOn (kind o) (some k) (some st) (s.me.mask m) false).closeRegion

def execJoin (a : GReg) (k : Tok) (st : Strm) (m : Sel) (s : State) : Res := s.groupOp .join a k st m
def execLeave (a : GReg) (k : Tok) (st : Strm) (m : Sel) (s : State) : Res := s.groupOp .leave a k st m

/-- GBAR blocks its thread until the home's step (R357). -/
def execGbar (a : GReg) (s : State) : Res :=
  s.issue [.g a] [] 0 fun s =>
    let o := s.baseAddr a
    match addrTrap (isGlobal s.me.pcn o) o 16 with
    | some tr => s.takeTrap tr
    | none => s.closeRegion.block (.gbar o)

/-! ## Territory -/

/-- TSHAPE: the bitmap's 128 bytes lie in one bank of the local window; the write is in S0 under SM0 (R408). -/
def execTshape (d a : GReg) (k : Tok) (s : State) : Res :=
  s.issueOp (fun _ => needMem k 0) [.g a] [.g d, .g (d + 1)] fun s =>
    let bm := s.readG 0 a
    if !(isLocal s.me.pcn bm && rangeIn s.me.pcn bm 128) then s.takeTrap (trapOf cAddr bm)
    else if bm.toNat % 16 ≠ 0 then s.takeTrap (trapOf cAlign bm)
    else s.launchOn (.tshape bm d) (some k) (some 0) 0 false

/-- TPRESS (R404). -/
def execTpress (a : GReg) (k : Tok) (s : State) : Res :=
  s.issueOp (fun _ => needTok k) [.g a] [] fun s => s.launchOn (.tpress (s.readG 0 a)) (some k) none 0 false

end Sys2Proof.Machine
end

