-- ==== Sys2Proof/Machine/Threads.lean ====
section
/-! DEFINITION. Threads: images and slots (R39, R42), creation (R48, R50), the ready pool and dispatch (R51 to R54), the choice
of what a core issues (R44 to R47), the end of a thread (R34, R72) and migration (R70, R71). -/

namespace Sys2Proof.Machine

/-! ## Images and slots -/

/-- The threads of a core that are its owner's: those of a suspended job whose tile another job was granted stand in no image there
(R205, R206). -/
def State.threadsOn (s : State) (p : Pcn) : List (Uid × Thread) :=
  s.threads.filter fun e => decide (e.2.pcn = p) && decide (e.2.job = s.owner (tileOf p))

/-- The lowest ordinary image of a core that no thread holds (R39). -/
def State.freeImage (s : State) (p : Pcn) : Option Nat :=
  let n := (s.job (s.owner (tileOf p))).nimg
  (List.range (n - 1)).find? fun k => !(s.threadsOn p).any fun e => decide (e.2.image = some k)

/-- The threads in a core's slots. -/
def State.residents (s : State) (p : Pcn) : List (Uid × Thread) := (s.threadsOn p).filter fun e => e.2.slot.isSome

/-- The thread that issued least recently of a list. -/
def oldestIssue : List (Uid × Thread) → Option (Uid × Thread)
  | [] => none
  | e :: r =>
    match oldestIssue r with
    | some f => if f.2.lastIssue < e.2.lastIssue then some f else some e
    | none => some e

/-- A thread leaves its slot, and the slot's race region closes (R145). -/
def State.leaveSlot (s : State) (u : Uid) : State :=
  let t := s.thread u
  if t.slot.isNone then s else (s.closeParty t.pcn t.party).modThread u fun t => { t with slot := none }

/-- A slot of a core: a free one, or that of the thread that issued least recently, which leaves it (R29, R44). A thread
still RUNNING there is pre-empted, but at an instruction boundary. -/
def State.claimSlot (s : State) (p : Pcn) : Nat × State :=
  let r := s.residents p
  match [0, 1].find? fun k => !r.any fun e => decide (e.2.slot = some k) with
  | some k => (k, s)
  | none =>
    let free := r.filter fun e => !(decide (e.2.status = .running) && (e.2.redirect.isSome || e.2.pfx.isSome))
    match (oldestIssue free).or (oldestIssue r) with
    | none => (0, s)
    | some e =>
      let s := s.modThread e.1 fun t =>
        if t.status = .running then { t with status := .ready, readySince := s.now } else t
      (e.2.slot.getD 0, s.leaveSlot e.1)

/-! ## Creation (R48, R50) -/

/-- The next thread number of a job: from 1, skipping 0. -/
def nextTid (n : BitVec 32) : BitVec 32 := if n + 1 = 0 then 1 else n + 1

/-- A thread of the owner of core `p`, in image `k`, READY, with its registers at zero. -/
def State.newThread (s : State) (p : Pcn) (k : Nat) : Uid × State :=
  let tag := s.owner (tileOf p)
  let j := s.job tag
  let (u, s) := s.takeId
  let s := s.setThread u { Thread.reset with
    job := tag, tid := j.tidNext, pcn := p, image := some k, status := .ready, readySince := s.now
    g := Thread.reset.g.set 14 (stackTop (s.core p).splim j.nimg k) }
  (u, s.modJob tag fun j => { j with tidNext := nextTid j.tidNext })

/-- A thread from a task record (R50). -/
def State.threadFromTask (s : State) (p : Pcn) (k : Nat) (r : TaskRec) : Uid × State :=
  let (u, s) := s.newThread p k
  (u, s.modThread u fun t => { t with
    pc := r.entry, lcn := r.lcn
    g := (((t.g.set 0 r.arg0).set 1 r.arg1).set 2 r.arg2).set 3 r.arg3 })

/-- An upcall thread in image NIMG − 1 (R29). Bit 0 of the PC is 0, whatever UPVEC holds (R268; log entry 78). -/
def State.upcallThread (s : State) (p : Pcn) (kind : Upcall) : Uid × State :=
  let j := s.job (s.owner (tileOf p))
  let (sl, s) := s.claimSlot p
  let (u, s) := s.newThread p (j.nimg - 1)
  (u, s.modThread u fun t => { t with
    pc := j.upVec &&& ~~~1, lcn := 0xFFFFFFFF, upArg := BitVec.ofNat 64 eventOff, upcall := kind, preferred := true, slot := some sl })

/-! ## The ready pool (R49, R51 to R54) -/

/-- A record that TASKQ, SPAWN, BIND or a firing accepts (R49). -/
def TaskRec.ok (r : TaskRec) : Bool :=
  decide (0x1000000 ≤ r.entry.toNat) && !r.entry.getLsbD 0 && r.lcn != 0xFFFFFFFF && decide (r.flags.toNat < 4)

/-- The 64 bytes of a record (R49). -/
def TaskRec.ofBytes (bs : List Byte) : TaskRec :=
  let d (i : Nat) : Word := leWord ((bs.drop (8 * i)).take 8)
  ⟨d 0, d 1, d 2, d 3, d 4, d 5, d 6, (d 7).extractLsb' 0 32, (d 7).extractLsb' 32 32⟩

def TaskRec.band (r : TaskRec) : Nat := r.flags.toNat % 4

/-- Records of a pool that still count: those pooled, and those dispatched whose thread has not started (R52). -/
def State.poolCount (s : State) (tag : Nat) : Nat :=
  (s.job tag).pool.length + (s.cores.filter fun e => e.2.dispatched.isSome && decide (s.owner (tileOf e.1) = tag)).length

def poolLimit : Nat := 16384

/-- Puts a record at the end of its pool. -/
def State.poolPut (s : State) (tag : Nat) (r : TaskRec) : State :=
  s.modJob tag fun j => { j with pool := j.pool ++ [⟨r, false⟩] }

/-- Returns a dispatched record before the records of its band (R31, R54, R203). -/
def State.poolReturn (s : State) (tag : Nat) (r : TaskRec) : State :=
  s.modJob tag fun j => { j with pool := ⟨r, true⟩ :: j.pool }

/-- A hint near a core (R54). -/
def nearHint (p : Pcn) (h : Word) : Bool :=
  if h = 0 then false
  else match winOf p h with
    | .bank q _ true => decide (tileOf q = tileOf p)
    | .global => decide (homeOf h = yOf (tileOf p) / 4 * 8 + xOf (tileOf p) / 4)
    | _ => false

/-- The band that a dispatch takes from (R53). -/
def Job.bandToServe (j : Job) : Option Nat :=
  let has (b : Nat) : Bool := j.pool.any fun r => decide (r.task.band = b)
  (([2, 1, 0].find? fun b => has b && decide (64 ≤ j.starve.toList.getD b 0))).or ([3, 2, 1, 0].find? has)

/-- The starvation counts after a dispatch from band `x` that leaves `rest` (R53). -/
def Job.starveAfter (j : Job) (x : Nat) (rest : List PoolRec) : Vector Nat 3 :=
  Vector.ofFn fun b =>
    if b.val = x ∨ !(rest.any fun r => decide (r.task.band = b.val)) then 0
    else if b.val < x then j.starve[b] + 1 else j.starve[b]

/-- The record that the pool gives core `p`, and the job without it (R53, R54). -/
def Job.serve (j : Job) (p : Pcn) : Option (PoolRec × Job) :=
  match j.bandToServe with
  | none => none
  | some b =>
    let eight := (j.pool.filter fun r => decide (r.task.band = b)).take 8
    match (eight.find? fun r => nearHint p r.task.hint0 || nearHint p r.task.hint1).or eight.head? with
    | none => none
    | some r =>
      let rest := j.pool.erase r
      some (r, { j with pool := rest, starve := j.starveAfter b rest })

/-! ## What a core may do -/

def State.runningOn (s : State) (p : Pcn) : Option (Uid × Thread) :=
  (s.threadsOn p).find? fun e => decide (e.2.status = .running)

def State.readyOn (s : State) (p : Pcn) : List (Uid × Thread) :=
  (s.threadsOn p).filter fun e => decide (e.2.status = .ready)

/-- TASK_DISPATCH: an idle core takes a record from its pool (R44 step 4, R54). -/
def execTaskDispatch (pcn : Nat) (s : State) : Res :=
  let c := s.core pcn
  let tag := s.owner (tileOf pcn)
  .next (
    if s.coreUp pcn && !c.halted && c.dispatched.isNone && (s.runningOn pcn).isNone && (s.readyOn pcn).isEmpty &&
        (s.freeImage pcn).isSome then
      match (s.job tag).serve pcn with
      | none => s
      | some (r, j) => (s.setJob tag j).modCore pcn fun c => { c with dispatched := some r.task }
    else s)

/-- The tile at whose router the slice stands that holds a job's pool: the one that homes its anchor (R51). -/
def State.poolTile (s : State) (tag : Nat) : Nat :=
  let t := (s.job tag).anchor
  tileAt (tagDie tag) (xOf t / 4 * 4 + 1) (yOf t / 4 * 4 + 1)

/-- A record at the slice that holds its pool: it is pooled, or refused with a wait hint while the pool is full. One whose job is gone is
discarded (R51, R52, R118). -/
def State.poolAccept (r : PoolReq) (s : State) : AtHome :=
  let live := match s.liveJob? r.tag with
    | some j => decide (j.serial = r.ser) && j.live
    | none => false
  if live && decide (poolLimit ≤ s.poolCount r.tag) then s.hinted
  else .ok (if live then s.poolPut r.tag r.task else s) []

/-- POOL_APPEND: a record goes to the slice that holds its pool, again at each wait hint, until it is accepted (R51, R52). The operation that
sent it then performs. -/
def execPoolAppend (req : Nat) (s : State) : Res :=
  .next (
    match s.fab.poolReqs.find? fun r => decide (r.id = req) with
    | none => s
    | some r =>
      match s.trip req 0 r.src (s.poolTile r.tag) 0 64 true fun _ s => s.poolAccept r with
      | .wait s | .fail s _ _ => s
      | .ok s _ =>
        let s := s.modFab fun f => { f with poolReqs := f.poolReqs.filter fun q => decide (q.id ≠ req) }
        match r.op with
        | some id => s.performOp id []
        | none => s)

/-! ## The choice (R44) -/

/-- The READY thread that has been so longest. -/
def oldestReady : List (Uid × Thread) → Option (Uid × Thread)
  | [] => none
  | e :: r =>
    match oldestReady r with
    | some f => if f.2.readySince < e.2.readySince then some f else some e
    | none => some e

/-- R44's choice among the READY threads of a core: a preferred upcall thread, a resident thread other than the one that issued last, the
non-resident one READY earliest, or the resident thread that issued last (log entry 47). -/
def State.choice (s : State) (p : Pcn) : Option Uid :=
  let ready := s.readyOn p
  let other := (ready.filter fun (e : Uid × Thread) => e.2.slot.isSome && decide ((s.core p).lastRan ≠ some e.1))
  ((((ready.find? fun e => e.2.preferred && decide (e.2.upcall ≠ .none)).or (oldestIssue other)).or
    (oldestReady (ready.filter fun e => e.2.slot.isNone))).or (oldestReady ready)).map (·.1)

/-- The registers that stand in lines of a context image (R40). -/
def imageRegs : List Reg :=
  (List.finRange 16).map .g ++ (List.finRange 32).map .v ++ (List.finRange 8).map .k ++ [.fstat]

/-- A thread is to issue: it has a slot, and its quantum, under the SLICE last written, starts when it begins to issue (R45). In a slot that it
has just taken none of its registers is loaded (R42). -/
def State.startRunning (s : State) (p : Pcn) (u : Uid) : State :=
  let (sl, s) := match (s.thread u).slot with
    | some k => (k, s)
    | none => s.claimSlot p
  let s := s.modThread u fun t => { t with
    status := .running, slot := some sl, quantumAt := none, cold := if t.slot.isSome then t.cold else imageRegs }
  s.modCore p fun c => { c with slice := c.sliceNext.getD c.slice, sliceNext := none, lastRan := some u }

/-- A RUNNING thread gives way, at an instruction boundary, to a preferred upcall thread that is READY (R29). -/
def State.yieldToUpcall (s : State) (p : Pcn) : State :=
  match s.runningOn p with
  | some (u, t) =>
    if t.pfx.isNone && t.redirect.isNone && (s.readyOn p).any fun e => e.2.preferred && decide (e.2.upcall ≠ .none) then
      s.modThread u fun t => { t with status := .ready, readySince := s.now, preferred := false }
    else s
  | none => s

/-- The core's RUNNING thread, chosen if it has none; a dispatched task starts when no thread is READY. -/
def State.select (s : State) (p : Pcn) : State :=
  if !s.coreUp p then s
  else
    let s := s.yieldToUpcall p
    if (s.runningOn p).isSome then s
    else match s.choice p with
      | some u => s.startRunning p u
      | none =>
        match (s.core p).dispatched, s.freeImage p with
        | some r, some k =>
          let (u, s) := s.threadFromTask p k r
          (s.modCore p fun c => { c with dispatched := none }).startRunning p u
        | _, _ => s

/-- Q of R45. -/
def Core.quantum (c : Core) : Nat := 4096 * (c.slice.toNat + 1)

/-- Whether a thread of a core will have issued for its quantum when its next instruction could issue (R45, R339). -/
def State.overQuantum (s : State) (c : Core) (t : Thread) : Bool :=
  match t.quantumAt with
  | some q => decide (q + c.quantum ≤ s.turnAt c t)
  | none => false

/-- The core's RUNNING thread, if its quantum is spent and another is READY (R47). -/
def State.quantumSpent (s : State) (p : Pcn) : Option Uid :=
  match s.runningOn p with
  | some (u, t) =>
    if decide (t.upcall ≠ .loss) && t.pfx.isNone && t.redirect.isNone && s.overQuantum (s.core p) t && !(s.readyOn p).isEmpty then
      some u
    else none
  | none => none

/-- QUANTUM_EXPIRY: the thread becomes READY, and R44 chooses (R47). A gain upcall loses its preference (R29). -/
def execQuantumExpiry (pcn : Nat) (s : State) : Res :=
  .next (
    match s.quantumSpent pcn with
    | some u =>
      let s := s.modThread u fun t => { t with status := .ready, readySince := s.now, preferred := false }
      s.select pcn
    | none => s)

/-! ## The end of a thread (R34, R36, R72) -/

/-- Ends a thread. The end of a loss upcall stops the cores of its tile (R31); the end of a job's last thread ends the job. -/
def State.endThread (s : State) (u : Uid) : State :=
  let t := s.thread u
  let s := (s.leaveSlot u).dropThread u
  let mine := s.moves.filter fun (m : Move) => decide (m.upcall = some u)
  let s := { s with moves := s.moves.map fun (m : Move) =>
    if m.upcall = some u then { m with upcall := none, stopped := true } else m }
  let s := mine.foldl (fun s m => s.settleTile m.tile) s
  s.endIfSpent t.job

/-- The executing thread at EXIT, UPRET or MIG once its counters have drained: a refused store or a record of its own traps
there first (R89, R198). -/
def State.drainTrap (s : State) : Option State :=
  match s.pstoreFor s.cur with
  | some e => some (s.trapPstore e false)
  | none => s.me.firstRecord.map s.deliver

/-- EXIT and UPRET of the executing thread (R340, R409). -/
def State.exitThread (s : State) : State :=
  if !s.me.live.drained then s.block .exitDrain
  else
    let p := s.me.pcn
    match s.drainTrap with
    | some s => s
    | none => (s.endThread s.cur).modCore p fun c => { c with nextIssue := max c.nextIssue (s.now + 1) }

/-- Whether a drain of the executing thread that traps must wait until its core issues again (R212). -/
def State.drainHeld (s : State) : Bool := s.drainTrap.isSome && !s.mayDeliver s.me.pcn

/-- THREAD_END: the drain of a waiting EXIT or UPRET completes. -/
def execThreadEnd (u : Uid) (s : State) : Res :=
  let t := s.thread u
  .next (
    if t.status = .waiting .exitDrain ∧ t.live.drained then
      let s' := { s with cur := u }
      if s'.drainHeld then s
      else match s'.drainTrap with
        | some s => s
        | none => s'.endThread u
    else s)

/-! ## Migration (R70, R71, R368, R379) -/

/-- The core whose bank holds an address. -/
def migTarget (p : Pcn) (a : Word) : Option Pcn :=
  match winOf p a with
  | .bank q _ _ => some q
  | _ => none

/-- The load of an LDX.MG at its core, with no issue of its own (R368). -/
def State.mgPerform (s : State) : State :=
  match s.me.mgLoad with
  | none => s
  | some l =>
    let off := match winOf s.me.pcn l.addr with
      | .bank _ o _ => o
      | _ => l.addr.toNat % 2 ^ 18
    let s := s.modMe fun t => { t with mgLoad := none }
    (s.launch (.load (BitVec.ofNat 64 off) (Width.bytes l.w) (.g l.t) l.x .plain) (some l.tok) (some l.strm) l.mask false).2

/-- The executing thread at MIG once its counters have drained: it traps, stays, or departs for core `q`. -/
def State.departMig (s : State) (q : Pcn) : State :=
  match s.drainTrap with
  | some s => s.modMe fun t => { t with mgLoad := none }
  | none =>
    if q = s.me.pcn then
      let s := s.mgPerform
      if s.me.status = .running then s.finish 4 1 else s.unblock s.cur 4
    else
      let p := s.me.pcn
      let s := s.leaveSlot s.cur
      let s := (s.modMe fun t => { t with status := .migrating q .mig }).sendMesh 1 (tileOf p) (tileOf q) (.mig s.cur)
      s.modCore p fun c => { c with nextIssue := max c.nextIssue (s.now + 1) }

/-- MIG and LDX.MG of the executing thread to core `q`. -/
def State.migrate (s : State) (q : Pcn) : State :=
  let s := s.closeRegion
  if s.me.live.drained then s.departMig q else s.block (.migDrain q)

/-- MIGRATION_DEPARTURE: the drain of a waiting MIG completes. -/
def execMigrationDeparture (u : Uid) (s : State) : Res :=
  let t := s.thread u
  .next (
    match t.status with
    | .waiting (.migDrain q) => if t.live.drained && !{ s with cur := u }.drainHeld then { s with cur := u }.departMig q else s
    | _ => s)

/-- G14 at another core, rebased if it lay in the source image's stack, its top included (R70). -/
def rebase (g14 srcBase srcTop dstTop : Word) : Word :=
  if srcBase.toNat ≤ g14.toNat ∧ g14.toNat ≤ srcTop.toNat then g14 - srcTop + dstTop else g14

/-- The context of a thread as it stands in image `k` of core `q`: V, K unpredictable, MODQ 0 (R70, R167). TRAPPC, CAUSE, TVAL, TFRAME and
a handler's shadow state travel with it (log entry 77). -/
def State.placeAt (s : State) (u : Uid) (q : Pcn) (k : Nat) : State :=
  let n := (s.job (s.thread u).job).nimg
  let s := s.modThread u fun t =>
    let t := t.settle s.now
    let src := (s.core t.pcn).splim
    let ki := t.image.getD 0
    let from_ := t.stackFrom.getD (stackBase src n ki, stackTop src n ki)
    { t with
      pcn := q, image := some k, slot := none, lastIssue := 0, modq := 0, coldPoison := [], stackFrom := none
      pending := t.pending.filter fun p => match p.reg with | .v _ | .k _ => false | _ => true
      g := t.g.set 14 (rebase t.g[14] from_.1 from_.2 (stackTop (s.core q).splim n k))
      v := Vector.ofFn fun i => Config.freeVec (s.fresh + i.val)
      k := Vector.ofFn fun i => (Config.freeVec (s.fresh + 32 + i.val)).setWidth 32 }
  { s with fresh := s.fresh + 40 }

/-- A packet of a migrating thread, or of its return. -/
def Msg.isMig (m : Msg) (u : Uid) : Bool :=
  match m with
  | .mig v | .migBack v _ => decide (v = u)
  | _ => false

/-- The destination of a MIG refuses a thread with a wait hint, for want of a free image or in SCRUB (R70, R118). -/
def State.hintThread (s : State) (u : Uid) (q : Pcn) : State :=
  ({ s with fresh := s.fresh + 1 }).sendMesh 2 (tileOf q) (tileOf (s.thread u).pcn) (.migBack u (some (Config.waitHint s.fresh).toNat))

/-- The context of a thread has come to core `q`, and takes image `k`. -/
def State.takeThread (s : State) (u : Uid) (q : Pcn) (k : Nat) (a : Arrival) : State :=
  let s := s.placeAt u q k
  match a with
  | .mig => ({ s with cur := u }.mgPerform).unblock u 4
  | .ready => s.modThread u fun t => { t with status := .ready, readySince := s.now }
  | .waiting w => s.modThread u fun t => { t with status := .waiting w }
  | .parked => s.modThread u fun t => { t with status := .parked }

/-- MIGRATION_ARRIVAL: the destination takes the thread, refuses it for want of an image or while it is in SCRUB, or finds the tile not the
job's or the core DARK: the thread is then READY at its MIG again (R379). A refused one is sent again when its hint has passed. A context that
an evacuation brought is held at the core until an image frees (R31). -/
def execMigrationArrival (u : Uid) (s : State) : Res :=
  let t := s.thread u
  .next (
    match t.status with
    | .migrating q a =>
      if s.fab.mesh.any (fun p => p.msg.isMig u) || (t.asks && decide (s.now < t.notBefore)) then s
      else if t.asks then (s.modThread u fun t => { t with asks := false }).sendMesh 1 (tileOf t.pcn) (tileOf q) (.mig u)
      else if (s.core q).halted then s
      else if (s.core q).status = .scrub then (if a = .mig then s.hintThread u q else s)
      else if s.owner (tileOf q) ≠ t.job ∨ (s.core q).status = .dark then
        (if a = .mig then s.sendMesh 1 (tileOf q) (tileOf t.pcn) (.migBack u none) else s)
      else match s.freeImage q with
        | none => if a = .mig then s.hintThread u q else s
        | some k => s.takeThread u q k a
    | _ => s)

end Sys2Proof.Machine
end

