-- ==== Sys2Proof/Machine/Slice.lean ====
section
/-! DEFINITION. Requests on their way to their homes and what a home does with them: stream edges (R135), refusals and retries
(R118), lines and fills (R117), forwarding (R126, R127), sealed and tagged sectors (R236 to R238), the L1 (R112, R113). -/

namespace Sys2Proof.Machine

/-! ## Stream edges (R135, R138) -/

/-- The earlier operations of a thread, in the same bank of streams, that an operation of stream `st` under `mask` waits on. -/
def State.before (s : State) (id : OpId) (o : Op) (st : Option Strm) (mask : Byte) : List (OpId × Op) :=
  s.ops.filter fun e =>
    decide (e.1 < id) && decide (e.2.uid = o.uid) && decide (e.2.inShadow = o.inShadow) && !e.2.counted &&
    match e.2.strm with
    | some k => decide (some k = st) || mask.getLsbD k.val
    | none => false

/-- Whether an operation's edges hold. -/
def State.edgesHold (s : State) (id : OpId) (o : Op) : Bool := (s.before id o o.strm o.mask).isEmpty

/-! ## A request sets out (R214) -/

/-- The packet class of R214: 0 request, 1 signal. -/
def Op.packetClass (o : Op) : Nat :=
  match o.kind with
  | .signal .. | .spawn .. => 1
  | .store _ _ _ q => if q = .nl ∨ q = .nh then 1 else 0
  | _ => 0

/-- An operation sets out from its core's tile, or is there already. `aux` numbers the packets in the order they are sent. -/
def State.sendOp (s : State) (id : OpId) (o : Op) : State :=
  let t := tileOf o.pcn
  let (n, s) := s.takeId
  s.setOp id { o with
    phase := if o.goal = t then .arrived else .travel (t / 1024) (xOf t) (yOf t)
    aux := n }

/-- The next router of an XY route (R214). -/
def xyNext (x y gx gy : Nat) : Nat × Nat :=
  if x < gx then (x + 1, y) else if gx < x then (x - 1, y)
  else if y < gy then (x, y + 1) else (x, y - 1)

/-! ## Lines: refusals, fills and residency (R117, R118) -/

/-- The refusal of a line that a request still has. -/
def State.refusalOf (s : State) (slice line who : Nat) : Option LineRefusal :=
  s.fab.refusals.find? fun r => decide (r.slice = slice) && decide (r.line = line) && decide (r.who = who)

/-- Whether a thread still asks for what it was refused: it is held at a fetch or a redirected access, or blocked at a GBAR. -/
def State.threadAsks (s : State) (t : Thread) : Bool :=
  match t.status with
  | .running => s.jobActive t.job
  | .waiting (.gbar _) => true
  | _ => false

/-- Whether a request still waits: an operation in flight, a thread that asks, a fill, a record, or an access on its way. -/
def State.stillAsks (s : State) (who : Nat) : Bool :=
  (s.op? who).isSome || ((mapGet? s.threads who).map s.threadAsks).getD false || s.fab.fills.any (fun f => decide (f.id = who)) ||
  s.fab.poolReqs.any (fun r => decide (r.id = who)) || s.fab.fwds.any (fun f => decide (f.id = who)) ||
  s.fab.trips.any fun t => decide (t.id = who)

/-- Whether a request may be served by a line now: the line is held by no host write (R149), its own retry is due, and no earlier
refusal of the line still waits (R118). -/
def State.mayAsk (s : State) (slice line who : Nat) : Bool :=
  !s.lineHeld line &&
  (match s.refusalOf slice line who with
   | some r => decide (r.retryAt ≤ s.now)
   | none => true) &&
  match s.fab.refusals.find? fun r => decide (r.slice = slice) && decide (r.line = line) && s.stillAsks r.who with
  | some r => decide (r.who = who) || (s.refusalOf slice line who).isNone
  | none => true

/-- The fill of a line is in flight at a slice. -/
def State.filling (s : State) (slice line : Nat) : Bool :=
  s.fab.fills.any fun f => decide (f.slice = slice) && decide (f.line = line)

/-- Starts a fill. -/
def State.startFill (s : State) (f : Fill) : State :=
  if s.filling f.slice f.line then s
  else
    let (i, s) := s.takeId
    s.modFab fun x => { x with fills := x.fills ++ [{ f with id := i }] }

/-- A fill of a line of this die for a master that asks under a leaf and a window's key instance. -/
def plainFill (slice line : Nat) (pte : Word) (win master : Nat) : Fill :=
  ⟨0, slice, ⟨pteClear pte, win, master⟩, none, 0, pte, line, none, []⟩

/-- A request is refused by a line, and asks again after max(hint, 1) × 4 cycles; its place among the line's refusals is that of the
first. -/
def State.refuseAt (s : State) (slice line who : Nat) : State :=
  let t := s.now + max (Config.waitHint s.fresh).toNat 1 * 4
  let s := { s with fresh := s.fresh + 1 }
  if (s.refusalOf slice line who).isSome then
    s.modFab fun f => { f with refusals := f.refusals.map fun (r : LineRefusal) =>
      if r.slice = slice ∧ r.line = line ∧ r.who = who then { r with retryAt := t } else r }
  else s.modFab fun f => { f with refusals := f.refusals ++ [⟨slice, line, who, t⟩] }

/-- The hint of a refusal that a request has just been given. -/
def State.lineHint (s : State) (slice line who : Nat) : Nat := ((s.refusalOf slice line who).map fun r => (r.retryAt - s.now) / 4).getD 1

/-- A request has been served by a line: its refusal there is over. -/
def State.clearRefusals (s : State) (slice line who : Nat) : State :=
  s.modFab fun f => { f with refusals := f.refusals.filter fun r =>
    !(decide (r.slice = slice) && decide (r.line = line) && decide (r.who = who)) && s.stillAsks r.who }

/-- The set of a line: bits [6:0] of its line number (log entry 11). -/
def setOf (line : Nat) : Nat := line / 512 % 128

/-- Makes sectors of a line present. A full set of 16 loses its oldest line, whose dirty sectors are written to memory: memory is held as
the slices see it, so that only the marks go (R1, R117; log entry 11). -/
def State.addResident (s : State) (slice line : Nat) (present : Byte) : State :=
  if s.presentAt slice line ≠ 0 then
    s.modFab fun f => { f with resident := f.resident.map fun (r : SliceLine) =>
      if r.slice = slice ∧ r.line = line then { r with present := r.present ||| present } else r }
  else
    let set := s.fab.resident.filter fun r => decide (r.slice = slice) && decide (setOf r.line = setOf line)
    let keep := if 16 ≤ set.length then
        match set with
        | old :: _ => s.fab.resident.erase old
        | [] => s.fab.resident
      else s.fab.resident
    s.modFab fun f => { f with resident := keep ++ [⟨slice, line, present, 0⟩] }

/-- What a slice does with a request for bytes of a line. -/
inductive Gate
  | serve (s : State)
  | refuse (s : State)

/-- A request for `n` bytes at `key`: served if its sectors are present, nothing holds the line and no fill of it is in flight; a write of one
whole sector of a line allocates the sector without reading memory; otherwise it is refused, and a miss starts the fill (R117, R118).
`whole`: the request writes the bytes and reads none. -/
def State.lineGate (s : State) (slice key n who : Nat) (pte : Word) (win master : Nat) (whole : Bool) : Gate :=
  let line := lineOf key
  if !s.mayAsk slice line who then
    (match s.refusalOf slice line who with
     | some r => if s.now < r.retryAt then .refuse s else .refuse (s.refuseAt slice line who)
     | none => .refuse (s.refuseAt slice line who))
  else if s.filling slice line then .refuse (s.refuseAt slice line who)
  else if s.isResident slice key n then .serve (s.clearRefusals slice line who)
  else if whole && decide (n = 64 ∧ key % 64 = 0) then
    .serve ((s.clearRefusals slice line who).addResident slice line (sectorMask key 64))
  else .refuse ((s.startFill (plainFill slice line pte win master)).refuseAt slice line who)

/-! ## Forwarding (R126, R127) -/

/-- The bytes that an operation's request carries. -/
def OpKind.requestBytes : OpKind → Nat
  | .store _ n _ _ => n
  | .atom _ _ n _ _ _ => 2 * n
  | .signal _ _ len => len.toNat
  | _ => 0

/-- Sends an operation on to the die that owns its page, over the ring, or to the host, over the hub link. An access that is asked again
has been counted. -/
def State.forward (s : State) (id : OpId) (o : Op) (owner : Nat) (va pte : Word) : State :=
  let die := tagDie o.job
  let s := if o.sent then s else s.countForward die va pte
  let s := s.setOp id { o with phase := .onRing, sent := true }
  if owner = 8 then s.sendLink die false (.req id)
  else s.sendTransfer die owner o.kind.requestBytes (.req id)

/-- The forwarded access of `who` to a line, or to a sector that it writes. -/
def State.fwdOf (s : State) (who key : Nat) (wr : Bool) : Option Fwd :=
  s.fab.fwds.find? fun f => decide (f.who = who) && decide (f.wr.isSome = wr) && decide (f.key = if wr then key else lineOf key)

def State.setFwd (s : State) (f : Fwd) : State :=
  s.modFab fun x => { x with fwds := x.fwds.map fun (g : Fwd) => if g.id = f.id then f else g }

/-- Forwarded accesses of an agent are over. -/
def State.dropFwds (s : State) (who : Nat) : State :=
  s.modFab fun x => { x with fwds := x.fwds.filter fun f => decide (f.who ≠ who) }

/-! ## Sealed and tagged sectors (R236 to R238) -/

/-- A sector of a SEALED page whose tag does not match: one not sealed under this key. -/
def State.tagBad (s : State) (pte : Word) (inst key n : Nat) : Option Nat :=
  if !pteSealed pte then none
  else (sectors key n).find? fun sec =>
    match s.sealOf sec with
    | some z => z.bad || z.clear || decide (z.key ≠ inst)
    | none => true

/-- The sectors of a fill under a CLEAR page whose tag does not match its window's key instance (R236, R238). A sector without a tag
matches (log entry 9). -/
def State.fillBad (s : State) (c : FillCheck) (secs : List Nat) : List Nat :=
  if !c.clear then []
  else secs.filter fun sec =>
    match s.sealOf sec with
    | some z => z.bad || !z.clear || decide (z.key ≠ c.inst)
    | none => false

/-! ## A job's access at a slice -/

/-- What serves an access: it fails, it goes on elsewhere, or it is here at a key under a leaf and a window's key instance. -/
inductive Served
  | fail (r : Byte)
  | later (s : State)
  | here (s : State) (key : Nat) (pte : Word) (win : Nat)

/-- An operation's access of `n` bytes at a global address: translated and checked at its die's home, forwarded to another
owner, and refused by a line that does not serve it (R118, R121 to R126). -/
def State.serve (s : State) (id : OpId) (o : Op) (va : Word) (n : Nat) (q : Ask) : Served :=
  match s.xlat o.job va n q with
  | .wait => .later (s.refuse id)
  | .fail r => .fail r
  | .ok owner pa pte e =>
    let die := tagDie o.job
    let s := s.tlbFill (sliceNo die va) o.job (s.job o.job).ptRoot va
    let key := ownerKey owner pa
    let win := s.winInst e
    let local_ (s : State) : Served :=
      if owner = 8 then .here s key pte win
      else match s.lineGate (servingSlice die owner va) key n id pte win (masterJob o.job) (q.wr && !q.rd) with
        | .serve s => .here s key pte win
        | .refuse s => .later (s.refuse id)
    match o.phase with
    | .atOwner d => if d = owner then local_ s else .later (s.refuse id)
    | _ => if owner = die then local_ s else .later (s.forward id o owner va pte)

/-- The first failing sector of a read: poisoned, or with a bad tag, as a virtual address. -/
def State.sliceBad (s : State) (tag : Nat) (va pte : Word) (key n : Nat) : Option (Word × State) :=
  let sectorVa (off : Nat) : Word := (va + BitVec.ofNat 64 off) &&& ~~~63
  match s.poisonedIn key n with
  | some g => some (sectorVa (g * 16 - key), s)
  | none =>
    match s.tagBad pte (s.slotInst (s.job tag).keyslot) key n with
    | some sec => some (sectorVa (sec * 64 - key), s.logTag sec (masterJob tag))
    | none => none

/-- A write of a job to a page that it has been let into, under the window's key instance. A version that would wrap is a job fault. -/
def State.pageWrite (s : State) (tag : Nat) (pte : Word) (win key : Nat) (bs : List Byte) : State :=
  if s.versionWraps pte key bs.length then s.freezeJob tag 0x02 0
  else if pteSealed pte then (s.sealWrite (s.slotInst (s.job tag).keyslot) key bs.length).sliceWrite key bs
  else s.plainWrite (if pteClear pte then some win else none) key bs

/-- The first sector that a write cannot merge into: poisoned or with a bad tag, and not written whole (R111, R238). -/
def State.mergeBad (s : State) (tag : Nat) (va pte : Word) (key n : Nat) : Option (Word × State) :=
  if key % 64 = 0 ∧ n % 64 = 0 then none
  else s.sliceBad tag (va &&& ~~~63) pte (key / 64 * 64) ((key + n + 63) / 64 * 64 - key / 64 * 64)

/-! ## Forwarded accesses of engines, fills and redirected accesses (R126) -/

/-- Changes an operation that is in flight. -/
def State.modOp (s : State) (id : OpId) (f : Op → Op) : State :=
  match s.op? id with
  | some o => s.setOp id (f o)
  | none => s

/-- An engine command has performed a write (R31). -/
def State.markWrote (s : State) (id : OpId) : State := s.modOp id fun o => { o with wrote := true }

/-- A forwarded access is given up. -/
def State.dropFwd (s : State) (id : Nat) : State := s.modFab fun x => { x with fwds := x.fwds.filter fun g => decide (g.id ≠ id) }

/-- A forwarded access at its owner: a whole line is read, or bytes of one sector are written; a line that does not serve it refuses
it. One that comes to a page being migrated is asked for anew, at the page's new place (R128). -/
def State.fwdThere (s : State) (f : Fwd) (win : Nat) : State :=
  let n := (f.wr.map List.length).getD 512
  let back (s : State) (data : List Byte) (bad : Option Word) : State :=
    let s := s.setFwd { f with stage := .back data bad }
    if f.owner = 8 then s.sendLink (tagDie f.tag) true (.fwdBack f.id)
    else s.sendTransfer f.owner (tagDie f.tag) data.length (.fwdBack f.id)
  let act (s : State) : State :=
    match f.wr with
    | some bs =>
      match s.mergeBad f.tag f.va f.pte f.key n with
      | some (b, s) => back s [] (some b)
      | none => back ((s.pageWrite f.tag f.pte win f.key bs).markWrote f.who) [] none
    | none => back s (s.seen f.pte f.key 512) none
  if s.keyMoving f.key then s.dropFwd f.id
  else if f.owner = 8 then act s
  else match s.lineGate (sliceNo f.owner f.va) f.key n f.id f.pte win (masterJob f.tag) f.wr.isSome with
    | .serve s => act s
    | .refuse s => s

/-- An access of `n` bytes of a line of another owner, for the agent numbered `who`: the forwarded access sets out, performs at its
owner, and comes back. A read keeps the line for the agent's other reads of it. -/
def State.remote (s : State) (who tag owner : Nat) (va pte : Word) (win key n : Nat) (wr : Option (List Byte)) : Got :=
  match s.fwdOf who key wr.isSome with
  | none =>
    let die := tagDie tag
    let s := s.countForward die va pte
    let (i, s) := s.takeId
    let f : Fwd := ⟨i, who, tag, owner, if wr.isSome then va else va - BitVec.ofNat 64 (key - lineOf key), pte,
      if wr.isSome then key else lineOf key, wr, .out⟩
    let s := s.modFab fun x => { x with fwds := x.fwds ++ [f] }
    let n := (wr.map List.length).getD 0
    .wait (if owner = 8 then s.sendLink die false (.fwd i) else s.sendTransfer die owner n (.fwd i))
  | some f =>
    match f.stage with
    | .there => .wait (s.fwdThere f win)
    | .done data bad =>
      match wr with
      | some _ =>
        (match bad with
         | some a => .fail (s.dropFwd f.id) 0x09 a
         | none => .ok (s.dropFwd f.id) [])
      | none =>
        match s.sliceBad tag va pte key n with
        | some (a, s) => .fail s 0x09 a
        | none => .ok s ((data.drop (key - lineOf key)).take n)
    | _ => .wait s

/-! ## An access of another agent at a slice (R118, R121 to R126) -/

/-- A refusal of a line for the agent that asks under `who`, as its response tells it. -/
def State.refusedAt (s : State) (slice line who : Nat) : AtHome := .retry s (s.lineHint slice line who)

/-- An access of `n` bytes at a global address for an agent that is no load-store unit: a read, or a write of `wr`. `who` numbers its request
at the line, `agent` what it has forwarded, whose lines are kept for its other reads. -/
def State.sliceAccess (s : State) (who agent tag : Nat) (va : Word) (n : Nat) (q : Ask) (wr : Option (List Byte)) : AtHome :=
  match s.xlat tag va n q with
  | .wait => s.hinted
  | .fail r => .fail s r va
  | .ok owner pa pte e =>
    let die := tagDie tag
    let sl := sliceNo die va
    let s := s.tlbFill sl tag (s.job tag).ptRoot va
    let key := ownerKey owner pa
    let win := s.winInst e
    if owner ≠ die then
      match s.remote agent tag owner va pte win key n wr with
      | .wait s => .wait s
      | .ok s bs => .ok s bs
      | .fail s r b => .fail s r b
    else match s.lineGate sl key n who pte win (masterJob tag) wr.isSome with
      | .refuse s => s.refusedAt sl (lineOf key) who
      | .serve s =>
        match wr with
        | none =>
          match s.sliceBad tag va pte key n with
          | some (b, s) => .fail s 0x09 b
          | none => .ok s (s.seen pte key n)
        | some bs =>
          match s.mergeBad tag va pte key n with
          | some (b, s) => .fail s 0x09 b
          | none => .ok ((s.pageWrite tag pte win key bs).markWrote agent) []

/-! ## The read-only L1 (R112, R113) -/

/-- The core whose L1 holds a line: its own, or in fused mode the one that address bits [8:6] name. -/
def State.l1Core (s : State) (p : Pcn) (va : Word) : Pcn :=
  if (s.core p).l1fuse then p / 8 * 8 + wfld va 6 3 else p

/-- The set of a line of an L1: bits [5:0] of its line number, and in fused mode bits [8:3], since bits [2:0] choose the core (R113; log
entry 18). -/
def l1Set (fused : Bool) (line : Nat) : Nat := if fused then line / 8 % 64 else line % 64

/-- A line of an L1, which becomes its most recently used. -/
def State.l1Find (s : State) (p : Pcn) (tag : Nat) (va : Word) : Option (Line × State) :=
  let c := s.l1Core p va
  match (s.core c).l1.find? fun l => decide (l.job = tag) && decide (l.addr = va.toNat / 64) with
  | some l => some (l, s.modCore c fun k => { k with l1 := k.l1.erase l ++ [l] })
  | none => none

/-- Puts a line into an L1; a full set of 8 loses the least recently used. -/
def State.l1Fill (s : State) (p : Pcn) (tag : Nat) (va : Word) (data : List Byte) : State :=
  let c := s.l1Core p va
  s.modCore c fun k =>
    let fused := (s.core p).l1fuse
    let set := k.l1.filter fun l => decide (l1Set fused l.addr = l1Set fused (va.toNat / 64))
    let keep := if 8 ≤ set.length then
        match set with
        | old :: _ => k.l1.erase old
        | [] => k.l1
      else k.l1
    { k with l1 := keep ++ [⟨tag, va.toNat / 64, data⟩] }

/-! ## A job's access at a bank -/

/-- What a bank does with an access: a core in SCRUB refuses it; the checks of R429 fail it; else it is served. -/
inductive BankGate
  | scrub
  | fail (r : Byte)
  | ok
deriving DecidableEq, Repr

def State.bankGate (s : State) (tag q off n : Nat) (rd wr : Bool) : BankGate :=
  if (s.core q).status = .scrub then .scrub
  else match (if rd then s.bankCheck tag q off n false else none).or (if wr then s.bankCheck tag q off n true else none) with
    | some r => .fail r
    | none => .ok

end Sys2Proof.Machine
end

