-- ==== Sys2Proof/Machine/Home.lean ====
section
/-! DEFINITION. The steps of operations at their homes: the release from the ordering queue and the hops of a request
(R135, R214), reads and writes (R130), wait-qualified loads (R108, R109), nibble stores (R148), atomics (R310), CHUNK (R64),
groups (R62, R357, R359), WATCH (R65, R424), TSHAPE (R27, R408), fills, retries, and errors (R110, R111). -/

namespace Sys2Proof.Machine

/-! ## Release, hops, retries -/

/-- What a message does that arrives at a die (or at the host, 8) over the ring or a hub link (R126, R215, R218): a request is at its
owner's home; a response whose last packet it is goes on over the mesh from the address's home to its core. -/
def State.landed (s : State) (die : Nat) (m : Msg) : State :=
  let more := s.fab.ring.any fun p => decide (p.msg = m)
  match m with
  | .req id =>
    match s.op? id with
    | some o => if more then s else s.setOp id { o with phase := .atOwner die }
    | none => s
  | .back id b =>
    match s.op? id with
    | some o => if more then s else s.sendMesh b.cls (homeTile o.pcn o.kind.addr) (tileOf o.pcn) (.back id b)
    | none => s
  | .fwd id =>
    if more then s
    else s.modFab fun x => { x with fwds := x.fwds.map fun (f : Fwd) => if f.id = id then { f with stage := .there } else f }
  | .fwdBack id =>
    if more then s
    else s.modFab fun x => { x with fwds := x.fwds.map fun (f : Fwd) =>
      if f.id = id then match f.stage with
        | .back d b => { f with stage := .done d b }
        | _ => f
      else f }
  | .trip _ | .tripBack _ | .mig _ | .migBack .. | .sector .. => s

/-- Whether an operation is a command of the core's engines. -/
def OpKind.isEngine : OpKind → Bool
  | .cpy .. | .cpy2d .. | .cpyl .. | .mcrd .. | .mma .. | .mmod .. | .mzero .. | .mload .. | .mdrain .. => true
  | _ => false

/-- ORDERING_QUEUE_RELEASE: an operation whose edges hold leaves for its home (R135). -/
def execOrderingQueueRelease (op : OpId) (s : State) : Res :=
  .next (
    match s.op? op with
    | some o =>
      if decide (o.phase = .queued) && (o.strm.isSome || o.resent) && !o.kind.isEngine &&
          !s.jobFlushed o.job && s.edgesHold op o then s.sendOp op o
      else s
    | none => s)

/-- Whether a packet, or the request of an operation, waits at router `at_` that was sent before `seq` in class `cls` from `src` to one of
`dsts` (R214). -/
def State.sentBefore (s : State) (at_ cls src seq : Nat) (dsts : List Nat) : Bool :=
  (s.fab.mesh.any fun q => decide (q.seq < seq) && decide (q.at_ = at_) && decide (q.cls = cls) && decide (q.src = src) &&
    q.dsts.any dsts.contains) ||
  s.ops.any fun e => match e.2.phase with
    | .travel d x y => decide (tileAt d x y = at_) && decide (e.2.aux < seq) && decide (e.2.packetClass = cls) &&
        decide (tileOf e.2.pcn = src) && dsts.contains e.2.goal
    | _ => false

/-- The next router on the XY route from a tile to another. -/
def nextRouter (at_ dst : Nat) : Nat :=
  let (x, y) := xyNext (xOf at_) (yOf at_) (xOf dst) (yOf dst)
  tileAt (at_ / 1024) x y

/-- One hop of a packet that is no request: behind no earlier packet of its class, source and destination. A multicast packet is copied
towards each branch of its XY route that has named tiles, and each copy carries those of its branch (R188, R298). What has come to its
tile is delivered. -/
def State.packetHop (s : State) (id : Nat) : State :=
  match s.fab.mesh.find? fun p => decide (p.id = id) with
  | none => s
  | some p =>
    if s.sentBefore p.at_ p.cls p.src p.seq p.dsts then s
    else
      let s := s.modFab fun f => { f with mesh := f.mesh.filter fun q => decide (q.id ≠ id) }
      let branches := (p.dsts.map (nextRouter p.at_)).dedup
      branches.foldl (fun s t =>
        let mine := p.dsts.filter fun d => decide (nextRouter p.at_ d = t)
        let on := mine.filter fun d => decide (d ≠ t)
        let s := if mine.contains t then s.deliverMsg p.msg else s
        if on = [] then s
        else
          let (i, s) := if branches.length = 1 then (p.id, s) else s.takeId
          s.modFab fun f => { f with mesh := f.mesh ++ [{ p with id := i, dsts := on, at_ := t }] }) s

/-- A message on a die's link to the hub reaches its end behind the earlier ones of its direction (R218): a request performs at the host,
a response goes over the mesh from the address's home to its core. -/
def State.linkArrive (s : State) (id : Nat) : State :=
  match s.fab.hubLink.find? fun p => decide (p.id = id) with
  | none => s
  | some p =>
    if s.fab.hubLink.any fun q => decide (q.id < p.id) && decide (q.die = p.die) && decide (q.back = p.back) then s
    else (s.modFab fun f => { f with hubLink := f.hubLink.filter fun q => decide (q.id ≠ id) }).landed 8 p.msg

/-- MESH_PACKET_HOP: one hop of the XY route, behind no earlier packet of its class, source and destination (R214). The number names a
request by its operation, or another packet; a message on a hub link makes its one hop so too. -/
def execMeshPacketHop (op : OpId) (s : State) : Res :=
  .next (
    if (s.op? op).isNone then (s.packetHop op).linkArrive op
    else match s.op? op with
    | some o =>
      match o.phase with
      | .travel d x y =>
        if s.sentBefore (tileAt d x y) o.packetClass (tileOf o.pcn) o.aux [o.goal] then s
        else
          let t := nextRouter (tileAt d x y) o.goal
          if t = o.goal then
            let (n, s) := s.takeId
            s.setOp op { o with phase := .arrived, aux := n }
          else s.setOp op { o with phase := .travel d (xOf t) (yOf t) }
      | _ => s
    | none => s)

/-- WAIT_HINT_RETRY: the core sends the request again (R118). -/
def execWaitHintRetry (op : OpId) (s : State) : Res :=
  .next (
    match s.op? op with
    | some o =>
      match o.phase with
      | .refused t => if t ≤ s.now then s.sendOp op o else s
      | _ => s
    | none => s)

/-- Whether an operation is at its home, or at the owner of its page. -/
def Op.atHome (o : Op) : Bool :=
  match o.phase with
  | .arrived | .atOwner _ => true
  | _ => false

/-- Runs `f` on an operation that is at its home and that `ok` accepts; otherwise nothing happens. -/
def State.atHome (s : State) (id : OpId) (f : Op → State) : Res :=
  .next (
    match s.op? id with
    | some o => if o.atHome then f o else s
    | none => s)

/-- A fill brings the sectors of its line that are not present; a CLEAR sector whose tag does not match is poisoned (R117, R236, R238).
It waits while its line is locked by a key sweep (R239). -/
def State.arriveFill (s : State) (f : Fill) : State :=
  if s.lineSwept f.line then s
  else
    let had := s.presentAt f.slice f.line
    let s := s.modFab fun x => { x with fills := x.fills.filter fun g => decide (g.id ≠ f.id) }
    let s := s.addResident f.slice f.line 0xFF
    s.poisonSectors (s.fillBad f.check ((sectors f.line 512).filter fun sec => !had.getLsbD (sec % 8))) f.check.master

/-! ## Reads (R367, R391, R393, R402) -/

/-- A read of `n` bytes of a bank for an operation: what it does with the bytes, or how it fails at `a`. -/
def State.bankFetch (s : State) (id : OpId) (o : Op) (a : Word) (q off n : Nat) (done : State → List Byte → State) : State :=
  match s.bankGate o.job q off n true false with
  | .scrub => s.refuse id
  | .fail r => s.failOp id r a
  | .ok =>
    match s.poisonedIn (bankKey q off) n with
    | some g => s.failOp id 0x09 (granuleAt a (bankKey q off) g)
    | none => done ((s.correct (bankKey q off) n).noteOp o q off n false) (memRead s.ms.mem (bankKey q off) n)

/-- A read of `n` bytes at a global address. -/
def State.sliceFetch (s : State) (id : OpId) (o : Op) (a : Word) (n : Nat) (done : State → List Byte → State) : State :=
  match s.serve id o a n ⟨true, false, false, true⟩ with
  | .fail r => s.failOp id r a
  | .later s => s
  | .here s key pte _ =>
    match s.sliceBad o.job a pte key n with
    | some (b, s) => s.failOp id 0x09 b
    | none => done s (s.seen pte key n)

/-- A read at any address of an operation. -/
def State.fetchAt (s : State) (id : OpId) (o : Op) (a : Word) (n : Nat) (done : State → List Byte → State) : State :=
  match winOf o.pcn a with
  | .bank q off _ => s.bankFetch id o a q off n done
  | _ => s.sliceFetch id o a n done

/-- A plain global load: through the L1 when its page allows it (R112). -/
def State.globalLoad (s : State) (id : OpId) (o : Op) (a : Word) (n : Nat) : State :=
  match s.xlat o.job a n ⟨true, false, false, true⟩ with
  | .wait => s.refuse id
  | .fail r => s.failOp id r a
  | .ok _ _ pte _ =>
    if !pteL1 pte then s.sliceFetch id o a n fun s bs => s.performOp id bs
    else
      let o6 := a.toNat % 64
      match s.l1Find o.pcn o.job a with
      | some (l, s) => s.performOp id ((l.data.drop o6).take n)
      | none =>
        s.sliceFetch id o (a - BitVec.ofNat 64 o6) 64 fun s bs =>
          (s.l1Fill o.pcn o.job a bs).performOp id ((bs.drop o6).take n)

/-- A record read by SPAWN or TASKQ: it is checked (R49), and the operation goes on with it. -/
def State.recordRead (s : State) (id : OpId) (o : Op) (a : Word) (bs : List Byte) : State :=
  let t := TaskRec.ofBytes bs
  if !t.ok then s.failOp id 0x08 a
  else match o.kind with
    | .spawn .. => s.sendOp id { o with hop := true, result := bs }
    | _ =>
      let (i, s) := s.takeId
      let s := s.modFab fun f => { f with poolReqs := f.poolReqs ++ [⟨i, o.job, (s.job o.job).serial, none, some id, t, tileOf o.pcn⟩] }
      s.setOp id { o with phase := .pooling (dieOf o.pcn) }

/-- The read of an operation that is at its home. -/
def State.readStep (s : State) (id : OpId) (o : Op) : State :=
  match o.kind with
  | .load a n _ _ .plain =>
    match winOf o.pcn a with
    | .bank q off _ => s.bankFetch id o a q off n fun s bs => s.performOp id bs
    | _ => s.globalLoad id o a n
  | .spawn r _ => if o.hop then s else s.fetchAt id o r 64 fun s bs => s.recordRead id o r bs
  | .taskq r => s.fetchAt id o r 64 fun s bs => s.recordRead id o r bs
  | .signal ob p len =>
    if o.hop then s
    else if !(len == 0 || payloadLen len) then s.failOp id 0x08 ob
    else if len = 0 then s.sendOp id { o with hop := true }
    else s.fetchAt id o p len.toNat fun s bs => s.sendOp id { o with hop := true, result := bs }
  | _ => s

/-! ## Writes (R107, R398, R408) -/

/-- A store that performs or is refused at its home. -/
def State.storeStep (s : State) (id : OpId) (o : Op) (a : Word) (n : Nat) (data : List Byte) (q : StQual) : State :=
  match winOf o.pcn a with
  | .bank c off _ =>
    match s.bankGate o.job c off n false true with
    | .scrub => s.refuse id
    | .fail r => s.failOp id r a
    | .ok =>
      match s.poisonedPartly (bankKey c off) n with
      | some g => s.failOp id 0x09 (granuleAt a (bankKey c off) g)
      | none => ((s.noteOp o c off n true).bankWrite c off data (q == .sf)).performOp id []
  | _ =>
    match s.serve id o a n ⟨false, true, false, true⟩ with
    | .fail r => s.failOp id r a
    | .later s => s
    | .here s key pte win =>
      if q ≠ .plain then s.failOp id 0x08 a
      else match s.mergeBad o.job a pte key n with
        | some (b, s) => s.failOp id 0x09 b
        | none => (s.pageWrite o.job pte win key data).performOp id []

/-- FESET and FECLR at their bank, in one bank cycle (R352). A bank that no longer serves the job changes nothing. -/
def State.feStep (s : State) (id : OpId) (o : Op) (a : Word) (count : Nat) (set : Bool) : State :=
  match winOf o.pcn a with
  | .bank q off _ =>
    match s.bankGate o.job q off (16 * count) false true with
    | .scrub => s.refuse id
    | .fail _ => s.performOp id []
    | .ok => (s.performOp id []).feChange q (granules (bankKey q off) (16 * count)) set
  | _ => s.performOp id []

/-- The bytes of TSHAPE's bitmap (R27). -/
def bitmapBytes (tiles : List Nat) : List Byte :=
  (List.range 128).map fun i =>
    BitVec.ofNat 8 ((List.range 8).foldl (fun n j => if tiles.any fun t => decide (t % 1024 = 8 * i + j) then n + 2 ^ j else n) 0)

/-- TSHAPE's registers (R27). -/
def State.shapeWords (s : State) (tag : Nat) : Word × Word :=
  let ts := s.tilesOf tag
  let j := s.job tag
  let lo (f : Nat → Nat) : Nat := ts.foldl (fun m t => min m (f t)) 31
  let hi (f : Nat → Nat) : Nat := ts.foldl (fun m t => max m (f t)) 0
  (BitVec.ofNat 64 (ts.length % 65536 + j.epoch.toNat * 2 ^ 32),
   BitVec.ofNat 64 (lo xOf + lo yOf * 2 ^ 8 + hi xOf * 2 ^ 16 + hi yOf * 2 ^ 24 + xOf j.anchor * 2 ^ 32 + yOf j.anchor * 2 ^ 40))

/-- TSHAPE at the descriptor and at the bank: one committed state in registers and bitmap (R408). -/
def State.shapeStep (s : State) (id : OpId) (o : Op) (bm : Word) : State :=
  match winOf o.pcn bm with
  | .bank q off _ =>
    match s.bankGate o.job q off 128 false true with
    | .scrub => s.refuse id
    | .fail r => s.failOp id r bm
    | .ok =>
      let (d0, d1) := s.shapeWords o.job
      ((s.noteOp o q off 128 true).bankWrite q off (bitmapBytes (s.tilesOf o.job)) false).performOp id
        (leBytes 8 d0.toNat ++ leBytes 8 d1.toNat)
  | _ => s.failOp id 0x02 bm

/-- The write of an operation that is at its home. -/
def State.writeStep (s : State) (id : OpId) (o : Op) : State :=
  match o.kind with
  | .store a n data q => if q = .nl ∨ q = .nh then s else s.storeStep id o a n data q
  | .fe a count set => s.feStep id o a count set
  | .tshape bm _ => s.shapeStep id o bm
  | _ => s

/-- An earlier arrival among the nibble stores to a byte: they perform in the order in which they arrived (R148). `aux` of one that has
arrived numbers its arrival. -/
def State.nibbleAhead (s : State) (id : OpId) (o : Op) (key : Nat) : Bool :=
  s.ops.any fun e => decide (e.1 ≠ id) && decide (e.2.phase = .arrived) && decide (e.2.aux < o.aux) &&
    match e.2.kind with
    | .store a _ _ q => decide (q = .nl ∨ q = .nh) &&
      (match winOf e.2.pcn a with
       | .bank c off _ => decide (bankKey c off = key)
       | _ => false)
    | _ => false

/-- NIBBLE_STORE_STEP: a read-modify-write of one byte at the owning core, which must not be halted, be it DARK or not (R148, R211; log entry
90). -/
def execNibbleStoreStep (op : OpId) (s : State) : Res :=
  s.atHome op fun o =>
    match o.kind with
    | .store a _ data q =>
      if q ≠ .nl ∧ q ≠ .nh then s
      else match winOf o.pcn a with
        | .bank c off _ =>
          if (s.core c).halted || s.nibbleAhead op o (bankKey c off) then s
          else match s.bankGate o.job c off 1 false true with
            | .scrub => s.refuse op
            | .fail r => s.failOp op r a
            | .ok =>
              match s.poisonedIn (bankKey c off) 1 with
              | some g => s.failOp op 0x09 (granuleAt a (bankKey c off) g)
              | none =>
                let s := s.correct (bankKey c off) 1
                let old := (memGet s.ms.mem (bankKey c off)).toNat
                let v := (data.headD 0).toNat % 16
                let new := if q = .nl then old / 16 * 16 + v else old % 16 + v * 16
                ((s.noteOp o c off 1 true).bankWrite c off [BitVec.ofNat 8 new] false).performOp op []
        | _ => s.storeStep op o a 1 data q
    | _ => s

/-! ## Wait-qualified loads (R108, R109) -/

/-- WAIT_LOAD_ARRIVAL: the load looks after the changes of its bank cycle, and behind the loads that wait there: it is satisfied, takes one of
16 wait entries, or is refused. A global address has no full-empty bits: REASON 0x08. -/
def execWaitLoadArrival (op : OpId) (s : State) : Res :=
  s.atHome op fun o =>
    match o.kind with
    | .load a n _ _ q =>
      if q = .plain then s
      else match winOf o.pcn a with
        | .bank c off _ =>
          let s := s.lookAll
          match s.bankGate o.job c off n true false with
          | .scrub => s.refuse op
          | .fail r => s.failOp op r a
          | .ok =>
            match s.waitCheck op a (bankKey c off) n (q == .wfc) with
            | some s' => s'
            | none =>
              if 16 ≤ (s.waitersAt c).length then s.refuse op
              else
                let (i, s) := s.takeId
                s.setOp op { o with phase := .waiting, aux := i }
        | _ =>
          match s.xlat o.job a n ⟨true, false, false, true⟩ with
          | .wait => s.refuse op
          | .fail r => s.failOp op r a
          | .ok .. => s.failOp op 0x08 a
    | _ => s

/-! ## Indivisible steps on bytes (R310, R64, R62) -/

/-- What an indivisible step does with the bytes it reads: it fails, is refused, or writes (offset, bytes, and whether the write
sets full-empty bits) and goes on. -/
inductive HomeStep
  | fail (s : State) (r : Byte) (a : Word)
  | refuse (s : State)
  | done (s : State) (ws : List (Nat × List Byte × Bool)) (post : State → State)

/-- A step at the home of `a` that has rights to `n` bytes and reads `m` of them. `rd`: it needs R as well as W. `share`: it may
run on another die's page. A condition found at the home comes before a poisoned granule (R429); a step that reads nothing overwrites
one (R111). A step that writes nothing is noted as a read (R146, R311). On a core that is both halted and DARK it waits for the core to go
on (R211; log entry 90). -/
def State.indivisible (s : State) (id : OpId) (o : Op) (a : Word) (n m : Nat) (rd share : Bool) (f : State → List Byte → HomeStep) :
    State :=
  match winOf o.pcn a with
  | .bank q off _ =>
    if (s.core q).halted then s
    else match s.bankGate o.job q off n rd true with
      | .scrub => s.refuse id
      | .fail r => s.failOp id r a
      | .ok =>
        let bad := s.poisonedIn (bankKey q off) m
        match f s (memRead s.ms.mem (bankKey q off) m), bad with
        | .fail s r b, _ => s.failOp id r b
        | _, some g => s.failOp id 0x09 (granuleAt a (bankKey q off) g)
        | .refuse s, none => s.refuse id
        | .done s ws post, none =>
          post (((s.correct (bankKey q off) m).noteOp o q off n (ws != [])).bankWrites q off ws)
  | _ =>
    match s.serve id o a n ⟨rd, true, true, share⟩ with
    | .fail r => s.failOp id r a
    | .later s => s
    | .here s key pte win =>
      let bad := s.sliceBad o.job a pte key n
      match f s (s.seen pte key m), bad with
      | .fail s r b, _ => s.failOp id r b
      | _, some (b, s) => s.failOp id 0x09 b
      | .refuse s, none => s.refuse id
      | .done s ws post, none => post (ws.foldl (fun s w => s.pageWrite o.job pte win (key + w.1) w.2.1) s)

/-- The new value of an atomic, none when ACAS writes nothing. -/
def atomNew (op : AtomOp) (n : Nat) (old v nv : Nat) : Option Nat :=
  let m := 2 ^ (8 * n)
  let sg (x : Nat) : Int := (BitVec.ofNat (8 * n) x).toInt
  match op with
  | .add => some ((old + v) % m)
  | .and => some (old &&& v)
  | .or => some (old ||| v)
  | .xor => some (old ^^^ v)
  | .min => some (if sg old ≤ sg v then old else v)
  | .max => some (if sg old ≤ sg v then v else old)
  | .minu => some (min old v)
  | .maxu => some (max old v)
  | .swp => some v
  | .cas => if old = v then some nv else none

/-- ATOMIC_STEP (R310). -/
def execAtomicStep (op : OpId) (s : State) : Res :=
  s.atHome op fun o =>
    match o.kind with
    | .atom k a n v nv _ =>
      s.indivisible op o a n n true true fun s bs =>
        match atomNew k n (leNat bs) v.toNat nv.toNat with
        | some x => .done s [(0, leBytes n x, false)] fun s => s.performOp op bs
        | none => .done s [] fun s => s.performOp op bs
    | _ => s

/-- The hand-out of R64: start, count, and the new NEXT; none when DIV = 0. -/
def chunkOf (next stop mn dv : Nat) : Option (Nat × Nat) :=
  if dv = 0 then none
  else
    let rem := stop - next
    some (next, min rem (max (max mn 1) (rem / dv)))

/-- CHUNK_STEP (R64, R326). -/
def execChunkStep (op : OpId) (s : State) : Res :=
  s.atHome op fun o =>
    match o.kind with
    | .chunk a _ =>
      s.indivisible op o a 32 32 true false fun s bs =>
        match chunkOf (dwordAt bs 0) (dwordAt bs 1) (dwordAt bs 2) (dwordAt bs 3) with
        | none => .fail s 0x08 a
        | some (b, c) =>
          .done s [(0, leBytes 8 (b + c), false)] fun s => s.performOp op (leBytes 8 b ++ leBytes 8 c)
    | _ => s

/-- A group's three words (R61). -/
def groupOf (bs : List Byte) : Nat × Nat × Nat := (wordAt bs 0, wordAt bs 1, wordAt bs 2)

/-- GROUP_JOIN_STEP (R62). -/
def execGroupJoinStep (op : OpId) (s : State) : Res :=
  s.atHome op fun o =>
    match o.kind with
    | .join a =>
      s.indivisible op o a 16 16 true false fun s bs =>
        let (m, _, _) := groupOf bs
        if m = 0xFFFFFFFF then .fail s 0x08 a
        else .done s [(0, leBytes 4 (m + 1), false)] fun s => s.performOp op []
    | _ => s

/-- GROUP_LEAVE_STEP: LEAVE, with the release it may cause (R62). The write of GEN wakes the parked members. -/
def execGroupLeaveStep (op : OpId) (s : State) : Res :=
  s.atHome op fun o =>
    match o.kind with
    | .leave a =>
      s.indivisible op o a 16 16 true false fun s bs =>
        let (m, r, g) := groupOf bs
        if m = 0 then .fail s 0x08 a
        else
          let out := [(0, leBytes 4 (m - 1), false)]
          .done s (if 0 < r ∧ m - 1 ≤ r then out ++ [(4, leBytes 4 0, false), (8, leBytes 4 ((g + 1) % 2 ^ 32), false)] else out)
            fun s => s.performOp op []
    | _ => s

/-! ## GBAR and WATCH (R62, R65, R66, R357, R424) -/

/-- Entries of a slice in use. -/
def State.watchCount (s : State) (slice : Nat) : Nat := (s.fab.watches.filter fun w => decide (w.slice = slice)).length

/-- A waiting thread parks at a slice: it gives up its slot, and its next instruction is the one after. -/
def State.park (s : State) (u : Uid) (w : Watch) : State :=
  let s := s.leaveSlot u
  let s := s.modThread u fun t => { t with pc := t.pc + 4, pfx := none, status := .parked }
  s.modFab fun f => { f with watches := f.watches ++ [w] }

/-- A precise ASYNC trap of a blocked GBAR or WATCH: TVAL is its address, and FPC and FADDR name its own failure (R62, R120, R195). -/
def State.trapBlocked (s : State) (u : Uid) (a : Word) (reason : Byte) : State :=
  ({ s.modFab (·.quit [u]) with cur := u }).takeTrap (trapOfRecord cAsync a ⟨(s.thread u).trapPoint, a, reason, 0⟩)

/-- A line served a request, but its slice has no entry for it: it is refused, and keeps the place that it had in `before` (R66, R118). -/
def State.refuseAgain (s before : State) (slice line who : Nat) : State :=
  if (before.refusalOf slice line who).isSome then
    (s.modFab fun f => { f with refusals := before.fab.refusals }).refuseAt slice line who
  else s.refuseAt slice line who

/-- GBAR's step on a group that serves it: key of the object, its bytes. A full slice refuses one that would park (R66). `who` numbers the
request; one that parks has no response, as its wake is that. -/
def State.gbarStep (s before : State) (u who : Nat) (slice : Nat) (a pte : Word) (win key : Nat) : AtHome :=
  let tag := (s.thread u).job
  let (m, r, g) := groupOf (s.seen pte key 16)
  if m = 0 ∨ m ≤ r then .fail s 0x08 a
  else if r + 1 = m then
    let s := s.pageWrite tag pte win (key + 4) (leBytes 4 0)
    .ok (s.pageWrite tag pte win (key + 8) (leBytes 4 ((g + 1) % 2 ^ 32))) []
  else if 256 ≤ s.watchCount slice then (s.refuseAgain before slice (lineOf key) who).refusedAt slice (lineOf key) who
  else
    .wait (((s.pageWrite tag pte win (key + 4) (leBytes 4 (r + 1))).park u ⟨slice, key + 8, 4, none, BitVec.ofNat 64 g, u, none⟩).modFab
      (·.quit [u]))

/-- GBAR's request at its home slice. -/
def State.gbarHome (u : Uid) (a : Word) (who : Nat) (s : State) : AtHome :=
  let t := s.thread u
  match s.xlat t.job a 16 ⟨true, true, true, false⟩ with
  | .wait => s.hinted
  | .fail r => .fail s r a
  | .ok owner pa pte e =>
    let key := ownerKey owner pa
    let sl := sliceNo (tagDie t.job) a
    let win := s.winInst e
    let before := s.tlbFill sl t.job (s.job t.job).ptRoot a
    match before.lineGate sl key 16 who pte win (masterJob t.job) false with
    | .refuse s => s.refusedAt sl (lineOf key) who
    | .serve s =>
      match s.sliceBad t.job a pte key 16 with
      | some (_, s) => .fail s 0x09 a
      | none => s.gbarStep before u who sl a pte win key

/-- GBAR_ARRIVAL: once every earlier operation of the thread has performed (R357), its request goes to the slice, and again after each refusal
(R66, R118). Its core releases nothing after the flush of a suspension (R204). -/
def execGbarArrival (u : Uid) (s : State) : Res :=
  let t := s.thread u
  .next (
    match t.status with
    | .waiting (.gbar a) =>
      if s.jobFlushed t.job || s.ops.any fun e => decide (e.2.uid = u) && !e.2.counted then s
      else match s.trip u 0 (tileOf t.pcn) (homeTile t.pcn a) a 16 true fun x s => s.gbarHome u a x.asker with
        | .wait s => s
        | .ok s _ => s.unblock u 4
        | .fail s r _ => s.trapBlocked u a r
    | _ => s)

/-- WATCH_ARRIVAL: the test holds and the thread goes on, or it parks in a watch entry; a full slice refuses, and the refusal keeps its place
among the line's (R65, R66, R73). -/
def execWatchArrival (op : OpId) (s : State) : Res :=
  s.atHome op fun o =>
    match o.kind with
    | .watch a n c v =>
      match s.serve op o a n ⟨true, false, true, false⟩ with
      | .fail r => ((s.countStream o).dropOp op).trapBlocked o.uid a r
      | .later s => s
      | .here s' key pte _ =>
        match s'.sliceBad o.job a pte key n with
        | some (_, s) => ((s.countStream o).dropOp op).trapBlocked o.uid a 0x09
        | none =>
          let sl := sliceNo (tagDie o.job) a
          if watchTest c n (leWord (s'.seen pte key n)) v then (s'.performOp op []).unblock o.uid 4
          else if 256 ≤ s'.watchCount sl then (s'.refuseAgain s sl (lineOf key) op).refuse op
          else (s'.setOp op { o with phase := .waiting }).park o.uid ⟨sl, key, n, some c, v, o.uid, some op⟩
    | _ => s

/-! ## Errors (R110, R111) -/

/-- The registers whose image bytes lie in the granule at offset `o` of a context image (R40). -/
def regsAt (o : Nat) : List Reg :=
  let g := o / 16 * 16
  (List.finRange 16).filterMap (fun (r : GReg) => if 8 * r.val / 16 * 16 = g then some (Reg.g r) else none) ++
  (List.finRange 32).filterMap (fun (r : VReg) => if 0x400 + 32 * r.val ≤ g ∧ g < 0x420 + 32 * r.val then some (Reg.v r) else none) ++
  (if g = 0x100 ∨ (0x3E0 ≤ g ∧ g < 0x400) then (List.finRange 8).map Reg.k else [])

/-- UNCORRECTABLE_ERROR: the granule is poisoned; in a context image, the registers that a fill would read from it. -/
def execUncorrectableError (pcn off : Nat) (s : State) : Res :=
  .next (
    if bankBytes ≤ off then s
    else
      let k := off / 0x800
      match (s.threadsOn pcn).find? fun e => decide (e.2.image = some k) && e.2.slot.isNone with
      | some e => s.modThread e.1 fun t => { t with
          coldPoison := t.coldPoison ++ (regsAt (off % 0x800)).map fun r => (r, off / 16 * 16) }
      | none => s.modMs fun m => { m with
          poison := setIns m.poison (bankKey pcn off / 16)
          weak := setDel m.weak (bankKey pcn off / 16) })

end Sys2Proof.Machine
end

