-- ==== Sys2Proof/Machine/Tasks.lean ====
section
/-! DEFINITION. Counter objects and their firings (R52, R56 to R60, R320, R391), SPAWN at its target (R393), the completion of
tokened operations (R84, R87, R88, R160, R350, R404), and the refusal of a posted store (R198). -/

namespace Sys2Proof.Machine

/-! ## Records read at a home -/

/-- What reading a record gives: it must wait, it cannot be had, or it is there. -/
inductive RecordGot
  | wait (s : State)
  | fail (s : State) (r : Byte)
  | ok (s : State) (t : TaskRec)

/-- The record at an address, read for operation `id` as an access of job `tag`, at the home slice of the record's address (R58): a line that
does not serve it refuses the step, and a page of another owner is read by a forwarded access (R118, R126, R127). -/
def State.recordOf (s : State) (id : OpId) (tag : Nat) (a : Word) : RecordGot :=
  if !(decide (0x1000000 ≤ a.toNat) && decide (a.toNat + 64 ≤ 2 ^ 52)) then .fail s 0x01
  else match s.sliceAccess id id tag a 64 ⟨true, false, false, true⟩ none with
    | .wait s | .retry s _ => .wait s
    | .fail s r _ => .fail (s.dropFwds id) r
    | .ok s bs =>
      let t := TaskRec.ofBytes bs
      if t.ok then .ok (s.dropFwds id) t else .fail (s.dropFwds id) 0x08

/-- The die at whose home an operation's step executes (R126). -/
def Op.homeDie (o : Op) : Nat :=
  match o.phase with
  | .atOwner d => d
  | _ => dieOf o.pcn

/-- The holder of pool-request buffers at an object's home: a slice of the die that executes the step, or the load-store unit of a bank's
core (R52). -/
def Op.poolHome (o : Op) (a : Word) : Nat :=
  match winOf o.pcn a with
  | .bank q _ _ => 1024 + q
  | _ => sliceNo o.homeDie a

/-- All 16 pool-request buffers of a home are held. -/
def State.buffersFull (s : State) (home : Nat) : Bool :=
  decide (16 ≤ (s.fab.poolReqs.filter fun r => decide (r.home = some home)).length)

/-- The tile of the home of an object, on the die at whose home the step executes. -/
def Op.objectTile (o : Op) (a : Word) : Nat :=
  match winOf o.pcn a with
  | .bank q _ _ => tileOf q
  | _ => tileAt o.homeDie (sliceX (homeOf a)) (sliceY (homeOf a))

/-- A record leaves tile `src` for a job's pool. That of a firing goes from its holder's buffer: the step has performed, and the operation counts
in its stream now and on its token when the pool accepts (R52). SPAWN's performs when the pool accepts (R55, R393). -/
def State.sendToPool (s : State) (id : OpId) (tag : Nat) (home : Option Nat) (src : Nat) (r : TaskRec) : State :=
  match s.op? id with
  | none => s
  | some o =>
    let (i, s) := s.takeId
    let s := s.modFab fun f => { f with poolReqs := f.poolReqs ++ [⟨i, tag, (s.job tag).serial, home, some id, r, src⟩] }
    if home.isSome then (s.countStream o).setOp id { o with phase := .pooling o.homeDie, counted := true }
    else s.setOp id { o with phase := .pooling o.homeDie }

/-! ## BIND (R57, R320) -/

/-- BIND's operand values (R320). -/
def bindOk (rec_ n : Word) : Bool :=
  decide (n.toNat < 2 ^ 31) &&
  (rec_ == 0 || (decide (rec_.toNat % 64 = 0) && decide (0x1000000 ≤ rec_.toNat) && decide (rec_.toNat < 2 ^ 52)))

/-- The 16 bytes of a bound counter (R56). -/
def counterBytes (n tag ser : Nat) (rec_ : Word) : List Byte :=
  leBytes 4 n ++ leBytes 2 tag ++ leBytes 2 ser ++ leBytes 8 rec_.toNat

/-- BIND_STEP. -/
def execBindStep (op : OpId) (s : State) : Res :=
  s.atHome op fun o =>
    match o.kind with
    | .bind ob rec_ n =>
      if !bindOk rec_ n then s.failOp op 0x08 ob
      else s.indivisible op o ob 16 0 true false fun s _ =>
        let ws := [(0, counterBytes n.toNat o.job (s.job o.job).serial rec_, false)]
        if n = 0 ∧ rec_ ≠ 0 then
          match s.recordOf op o.job rec_ with
          | .wait s => .refuse s
          | .fail s r => .fail s r rec_
          | .ok s t =>
            let h := o.poolHome ob
            if s.buffersFull h then .refuse s else .done s ws fun s => s.sendToPool op o.job (some h) (o.objectTile ob) t
        else .done s ws fun s => s.performOp op []
    | _ => s

/-! ## SIGNAL (R58, R391) -/

/-- The live job on the object's die that a counter is bound to (R57, R58). -/
def State.boundJob (s : State) (die : Nat) (bs : List Byte) : Option Nat :=
  let tag := leNat ((bs.drop 4).take 2)
  match s.liveJob? tag with
  | some j => if decide (tagDie tag = die) && decide (j.serial = leNat ((bs.drop 6).take 2)) && j.live then some tag else none
  | none => none

/-- SIGNAL's step on a counter's bytes (R58): the payload, COUNT, and a firing. A record that cannot be pooled leaves a record
with REASON 0x08. -/
def State.signalBytes (s : State) (id : OpId) (o : Op) (ob : Word) (pay bs : List Byte) : HomeStep :=
  let count := wordAt bs 0
  let rec_ := BitVec.ofNat 64 (dwordAt bs 1)
  let ws := (if pay = [] then [] else [(16, pay, true)]) ++ [(0, leBytes 4 ((count + (2 ^ 32 - 1)) % 2 ^ 32), false)]
  let plain : HomeStep := .done s ws fun s => s.performOp id []
  if count ≠ 1 ∨ rec_ = 0 then plain
  else match s.boundJob o.homeDie bs with
    | none => plain
    | some tag =>
      match s.recordOf id tag rec_ with
      | .wait s => .refuse s
      | .fail s _ => .done s ws fun s => (s.setOp id { o with recd := some (o.failure 0x08 rec_) }).performOp id []
      | .ok s t =>
        let h := o.poolHome ob
        if s.buffersFull h then .refuse s else .done s ws fun s => s.sendToPool id tag (some h) (o.objectTile ob) t

/-- SIGNAL_STEP. -/
def execSignalStep (op : OpId) (s : State) : Res :=
  s.atHome op fun o =>
    match o.kind with
    | .signal ob _ _ =>
      if !o.hop then s
      else s.indivisible op o ob (16 + o.result.length) 16 false true fun s bs => s.signalBytes op o ob o.result bs
    | _ => s

/-! ## SPAWN at its target (R55, R393) -/

/-- The target core: 0 is the own bank. -/
def spawnTarget (p : Pcn) (tgt : Word) : Pcn := (migTarget p tgt).getD p

/-- The record reaches the target: a thread is created there, or the record goes to the pool. At a core both halted and DARK it waits (R203,
R211; log entry 90). -/
def State.spawnStep (s : State) (id : OpId) (o : Op) (tgt : Word) : State :=
  let c := spawnTarget o.pcn tgt
  if (s.core c).halted then s
  else if (s.core c).status = .scrub then s.refuse id
  else if s.owner (tileOf c) ≠ o.job then s.failOp id 0x05 tgt
  else if (s.core c).status = .dark then s.failOp id 0x06 tgt
  else
    let t := TaskRec.ofBytes o.result
    match s.freeImage c with
    | some k => (s.threadFromTask c k t).2.performOp id []
    | none => s.sendToPool id o.job none (tileOf c) t

/-! ## Completion (R84 to R88) -/

/-- Whether an operation is the oldest outstanding on its token. -/
def State.oldestOnToken (s : State) (id : OpId) (o : Op) : Bool :=
  !s.ops.any fun e => decide (e.1 < id) && decide (e.2.uid = o.uid) && decide (e.2.inShadow = o.inShadow) && decide (e.2.tok = o.tok)

/-- The registers and values that a performed operation writes. -/
def Op.writes (o : Op) : List (Reg × Vec) :=
  let w (bs : List Byte) : Vec := BitVec.ofNat 256 (leNat bs)
  match o.kind with
  | .alu d v => [(.g d, v.setWidth 256)]
  | .fpu d v _ _ => [(.g d, v.setWidth 256)]
  | .load _ _ (.g d) sx _ => [(.g d, (extendBytes o.result sx).setWidth 256)]
  | .load _ _ r _ _ => [(r, w o.result)]
  | .atom _ _ _ _ _ t => [(.g t, w o.result)]
  | .chunk _ t => [(.g t, w (o.result.take 8)), (.g (t + 1), w (o.result.drop 8))]
  | .tshape _ d => [(.g d, w (o.result.take 8)), (.g (d + 1), w (o.result.drop 8))]
  | .store .. | .watch .. | .fe .. | .spawn .. | .taskq .. | .bind .. | .signal .. | .join .. | .leave ..
  | .tpress .. | .cpy .. | .cpy2d .. | .cpyl .. | .mcrd .. | .mma .. | .mmod .. | .mzero .. | .mload .. | .mdrain .. => []

/-- Bytes of a register as an operation keeps its value before the write. -/
def Thread.rawBytes (t : Thread) : Reg → List Byte
  | .v r => leBytes 32 (t.raw (.v r)).toNat
  | r => leBytes 8 (t.raw r).toNat

/-- A result is in its registers: results due before it have fallen due, and of two in one cycle the later-issued one stays (R80). -/
def State.writeRegs (s : State) (id : OpId) (o : Op) : State :=
  let t := (s.thread o.uid).settle s.now
  let t := o.writes.foldl (fun t w => { t.land w.1 w.2 (fullMask w.1) s.now (opPlace id) with
    coldPoison := t.coldPoison.filter fun x => decide (x.1 ≠ w.1) }) t
  let fl : BitVec 5 := match o.kind with
    | .fpu _ _ fl _ => fl
    | _ => 0
  s.setThread o.uid { t with fstat := t.fstat ||| fl }

/-- DONE counts on the token, with the record an operation leaves; the operation is over. Instructions that issue in this cycle do not see it
(R85). -/
def State.countDone (s : State) (id : OpId) (o : Op) (r : Option FaultRec) : State :=
  let s := s.countStream o
  let s := match o.tok with
    | some k => s.modThread o.uid fun t =>
        let t := match r with
          | some r => t.addFailure o.inShadow k r
          | none => t
        { t.modBank o.inShadow fun b => b.doneTok k with
          doneAt := (t.doneAt.filter fun (e : Nat × Bool × Tok) => decide (s.windowStart ≤ e.1)) ++ [(s.now, o.inShadow, k)] }
    | none => s
  let s := match r with
    | some r => if o.kind.isEngine && o.stepped then s.modCore o.pcn fun c => { c with debugFault := some r } else s
    | none => s
  s.dropOp id

/-- A result reaches its registers. DONE counts with it if the operation is the oldest on its token; else the operation keeps what
stood there (R84, R87). -/
def State.deliverResult (s : State) (id : OpId) (o : Op) (r : Option FaultRec) : State :=
  if s.oldestOnToken id o then (s.writeRegs id o).countDone id o r
  else
    let t := (s.thread o.uid).settle s.now
    (s.writeRegs id o).setOp id { o with phase := .finished, result := o.writes.flatMap fun w => t.rawBytes w.1 }

/-- OPERATION_COMPLETION: a result reaches its register, and DONE counts in the order of the token (R84, R88, R350, R404). -/
def execOperationCompletion (op : OpId) (s : State) : Res :=
  .next (
    match s.op? op with
    | none => s
    | some o =>
      let last (s : State) (o : Op) (r : Option FaultRec) : State := if s.oldestOnToken op o then s.countDone op o r else s
      let gone := (mapGet? s.threads o.uid).isNone && o.jidx.isNone &&
        (match o.phase, o.kind with
         | .queued, .alu .. | .queued, .fpu .. | .performed, _ | .finished, _ | .failed _, _ => true
         | _, _ => false)
      if gone then s.dropOp op
      else match o.phase, o.kind with
      | .queued, .alu .. => s.deliverResult op o none
      | .queued, .fpu _ _ fl en =>
        if fl &&& en ≠ 0 then s.setOp op { o with phase := .failed ⟨o.pc, (fl &&& en).setWidth 64, 0x0A, 0⟩ }
        else s.deliverResult op o none
      | .queued, .tpress v =>
        if s.oldestOnToken op o then
          (s.modJob o.job fun j => { j with backlog := min v.toNat 0xFFFFFF }).countDone op o none
        else s
      | .arrived, .spawn _ tgt => if o.hop then s.spawnStep op o tgt else s
      | .performed, _ => s.deliverResult op o o.recd
      | .finished, _ => last s o o.recd
      | .failed r, _ => if o.jidx.isSome then s else last s o (some r)
      | _, _ => s)

/-- POSTED_STORE_REFUSAL: DONE counts with no record, the journal entry is held, and a PSTORE is pending; a store issued inside a
handler is a job fault (R198). A resent store counts nowhere (R199). -/
def execPostedStoreRefusal (op : OpId) (s : State) : Res :=
  .next (
    match s.op? op with
    | none => s
    | some o =>
      match o.phase, o.jidx with
      | .failed r, some j =>
        if (mapGet? s.threads o.uid).isNone then
          (s.dropOp op).modCore o.pcn fun c => { c with journal := mapErase c.journal j }
        else if !o.resent && !s.oldestOnToken op o then s
        else if o.inShadow then s.freezeJob o.job 0x02 cPstore
        else
          let s := if o.resent then s.dropOp op else s.countDone op o none
          s.modCore o.pcn fun c =>
            match mapGet? c.journal j with
            | some e => { c with journal := mapSet c.journal j { e with held := true, told := false, reason := r.reason } }
            | none => c
      | _, _ => s)

end Sys2Proof.Machine
end

