-- ==== Sys2Proof/Machine/Engine.lean ====
section
/-! DEFINITION. What the copy engine and the matrix unit share: the queues (R83), an engine's access to a place (R99, R138,
R190), pieces of at most one sector, probes (R184), failures (R184, R189), systolic links (R178, R179), and the steps in
which pieces, reads and writes perform (R130). -/

namespace Sys2Proof.Machine

/-- A core's engines may start a command: its job runs, its core is LIVE, and no halt freezes them (R201, R204, R211). What
stood in a queue when a move stopped the tile has been discarded, but for a multicast read (R31). -/
def State.enginesRun (s : State) (p : Pcn) : Bool :=
  decide ((s.core p).status = .live) && s.jobActive (s.owner (tileOf p)) && !((s.core p).halted && (s.core p).engfrz &&& (s.core p).haltGrp != 0)

/-! ## Where an engine's access goes -/

/-- Sectors of a confidential job's access that leave cluster `src` for another's local memory or as a beat: its seal unit counts one IV
for each (R190, R236). -/
def State.sealTransit (s : State) (tag src n : Nat) : State :=
  if (s.job tag).conf then
    s.modFab fun f => { f with sealCtr := mapSet f.sealCtr src ((mapGet? f.sealCtr src).getD 0 + BitVec.ofNat 64 n) }
  else s

/-- The sealing of an engine's access between two clusters: sealed where it sets out, opened where it arrives. -/
def State.cross (s : State) (tag src dst off n : Nat) : State :=
  if src = dst then s else s.sealTransit tag src (sectors off n).length

/-- A read of `n` bytes by a command at a bank. A core in SCRUB refuses it (R10, R118). -/
def State.engBankRead (s : State) (o : Op) (party : Fin 4) (a : Word) (q off n : Nat) : AtHome :=
  match s.bankGate o.job q off n true false with
  | .scrub => s.hinted
  | .fail r => .fail s r a
  | .ok =>
    match s.poisonedIn (bankKey q off) n with
    | some g => .fail s 0x09 (granuleAt a (bankKey q off) g)
    | none =>
      .ok (((s.correct (bankKey q off) n).noteAccess o.pcn q off n party false).cross o.job (tileOf q) (tileOf o.pcn) off n)
        (memRead s.ms.mem (bankKey q off) n)

/-- A write by a command at a bank, which sets full-empty bits (R107, R328). -/
def State.engBankWrite (s : State) (id : OpId) (o : Op) (party : Fin 4) (a : Word) (q off : Nat) (bs : List Byte) : AtHome :=
  match s.bankGate o.job q off bs.length false true with
  | .scrub => s.hinted
  | .fail r => .fail s r a
  | .ok =>
    match s.poisonedPartly (bankKey q off) bs.length with
    | some g => .fail s 0x09 (granuleAt a (bankKey q off) g)
    | none =>
      .ok ((((s.noteAccess o.pcn q off bs.length party true).cross o.job (tileOf o.pcn) (tileOf q) off bs.length).bankWrite q off bs
        true).markWrote id) []

/-- The access of command `id` at its home: a read of `n` bytes at `a`, or a write of `wr`; `who` numbers its request there. -/
def State.engHome (id : OpId) (o : Op) (party : Fin 4) (a : Word) (n : Nat) (wr : Option (List Byte)) (who : Nat) (s : State) : AtHome :=
  match winOf o.pcn a with
  | .bank q off _ =>
    match wr with
    | none => s.engBankRead o party a q off n
    | some bs => s.engBankWrite id o party a q off bs
  | _ => s.sliceAccess who id o.job a n ⟨wr.isNone, wr.isSome, false, true⟩ wr

/-- An engine's access goes to the bank or the slice that is its home, over the mesh when that is on another tile (R214). -/
def State.engAccess (s : State) (id : OpId) (o : Op) (party : Fin 4) (a : Word) (n : Nat) (wr : Option (List Byte)) : Got :=
  if !inWindow o.pcn a then .fail s 0x09 a
  else s.trip id 0 (tileOf o.pcn) (homeTile o.pcn a) a n wr.isSome fun x s => s.engHome id o party a n wr x.asker

/-- An engine's read; `party`: 2 the copy engine, 3 the matrix commands. -/
def State.engRead (s : State) (id : OpId) (o : Op) (party : Fin 4) (a : Word) (n : Nat) : Got := s.engAccess id o party a n none
/-- An engine's write. -/
def State.engWrite (s : State) (id : OpId) (o : Op) (party : Fin 4) (a : Word) (bs : List Byte) : Got :=
  s.engAccess id o party a bs.length (some bs)

/-- A range of an engine command lies in one window that it may use (R99). -/
def engRange (p : Pcn) (a : Word) (n : Nat) : Bool := inWindow p a && rangeIn p a n

/-! ## Probes (R184) -/

/-- What a probe finds: nothing against it, something that makes it wait, or a failure with its ADDR. -/
inductive Probe
  | ok
  | wait
  | fail (r : Byte) (a : Word)
deriving DecidableEq, Repr

def Probe.next (p q : Probe) : Probe := if p = .ok then q else p

/-- The pages of `2^sz` bytes that a range of a window touches: first address in each, and the bytes there. -/
def pagesOf (sz : Nat) (a : Word) (n : Nat) : List (Word × Nat) :=
  let p0 := a.toNat / 2 ^ sz
  (span p0 ((a.toNat + n - 1) / 2 ^ sz - p0 + 1)).map fun p =>
    let lo := max a.toNat (p * 2 ^ sz)
    (BitVec.ofNat 64 lo, min (a.toNat + n) ((p + 1) * 2 ^ sz) - lo)

/-- ADDR of a probe that fails at an address: the first address that the command would have touched (R88; log entry 59), but for MCRD, which
names the address that fails (R373). -/
def Op.probeAddr (o : Op) (a : Word) : Word :=
  match o.kind with
  | .mcrd .. => a
  | k => k.addr

/-- A probe of one range: translation and tables by page of 64 KiB, owner and LMPU by page of 4 KiB. -/
def State.probeRange (s : State) (o : Op) (rd wr : Bool) (a : Word) (n : Nat) : Probe :=
  if n = 0 then .ok
  else match winOf o.pcn a with
    | .bank _ _ _ =>
      (pagesOf 12 a n).foldl (fun r p => r.next (match winOf o.pcn p.1 with
        | .bank q off _ =>
          match s.bankGate o.job q off p.2 rd wr with
          | .scrub => .wait
          | .fail e => .fail e (o.probeAddr p.1)
          | .ok => .ok
        | _ => .ok)) .ok
    | _ =>
      (pagesOf 16 a n).foldl (fun r p => r.next (match s.xlat o.job p.1 p.2 ⟨rd, wr, false, true⟩ with
        | .wait => .wait
        | .fail e => .fail e (o.probeAddr p.1)
        | .ok .. => .ok)) .ok

def State.probeAll (s : State) (o : Op) (rd wr : Bool) (l : List (Word × Nat)) : Probe :=
  l.foldl (fun r x => r.next (s.probeRange o rd wr x.1 x.2)) .ok

/-! ## Pieces -/

/-- Cuts a range at 64-byte boundaries, on fuel. -/
def cutSectors : Nat → Word → Nat → List (Word × Nat)
  | 0, _, _ => []
  | fuel + 1, a, n =>
    if n = 0 then []
    else
      let k := min n (64 - a.toNat % 64)
      (a, k) :: cutSectors fuel (a + BitVec.ofNat 64 k) (n - k)

/-- The sectors of a range. -/
def sectorCuts (a : Word) (n : Nat) : List (Word × Nat) := cutSectors (n / 64 + 2) a n

/-- The pieces of a copy of `n` bytes: one for each sector written. -/
def copyPieces (d src : Word) (n : Nat) : List Piece :=
  (sectorCuts d n).map fun c => ⟨some (src + (c.1 - d)), some c.1, c.2, none⟩

/-- The pieces of a read of a range. -/
def readPieces (a : Word) (n : Nat) : List Piece := (sectorCuts a n).map fun c => ⟨some c.1, none, c.2, none⟩

/-- Nothing is left to do of a piece. -/
def Piece.finished (p : Piece) : Bool := p.wr.isNone && decide (p.len ≤ (p.data.getD []).length)

/-- The bytes of the pieces that are read, up to the first that is not. -/
def readPrefix (ps : List Piece) : List Byte :=
  (ps.takeWhile Piece.finished).flatMap fun p => p.data.getD []

/-! ## The end of a command -/

/-- A command performs. -/
def State.engDone (s : State) (id : OpId) (o : Op) : State :=
  ((s.dropFwds id).releaseEngine id o).performOp id []

/-- The address of the list element that a CPYL has come to: it stands behind the header in `result`. -/
def Op.elementAt (o : Op) : Word := BitVec.ofNat 64 (dwordAt o.result 4)

/-- A failure of a started command: before its first write it fails, after it the job faults (R184). A CPYL fails at its first element only,
with REASON 0x09 and the element's address; `aux` counts the elements it has come to (R186, R331). Copies, MLOAD and MDRAIN name the first
address that they would have touched, but for a poisoned granule or a sector whose tag does not match (R88, R189). -/
def State.engFail (s : State) (id : OpId) (o : Op) (r : Byte) (a : Word) : State :=
  let fail (r : Byte) (a : Word) : State := ((s.dropFwds id).releaseEngine id o).failOp id r a
  if o.wrote then s.freezeJob o.job 0x02 0
  else match o.kind with
    | .mma .. | .mmod .. => s.setOp id { o with recd := some ((o.recd).getD (o.failure r a)) }
    | .cpyl _ =>
      if o.aux = 0 then fail r a
      else if o.aux = 1 then fail 0x09 o.elementAt
      else s.freezeJob o.job 0x02 0
    | .mcrd .. => fail r a
    | k => fail r (if r = 0x09 ∨ a = 0 then a else k.addr)

/-! ## Links (R178, R179) -/

/-- The tile next to a tile in a direction: 0 north, 1 east, 2 south, 3 west. -/
def neighbour (tile dir : Nat) : Option Nat :=
  let d := tile / 1024
  let x := xOf tile
  let y := yOf tile
  match dir with
  | 0 => if 0 < y then some (tileAt d x (y - 1)) else none
  | 1 => if x < 31 then some (tileAt d (x + 1) y) else none
  | 2 => if y < 31 then some (tileAt d x (y + 1)) else none
  | _ => if 0 < x then some (tileAt d (x - 1) y) else none

/-- The FIFO that a beat sent from a tile in a direction enters. -/
def targetFifo (tile dir : Nat) : Option Nat := (neighbour tile dir).map fun t => t * 4 + (dir + 2) % 4

/-- Why a command may not send on a link. -/
def State.linkFault (s : State) (o : Op) (dir : Nat) : Option Byte :=
  match neighbour (tileOf o.pcn) dir with
  | none => some 0x09
  | some t => if s.owner t = o.job then none else some 0x05

def State.inFlight (s : State) (id : OpId) : Bool := s.fab.flight.any fun b => decide (b.op = id)

/-- Puts a beat on its way, sealed for transit by a confidential job's seal unit (R190). One that did not open here does not open further on.
The owner of the target tile is checked when the command starts (R179), and not again at each beat (log entry 80). -/
def State.sendBeat (s : State) (id : OpId) (o : Op) (dir : Nat) (data : Option (List Byte)) : State :=
  let t := tileOf o.pcn
  let j := s.job o.job
  match targetFifo t dir with
  | none => s
  | some f =>
    let key : Option (Nat × Nat) := match data with
      | none => some (2 ^ 65, 0)
      | some _ => if j.conf then some (s.slotInst j.keyslot, ((mapGet? s.fab.sealCtr t).getD 0).toNat) else none
    (s.modFab fun x => { x with flight := x.flight ++ [⟨f, id, data.getD (List.replicate 64 0), key⟩] }).sealTransit o.job t 1

/-- What a LINK operand keeps of a beat that did not open: one byte more than a beat has. -/
def unopened : List Byte := List.replicate 65 0

/-- A beat as it stood in its FIFO. -/
def beatOf (d : List Byte) : Option (List Byte) := if d.length = 64 then some d else none

/-- What the seal unit of a tile makes of a beat that arrives: its bytes, or nothing when its tag does not match (R190, R236). -/
def State.openBeat (s : State) (b : LinkBeat) : Option (List Byte) :=
  let j := s.job (s.owner (b.fifo / 4))
  let mine : Option Nat := if j.conf then some (s.slotInst j.keyslot) else none
  if b.key.map (·.1) = mine then some b.data else none

/-- The link that a started CPY2D sends on: its shape record is kept in `result`. -/
def Op.copyLink (o : Op) : Option Nat :=
  match o.kind with
  | .cpy2d .. => let l := (o.result.getD 0x18 0).toNat; if l = 0 then none else some (l - 1)
  | _ => none

/-- The beats of a link-sending copy; `aux` counts those sent. It performs when the last has entered its FIFO (R185). -/
def State.pumpCopy (s : State) (id : OpId) : State :=
  match s.op? id with
  | none => s
  | some o =>
    match o.phase, o.copyLink with
    | .started, some dir =>
      if s.inFlight id then s
      else
        let bytes := readPrefix o.pieces
        let all := o.pieces.all Piece.finished
        let ready := if all then (bytes.length + 63) / 64 else bytes.length / 64
        if o.aux < ready then
          let b := (bytes.drop (64 * o.aux)).take 64
          (s.setOp id { o with aux := o.aux + 1, wrote := true }).sendBeat id o dir (some (b ++ List.replicate (64 - b.length) 0))
        else if all then s.engDone id o
        else s
    | _, _ => s

/-! ## LINK operands (R176, R178, R381) -/

/-- The parts of a descriptor (R176); `ok`: its reserved fields are zero and what it names is aligned. -/
inductive Operand
  | mem (ok : Bool) (base : Word) (stride : Nat)
  | gather (ok : Bool) (idx base : Word) (stride : Nat)
  | link (ok : Bool) (src : Nat) (fwd : Option Nat)
deriving DecidableEq, Repr

def Operand.ofWord (d : Word) : Operand :=
  let stride := 16 * wfld d 52 10
  match wfld d 62 2 with
  | 0 => .mem (decide (wfld d 0 52 % 16 = 0)) (BitVec.ofNat 64 (wfld d 0 52)) stride
  | 1 => .gather (decide (wfld d 48 4 = 0) && decide (wfld d 0 24 % 16 = 0) && decide (wfld d 24 24 % 32 = 0))
      (BitVec.ofNat 64 (wfld d 24 24)) (BitVec.ofNat 64 (wfld d 0 24)) stride
  | 2 => .link (decide (wfld d 5 57 = 0) && decide (wfld d 2 2 ≠ wfld d 0 2)) (wfld d 0 2)
      (if wbit d 4 then some (wfld d 2 2) else none)
  | _ => .mem (decide (wfld d 37 15 = 0) && decide (wfld d 0 37 % 16 = 0)) (BitVec.ofNat 64 (2 ^ 63 + wfld d 0 37)) stride

/-- A, B, K, the rows of a tile and the bits of an element. -/
def OpKind.product : OpKind → Option (Word × Word × Nat × Nat × Nat)
  | .mma a b k _ f _ => some (a, b, k, 16, match f with | .bf16 | .fp16 => 16 | .md8 | .int8 => 8 | .fp4 => 4)
  | .mmod a b k _ _ => some (a, b, k, 8, 64)
  | _ => none

/-- Bytes of a packed image with its scales (R177). -/
def imageBytes (k r bits : Nat) : Nat := k * r * bits / 8 + (if bits = 4 then 16 * (k / 32) else 0)

/-- The beats of an image of `n` bytes that a LINK operand of a command on `tile` takes: none from off the die. -/
def beatsOf (tile : Nat) (d : Word) (n : Nat) : Nat :=
  match Operand.ofWord d with
  | .link _ src _ => if (neighbour tile src).isSome then (n + 63) / 64 else 0
  | _ => 0

/-- The link on which an operand sends the beats that it takes, when its descriptor is good and the link may be used (R178, R179). -/
def State.forwardLink (s : State) (o : Op) (d : Word) : Option Nat :=
  match Operand.ofWord d with
  | .link true _ (some f) => if (s.linkFault o f).isNone then some f else none
  | _ => none

/-- What a started product sends on, as found at its start: for A and B, 1 + the link, or 0. -/
def Op.sends (o : Op) (i : Nat) : Option Nat :=
  match (o.result.getD i 0).toNat with
  | 0 => none
  | n + 1 => some n

def beatPiece : Piece := ⟨none, none, 64, none⟩

/-- The first of `l` beats, from index `i` on, that has not been taken. -/
def nextBeat (ps : List Piece) (i l : Nat) : Option Nat := (span i l).find? fun j => ((ps.getD j beatPiece).data).isNone

/-- Takes one beat for the operand whose beats are pieces `i` to `i + l − 1`, and forwards it; `skip`: beats forwarded
before the command was suspended (R204). A beat that did not open fails the command with REASON 0x09, and has no address (R189, R190). -/
def State.takeBeat (s : State) (id : OpId) (o : Op) (i l src : Nat) (fwd : Option Nat) (skip : Nat) : Option State :=
  let f := tileOf o.pcn * 4 + src
  match nextBeat o.pieces i l, (mapGet? s.fab.links f).getD [] with
  | some j, b :: r =>
    let send := decide (skip ≤ j - i)
    let o := { o with
      pieces := o.pieces.set j ⟨none, none, 64, some (b.getD unopened)⟩
      recd := if b.isNone then o.recd.or (some (o.failure 0x09 0)) else o.recd }
    match fwd with
    | some d =>
      if send && (match targetFifo (tileOf o.pcn) d with
          | some g => s.fab.flight.any fun x => decide (x.op = id) && decide (x.fifo = g)
          | none => false) then none
      else
        let s := (s.modFab fun x => { x with links := mapSet x.links f r }).setOp id o
        some (if send then s.sendBeat id o d b else s)
    | none =>
      some ((s.modFab fun x => { x with links := mapSet x.links f r }).setOp id o)
  | _, _ => none

/-- One beat of a granted command: A's beats first when both operands name one direction (R381). `aux` holds how many beats
of A and, times 2^16, of B had been forwarded. -/
def State.takeNext (s : State) (id : OpId) : Option State :=
  match s.op? id with
  | none => none
  | some o =>
    match o.kind.product with
    | none => none
    | some (a, b, k, r, bits) =>
      let n := imageBytes k r bits
      let la := beatsOf (tileOf o.pcn) a n
      let lb := beatsOf (tileOf o.pcn) b n
      let fromA := match Operand.ofWord a with
        | .link _ src _ => s.takeBeat id o 0 la src (o.sends 0) (o.aux % 2 ^ 16)
        | _ => none
      match fromA with
      | some s => some s
      | none =>
        match Operand.ofWord b with
        | .link _ src _ =>
          let shared := match Operand.ofWord a with
            | .link _ src' _ => decide (src' = src) && (nextBeat o.pieces 0 la).isSome
            | _ => false
          if shared then none else s.takeBeat id o (o.pieces.length - lb) lb src (o.sends 1) (o.aux / 2 ^ 16)
        | _ => none

/-- Takes beats while there are any to take, on fuel. -/
def State.takeBeats : Nat → State → OpId → State
  | 0, s, _ => s
  | fuel + 1, s, id =>
    match s.takeNext id with
    | some s => State.takeBeats fuel s id
    | none => s

/-- The granted command of a cluster takes what its FIFOs hold. -/
def State.pumpUnit (s : State) (tile : Nat) : State :=
  match ((mapGet? s.fab.matrix tile).getD MatrixUnit.reset).busy with
  | some id => s.takeBeats 16 id
  | none => s

/-- LINK_BEAT_ARRIVAL: the earliest beat on its way to a FIFO enters it when it has room (R178). -/
def execLinkBeatArrival (idx : Nat) (s : State) : Res :=
  .next (
    match s.fab.flight[idx]? with
    | none => s
    | some b =>
      let here := (mapGet? s.fab.links b.fifo).getD []
      if decide (4 ≤ here.length) || (s.fab.flight.take idx).any (fun x => decide (x.fifo = b.fifo)) then s
      else
        let s := s.modFab fun f => { f with
          flight := f.flight.eraseIdx idx
          links := mapSet f.links b.fifo (here ++ [s.openBeat b]) }
        let s := s.pumpUnit (b.fifo / 4)
        match s.op? b.op with
        | some o => if o.kind.isMatrix then s.takeBeats 16 b.op else s.pumpCopy b.op
        | none => s)

/-! ## Reads and writes of a started command (R130, R138) -/

/-- The next bytes of a piece, up to the end of a sector. A poisoned granule is named by its own address (R189), but for the first element of
a list, whose failure names the element (R331; log entry 59). -/
def State.pieceRead (s : State) (id : OpId) (o : Op) (idx : Nat) : State :=
  match o.pieces[idx]? with
  | none => s
  | some p =>
    match p.rd with
    | none => s
    | some a =>
      let got := p.data.getD []
      if p.len ≤ got.length ∨ o.recd.isSome then s
      else
        let b := a + BitVec.ofNat 64 got.length
        let n := min (p.len - got.length) (64 - b.toNat % 64)
        match s.engRead id o o.kind.party b n with
        | .wait s => s
        | .fail s r c => s.engFail id o r c
        | .ok s bs => (s.setOp id { o with pieces := o.pieces.set idx { p with data := some (got ++ bs) } }).pumpCopy id

/-- Whether a command performs with its last write: MDRAIN and a list walk go on. -/
def OpKind.endsWithWrites : OpKind → Bool
  | .cpy .. | .cpy2d .. => true
  | _ => false

/-- A piece that has been written. -/
def writtenPiece : Piece := ⟨none, none, 0, some []⟩

/-- A piece's write: one sector, whole (R144). -/
def State.pieceWrite (s : State) (id : OpId) (o : Op) (idx : Nat) : State :=
  match o.pieces[idx]? with
  | none => s
  | some p =>
    match p.wr, p.data with
    | some a, some bs =>
      if bs.length < p.len then s
      else match s.engWrite id o o.kind.party a bs with
        | .wait s => s
        | .fail s r c => s.engFail id o r c
        | .ok s _ =>
          match s.op? id with
          | none => s
          | some _ =>
            let o := { o with pieces := o.pieces.set idx writtenPiece, wrote := true }
            let s := s.setOp id o
            if o.kind.endsWithWrites && o.pieces.all Piece.finished then s.engDone id o else s
    | _, _ => s

/-- MEMORY_READ_PERFORM: a read fixes its value at its home (R130). `idx` names a piece of an engine command. -/
def execMemoryReadPerform (op : OpId) (idx : Nat) (s : State) : Res :=
  .next (
    match s.op? op with
    | none => s
    | some o => if o.atHome then s.readStep op o else if o.phase = .started then s.pieceRead op o idx else s)

/-- MEMORY_WRITE_PERFORM: a write performs at its home (R130). -/
def execMemoryWritePerform (op : OpId) (idx : Nat) (s : State) : Res :=
  .next (
    match s.op? op with
    | none => s
    | some o => if o.atHome then s.writeStep op o else if o.phase = .started then s.pieceWrite op o idx else s)

end Sys2Proof.Machine
end

