-- ==== Sys2Proof/Machine/Copy.lean ====
section
/-! DEFINITION. The copy engine: the issue of CPY, CPY2D, CPYL and MCRD (R183, R328, R329, R373), the start of a command (R184 to
R187, R330), the walk of a list (R186, R331), and the requests, merges and deliveries of a multicast read (R119, R187, R188,
R374). -/

namespace Sys2Proof.Machine

/-! ## Issue -/

def needCopy (k : Tok) (st : Strm) : Needs := ⟨some k, some st, false, false, true, false⟩

/-- Issues a command into the copy queue (R83). -/
def State.launchCopy (s : State) (k : OpKind) (tok : Tok) (st : Strm) (mask : Byte) : State :=
  let (id, s) := s.launch k (some tok) (some st) mask false
  (s.modMyCore fun c => { c with copyQ := c.copyQ ++ [id] }).closeRegion.finish 4 1

/-- The longest copy. -/
def copyLimit : Nat := 2 ^ 24

/-- The first address of a range that is outside its window (R329): the range's own start if that is in no window. -/
def firstOutside (p : Pcn) (a : Word) (n : Nat) : Option Word :=
  if !inWindow p a then some a
  else if rangeIn p a n then none
  else
    let room := match winOf p a with
      | .bank _ off _ => bankBytes - off
      | _ => 2 ^ 52 - a.toNat
    some (a + BitVec.ofNat 64 room)

/-- CPY (R329). Of two ranges that leave their windows TVAL names the destination's address (log entry 91). -/
def execCpy (a b c : GReg) (k : Tok) (st : Strm) (m : Sel) (s : State) : Res :=
  s.issueOp (fun _ => needCopy k st) [.g a, .g b, .g c] [] fun s =>
    let d := s.baseAddr a
    let src := s.readG 1 b
    let len := s.readG 2 c
    let n := len.toNat
    match (if n = 0 ∨ copyLimit < n then none else (firstOutside s.me.pcn d n).or (firstOutside s.me.pcn src n)) with
    | some x => s.takeTrap (trapOf cAddr x)
    | none => s.launchCopy (.cpy d src len) k st (s.me.mask m)

def execCpy2d (a b c : GReg) (k : Tok) (st : Strm) (m : Sel) (s : State) : Res :=
  s.issueOp (fun _ => needCopy k st) [.g a, .g b, .g c] [] fun s =>
    s.launchCopy (.cpy2d (s.baseAddr a) (s.readG 1 b) (s.readG 2 c)) k st (s.me.mask m)

def execCpyl (a : GReg) (k : Tok) (st : Strm) (m : Sel) (s : State) : Res :=
  s.issueOp (fun _ => needCopy k st) [.g a] [] fun s => s.launchCopy (.cpyl (s.baseAddr a)) k st (s.me.mask m)

/-- MCRD: its source is global and its record local (R373). -/
def execMcrd (a b c : GReg) (k : Tok) (st : Strm) (m : Sel) (s : State) : Res :=
  s.issueOp (fun _ => needCopy k st) [.g a, .g b, .g c] [] fun s =>
    let src := s.readG 1 b
    let rec_ := s.readG 2 c
    if !isGlobal s.me.pcn src then s.takeTrap (trapOf cAddr src)
    else if !isLocal s.me.pcn rec_ then s.takeTrap (trapOf cAddr rec_)
    else s.launchCopy (.mcrd (s.baseAddr a) src rec_) k st (s.me.mask m)

/-! ## Starting a command -/

/-- What the engine does with the head of its queue. -/
inductive Start
  | wait (s : State)
  | fail (s : State) (r : Byte) (a : Word)
  | finished (s : State)
  | go (s : State) (o : Op)

/-- A start after its probes. A refused one asks again after the hint (R118). -/
def Probe.start (p : Probe) (s : State) (id : OpId) (o : Op) : Start :=
  match p with
  | .wait => .wait (s.retryLater id (tileOf o.pcn))
  | .fail r a => .fail s r a
  | .ok => .go s o

/-- The 32 bytes of a shape record: whether they are good (R185). -/
def shapeOk (bs : List Byte) (d : Word) : Bool :=
  let rows := wordAt bs 0
  let len := wordAt bs 1
  let link := (bs.getD 0x18 0).toNat
  decide (1 ≤ rows ∧ rows ≤ 65535) && decide (1 ≤ len ∧ len ≤ 65536) && decide (link ≤ 4) && (bs.drop 0x19).all (· == 0) &&
  (link == 0 || d == 0)

/-- CPY2D's rows from an address (R185). -/
def shapeRows (bs : List Byte) (a : Word) (strideAt : Nat) : List (Word × Nat) :=
  (List.range (wordAt bs 0)).map fun n => (a + BitVec.ofNat 64 n * BitVec.ofNat 64 (dwordAt bs strideAt), wordAt bs 1)

def State.startCpy2d (s : State) (id : OpId) (o : Op) (d src sh : Word) : Start :=
  if !(isLocal o.pcn sh && decide (sh.toNat % 32 = 0)) then .fail s 0x09 sh
  else match (if o.result = [] then s.engRead id o 2 sh 32 else .ok s o.result) with
    | .wait s => .wait s
    | .fail s r a => .fail s r a
    | .ok s bs =>
      let link := (bs.getD 0x18 0).toNat
      let srcs := shapeRows bs src 1
      let dsts := if link = 0 then shapeRows bs d 2 else []
      if !shapeOk bs d || !((srcs ++ dsts).all fun x => engRange o.pcn x.1 x.2) then .fail s 0x09 sh
      else if link = 0 then
        ((s.probeAll o true false srcs).next (s.probeAll o false true dsts)).start s id { o with
          phase := .started, result := bs
          pieces := (srcs.zip dsts).flatMap fun x => copyPieces x.2.1 x.1.1 x.1.2 }
      else match s.linkFault o (link - 1) with
        | some r => .fail s r 0
        | none => .go s { o with phase := .started, result := bs, pieces := srcs.flatMap fun x => readPieces x.1 x.2 }

/-- A list header is good (R186, R331). -/
def headerOk (p : Pcn) (bs : List Byte) : Bool :=
  let maxel := wordAt bs 4
  let pred := dwordAt bs 1
  decide (1 ≤ maxel ∧ maxel ≤ 65535) && (bs.drop 20).all (· == 0) &&
  (pred == 0 || (decide (pred % 8 = 0) && engRange p (BitVec.ofNat 64 pred) 8))

/-- CPYL reads its header when it starts. One that cannot be read is a bad header (log entry 89), but for a poisoned granule and a sector whose
tag does not match, which have rows of their own (R189). -/
def State.startCpyl (s : State) (id : OpId) (o : Op) (h : Word) : Start :=
  if !(decide (h.toNat % 32 = 0) && engRange o.pcn h 32) then .fail s 0x09 h
  else match s.engRead id o 2 h 32 with
    | .wait s => .wait s
    | .fail s r a => .fail s 0x09 (if r = 0x09 then a else h)
    | .ok s bs => if !headerOk o.pcn bs then .fail s 0x09 h else .go s { o with phase := .started, result := bs }

/-! ## MCRD's record (R187) -/

/-- A record, offset and source are good, and every named tile is the job's (R187, R373). -/
def State.mcrdOk (s : State) (o : Op) (bs : List Byte) (off src : Word) : Bool :=
  let len := mcrdLen bs
  decide ((bs.getD 0x0A 0).toNat ≤ 3) && bs.getD 0x0B 0 == 0 && (mcrdTiles bs != []) &&
  decide (64 ≤ len ∧ len ≤ 65536 ∧ len % 64 = 0) && decide (off.toNat % 64 = 0 ∧ src.toNat % 64 = 0) &&
  decide (off.toNat + len ≤ bankBytes) && decide (src.toNat + len ≤ 2 ^ 52) &&
  (mcrdTiles bs).all fun t => decide (t.1 < 32 ∧ t.2.1 < 32) && decide (s.owner (tileAt (dieOf o.pcn) t.1 t.2.1) = o.job)

/-- The core-window address of a bank's byte (R101). -/
def coreAddr (q off : Nat) : Word := BitVec.ofNat 64 (2 ^ 63 + q * 2 ^ 21 + off)

/-- A named bank that a delivery may not write (R104). -/
def State.mcrdRights (s : State) (bs : List Byte) (die off : Nat) : Option Pcn :=
  (mcrdCores die bs).find? fun q => decide ((s.core q).status = .live) && !s.lmpuOk q off (mcrdLen bs) true

/-- The lines that an MCRD's range touches. -/
def mcrdLines (src : Word) (len : Nat) : Nat := (src.toNat + len - 1) / 512 - src.toNat / 512 + 1

def State.startMcrd (s : State) (id : OpId) (o : Op) (off src rec_ : Word) : Start :=
  if rec_.toNat % 16 ≠ 0 then .fail s 0x09 rec_
  else match s.engRead id o 2 rec_ 16 with
    | .wait s => .wait s
    | .fail s r a => .fail s r a
    | .ok s bs =>
      if !s.mcrdOk o bs off src then .fail s 0x09 rec_
      else match s.probeRange o true false src (mcrdLen bs), s.mcrdRights bs (dieOf o.pcn) off.toNat with
        | .wait, _ => .wait (s.retryLater id (tileOf o.pcn))
        | .fail r a, _ => .fail s r a
        | .ok, some q => .fail s 0x02 (coreAddr q off.toNat)
        | .ok, none =>
          .go s { o with phase := .started, result := bs, pieces := List.replicate (mcrdLines src (mcrdLen bs)) ⟨none, none, 1, none⟩ }

/-- What a start does, by kind. -/
def State.startCopy (s : State) (id : OpId) (o : Op) : Start :=
  match o.kind with
  | .cpy d src len =>
    if copyLimit < len.toNat then .fail s 0x09 0
    else if len = 0 then .finished s
    else
      ((s.probeRange o true false src len.toNat).next (s.probeRange o false true d len.toNat)).start s id
        { o with phase := .started, pieces := copyPieces d src len.toNat }
  | .cpy2d d src sh => s.startCpy2d id o d src sh
  | .cpyl h => s.startCpyl id o h
  | .mcrd off src rec_ => s.startMcrd id o off src rec_
  | _ => .wait s

/-- COPY_COMMAND_START: the engine takes the head of its queue once its edges hold (R138, R183, R328). -/
def execCopyCommandStart (pcn : Nat) (s : State) : Res :=
  .next (
    match (s.core pcn).copyQ with
    | [] => s
    | id :: _ =>
      match s.op? id with
      | none => s
      | some o =>
        if (s.core pcn).copyBusy.isSome || !s.enginesRun pcn || !s.edgesHold id o || !s.retryDue id then s
        else
          let take (s : State) : State := s.modCore pcn fun c => { c with copyQ := c.copyQ.drop 1, copyBusy := some id }
          match s.startCopy id o with
          | .wait s => s
          | .fail s r a => (take s).engFail id o r a
          | .finished s => (take s).engDone id o
          | .go s o => (take s).setOp id o)

/-! ## The walk of a list (R186, R331) -/

/-- An element's fields are good. -/
def elementOk (bs : List Byte) : Bool := decide (wordAt bs 4 ≤ copyLimit) && decide (wordAt bs 5 < 256)

/-- Comes to the element at `e`: the walk's next address stands for FIRST in the header, the element's own behind the header, and `aux`
counts elements. -/
def Op.walkOn (o : Op) (e : Word) (next : Nat) (ps : List Piece) : Op :=
  { o with result := leBytes 8 next ++ (o.result.drop 8).take 24 ++ leBytes 8 e.toNat, aux := o.aux + 1, pieces := ps }

/-- The walk has come to an element: what was forwarded for its fields is over. `hop`: its reads have begun. -/
def State.comeTo (s : State) (id : OpId) (o : Op) (e : Word) (next : Nat) (ps : List Piece) : State :=
  (s.dropFwds id).setOp id { o.walkOn e next ps with hop := false }

/-- A failure of an element: at the first, before any write, the command fails with the element's address; later it is a job
fault. -/
def State.elementFail (s : State) (id : OpId) (o : Op) (e : Word) : State :=
  if o.aux = 0 then s.engFail id o 0x09 e else s.freezeJob o.job 0x02 0

/-- The element's bytes stay behind its address while its predicate's read is on its way: it is read once, and before its predicate. -/
def Op.keepElement (o : Op) (bs : List Byte) : Op := { o with result := (o.result ++ List.replicate 8 0).take 40 ++ bs }

/-- The bytes of the element that have been kept so. -/
def Op.kept? (o : Op) : Option (List Byte) := if o.result.length = 72 then some (o.result.drop 40) else none

/-- The element at `e` with bytes `bs`: skipped, or probed and then copied. -/
def State.element (s : State) (id : OpId) (o : Op) (e : Word) (bs : List Byte) : State :=
  let ctl := BitVec.ofNat 32 (wordAt bs 5)
  let next := dwordAt bs 3
  let src := BitVec.ofNat 64 (dwordAt bs 0)
  let dst := BitVec.ofNat 64 (dwordAt bs 1)
  let len := wordAt bs 4
  let pred := BitVec.ofNat 64 (dwordAt o.result 1)
  let copy (s : State) : State :=
    if len = 0 then s.comeTo id o e next []
    else if !(engRange o.pcn src len && engRange o.pcn dst len) then s.elementFail id o e
    else match (s.probeRange o true false src len).next (s.probeRange o false true dst len) with
      | .wait => s.retryLater id (tileOf o.pcn)
      | .fail _ _ => s.elementFail id o e
      | .ok => s.comeTo id o e next (copyPieces dst src len)
  if !elementOk bs || (ctl.getLsbD 6 && pred == 0) then s.elementFail id o e
  else if !ctl.getLsbD 6 then copy s
  else match s.engRead id o 2 pred 8 with
    | .wait s => s.modOp id fun x => x.keepElement bs
    | .fail s _ _ => s.elementFail id o e
    | .ok s w =>
      if (leWord w).getLsbD (ctl.toNat % 64) = ctl.getLsbD 7 then s.comeTo id o e next [] else copy s

/-- CPYL_ELEMENT: after every write of the element before, the next is read, or the walk ends. A FIRST that lies in no window names the header
that it was read from (R189). -/
def execCpylElement (op : OpId) (s : State) : Res :=
  .next (
    match s.op? op with
    | none => s
    | some o =>
      match o.phase, o.kind with
      | .started, .cpyl h =>
        if !o.pieces.all Piece.finished || !s.retryDue op then s
        else
          let e := BitVec.ofNat 64 (dwordAt o.result 0)
          if e = 0 ∨ wordAt o.result 4 ≤ o.aux then s.engDone op o
          else if e.toNat % 32 ≠ 0 then s.elementFail op o e
          else if !engRange o.pcn e 32 then s.elementFail op o h
          else match (match o.kept? with
              | some bs => Got.ok s bs
              | none => (if o.hop then s else (s.dropFwds op).setOp op { o with hop := true }).engRead op o 2 e 32) with
            | .wait s => s
            | .fail s _ _ => s.elementFail op o e
            | .ok s bs => s.element op o e bs
      | _, _ => s)

/-! ## Multicast read (R119, R187, R188, R374) -/

/-- The bank offset of a line's first byte, as a started MCRD places it. -/
def lineOffset (off src : Word) (lineVa : Nat) : Int := (off.toNat : Int) + lineVa - src.toNat

/-- The sectors of a line that lie in an MCRD's range: number and bank offset. -/
def mcrdSectors (off : Word) (len : Nat) (boff : Int) : List (Nat × Nat) :=
  (List.range 8).filterMap fun (k : Nat) =>
    let b : Int := boff + ((64 * k : Nat) : Int)
    if (off.toNat : Int) ≤ b ∧ b < off.toNat + len then some (k, b.toNat) else none

/-- A failure of a source sector: the address of sector `b` of the bank in the command's source. -/
def sectorSource (off src : Word) (b : Nat) : Word := src + BitVec.ofNat 64 b - off

/-- The first sector of a line that an MCRD cannot have. -/
def State.mcrdBad (s : State) (o : Op) (off src : Word) (pte : Word) (key : Nat) (l : List (Nat × Nat)) : Option (Word × State) :=
  l.findSome? fun x => s.sliceBad o.job (sectorSource off src x.2) pte (key + 64 * x.1) 64

/-- Fails the commands among `ids` that ask for a sector which cannot be had; answers those that go on. -/
def State.mcrdSort (s : State) (key : Nat) (boff : Int) (ids : List OpId) : List OpId × State :=
  ids.foldl (fun (acc : List OpId × State) id =>
    match acc.2.op? id with
    | none => acc
    | some o =>
      match o.phase, o.kind with
      | .started, .mcrd off src _ =>
        let l := mcrdSectors off (mcrdLen o.result) boff
        let va := sectorSource off src ((l.map (·.2)).headD 0)
        match acc.2.leafAt (sliceNo (tagDie o.job) va) o.job (acc.2.job o.job).ptRoot va with
        | none => (acc.1, acc.2.engFail id o 0x01 va)
        | some pte =>
          match acc.2.mcrdBad o off src pte key l with
          | some (a, s) => (acc.1, s.engFail id o 0x09 a)
          | none => (acc.1 ++ [id], acc.2)
      | _, _ => acc) ([], s)

/-- The leaf through which an MCRD reads a line whose first byte it places at `boff`. -/
def State.mcrdLeaf (s : State) (boff : Int) (id : OpId) : Word :=
  match s.op? id with
  | some o =>
    match o.kind with
    | .mcrd off src _ =>
      let va := sectorSource off src (((mcrdSectors off (mcrdLen o.result) boff).map (·.2)).headD 0)
      (s.leafAt (sliceNo (tagDie o.job) va) o.job (s.job o.job).ptRoot va).getD 0
    | _ => 0
  | none => 0

/-- The parts of a delivery: one for each sector and core, with the commands that ask for it; `bytes` gives a sector's bytes. -/
def State.mcrdParts (s : State) (boff : Int) (ids : List OpId) (bytes : Nat → List Byte) : List (DPart × List OpId) :=
  let want (id : OpId) : List (Pcn × Nat × Nat) :=
    match s.op? id with
    | some o =>
      match o.kind with
      | .mcrd off _ _ =>
        (mcrdSectors off (mcrdLen o.result) boff).flatMap fun x => (mcrdCores (dieOf o.pcn) o.result).map fun q => (q, x.1, x.2)
      | _ => []
    | none => []
  let all := (ids.flatMap want).dedup
  all.map fun x => (⟨x.1, x.2.1, x.2.2, bytes x.2.1⟩, ids.filter fun id => (want id).contains x)

/-- The delivery of a line begins (R119, R188): each sector is one packet, for every tile on which a core is to have it. `line`: the bytes of a
line of another owner; one of this die is read as it stands. -/
def State.deliverLine (s : State) (tag slice key : Nat) (boff : Int) (ids : List OpId) (line : Option (List Byte)) : State :=
  let (ids, s) := s.mcrdSort key boff ids
  let pte := s.mcrdLeaf boff (ids.headD 0)
  let parts := s.mcrdParts boff ids fun k => match line with
    | some bs => (bs.drop (64 * k)).take 64
    | none => s.seen pte (key + 64 * k) 64
  if parts = [] then s
  else
    let (i, s) := s.takeId
    let s := s.modFab fun f => { f with deliveries := f.deliveries ++ [⟨i, key, tag, (s.job tag).serial, parts, ids⟩] }
    let src := tileAt (slice / 64) (sliceX slice) (sliceY slice)
    ((parts.map (·.1.sector)).dedup).foldl (fun s k =>
      s.sendMulti src ((parts.filterMap fun p => if p.1.sector = k then some (tileOf p.1.pcn) else none).dedup) (.sector i k)) s

/-- Lines of a command that are being filled or delivered. -/
def State.linesOut (s : State) (id : OpId) : Nat :=
  (s.fab.fills.filter fun f => f.ops.contains id).length +
  (s.fab.deliveries.filter fun d => d.parts.any fun p => p.2.contains id).length

/-- Lines of a command that are in flight: those, and the lines that were refused (R187). `aux` counts the lines asked for, in ascending order;
the piece of a line is finished once a fill or a delivery serves it. -/
def State.linesInFlight (s : State) (id : OpId) (o : Op) : Nat :=
  s.linesOut id + ((o.pieces.take o.aux).filter fun p => !p.finished).length

/-- A multicast read performs when every line has been asked for and delivered (R187). -/
def State.mcrdEnd (s : State) (id : OpId) : State :=
  match s.op? id with
  | none => s
  | some o =>
    match o.phase, o.kind with
    | .started, .mcrd .. => if o.pieces.all Piece.finished ∧ s.linesOut id = 0 then s.engDone id o else s
    | _, _ => s

/-- What a slice does with a request of an MCRD for line `i` of its range (R118, R119). `who` numbers the request there; the fill `f` has an
owner if the line is another die's or the host's, and is forwarded. -/
def State.mcrdAsk (s : State) (id : OpId) (o : Op) (i slice key : Nat) (boff : Int) (f : Fill) (who : Nat) : AtHome :=
  let refuse (s : State) : AtHome := (s.refuseAt slice key who).refusedAt slice key who
  let asked (s : State) : State :=
    match s.op? id with
    | some o => (s.clearRefusals slice key who).setOp id { o with pieces := o.pieces.set i ⟨none, none, 1, some [0]⟩ }
    | none => s
  if !s.mayAsk slice key who then refuse s
  else if (s.fab.deliveries.any fun d => decide (d.line = key)) && (s.refusalOf slice key who).isNone then refuse s
  else match s.fab.fills.find? fun g => decide (g.slice = slice) && decide (g.line = key) with
    | some g =>
      if g.mcrd = some (o.job, boff) then
        .ok (asked (s.modFab fun x => { x with fills := x.fills.map fun (h : Fill) =>
          if h.id = g.id then { h with ops := h.ops ++ [id] } else h })) []
      else refuse s
    | none =>
      if f.owner.isNone && s.isResident slice key 512 then .ok ((asked s).deliverLine o.job slice key boff [id] none) []
      else .ok (asked (s.startFill f)) []

/-- The first address and the bytes of line `i` of an MCRD's range. -/
def mcrdLine (src : Word) (len i : Nat) : Word × Nat :=
  let line := (src.toNat / 512 + i) * 512
  let lo := max line src.toNat
  (BitVec.ofNat 64 lo, min (src.toNat + len) (line + 512) - lo)

/-- MCRD's request for line `i` of its range, at its home slice. One that is accepted has no response but its deliveries. -/
def State.mcrdHome (id : OpId) (o : Op) (off src : Word) (i : Nat) (t : Trip) (s : State) : AtHome :=
  let (va, n) := mcrdLine src (mcrdLen o.result) i
  let lineVa := (src.toNat / 512 + i) * 512
  let boff := lineOffset off src lineVa
  match s.xlat o.job va n ⟨true, false, false, true⟩ with
  | .wait => s.hinted
  | .fail r => .fail s r va
  | .ok owner pa pte e =>
    let die := tagDie o.job
    let s := s.tlbFill (sliceNo die va) o.job (s.job o.job).ptRoot va
    let key := lineOf (ownerKey owner pa)
    let sl := sliceNo die va
    let f : Fill := { plainFill sl key pte (s.winInst e) (masterJob o.job) with
      owner := if owner = die then none else some owner, va := BitVec.ofNat 64 lineVa, mcrd := some (o.job, boff), ops := [id] }
    match s.mcrdAsk id o i sl key boff f t.asker with
    | .ok s d => if t.src = t.dst then .ok s d else .wait (s.dropTrip t.id)
    | x => x

/-- MCRD asks for line `i` of its range, or looks what has become of its request. -/
def State.mcrdRequest (s : State) (id : OpId) (o : Op) (off src : Word) (i : Nat) : State :=
  let (va, n) := mcrdLine src (mcrdLen o.result) i
  match s.trip id 0 (tileOf o.pcn) (homeTile o.pcn va) va n false (State.mcrdHome id o off src i) with
  | .wait s | .ok s _ => s
  | .fail s r a =>
    match s.op? id with
    | some o => s.engFail id o r a
    | none => s

/-- The first line that has been asked for and not accepted, and whose request can be dealt with now. -/
def State.mcrdDue (s : State) (id : OpId) (o : Op) (src : Word) : Option Nat :=
  (List.range o.aux).find? fun i =>
    !((o.pieces[i]?).map Piece.finished).getD true &&
    !s.fab.trips.any fun t => decide (t.who = id) && decide (t.a = (mcrdLine src (mcrdLen o.result) i).1) && decide (t.n ≠ 0) &&
      match t.stage with
      | .out | .back _ => true
      | .again at_ => decide (s.now < at_)
      | .there | .done _ => false

/-- MCRD_LINE_REQUEST: the next line is asked for, in ascending address order, or a request for one goes on: it is served, merges into a fill of
its own job that places it alike, starts a fill, or is refused and sent again (R118, R119, R187). -/
def execMcrdLineRequest (op : OpId) (s : State) : Res :=
  .next (
    match s.op? op with
    | none => s
    | some o =>
      match o.phase, o.kind with
      | .started, .mcrd off src _ =>
        (match s.mcrdDue op o src with
         | some i => s.mcrdRequest op o off src i
         | none =>
           if o.pieces.length ≤ o.aux ∨ 16 ≤ s.linesInFlight op o then s
           else
             let o' := { o with aux := o.aux + 1 }
             (s.setOp op o').mcrdRequest op o' off src o.aux)
      | _, _ => s)

/-- A line of another owner that an MCRD asked for comes by a forwarded access of the fill's own (R126). -/
def State.arriveForwarded (s : State) (f : Fill) (owner tag : Nat) (boff : Int) : State :=
  match s.fwdOf f.id f.line false with
  | some ⟨_, _, _, _, _, _, _, _, .done data _⟩ =>
    let s := (s.dropFwds f.id).modFab fun x => { x with fills := x.fills.filter fun g => decide (g.id ≠ f.id) }
    s.deliverLine tag f.slice f.line boff f.ops (some data)
  | _ =>
    match s.remote f.id tag owner f.va f.pte f.check.inst f.line 512 none with
    | .wait s | .ok s _ | .fail s _ _ => s

/-- LINE_FILL_ARRIVAL: a line arrives, and what an MCRD asked of it is delivered (R117, R119, R126). -/
def execLineFillArrival (fill : Nat) (s : State) : Res :=
  .next (
    match s.fab.fills.find? fun f => decide (f.id = fill) with
    | none => s
    | some f =>
      if f.mcrd.isSome && s.lineHeld f.line then s
      else match f.owner, f.mcrd with
        | some owner, some (tag, boff) => s.arriveForwarded f owner tag boff
        | _, _ =>
          let s' := s.arriveFill f
          if s'.fab.fills.any fun g => decide (g.id = fill) then s'
          else match f.mcrd with
            | some (tag, boff) => s'.deliverLine tag f.slice f.line boff f.ops none
            | none => s')

/-- A command that has started and not failed. -/
def State.isStarted (s : State) (id : OpId) : Bool :=
  match s.op? id with
  | some o => decide (o.phase = .started)
  | none => false

/-- Why a bank drops a delivery (R188). -/
def State.dropReason (s : State) (tag q : Nat) : Option Byte :=
  if (s.core q).status = .scrub then some 0x07
  else if s.owner (tileOf q) ≠ tag then some 0x05
  else if (s.core q).status = .dark then some 0x06
  else none

/-- The record that a command leaves for its first dropped delivery. -/
def Op.dropRecord (o : Op) (r : Byte) (q : Pcn) : Op :=
  match o.kind with
  | .mcrd off _ _ => { o with recd := o.recd.or (some (o.failure r (coreAddr q off.toNat))) }
  | _ => o

/-- MCRD_SECTOR_DELIVERY: a sector whose packet has reached the tile reaches a core, is written with its bits set full, or is dropped there
(R188). Deliveries arrive from outside the cluster, and race tags record none (R374). -/
def execMcrdSectorDelivery (delivery sector pcn : Nat) (s : State) : Res :=
  .next (
    match s.fab.deliveries.find? fun d => decide (d.id = delivery) with
    | none => s
    | some d =>
      match (if s.fab.mesh.any fun k => decide (k.msg = .sector d.id sector) && k.dsts.contains (tileOf pcn) then none
        else d.parts.find? fun p => decide (p.1.sector = sector) && decide (p.1.pcn = pcn)) with
      | none => s
      | some p =>
        let s := s.modFab fun f => { f with deliveries := (f.deliveries.map fun (x : Delivery) =>
          if x.id = d.id then { x with parts := x.parts.erase p } else x).filter Delivery.alive }
        let drop := s.dropReason d.job pcn
        let live := p.2.filter s.isStarted
        if live = [] then s
        else if drop.isNone && !s.lmpuOk pcn p.1.off 64 true then
          live.foldl (fun s id => match s.op? id with
            | some o => s.engFail id o 0x02 (coreAddr pcn p.1.off)
            | none => s) s
        else
          let s := match drop with
            | none => s.bankWrite pcn p.1.off p.1.data true
            | some _ => s
          let s := live.foldl (fun s id => match s.op? id with
            | some o => s.setOp id (match drop with
              | none => { o with wrote := true }
              | some r => o.dropRecord r pcn)
            | none => s) s
          live.foldl State.mcrdEnd s)

end Sys2Proof.Machine
end

