-- ==== Sys2Proof/Machine/Image.lean ====
section
/-! DEFINITION. The context image of a thread as bytes (R40, R41, R88, R95, R195): what a save of the context area writes (R208).
The pipeline keeps a thread's registers in `Thread`, which is what a slot and its image hold together (R42). -/

namespace Sys2Proof.Machine

/-- ISSUED and DONE of the streams (R40). -/
def TokenBank.streamBytes (b : TokenBank) : List Byte :=
  b.streams.toList.flatMap fun c => [c.issued.setWidth 8, c.done.setWidth 8]

/-- ISSUED and DONE of the tokens (R40). -/
def TokenBank.tokenBytes (b : TokenBank) : List Byte :=
  b.tokens.toList.flatMap fun c => leBytes 2 c.issued.toNat ++ leBytes 2 c.done.toNat

/-- A fault record (R88); an empty slot is zero. -/
def recordBytes : Option FaultRec → List Byte
  | none => List.replicate 32 0
  | some r => leBytes 8 r.pc.toNat ++ leBytes 8 r.addr.toNat ++ [r.reason, 0] ++ leBytes 2 r.more.toNat ++ List.replicate 12 0

/-- Bits 0x000 to 0x0FF (R40). -/
def Thread.imageHead (t : Thread) : List Byte :=
  (t.g.toList.flatMap fun w => leBytes 8 w.toNat) ++ leBytes 8 t.pc.toNat ++
  leBytes 2 t.fmode.toNat ++ leBytes 2 t.fstat.toNat ++ List.replicate 4 0 ++
  leBytes 4 t.lcn.toNat ++ leBytes 4 t.tid.toNat ++ leBytes 8 t.srctr.toNat ++
  t.live.sm.toList ++ t.live.streamBytes ++ List.replicate 8 0 ++ t.live.tokenBytes

/-- K0 to K7, the trap frame and the hardware-reserved area, 0x100 to 0x3FF (R40, R41, R195). -/
def Thread.imageMid (t : Thread) : List Byte :=
  (t.k.toList.map fun k => k.setWidth 8) ++
  leBytes 8 t.trapPc.toNat ++ leBytes 8 t.tval.toNat ++ leBytes 8 t.fStatus.toNat ++ leBytes 16 t.fTokOut.toNat ++
  leBytes 8 t.fPc.toNat ++ leBytes 8 t.fAddr.toNat ++
  t.live.records.toList.flatMap recordBytes ++
  t.shadow.tokenBytes ++ t.shadow.streamBytes ++ t.shadow.sm.toList ++ leBytes 8 t.modq.toNat ++ recordBytes t.shadowRec ++
  leBytes 2 t.shadowFail.toNat ++ [if t.inHandler then 1 else 0] ++ List.replicate 29 0 ++
  (t.k.toList.flatMap fun k => leBytes 3 (k.toNat / 256)) ++ List.replicate 8 0

/-- The 2 KiB of a context image. -/
def Thread.imageBytes (t : Thread) : List Byte :=
  t.imageHead ++ t.imageMid ++ t.v.toList.flatMap fun v => leBytes 32 v.toNat

/-- A number in a list of bytes. -/
def fieldAt (bs : List Byte) (off n : Nat) : Nat := leNat ((bs.drop off).take n)

/-- A fault record from its 32 bytes; REASON 0 names none (R88). -/
def recordOfBytes (bs : List Byte) : Option FaultRec :=
  if fieldAt bs 16 1 = 0 then none
  else some ⟨BitVec.ofNat 64 (fieldAt bs 0 8), BitVec.ofNat 64 (fieldAt bs 8 8), BitVec.ofNat 8 (fieldAt bs 16 1),
    BitVec.ofNat 16 (fieldAt bs 18 2)⟩

/-- The counters and the mask table of a bank from their places in an image (R40). -/
def TokenBank.ofBytes (bs : List Byte) (tok strm mask : Nat) (recs : Vector (Option FaultRec) 16) : TokenBank where
  tokens := Vector.ofFn fun k => ⟨BitVec.ofNat 16 (fieldAt bs (tok + 4 * k.val) 2), BitVec.ofNat 16 (fieldAt bs (tok + 4 * k.val + 2) 2)⟩
  streams := Vector.ofFn fun k => ⟨BitVec.ofNat 6 (fieldAt bs (strm + 2 * k.val) 1), BitVec.ofNat 6 (fieldAt bs (strm + 2 * k.val + 1) 1)⟩
  sm := Vector.ofFn fun k => BitVec.ofNat 8 (fieldAt bs (mask + k.val) 1)
  records := recs

/-- A thread with what its context image holds, as `Thread.imageBytes` lays it out. -/
def Thread.ofImage (t : Thread) (bs : List Byte) : Thread :=
  let w (off : Nat) : Word := BitVec.ofNat 64 (fieldAt bs off 8)
  { t with
    g := Vector.ofFn fun i => w (8 * i.val)
    pc := w 0x80
    fmode := BitVec.ofNat 9 (fieldAt bs 0x88 2)
    fstat := BitVec.ofNat 5 (fieldAt bs 0x8A 2)
    lcn := BitVec.ofNat 32 (fieldAt bs 0x90 4)
    tid := BitVec.ofNat 32 (fieldAt bs 0x94 4)
    srctr := w 0x98
    k := Vector.ofFn fun i => BitVec.ofNat 32 (fieldAt bs (0x100 + i.val) 1 + 256 * fieldAt bs (0x3E0 + 3 * i.val) 3)
    trapPc := w 0x108
    tval := w 0x110
    fStatus := w 0x118
    fTokOut := BitVec.ofNat 128 (fieldAt bs 0x120 16)
    fPc := w 0x130
    fAddr := w 0x138
    live := TokenBank.ofBytes bs 0xC0 0xA8 0xA0 (Vector.ofFn fun i => recordOfBytes ((bs.drop (0x140 + 32 * i.val)).take 32))
    shadow := TokenBank.ofBytes bs 0x340 0x380 0x390 t.shadow.records
    modq := w 0x398
    shadowRec := recordOfBytes ((bs.drop 0x3A0).take 32)
    shadowFail := BitVec.ofNat 16 (fieldAt bs 0x3C0 2)
    inHandler := decide (fieldAt bs 0x3C2 1 = 1)
    v := Vector.ofFn fun i => BitVec.ofNat 256 (fieldAt bs (0x400 + 32 * i.val) 32) }

/-- The image at index `k` of a core: its thread's, or zero. -/
def imageOf (l : List (Uid × Thread)) (k : Nat) : List Byte :=
  match l.find? fun e => decide (e.2.image = some k) with
  | some e => e.2.imageBytes
  | none => List.replicate 0x800 0

end Sys2Proof.Machine
end

