-- ==== Sys2Proof/Machine/Vector.lean ====
section
/-! DEFINITION. The vector instructions and the mask operations (R166 to R169, R171, R172, R361, R362, R410 to R417). -/

namespace Sys2Proof.Machine

/-! ## Lanes (R171) -/

/-- Bits of a lane. -/
def VType.bits (t : VType) : Nat := 256 / t.lanes

/-- The format of a floating-point lane. -/
def VType.fmt? : VType → Option Fmt
  | .f32 => some Fmt.f32 | .bf16 => some Fmt.bf16 | .f16 => some Fmt.f16
  | .i32 | .i16 | .i8 | .i64 => none

/-- Lane `i` of width `w`. -/
def lane (v : Vec) (w i : Nat) : Nat := (v.extractLsb' (w * i) w).toNat

/-- The lanes of a register. -/
def lanesOf (v : Vec) (w n : Nat) : List Nat := (List.range n).map (lane v w)

/-- Lanes packed from bit 0 up. -/
def packLanes (w : Nat) (l : List Nat) : Vec :=
  BitVec.ofNat 256 (l.foldr (fun x acc => x % 2 ^ w + acc * 2 ^ w) 0)

/-- The bits of the active lanes of `n` lanes of width `w` (R172). -/
def activeBits (w n : Nat) (k : Mask) : Vec :=
  packLanes w ((List.range n).map fun i => if k.getLsbD i then 2 ^ w - 1 else 0)

/-- A lane as a signed integer. -/
def laneInt (w x : Nat) : Int := (BitVec.ofNat w x).toInt
/-- An integer as a lane: its low bits. -/
def wrapInt (w : Nat) (z : Int) : Nat := (BitVec.ofInt w z).toNat
/-- An integer as a lane: wrapped, or clamped to the lane type's range under SAT (R161). -/
def satInt (sat : Bool) (w : Nat) (z : Int) : Nat :=
  let hi : Int := 2 ^ (w - 1) - 1
  let lo : Int := -(2 ^ (w - 1))
  wrapInt w (if sat then (if z < lo then lo else if hi < z then hi else z) else z)

/-- The OR of the flags of active lanes (R160, R172). -/
def activeFlags (k : Mask) (l : List (Nat × FFlags)) : FFlags :=
  l.zipIdx.foldl (fun fl (x, i) => if k.getLsbD i then fl ||| x.2 else fl) 0

/-- Ends a vector instruction that writes the active lanes of Vd. -/
def State.finishLanes (s : State) (lat : Nat) (d : VReg) (t : VType) (k : Mask) (l : List (Nat × FFlags)) : State :=
  s.finishFp 4 lat (.v d) (packLanes (VType.bits t) (l.map (·.1))) (activeBits (VType.bits t) t.lanes k) (activeFlags k l)

/-- A lane operation: on a floating-point format, or on integers of a width. -/
structure LaneOp where
  fp  : Fmt → RMode → Nat → Nat → Nat × FFlags
  int : Bool → Nat → Nat → Nat → Nat

def LaneOp.run (o : LaneOp) (t : VType) (rm : RMode) (sat : Bool) (x y : Nat) : Nat × FFlags :=
  match VType.fmt? t with
  | some f => o.fp f rm x y
  | none => (o.int sat (VType.bits t) x y, 0)

/-- Vd from Va and Vb, lane by lane. -/
def State.vec3 (s : State) (lat : Nat) (d a b : VReg) (k : KReg) (t : VType) (f : RMode → Bool → Nat → Nat → Nat × FFlags) : Res :=
  s.issue ([.v a, .v b] ++ kRead k) [.v d] lat fun s =>
    let x := lanesOf (s.readV 0 a) (VType.bits t) t.lanes
    let y := lanesOf (s.readV 1 b) (VType.bits t) t.lanes
    s.finishLanes lat d t (s.readK 2 k) (List.zipWith (f s.me.rm s.me.sat) x y)

/-- Vd from Va, lane by lane. -/
def State.vec2 (s : State) (lat : Nat) (d a : VReg) (k : KReg) (t : VType) (f : RMode → Nat → Nat × FFlags) : Res :=
  s.issue ([.v a] ++ kRead k) [.v d] lat fun s =>
    s.finishLanes lat d t (s.readK 2 k) ((lanesOf (s.readV 0 a) (VType.bits t) t.lanes).map (f s.me.rm))

/-! ## VAR (R411) -/

def laneAdd : LaneOp where
  fp f rm x y := f.add rm (f.decode x) (f.decode y)
  int sat w x y := satInt sat w (laneInt w x + laneInt w y)
def laneSub : LaneOp where
  fp f rm x y := f.add rm (f.decode x) (f.decode y).negate
  int sat w x y := satInt sat w (laneInt w x - laneInt w y)
def laneMul : LaneOp where
  fp f rm x y := f.mul rm (f.decode x) (f.decode y)
  int sat w x y := satInt sat w (laneInt w x * laneInt w y)
def laneMin : LaneOp where
  fp f _ x y := f.minMax false x y
  int _ w x y := if laneInt w x ≤ laneInt w y then x else y
def laneMax : LaneOp where
  fp f _ x y := f.minMax true x y
  int _ w x y := if laneInt w x ≤ laneInt w y then y else x

/-- Absolute value and negation: a NaN gives the canonical NaN; integers always wrap (R411). -/
def laneAbs (t : VType) (_ : RMode) (x : Nat) : Nat × FFlags :=
  match VType.fmt? t with
  | some f => match f.decode x with
    | .nan sig => (f.nanBits, if sig then flagNV else 0)
    | _ => (x % f.signBit, 0)
  | none => (wrapInt (VType.bits t) (laneInt (VType.bits t) x).natAbs, 0)
def laneNeg (t : VType) (_ : RMode) (x : Nat) : Nat × FFlags :=
  match VType.fmt? t with
  | some f => match f.decode x with
    | .nan sig => (f.nanBits, if sig then flagNV else 0)
    | _ => ((x + f.signBit) % (2 * f.signBit), 0)
  | none => (wrapInt (VType.bits t) (-laneInt (VType.bits t) x), 0)

def execVadd (d a b : VReg) (k : KReg) (t : VType) (s : State) : Res := s.vec3 2 d a b k t (laneAdd.run t)
def execVsub (d a b : VReg) (k : KReg) (t : VType) (s : State) : Res := s.vec3 2 d a b k t (laneSub.run t)
def execVmul (d a b : VReg) (k : KReg) (t : VType) (s : State) : Res := s.vec3 3 d a b k t (laneMul.run t)
/-- VFMA reads Vd as its addend (R411). -/
def execVfma (d a b : VReg) (k : KReg) (t : VType) (s : State) : Res :=
  s.issue ([.v a, .v b, .v d] ++ kRead k) [.v d] 4 fun s =>
    let f := (VType.fmt? t).getD Fmt.f32
    let ls (v : Vec) := (lanesOf v (VType.bits t) t.lanes).map f.decode
    let r := List.zipWith (fun (x : FVal × FVal) c => f.fma s.me.rm x.1 x.2 c)
      ((ls (s.readV 0 a)).zip (ls (s.readV 1 b))) (ls (s.readV 3 d))
    s.finishLanes 4 d t (s.readK 2 k) r
def execVmin (d a b : VReg) (k : KReg) (t : VType) (s : State) : Res := s.vec3 2 d a b k t (laneMin.run t)
def execVmax (d a b : VReg) (k : KReg) (t : VType) (s : State) : Res := s.vec3 2 d a b k t (laneMax.run t)
def execVabs (d a : VReg) (k : KReg) (t : VType) (s : State) : Res := s.vec2 2 d a k t (laneAbs t)
def execVneg (d a : VReg) (k : KReg) (t : VType) (s : State) : Res := s.vec2 2 d a k t (laneNeg t)

/-- A 16-bit F32 form: Vd ← Vd op Vs under K0 (R269). -/
def State.vecShort (s : State) (lat : Nat) (d a b : VReg) (o : LaneOp) : Res :=
  s.issue [.v a, .v b] [.v d] lat fun s =>
    let l := List.zipWith (o.run .f32 s.me.rm s.me.sat) (lanesOf (s.readV 0 a) 32 8) (lanesOf (s.readV 1 b) 32 8)
    s.finishFp 2 lat (.v d) (packLanes 32 (l.map (·.1))) (BitVec.allOnes 256) (activeFlags (BitVec.allOnes 32) l)

def execVaddShort (d r : VReg) (s : State) : Res := s.vecShort 2 d d r laneAdd
def execVmulShort (d r : VReg) (s : State) : Res := s.vecShort 3 d d r laneMul
def execVmaxShort (d r : VReg) (s : State) : Res := s.vecShort 2 d d r laneMax

/-! ## VLOG (R412) -/

def noFlags (f : Nat → Nat → Nat) (_ : RMode) (_ : Bool) (x y : Nat) : Nat × FFlags := (f x y, 0)

def execVand (d a b : VReg) (k : KReg) (t : VType) (s : State) : Res := s.vec3 2 d a b k t (noFlags (· &&& ·))
def execVor (d a b : VReg) (k : KReg) (t : VType) (s : State) : Res := s.vec3 2 d a b k t (noFlags (· ||| ·))
def execVxor (d a b : VReg) (k : KReg) (t : VType) (s : State) : Res := s.vec3 2 d a b k t (noFlags (· ^^^ ·))
/-- Shift counts are taken modulo the lane width (R412). -/
def execVshl (d a b : VReg) (k : KReg) (t : VType) (s : State) : Res :=
  s.vec3 2 d a b k t (noFlags fun x y => x * 2 ^ (y % (VType.bits t)) % 2 ^ (VType.bits t))
def execVshr (d a b : VReg) (k : KReg) (t : VType) (s : State) : Res :=
  s.vec3 2 d a b k t (noFlags fun x y => x / 2 ^ (y % (VType.bits t)))
def execVsar (d a b : VReg) (k : KReg) (t : VType) (s : State) : Res :=
  s.vec3 2 d a b k t (noFlags fun x y => wrapInt (VType.bits t) (laneInt (VType.bits t) x / 2 ^ (y % (VType.bits t))))
def execVmov (d a : VReg) (k : KReg) (t : VType) (s : State) : Res := s.vec2 2 d a k t fun _ x => (x, 0)
def execVmovShort (d a : VReg) (s : State) : Res :=
  s.issue [.v a] [.v d] 2 fun s => (s.retire (.v d) 2 (s.readV 0 a) (BitVec.allOnes 256)).finish 2 1
/-- VSEL writes every lane: Va where the mask bit is 1, Vb elsewhere (R412). -/
def execVsel (d a b : VReg) (k : KReg) (t : VType) (s : State) : Res :=
  s.issue ([.v a, .v b] ++ kRead k) [.v d] 2 fun s =>
    (s.retire (.v d) 2 (merge (s.readV 1 b) (s.readV 0 a) (activeBits (VType.bits t) t.lanes (s.readK 2 k))) (BitVec.allOnes 256)).finish 4 1

/-! ## VMOD (R167 to R169, R413) -/

/-- A valid modulus (R167). -/
def modqOk (q : Word) : Bool := q.getLsbD 0 && decide (3 ≤ q.toNat) && decide (q.toNat < 2 ^ 62)

def modAdd (q x y : Nat) : Nat := (x + y) % q
def modSub (q x y : Nat) : Nat := (x + (q - y % q)) % q
def modMul (q x y : Nat) : Nat := x * y % q

/-- A modular instruction: an invalid MODQ traps precisely (R169). `f` gets q and the lanes of Va and Vb. -/
def State.modular (s : State) (lat : Nat) (d a b : VReg) (k : KReg) (f : Nat → List Nat → List Nat → List Nat) : Res :=
  s.issue ([.v a, .v b] ++ kRead k) [.v d] lat fun s =>
    let q := s.me.modq
    if !modqOk q then s.takeTrap (trapOf cModq q)
    else
      let r := f q.toNat (lanesOf (s.readV 0 a) 64 4) (lanesOf (s.readV 1 b) 64 4)
      (s.retire (.v d) lat (packLanes 64 r) (activeBits 64 4 (s.readK 2 k))).finish 4 1

/-- The butterflies of R168 on pairs of Vb with the even twiddles of Va. -/
def butterflies (q : Nat) : List Nat → List Nat → List Nat
  | w :: _ :: ws, x :: y :: r =>
    let t := modMul q w y
    modAdd q x t :: modSub q x t :: butterflies q ws r
  | _, _ => []

def execVmodadd (d a b : VReg) (k : KReg) (s : State) : Res := s.modular 3 d a b k fun q => List.zipWith (modAdd q)
def execVmodsub (d a b : VReg) (k : KReg) (s : State) : Res := s.modular 3 d a b k fun q => List.zipWith (modSub q)
def execVmodmul (d a b : VReg) (k : KReg) (s : State) : Res := s.modular 7 d a b k fun q => List.zipWith (modMul q)
def execVntt (d a b : VReg) (k : KReg) (s : State) : Res := s.modular 9 d a b k butterflies

/-! ## VCVT (R161 to R164, R415) -/

def CFmt.count : CFmt → Nat
  | .f32 => 8 | .bf16 => 16 | .f16 => 16 | .i32 => 8 | .i16 => 16 | .i8 => 32 | .i64 => 4 | .md8 => 32 | .fp4 => 64
def CFmt.bits (c : CFmt) : Nat := 256 / (CFmt.count c)

/-- A target of R162. -/
def CFmt.drawn : CFmt → Bool
  | .f32 | .bf16 | .f16 | .md8 | .fp4 => true
  | .i32 | .i16 | .i8 | .i64 => false

/-- The value of an element. -/
def CFmt.value (c : CFmt) (x : Nat) : FVal :=
  match c with
  | .f32 => Fmt.f32.decode x
  | .bf16 => Fmt.bf16.decode x
  | .f16 => Fmt.f16.decode x
  | .i32 | .i16 | .i8 | .i64 => FVal.ofInt (laneInt (CFmt.bits c) x)
  | .md8 => md8Decode x
  | .fp4 => fp4Decode x

/-- A conversion of a value (R161). -/
def CFmt.convertTo (c : CFmt) (rm : RMode) (rd : Rounding) (sat : Bool) (x : FVal) : Nat × FFlags :=
  match c with
  | .f32 => Fmt.f32.convert rd sat x
  | .bf16 => Fmt.bf16.convert rd sat x
  | .f16 => Fmt.f16.convert rd sat x
  | .i32 | .i16 | .i8 | .i64 => let r := intConvert (CFmt.bits c) rm x; (wrapInt (CFmt.bits c) r.1, r.2)
  | .md8 => md8Convert rd sat x
  | .fp4 => fp4Convert rd x

/-- The mask bit of element `i`: a pair of FP4 elements shares one (R171, R415). -/
def cvtActive (src dst : CFmt) (k : Mask) (i : Nat) : Bool :=
  if src = .fp4 ∨ dst = .fp4 then k.getLsbD (i / 2) else k.getLsbD i

def execVcvt (d a : VReg) (k : KReg) (src dst : CFmt) (sr : Bool) (s : State) : Res :=
  s.issue ([.v a] ++ kRead k) [.v d] 3 fun s =>
    let n := min (CFmt.count src) (CFmt.count dst)
    let sto := CFmt.drawn dst && (s.me.srOn || sr)
    let m := s.readK 2 k
    let r := (List.range n).map fun i =>
      CFmt.convertTo dst s.me.rm (s.rounding sto i) s.me.sat (CFmt.value src (lane (s.readV 0 a) (CFmt.bits src) i))
    let act := (List.range n).map (cvtActive src dst m)
    let fl : FFlags := (r.zip act).foldl (fun fl x => if x.2 then fl ||| x.1.2 else fl) 0
    let kept := packLanes (CFmt.bits dst) (act.map fun b => if b then 0 else 2 ^ (CFmt.bits dst) - 1)
    if fl &&& s.me.enables ≠ 0 then s.takeTrap (trapOf cFpx (fl.setWidth 64))
    else
      let s := if sto then s.modMe fun t => { t with srctr := t.srctr + BitVec.ofNat 64 (drawsOf n) } else s
      s.finishFp 4 3 (.v d) (packLanes (CFmt.bits dst) (r.map (·.1))) (~~~kept) fl

/-! ## VMSC (R166, R416) -/

/-- One level of the tree of R166. -/
def treeLevel (f : Nat → Nat → Nat × FFlags) : List Nat → List Nat × FFlags
  | x :: y :: r =>
    let (z, fl) := f x y
    let (zs, fls) := treeLevel f r
    (z :: zs, fl ||| fls)
  | l => (l, 0)

/-- The whole tree, on fuel. -/
def treeReduce (f : Nat → Nat → Nat × FFlags) : Nat → List Nat → Nat × FFlags
  | 0, l => (l.headD 0, 0)
  | n + 1, l =>
    let (l', fl) := treeLevel f l
    let (r, fl') := treeReduce f n l'
    (r, fl ||| fl')

/-- The identity of a reduction (R166). -/
def redIdentity (o : RedOp) (t : VType) : Nat :=
  match (VType.fmt? t), o with
  | some f, .sum => f.signBit
  | some f, .min => f.infBits
  | some f, .max => f.infBits + f.signBit
  | none, .sum => 0
  | none, .min => 2 ^ ((VType.bits t) - 1) - 1
  | none, .max => 2 ^ ((VType.bits t) - 1)

def redLane : RedOp → LaneOp
  | .sum => laneAdd | .min => laneMin | .max => laneMax

/-- VRED writes lane 0, and 0 into the others (R416). -/
def execVred (d a : VReg) (o : RedOp) (k : KReg) (t : VType) (s : State) : Res :=
  s.issue ([.v a] ++ kRead k) [.v d] 5 fun s =>
    let m := s.readK 2 k
    let xs := (lanesOf (s.readV 0 a) (VType.bits t) t.lanes).zipIdx.map fun (x, i) => if m.getLsbD i then x else redIdentity o t
    let r := treeReduce ((redLane o).run t s.me.rm s.me.sat) 5 xs
    s.finishFp 4 5 (.v d) (BitVec.ofNat 256 r.1) (BitVec.allOnes 256) r.2

/-- VPERM: lane i takes the lane of Va that the low bits of Vb's lane i name. -/
def execVperm (d a b : VReg) (k : KReg) (t : VType) (s : State) : Res :=
  s.issue ([.v a, .v b] ++ kRead k) [.v d] 3 fun s =>
    let v := s.readV 0 a
    let r := (lanesOf (s.readV 1 b) (VType.bits t) t.lanes).map fun j => lane v (VType.bits t) (j % t.lanes)
    (s.retire (.v d) 3 (packLanes (VType.bits t) r) (activeBits (VType.bits t) t.lanes (s.readK 2 k))).finish 4 1

/-- VBCAST: Ga[w − 1:0] into every active lane. -/
def execVbcast (d : VReg) (a : GReg) (k : KReg) (t : VType) (s : State) : Res :=
  s.issue ([.g a] ++ kRead k) [.v d] 2 fun s =>
    let x := (s.readG 0 a).toNat % 2 ^ (VType.bits t)
    (s.retire (.v d) 2 (packLanes (VType.bits t) (List.replicate t.lanes x)) (activeBits (VType.bits t) t.lanes (s.readK 2 k))).finish 4 1

/-- VEXT: a lane into Gd, integers sign-extended, floating-point lanes zero-extended. -/
def execVext (d : GReg) (a : VReg) (l : Fin 32) (t : VType) (s : State) : Res :=
  s.issue [.v a] [.g d] 3 fun s =>
    let x := lane (s.readV 0 a) (VType.bits t) l.val
    (s.retireG d 3 (if t.isFp then BitVec.ofNat 64 x else BitVec.ofInt 64 (laneInt (VType.bits t) x))).finish 4 1

/-- A function of one floating-point value, correctly rounded (R153, R416). -/
def State.vecFn (s : State) (d a : VReg) (k : KReg) (t : VType) (f : Fmt → RMode → FVal → Nat × FFlags) : Res :=
  s.vec2 10 d a k t fun rm x => let m := (VType.fmt? t).getD Fmt.f32; f m rm (m.decode x)

def execVexp2 (d a : VReg) (k : KReg) (t : VType) (s : State) : Res := s.vecFn d a k t Fmt.exp2
def execVrcp (d a : VReg) (k : KReg) (t : VType) (s : State) : Res := s.vecFn d a k t Fmt.rcp
def execVrsqrt (d a : VReg) (k : KReg) (t : VType) (s : State) : Res := s.vecFn d a k t Fmt.rsqrt

/-! ## VCMP (R417) and the mask operations (R362) -/

/-- A condition on a comparison's sign. -/
def condOnSign (c : VCond) (z : Int) : Bool :=
  match c with
  | .eq => z == 0 | .ne => z != 0 | .lt => decide (z < 0) | .le => decide (z ≤ 0) | .gt => decide (0 < z) | .ge => decide (0 ≤ z)

def laneCmp (c : VCond) (t : VType) (x y : Nat) : Bool × FFlags :=
  match VType.fmt? t with
  | none => (condOnSign c (laneInt (VType.bits t) x - laneInt (VType.bits t) y), 0)
  | some f =>
    let a := f.decode x
    let b := f.decode y
    if a.isNan || b.isNan then
      let quietOk := c == .eq || c == .ne
      (c == .ne, if !quietOk || a.isSnan || b.isSnan then flagNV else 0)
    else (condOnSign c (a.cmp b), 0)

/-- VCMP writes every bit of Kd: 0 for inactive lanes and beyond the lanes. -/
def execVcmp (d : KReg) (a b : VReg) (k : KReg) (t : VType) (c : VCond) (s : State) : Res :=
  s.issue ([.v a, .v b] ++ kRead k) [.k d] 2 fun s =>
    let m := s.readK 2 k
    let r := List.zipWith (laneCmp c t) (lanesOf (s.readV 0 a) (VType.bits t) t.lanes) (lanesOf (s.readV 1 b) (VType.bits t) t.lanes)
    let bitsOf := r.zipIdx.map fun (x, i) => if m.getLsbD i && x.1 then 1 else 0
    let fl := activeFlags m (r.map fun x => (0, x.2))
    s.finishFp 4 2 (.k d) (packLanes 1 bitsOf) (fullMask (.k d)) fl

/-- Kd from Ka and Kb. -/
def State.kop (s : State) (d a b : KReg) (f : Mask → Mask → Mask) : Res :=
  s.issue (kRead a ++ kRead b) [.k d] 2 fun s =>
    (s.retire (.k d) 2 ((f (s.readK 0 a) (s.readK 1 b)).setWidth 256) (fullMask (.k d))).finish 4 1

def execKand (d a b : KReg) (s : State) : Res := s.kop d a b (· &&& ·)
def execKor (d a b : KReg) (s : State) : Res := s.kop d a b (· ||| ·)
def execKxor (d a b : KReg) (s : State) : Res := s.kop d a b (· ^^^ ·)
def execKnot (d a : KReg) (s : State) : Res := s.kop d a 0 fun x _ => ~~~x

end Sys2Proof.Machine
end

