-- ==== Sys2Proof/Machine/Matrix.lean ====
section
/-! DEFINITION. The matrix commands: their issue (R180, R181, R375, R376, R380), the arbiter (R175), what is checked and read at
the grant (R176, R177, R181, R182, R381), the sums of R165, and completion. -/

namespace Sys2Proof.Machine

/-! ## Issue -/

def needMatrix (k : Tok) (st : Option Strm) : Needs := ⟨some k, st, false, false, false, true⟩

/-- The edges of a matrix command; one that reads only links waits on nothing (R139, R381). -/
def State.matrixEdges (s : State) (id : OpId) (o : Op) : Bool :=
  (match o.kind.product with
   | some (a, b, _) => decide (wfld a 62 2 = 2) && decide (wfld b 62 2 = 2)
   | none => false) || s.edgesHold id o

/-- What core `c` of a cluster may have granted after `g` grants of its turn (R175). -/
def State.grantable (s : State) (tile c g : Nat) : Option (OpId × Op) :=
  let p := tile * 8 + c
  if s.enginesRun p && decide (g < (s.core p).wrrw.toNat) then
    match (s.core p).matQ with
    | id :: _ =>
      match s.op? id with
      | some o => if s.matrixEdges id o then some (id, o) else none
      | none => none
    | [] => none
  else none

/-- The turn of an idle unit's arbiter passes when its core has nothing more to be granted in it (R175). -/
def State.passTurn (s : State) (tile : Nat) : State :=
  let m := (mapGet? s.fab.matrix tile).getD MatrixUnit.reset
  if m.busy.isSome || m.grants == 0 || (s.grantable tile m.turn m.grants).isSome then s
  else s.modFab fun f => { f with matrix := mapSet f.matrix tile ⟨none, (m.turn + 1) % 8, 0⟩ }

/-- Issues a command into the matrix queue (R83). -/
def State.launchMatrix (s : State) (k : OpKind) (tok : Tok) (st : Option Strm) (mask : Byte) : State :=
  let (id, s) := (s.passTurn (tileOf s.me.pcn)).launch k (some tok) st mask false
  (s.modMyCore fun c => { c with matQ := c.matQ ++ [id] }).closeRegion.finish 4 1

def execMma (a b : GReg) (k : Fin 16) (t : AccIx) (f : MFmt) (n : Tok) (m : Sel) (s : State) : Res :=
  s.issueOp (fun _ => needMatrix n none) [.g a, .g b] [] fun s =>
    s.launchMatrix (.mma (s.readG 0 a) (s.readG 1 b) (16 * (k.val + 1)) t f s.me.sat) n none (s.me.mask m)

/-- MMOD: an invalid MODQ traps before it enters a queue (R169). -/
def execMmod (a b : GReg) (k : Fin 16) (t : AccIx) (n : Tok) (m : Sel) (s : State) : Res :=
  s.issueOp (fun _ => needMatrix n none) [.g a, .g b] [] fun s =>
    let q := s.me.modq
    if !modqOk q then s.takeTrap (trapOf cModq q)
    else s.launchMatrix (.mmod (s.readG 0 a) (s.readG 1 b) (16 * (k.val + 1)) t q) n none (s.me.mask m)

/-- MZERO ignores its address register and carries no stream (R133, R181). -/
def execMzero (_ c : GReg) (a : AccIx) (k : Tok) (s : State) : Res :=
  s.issueOp (fun _ => needMatrix k none) [.g c] [] fun s => s.launchMatrix (.mzero (s.readG 0 c) a) k none 0

def execMload (d c : GReg) (a : AccIx) (k : Tok) (st : Strm) (m : Sel) (s : State) : Res :=
  s.issueOp (fun _ => needMatrix k (some st)) [.g d, .g c] [] fun s =>
    s.launchMatrix (.mload (s.baseAddr d) (s.readG 1 c) a) k (some st) (s.me.mask m)

/-- MDRAIN: with SIG it captures the object's address, with SR it takes 64 draws under the thread's LCN (R164, R181, R376). -/
def execMdrain (d c : GReg) (a : AccIx) (k : Tok) (st : Strm) (m : Sel) (s : State) : Res :=
  s.issueOp (fun _ => needMatrix k (some st)) [.g d, .g c] [] fun s =>
    let ctl := s.readG 1 c
    let sig := wbit ctl 10 && decide (c ≠ 15)
    match (if sig then (s.hazard [.g (c + 1)] [] 0).or (s.coldTrap [.g (c + 1)]) else none) with
    | some tr => s.takeTrap tr
    | none =>
      let obj := if sig then s.readG 2 (c + 1) else 0
      let n0 := s.me.srctr
      let s := s.launchMatrix (.mdrain (s.baseAddr d) ctl obj n0 s.me.lcn a (decide (c ≠ 15))) k (some st) (s.me.mask m)
      if wbit ctl 6 then s.modMe fun t => { t with srctr := t.srctr + 64 } else s

/-! ## The arbiter (R175) -/

/-- The arbiter's next grant, from its place in the round: the core, its grants so far, the command. -/
def State.nextGrant (s : State) (tile : Nat) (m : MatrixUnit) : Option (Nat × Nat × OpId × Op) :=
  ((m.turn, m.grants) :: (span 1 8).map fun i => ((m.turn + i) % 8, 0)).findSome? fun x =>
    (s.grantable tile x.1 x.2).map fun g => (x.1, x.2, g)

/-! ## What a grant checks and plans -/

/-- A command that the unit takes: it fails or goes on with its pieces; or it cannot start yet. -/
inductive Plan
  | wait (s : State)
  | fail (s : State) (r : Byte) (a : Word)
  | go (s : State) (pieces : List Piece)

def AccMode.code : AccMode → Nat
  | .fp32 => 0 | .i32 => 1 | .mod64 => 2
def AccMode.ofCode? : Nat → Option AccMode
  | 0 => some .fp32 | 1 => some .i32 | 2 => some .mod64 | _ => none
/-- Rows of a tile. -/
def AccMode.rows : AccMode → Nat
  | .fp32 | .i32 => 16 | .mod64 => 8

/-- The mode that a product needs (R180). -/
def OpKind.productMode : OpKind → AccMode
  | .mma _ _ _ _ .int8 _ => .i32
  | .mmod .. => .mod64
  | _ => .fp32

def OpKind.acc : OpKind → AccIx
  | .mma _ _ _ t _ _ | .mmod _ _ _ t _ | .mzero _ t | .mload _ _ t | .mdrain _ _ _ _ _ t _ => t
  | _ => 0

/-- The ranges of a row operand: `count` rows of `len` bytes, and the FP4 scales after them (R177). -/
def rowRanges (base : Word) (stride count len scales : Nat) : List (Word × Nat) :=
  (List.range count).map (fun n => (base + BitVec.ofNat 64 (n * stride), len)) ++
  (if scales = 0 then [] else [(base + BitVec.ofNat 64 (count * stride), scales)])

/-- Whether a descriptor is valid (R381): its fields, and what it names without a read; `isB`: the B operand. -/
def descOk (o : Op) (d : Word) (isB : Bool) (k r bits : Nat) : Bool :=
  let count := if isB then k else r
  let len := (if isB then r else k) * bits / 8
  let scales := if bits = 4 then 16 * (k / 32) else 0
  let onDie (l : Nat) : Bool := (neighbour (tileOf o.pcn) l).isSome
  match Operand.ofWord d with
  | .mem ok base stride => ok && (rowRanges base stride count len scales).all fun x => engRange o.pcn x.1 x.2
  | .gather ok idx _ _ => ok && !isB && decide (bits ≠ 4) && isLocal o.pcn idx && rangeIn o.pcn idx 32
  | .link ok src fwd => ok && onDie src && (fwd.map onDie).getD true

/-- The pieces of one operand whose descriptor is valid; `isB`: the B operand. Of the rows that a GATHER of an MMOD names only the 8 that its A
has are loaded and checked (log entry 92). -/
def State.planOperand (s : State) (id : OpId) (o : Op) (d : Word) (isB : Bool) (k r bits : Nat) : Plan :=
  let count := if isB then k else r
  let len := (if isB then r else k) * bits / 8
  let scales := if bits = 4 then 16 * (k / 32) else 0
  match Operand.ofWord d with
  | .mem _ base stride =>
    .go s ((rowRanges base stride count len scales).flatMap fun x => readPieces x.1 x.2)
  | .gather _ idx base stride =>
    match s.engRead id o 3 idx 32 with
    | .wait s => .wait s
    | .fail s e a => .fail s e a
    | .ok s bs =>
      let row (n : Nat) : Word := base + BitVec.ofNat 64 (leNat ((bs.drop (2 * n)).take 2) * stride)
      let rs := (List.range count).map fun n => (row n, len)
      if !(rs.all fun x => isLocal o.pcn x.1 && rangeIn o.pcn x.1 x.2) then .fail s 0x09 0
      else .go s (rs.flatMap fun x => readPieces x.1 x.2)
  | .link _ _ fwd =>
    match fwd.bind (s.linkFault o) with
      | some e => .fail s e 0
      | none => .go s (List.replicate (beatsOf (tileOf o.pcn) d (count * len + scales)) beatPiece)

/-- Whether a product has started, or waits for its index list. -/
inductive Began
  | wait (s : State)
  | started (s : State)

/-- A product's start (R381): both descriptors and the mode are checked before anything is read. A failing command still takes the beats of its
LINK operands, and sends on those of an operand whose own descriptor is good (R178). -/
def State.startProduct (s : State) (id : OpId) (o : Op) (a b : Word) (k r bits : Nat) : Began :=
  let n := imageBytes k r bits
  let beats (d : Word) : List Piece := List.replicate (beatsOf (tileOf o.pcn) d n) beatPiece
  let flag (d : Word) : Byte := match s.forwardLink o d with
    | some f => BitVec.ofNat 8 (f + 1)
    | none => 0
  let o := { o with phase := .started, result := [flag a, flag b] }
  let fail (s : State) (e : Byte) (x : Word) : Began :=
    .started (s.setOp id { o with pieces := beats a ++ beats b, recd := some (o.failure e x) })
  if !descOk o a false k r bits || !descOk o b true k r bits ||
      decide (((s.core o.pcn).acc[o.kind.acc]).mode ≠ o.kind.productMode) then fail s 0x09 0
  else match s.planOperand id o a false k r bits with
    | .wait s => .wait s
    | .fail s e x => fail s e x
    | .go s pa =>
      match s.planOperand id o b true k r bits with
      | .wait s => .wait s
      | .fail s e x => fail s e x
      | .go s pb => .started (s.setOp id { o with pieces := pa ++ pb })

/-! ## Gctl (R181) -/

def ctlStride (c : Word) : Nat := wfld c 12 16
def ctlReserved (c : Word) : Bool := wfld c 28 36 != 0 || wbit c 11

/-- The formats of DFMT. -/
def CFmt.ofCode? : Nat → Option CFmt
  | 0 => some .f32 | 1 => some .bf16 | 2 => some .f16 | 3 => some .i32 | 4 => some .i16 | 5 => some .i8
  | 6 => some .i64 | 7 => some .md8 | 8 => some .fp4 | _ => none

/-- Bytes of a drained row (R377). -/
def drainRow (m : AccMode) (f : CFmt) : Nat := m.rows * CFmt.bits f / 8

/-- One element drained (R377): an integer narrowing clamps or keeps low bits, and a copy keeps the bits. -/
def drainElem (m : AccMode) (f : CFmt) (rm : RMode) (rd : Rounding) (sat : Bool) (x : BitVec 64) : Nat :=
  let i := (x.setWidth 32).toInt
  match m, f with
  | .mod64, _ => x.toNat
  | .fp32, .f32 => x.toNat % 2 ^ 32
  | .i32, .i32 => x.toNat % 2 ^ 32
  | .i32, .i64 => wrapInt 64 i
  | .i32, .i16 => wrapInt 16 (if sat then max (-(2 ^ 15)) (min i (2 ^ 15 - 1)) else i)
  | .i32, .i8 => wrapInt 8 (if sat then max (-(2 ^ 7)) (min i (2 ^ 7 - 1)) else i)
  | .i32, _ => (CFmt.convertTo f rm rd sat (FVal.ofInt i)).1
  | .fp32, _ => (CFmt.convertTo f rm rd sat (Fmt.f32.decode (x.toNat % 2 ^ 32))).1

/-- Elements packed end to end, in whole bytes. -/
def packBytes (w : Nat) (l : List Nat) : List Byte :=
  leBytes (l.length * w / 8) (l.foldr (fun x acc => x % 2 ^ w + 2 ^ w * acc) 0)

/-- The rows of a drain (R376, R377). -/
def State.drainRows (s : State) (o : Op) (acc : Acc) (f : CFmt) (ctl n0 : Word) (lcn : BitVec 32) : List (List Byte) :=
  let rm := RMode.ofBits (ctl.extractLsb' 8 2)
  let r := acc.mode.rows
  let elem (i : Nat) : Nat :=
    let rd : Rounding := if wbit ctl 6 && CFmt.drawn f then
        .stoch (drawElem (s.job o.job).seed lcn n0 i) else .mode rm
    drainElem acc.mode f rm rd (wbit ctl 7) (acc.elems.getD i 0)
  (List.range r).map fun n => packBytes (CFmt.bits f) ((span (n * r) r).map elem)

/-- The probe of the counter object of a closing SIGNAL (R182, R391). -/
def State.probeObject (s : State) (o : Op) (ob : Word) : Probe :=
  if decide (ob.toNat % 128 ≠ 0) || !engRange o.pcn ob 16 then .fail 0x09 ob
  else match winOf o.pcn ob with
    | .bank q off _ =>
      match s.bankGate o.job q off 16 false true with
      | .scrub => .wait
      | .fail r => .fail r ob
      | .ok => match s.poisonedIn (bankKey q off) 16 with
        | some g => .fail 0x09 (granuleAt ob (bankKey q off) g)
        | none => .ok
    | _ =>
      match s.xlat o.job ob 16 ⟨false, true, true, true⟩ with
      | .wait => .wait
      | .fail r => .fail r ob
      | .ok owner pa pte _ =>
        match s.sliceBad o.job ob pte (ownerKey owner pa) 16 with
        | some (b, _) => .fail 0x09 b
        | none => .ok

/-- What MLOAD and MDRAIN do at the grant (R376). -/
def State.planMove (s : State) (o : Op) : Plan :=
  match o.kind with
  | .mload dst ctl _ =>
    match AccMode.ofCode? (wfld ctl 0 2) with
    | none => .fail s 0x09 0
    | some m =>
      let rs := rowRanges dst (ctlStride ctl) m.rows 64 0
      if ctlReserved ctl || ctlStride ctl % 16 != 0 || decide (ctlStride ctl < 64) || decide (dst.toNat % 16 ≠ 0) ||
          !(rs.all fun x => engRange o.pcn x.1 x.2) then .fail s 0x09 0
      else .go s (rs.flatMap fun x => readPieces x.1 x.2)
  | .mdrain dst ctl obj n0 lcn t sigOk =>
    let acc := (s.core o.pcn).acc[t]
    match CFmt.ofCode? (wfld ctl 2 4) with
    | none => .fail s 0x09 0
    | some f =>
      let len := drainRow acc.mode f
      let rs := rowRanges dst (ctlStride ctl) acc.mode.rows len 0
      let bad := ctlReserved ctl || ctlStride ctl % 16 != 0 || decide (ctlStride ctl < len) ||
        decide (dst.toNat % min 16 len ≠ 0) || (wbit ctl 10 && !sigOk) || decide (acc.mode = .mod64 ∧ f ≠ .i64) ||
        !(rs.all fun x => engRange o.pcn x.1 x.2)
      if bad then .fail s 0x09 0
      else match (s.probeAll o false true rs).next (if wbit ctl 10 then s.probeObject o obj else .ok) with
        | .wait => .wait s
        | .fail r a => .fail s r a
        | .ok =>
          .go s ((rs.zip (s.drainRows o acc f ctl n0 lcn)).flatMap fun x =>
            (sectorCuts x.1.1 len).map fun c =>
              ⟨none, some c.1, c.2, some ((x.2.drop (c.1 - x.1.1).toNat).take c.2)⟩)
  | .mzero ctl _ =>
    if ctlReserved ctl || (AccMode.ofCode? (wfld ctl 0 2)).isNone then .fail s 0x09 0 else .go s []
  | _ => .fail s 0x09 0

/-- MATRIX_GRANT: the arbiter grants the next command whose edges hold; the command starts, or fails (R175, R181, R381). -/
def execMatrixGrant (cluster : Nat) (s : State) : Res :=
  let m := (mapGet? s.fab.matrix cluster).getD MatrixUnit.reset
  .next (
    if m.busy.isSome then s
    else match s.nextGrant cluster m with
      | none => s
      | some (c, g, id, o) =>
        if !s.retryDue id then s
        else
        let take (s : State) (busy : Option OpId) : State :=
          (s.modFab fun f => { f with matrix := mapSet f.matrix cluster ⟨busy, c, g + 1⟩ }).modCore (cluster * 8 + c)
            fun k => { k with matQ := k.matQ.drop 1 }
        match o.kind.product with
        | some (a, b, k, r, bits) =>
          match s.startProduct id o a b k r bits with
          | .wait s => s
          | .started s => (take s (some id)).pumpUnit cluster
        | none =>
          match s.planMove o with
          | .wait s => s.retryLater id (tileOf o.pcn)
          | .fail s r a => (((take s none).closeParty o.pcn 3).failOp id r a).passTurn cluster
          | .go s ps => take (s.setOp id { o with phase := .started, pieces := ps }) (some id))

/-! ## The sums (R165) -/

/-- The exact sum of values, rounded to FP32 (R154, R165). -/
def sumF32 (xs : List FVal) : Nat :=
  if xs.any FVal.isNan then Fmt.f32.nanBits
  else
    let infs := xs.filterMap fun x => match x with
      | .inf n => some n
      | _ => none
    match infs with
    | n :: r => if r.all (· == n) then Fmt.f32.infBits + (if n then Fmt.f32.signBit else 0) else Fmt.f32.nanBits
    | [] =>
      let fins := xs.filterMap fun x => match x with
        | .fin n a d => some (n, a, d)
        | _ => none
      match fins with
      | [] => 0
      | (n, a, d) :: r =>
        let e := r.foldl (fun (e : Exact) x => addFrac .rne e.neg e.num e.den x.1 x.2.1 x.2.2) ⟨n, a, d, false⟩
        (Fmt.f32.round (.mode .rne) false e).1

/-- A product as a term of a sum: 0 × ∞ is invalid. -/
def term (a b : FVal) : FVal := (FVal.mul a b).getD (.nan false)

/-- An E8M0 scale (R156). -/
def e8m0 (e : Nat) : FVal :=
  if e = 0xFF then .nan false else .fin false (pow2Num ((e : Int) - 127)) (pow2Den ((e : Int) - 127))

/-- Element `i` of a packed image. -/
def imageElem (bs : List Byte) (bits i : Nat) : Nat :=
  if bits = 4 then (bs.getD (i / 2) 0).toNat / 16 ^ (i % 2) % 16 else leNat ((bs.drop (bits / 8 * i)).take (bits / 8))

/-- One output element of an MMA. `A` and `B` are the packed images. -/
def mmaElem (f : MFmt) (sat : Bool) (k : Nat) (A B : List Byte) (i j : Nat) (acc : BitVec 64) : BitVec 64 :=
  let x (bits n : Nat) : Nat := imageElem A bits (i * k + n)
  let y (bits n : Nat) : Nat := imageElem B bits (n * 16 + j)
  let f32 (v : Nat) : FVal := Fmt.f32.decode v
  match f with
  | .bf16 => BitVec.ofNat 64 ((List.range k).foldl (fun v n =>
      sumF32 [f32 v, term (Fmt.bf16.decode (x 16 n)) (Fmt.bf16.decode (y 16 n))]) acc.toNat)
  | .fp16 => BitVec.ofNat 64 ((List.range k).foldl (fun v n =>
      sumF32 [f32 v, term (Fmt.f16.decode (x 16 n)) (Fmt.f16.decode (y 16 n))]) acc.toNat)
  | .md8 => BitVec.ofNat 64 ((List.range (k / 2)).foldl (fun v n =>
      sumF32 [f32 v, term (md8Decode (x 8 (2 * n))) (md8Decode (y 8 (2 * n))),
        term (md8Decode (x 8 (2 * n + 1))) (md8Decode (y 8 (2 * n + 1)))]) acc.toNat)
  | .int8 =>
    let v := (List.range (k / 2)).foldl (fun (v : Int) n =>
      let w := v + laneInt 8 (x 8 (2 * n)) * laneInt 8 (y 8 (2 * n)) + laneInt 8 (x 8 (2 * n + 1)) * laneInt 8 (y 8 (2 * n + 1))
      if sat then max (-(2 ^ 31)) (min w (2 ^ 31 - 1)) else (BitVec.ofInt 32 w).toInt) (acc.setWidth 32).toInt
    BitVec.ofNat 64 (wrapInt 32 v)
  | .fp4 =>
    let sa (n : Nat) : Nat := (A.getD (8 * k + i * (k / 32) + n / 32) 0).toNat
    let sb (n : Nat) : Nat := (B.getD (8 * k + n / 32 * 16 + j) 0).toNat
    BitVec.ofNat 64 ((List.range (k / 4)).foldl (fun v g =>
      let sc := term (e8m0 (sa (4 * g))) (e8m0 (sb (4 * g)))
      sumF32 (f32 v :: (span (4 * g) 4).map fun n => term sc (term (fp4Decode (x 4 n)) (fp4Decode (y 4 n))))) acc.toNat)

/-- One output element of an MMOD. -/
def mmodElem (q : Word) (k : Nat) (A B : List Byte) (i j : Nat) (acc : BitVec 64) : BitVec 64 :=
  let s := (List.range k).foldl (fun v n => v + imageElem A 64 (i * k + n) * imageElem B 64 (n * 8 + j)) acc.toNat
  BitVec.ofNat 64 (s % q.toNat)

/-- The tile after a product. -/
def OpKind.accAfter (o : OpKind) (tile : Nat) (bytes : List Byte) (acc : Acc) : Acc :=
  match o.product with
  | none => acc
  | some (a, _, k, r, bits) =>
    let n := imageBytes k r bits
    let A := bytes.take n
    let B := bytes.drop (if beatsOf tile a n = 0 then n else 64 * beatsOf tile a n)
    let elem (e : Nat) (v : BitVec 64) : BitVec 64 :=
      match o with
      | .mma _ _ k _ f sat => mmaElem f sat k A B (e / 16) (e % 16) v
      | .mmod _ _ k _ q => mmodElem q k A B (e / 8) (e % 8) v
      | _ => v
    { acc with elems := (List.range (r * r)).map fun e => elem e (acc.elems.getD e 0) }

/-! ## Completion -/

def State.setAcc (s : State) (p : Pcn) (t : AccIx) (a : Acc) : State := s.modCore p fun c => { c with acc := c.acc.set t a }

/-- A loaded tile: 64-byte rows of the mode's elements (R376). -/
def loadedAcc (m : AccMode) (bytes : List Byte) : Acc :=
  let w := if m = .mod64 then 8 else 4
  ⟨m, (List.range (m.rows * m.rows)).map fun i => BitVec.ofNat 64 (leNat ((bytes.drop (w * i)).take w))⟩

/-- The step of the SIGNAL that closes a drain, at its object's home (R58, R182). `bs`: the object's bytes, `write`: what writes there. One that
fires a counter leaves its record on its way to the pool, and the unit goes on; else the drain ends when the SIGNAL's response is back. -/
def State.drainStep (s : State) (id : OpId) (o : Op) (ob : Word) (bs : List Byte)
    (write : State → List (Nat × List Byte × Bool) → State) : AtHome :=
  match s.signalBytes id o ob [] bs with
  | .fail s r a => .fail s r a
  | .refuse s => s.hinted
  | .done s ws post =>
    let s := write s ws
    let p := post (s.setOp id o)
    match p.op? id with
    | some x => if x.isPooling then .wait ((p.dropFwds id).releaseEngine id o) else .ok (s.modOp id fun y => { y with recd := x.recd }) []
    | none => .ok s []

/-- The step on a global object at its owner's home, where line requests carry number `who`. -/
def State.drainAtSlice (s : State) (id : OpId) (o : Op) (ob : Word) (owner key who : Nat) (pte : Word) (win : Nat) : AtHome :=
  match s.lineGate (sliceNo owner ob) key 16 who pte win (masterJob o.job) false with
  | .refuse s => s.refusedAt (sliceNo owner ob) (lineOf key) who
  | .serve s =>
    match s.sliceBad o.job ob pte key 16 with
    | some (b, s) => .fail s 0x09 b
    | none =>
      s.drainStep id (if owner = tagDie o.job then o else { o with phase := .atOwner owner }) ob (s.seen pte key 16) fun s ws =>
        ws.foldl (fun s w => s.pageWrite o.job pte win (key + w.1) w.2.1) s

/-- The forwarded step on an object of another die (R126): it goes there, executes and comes back. -/
def State.drainRemote (s : State) (id : OpId) (o : Op) (ob : Word) (owner key : Nat) (pte : Word) (win : Nat) : AtHome :=
  match s.fwdOf id key true with
  | none =>
    match s.remote id o.job owner ob pte win key 0 (some []) with
    | .wait s | .ok s _ | .fail s _ _ => .wait s
  | some f =>
    match f.stage with
    | .there =>
      match s.drainAtSlice id o ob owner key f.id pte win with
      | .ok s _ => .wait ((s.setFwd { f with stage := .back [] none }).sendTransfer owner (tagDie o.job) 0 (.fwdBack f.id))
      | .retry s _ => .wait s
      | x => x
    | .done _ _ => .ok (s.dropFwd f.id) []
    | _ => .wait s

/-- The SIGNAL that closes a drain at its object's home (R182): a bank access of the matrix party, or a step at a slice, which another die's
home executes (R126). -/
def State.drainHome (id : OpId) (o : Op) (ob : Word) (who : Nat) (s : State) : AtHome :=
  match winOf o.pcn ob with
  | .bank q off _ =>
    if (s.core q).halted then .wait s
    else match s.bankGate o.job q off 16 false true with
      | .scrub => s.hinted
      | .fail r => .fail s r ob
      | .ok =>
        match s.poisonedIn (bankKey q off) 16 with
        | some g => .fail s 0x09 (granuleAt ob (bankKey q off) g)
        | none =>
          (s.correct (bankKey q off) 16).drainStep id o ob (memRead s.ms.mem (bankKey q off) 16) fun s ws =>
            ((s.noteAccess o.pcn q off 16 3 true).cross o.job (tileOf o.pcn) (tileOf q) off 16).bankWrites q off ws
  | _ =>
    match s.xlat o.job ob 16 ⟨false, true, true, true⟩ with
    | .wait => s.hinted
    | .fail r => .fail s r ob
    | .ok owner pa pte e =>
      let key := ownerKey owner pa
      let win := s.winInst e
      if owner = tagDie o.job then s.drainAtSlice id o ob owner key who pte win else s.drainRemote id o ob owner key pte win

/-- The SIGNAL that closes a drain goes to its object as a signal (R182, R214). A failure is a job fault. The region of the drain closes after
its last access (R145). -/
def State.drainSignal (s : State) (id : OpId) (o : Op) (ob : Word) : State :=
  match s.trip id 1 (tileOf o.pcn) (homeTile o.pcn ob) ob 16 true fun t s => s.drainHome id o ob t.asker with
  | .wait s => s
  | .ok s _ => s.engDone id o
  | .fail s _ _ => s.freezeJob o.job 0x02 0

/-- MATRIX_COMPLETION: a command whose accesses have all performed updates its tile in one step and ends, or fails (R180, R376,
R381). An MDRAIN with SIG closes with its SIGNAL (R182). -/
def execMatrixCompletion (op : OpId) (s : State) : Res :=
  .next (
    match s.op? op with
    | none => s
    | some o =>
      if decide (o.phase ≠ .started) || !o.kind.isMatrix || s.inFlight op then s
      else
        let bytes := o.pieces.flatMap fun p => p.data.getD []
        match o.recd with
        | some r =>
          if (o.pieces.filter fun p => p.rd.isNone).all Piece.finished then
            (((s.dropFwds op).releaseEngine op o).failOp op r.reason r.addr).passTurn (tileOf o.pcn)
          else s
        | none =>
          if !o.pieces.all Piece.finished then s
          else (match o.kind with
            | .mzero ctl t =>
              let m := (AccMode.ofCode? (wfld ctl 0 2)).getD .fp32
              (s.setAcc o.pcn t ⟨m, List.replicate (m.rows * m.rows) 0⟩).engDone op o
            | .mload _ ctl t =>
              (s.setAcc o.pcn t (loadedAcc ((AccMode.ofCode? (wfld ctl 0 2)).getD .fp32) bytes)).engDone op o
            | .mdrain _ ctl obj _ _ _ _ => if wbit ctl 10 then s.drainSignal op o obj else s.engDone op o
            | k => (s.setAcc o.pcn k.acc (k.accAfter (tileOf o.pcn) bytes ((s.core o.pcn).acc[k.acc]))).engDone op o).passTurn (tileOf o.pcn))

end Sys2Proof.Machine
end

