-- ==== Sys2Proof/Machine/Area.lean ====
section
/-! DEFINITION. The save area of a suspended territory: its layout, the engine records, the accesses that write it and read it back, the
saving of pages and their passing to another job (R206 to R209). -/

namespace Sys2Proof.Machine

/-! ## The engine record of a core as bytes (R208; log entry 63) -/

def MFmt.code : MFmt → Nat
  | .bf16 => 0 | .fp16 => 1 | .md8 => 2 | .int8 => 3 | .fp4 => 4

def mfmtOf (n : Nat) : MFmt :=
  if n = 0 then .bf16 else if n = 1 then .fp16 else if n = 2 then .md8 else if n = 3 then .int8 else .fp4

/-- An engine command's kind and captured values, as eight numbers. -/
def OpKind.words : OpKind → List Nat
  | .cpy d src len => [1, d.toNat, src.toNat, len.toNat, 0, 0, 0, 0]
  | .cpy2d d src sh => [2, d.toNat, src.toNat, sh.toNat, 0, 0, 0, 0]
  | .cpyl h => [3, h.toNat, 0, 0, 0, 0, 0, 0]
  | .mcrd off src rec => [4, off.toNat, src.toNat, rec.toNat, 0, 0, 0, 0]
  | .mma a b k t f sat => [5, a.toNat, b.toNat, k, t.val, f.code, sat.toNat, 0]
  | .mmod a b k t q => [6, a.toNat, b.toNat, k, t.val, q.toNat, 0, 0]
  | .mzero ctl t => [7, ctl.toNat, t.val, 0, 0, 0, 0, 0]
  | .mload dst ctl t => [8, dst.toNat, ctl.toNat, t.val, 0, 0, 0, 0]
  | .mdrain dst ctl obj n0 lcn t sigOk => [9, dst.toNat, ctl.toNat, obj.toNat, n0.toNat, lcn.toNat, t.val, sigOk.toNat]
  | .alu .. | .fpu .. | .load .. | .store .. | .atom .. | .chunk .. | .watch .. | .fe .. | .spawn .. | .taskq .. | .bind .. | .signal ..
  | .join .. | .leave .. | .tshape .. | .tpress .. => [0, 0, 0, 0, 0, 0, 0, 0]

/-- The command that eight numbers stand for; those of none leave `k`. -/
def OpKind.ofWords (k : OpKind) (l : List Nat) : OpKind :=
  let n (i : Nat) : Nat := l.getD i 0
  let w (i : Nat) : Word := BitVec.ofNat 64 (n i)
  let t (i : Nat) : AccIx := ⟨n i % 4, Nat.mod_lt _ (by decide)⟩
  if n 0 = 1 then .cpy (w 1) (w 2) (w 3)
  else if n 0 = 2 then .cpy2d (w 1) (w 2) (w 3)
  else if n 0 = 3 then .cpyl (w 1)
  else if n 0 = 4 then .mcrd (w 1) (w 2) (w 3)
  else if n 0 = 5 then .mma (w 1) (w 2) (n 3) (t 4) (mfmtOf (n 5)) (n 6 == 1)
  else if n 0 = 6 then .mmod (w 1) (w 2) (n 3) (t 4) (w 5)
  else if n 0 = 7 then .mzero (w 1) (t 2)
  else if n 0 = 8 then .mload (w 1) (w 2) (t 3)
  else if n 0 = 9 then .mdrain (w 1) (w 2) (w 3) (w 4) (BitVec.ofNat 32 (n 5)) (t 6) (n 7 == 1)
  else k

/-- A queued command in an engine record: its number, its values, and its progress. -/
structure SavedCmd where
  id    : OpId
  words : List Nat
  aux   : Nat
deriving DecidableEq, Repr

def SavedCmd.bytes (c : SavedCmd) : List Byte := leBytes 8 c.id ++ (c.words.flatMap (leBytes 8)) ++ leBytes 8 c.aux

def SavedCmd.ofBytes (bs : List Byte) : SavedCmd :=
  ⟨fieldAt bs 0 8, (List.range 8).map fun i => fieldAt bs (8 + 8 * i) 8, fieldAt bs 72 8⟩

/-- The commands of an engine queue. -/
def State.savedCmds (s : State) (q : List OpId) : List SavedCmd :=
  q.filterMap fun id => (s.op? id).map fun o => ⟨id, o.kind.words, o.aux⟩

/-- A beat in 65 bytes: whether it opened, and its data. -/
def beatBytes : Option (List Byte) → List Byte
  | none => List.replicate 65 0
  | some d => 1 :: (d ++ List.replicate (64 - d.length) 0)

def beatOfBytes (bs : List Byte) : Option (List Byte) := if fieldAt bs 0 1 = 1 then some ((bs.drop 1).take 64) else none

/-- `n` parts of `sz` bytes each. -/
def parts (sz : Nat) : Nat → List Byte → List (List Byte)
  | 0, _ => []
  | n + 1, bs => bs.take sz :: parts sz n (bs.drop sz)

/-- Where the parts of an engine record stand: the modes, the tiles, the two queues, and the four FIFOs with 0x1800 bytes each. -/
def recCopyQ : Nat := 0x2040
def recMatQ : Nat := 0x2240
def recFifo (i : Nat) : Nat := 0x2800 + 0x1800 * i

/-- Bytes with zeros after them, `n` in all. -/
def padTo (n : Nat) (bs : List Byte) : List Byte := bs.take n ++ List.replicate (n - bs.length) 0

/-- The bytes of an engine record: AT0 to AT3 with their modes, the queued commands with their captured values and their progress, and the
beats (R204, R208). -/
def State.recordBytes (s : State) (r : EngineRec) : List Byte :=
  let queue (q : List OpId) : List Byte := leBytes 8 (s.savedCmds q).length ++ (s.savedCmds q).flatMap SavedCmd.bytes
  let fifo (i : Nat) : List Byte :=
    let l := (mapGet? r.beats (tileOf r.pcn * 4 + i)).getD []
    leBytes 8 l.length ++ l.flatMap beatBytes
  padTo 0x40 (r.core.acc.toList.map fun a => BitVec.ofNat 8 a.mode.code) ++
  (r.core.acc.toList.flatMap fun a => padTo 0x800 (a.elems.flatMap fun x => leBytes 8 x.toNat)) ++
  padTo 0x200 (queue r.core.copyQ) ++ padTo 0x5C0 (queue r.core.matQ) ++
  (List.range 4).flatMap fun i => padTo 0x1800 (fifo i)

/-- The commands of a queue at an offset of a record. -/
def cmdsAt (bs : List Byte) (off : Nat) : List SavedCmd :=
  (parts 80 (min (fieldAt bs off 8) 8) (bs.drop (off + 8))).map SavedCmd.ofBytes

/-- The beats of a FIFO at an offset of a record. -/
def beatsAt (bs : List Byte) (off : Nat) : List (Option (List Byte)) :=
  (parts 65 (min (fieldAt bs off 8) 94) (bs.drop (off + 8))).map beatOfBytes

/-- An engine record with what its bytes hold; the commands are those that the machine still knows by their numbers. -/
def State.recordOfBytes (s : State) (r : EngineRec) (bs : List Byte) : EngineRec × List SavedCmd :=
  let known (l : List SavedCmd) : List SavedCmd := l.filter fun c => (s.op? c.id).isSome
  let copy := known (cmdsAt bs recCopyQ)
  let mat := known (cmdsAt bs recMatQ)
  ({ r with
    core := { r.core with
      acc := Vector.ofFn fun i => ⟨(AccMode.ofCode? (fieldAt bs i.val 1)).getD .fp32,
        (List.range 256).map fun e => BitVec.ofNat 64 (fieldAt bs (0x40 + 0x800 * i.val + 8 * e) 8)⟩
      copyQ := copy.map (·.id), matQ := mat.map (·.id) }
    beats := r.beats.map fun e => (e.1, beatsAt bs (recFifo (e.1 % 4))) }, copy ++ mat)

/-- Chunk `k` of a record. -/
def recordChunk (bs : List Byte) (k : Nat) : List Byte := padTo 4096 (bs.drop (4096 * k))

/-! ## The layout of the area (R208, R209) -/

/-- Slot `i` of the area is the place of the i-th core of the territory, in rising order. -/
def Job.slotBase (j : Job) (v : SaveImage) (p : Pcn) : Word :=
  j.saveArea + BitVec.ofNat 64 (0x10000 + (v.tiles.flatMap coresOf).idxOf p * 0x50000)

/-- Where a chunk stands in its core's slot: the context area's pages, the engine-record part, the page store. -/
def Job.chunkOff (j : Job) (page : Nat) : Nat :=
  if 64 ≤ page then 0x10000 + (page - 64) * 4096
  else if page < j.cbBase.toNat / 4096 then page * 4096
  else 0x20000 + page * 4096

/-- The address of a chunk in the save area. -/
def Job.saveSlot (j : Job) (v : SaveImage) (p page : Nat) : Word := j.slotBase v p + BitVec.ofNat 64 (j.chunkOff page)

/-- The address of a chunk's tag: in the last 4 KiB of the engine-record part, in the order of the chunks in the slot (log entry 63). -/
def Job.tagSlot (j : Job) (v : SaveImage) (p page : Nat) : Word :=
  j.slotBase v p + BitVec.ofNat 64 (0x1F000 + 16 * (j.chunkOff page / 4096))

/-- The 16-byte header of an image: job tag, PCN of the first slot, and the GTS of the suspension (R209; log entry 63 for the layout). -/
def SaveImage.header (v : SaveImage) (tag : Nat) : List Byte :=
  leBytes 2 tag ++ leBytes 2 ((v.tiles.flatMap coresOf).headD 0) ++ List.replicate 4 0 ++ leBytes 8 v.gts.toNat

/-- The header of the area (R208): the image's, the slot count, and the PCN of each slot. -/
def SaveImage.areaHeader (v : SaveImage) (tag : Nat) : List Byte :=
  let ps := v.tiles.flatMap coresOf
  v.header tag ++ leBytes 4 ps.length ++ List.replicate 12 0 ++ ps.flatMap fun p => leBytes 2 p

/-! ## Accesses to the area (R207) -/

def State.modSaved (s : State) (tag : Nat) (f : SaveImage → SaveImage) : State := s.modJob tag fun j => { j with saved := j.saved.map f }

/-- Whether a page of the area is PIN-mapped. -/
def State.pinned (s : State) (tag : Nat) (a : Word) : Bool :=
  (s.leafAt (sliceNo (tagDie tag) a) tag (s.job tag).ptRoot a).any ptePin

/-- An access of core `p` to the save area of its job, over the mesh to the home slice as the job's own (R126, R207, R214, R232). One to a
page that is not PIN-mapped fails. -/
def State.areaAccess (s : State) (tag id : Nat) (p : Pcn) (a : Word) (n : Nat) (wr : Option (List Byte)) : Got :=
  s.trip id 0 (tileOf p) (homeTile p a) a n wr.isSome fun t s =>
    if s.pinned tag a then s.sliceAccess t.asker id tag a n ⟨wr.isNone, wr.isSome, false, true⟩ wr else .fail s 0x02 a

/-- Puts bytes on their way to the area, in runs of 1 KiB. -/
def savings (p : Pcn) (a : Word) (n : Nat) (bs : List Byte) : List Saving :=
  (pagesOf 10 a n).map fun x => ⟨p, x.1, x.2, (bs.drop (x.1 - a).toNat).take x.2⟩

/-- The first sector of some bytes on their way is written, if it can be now. A page that is unmapped, not PIN-mapped or refused is a job
fault of the suspended job (R207). -/
def State.saveOne (s : State) (tag : Nat) (w : Saving) : State :=
  match (s.job tag).saved with
  | none => s
  | some v =>
    let n := min w.len (64 - w.addr.toNat % 64)
    match s.areaAccess tag v.id w.pcn w.addr n (some (padTo n w.data)) with
    | .wait s => s.modSaved tag fun v => { v with writing := v.writing ++ [w] }
    | .fail s _ _ => s.freezeJob tag 0x02 0
    | .ok s _ =>
      if w.len ≤ n then s
      else s.modSaved tag fun v => { v with
        writing := v.writing ++ [⟨w.pcn, w.addr + BitVec.ofNat 64 n, w.len - n, w.data.drop n⟩] }

/-- What is on its way to a save area goes on. -/
def State.saveWrites (s : State) (tag : Nat) : State :=
  match (s.job tag).saved with
  | none => s
  | some v => v.writing.foldl (fun s w => s.saveOne tag w) (s.modSaved tag fun v => { v with writing := [] })

/-! ## Chunks (R206, R209) -/

/-- A sealed chunk as memory holds it. -/
def chunkBytes (inst : Nat) (aad : BitVec 128) (data : List Byte) : List Byte := (List.range 4096).map (Config.chunkByte inst aad data)

/-- The AAD of the next chunk: the image's header, or the tag of the chunk before (R209). -/
def SaveImage.nextAad (v : SaveImage) (tag : Nat) : BitVec 128 :=
  match v.store.getLast?.bind (·.sealed) with
  | some x => x.2.2
  | none => BitVec.ofNat 128 (leNat (v.header tag))

/-- A chunk of suspended job `tag` is saved, sealed if the job is confidential: its bytes are on their way. -/
def State.saveChunk (s : State) (tag : Nat) (p page : Nat) (data : List Byte) (full : List Nat) : State :=
  let j := s.job tag
  let inst := s.slotInst j.keyslot
  s.modSaved tag fun v =>
    let aad := v.nextAad tag
    let body := savings p (j.saveSlot v p page) 4096 (if j.conf then chunkBytes inst aad data else data)
    let t := Config.chunkTag inst aad data
    { v with
      store := v.store ++ [⟨p, page, data, full, if j.conf then some (inst, aad, t) else none⟩]
      writing := v.writing ++ body ++ (if j.conf then savings p (j.tagSlot v p page) 16 (leBytes 16 t.toNat) else []) }

/-! ## Pages (R206 to R208) -/

/-- The threads of a job that stand on a core, whoever holds the core now. -/
def State.threadsOf (s : State) (tag p : Nat) : List (Uid × Thread) :=
  s.threads.filter fun e => decide (e.2.job = tag) && decide (e.2.pcn = p)

/-- Whether a page is of the context area of a job. -/
def Job.isContext (j : Job) (page : Nat) : Bool := decide (page < j.cbBase.toNat / 4096)

/-- The bytes of a page of suspended job `tag`: of the context area, its images (R208); else the bank's. -/
def State.pageBytes (s : State) (tag p page : Nat) : List Byte :=
  if (s.job tag).isContext page then imageOf (s.threadsOf tag p) (2 * page) ++ imageOf (s.threadsOf tag p) (2 * page + 1)
  else memRead s.ms.mem (bankKey p (page * 4096)) 4096

/-- Saves a page of suspended job `tag`; errors that its read meets are corrected and counted (R110). -/
def State.savePage (s : State) (tag p page : Nat) : State :=
  let s := if (s.job tag).isContext page then s else s.correct (bankKey p (page * 4096)) 4096
  s.saveChunk tag p page (s.pageBytes tag p page) (s.ms.full.filter fun g => decide (g * 16 / 4096 = p * 64 + page))

def SaveImage.has (v : SaveImage) (p page : Nat) : Bool := v.store.any fun x => decide (x.pcn = p) && decide (x.page = page)

/-- LZ of a page, as its LMPU entry stood (R103). -/
def SaveImage.lazy (v : SaveImage) (p page : Nat) : Bool := ((mapGet? v.lmpu (p * 48 + page)).getD 0).getLsbD 3

/-- The suspended job that a page of a core belongs to: one that keeps it there, or whose images the core's context area still holds. -/
def State.victimOf (s : State) (p page : Nat) : Option (Nat × SaveImage) :=
  s.jobs.findSome? fun e => e.2.saved.bind fun v =>
    if v.flushed && v.tiles.contains (tileOf p) &&
        (v.kept.contains (p * 48 + page) || (e.2.isContext page && decide (s.owner (tileOf p) = e.1))) then some (e.1, v) else none

/-- A page that a suspended job kept is another's, scrubbed (R206). -/
def State.givePage (s : State) (victim p page : Nat) : State :=
  let s := s.modSaved victim fun v => { v with kept := setDel v.kept (p * 48 + page) }
  (s.clearPage p page).takePages victim p [page]

/-- The pages that suspended jobs keep on a tile, as job, core and page. -/
def State.keptOn (s : State) (t : Nat) : List (Nat × Pcn × Nat) :=
  s.jobs.flatMap fun e => match e.2.saved with
    | none => []
    | some v => (v.kept.filter fun k => decide (tileOf (k / 48) = t)).map fun k => (e.1, k / 48, k % 48)

/-- Whether a page's save has completed. -/
def State.savedThere (s : State) (x : Nat × Pcn × Nat) : Bool :=
  ((s.job x.1).saved.map fun v => v.has x.2.1 x.2.2 && v.writing.isEmpty).getD true

/-- The pages that suspended jobs keep on a tile which passes to another job are saved (R33, R206). -/
def State.saveKept (s : State) (t : Nat) : State :=
  (s.keptOn t).foldl (fun s x => if ((s.job x.1).saved.map fun v => v.has x.2.1 x.2.2).getD true then s else s.savePage x.1 x.2.1 x.2.2) s

/-- They are claimed for it, once their saves have completed. -/
def State.giveKept (s : State) (t : Nat) : State := (s.keptOn t).foldl (fun s x => s.givePage x.1 x.2.1 x.2.2) s

end Sys2Proof.Machine
end

