-- ==== Sys2Proof/Machine/Border.lean ====
section
/-! DEFINITION. Borders: the snapshot and the move rule (R15 to R20), validation (R21), the event record (R30), the loss and the
gain of a tile (R22, R31 to R33), seeds (R35, R430) and the preparation of a core for a job (R33, R46, R104, R106). -/

namespace Sys2Proof.Machine

/-! ## The snapshot (R15 to R20) -/

/-- W of R15. -/
def Job.pressure (j : Job) : Nat := j.weight * min (j.pool.length + j.backlog) 0xFFFFFF

/-- W, the floor and the ceiling of a job or of idle (R12, R15). -/
def State.pressureOf (s : State) (tag : Nat) : Nat := if isIdle tag then 0 else (s.job tag).pressure
def State.floorOf (s : State) (tag : Nat) : Nat := if isIdle tag then 0 else (s.job tag).floor
def State.ceilingOf (s : State) (tag : Nat) : Nat := if isIdle tag then 1024 else (s.job tag).ceiling

/-- Idle or an active job (R17, R18). -/
def State.mayMove (s : State) (tag : Nat) : Bool := isIdle tag || s.jobActive tag

/-- The tiles 4-adjacent to a tile on its die. -/
def adjacent (t : Nat) : List Nat := (List.range 4).filterMap (neighbour t)

/-- A tile at an offset on the same die. -/
def tileBy (t : Nat) (dx dy : Int) : Option Nat :=
  let x := (xOf t : Int) + dx
  let y := (yOf t : Int) + dy
  if 0 ≤ x ∧ x < 32 ∧ 0 ≤ y ∧ y < 32 then some (tileAt (t / 1024) x.toNat y.toNat) else none

/-- The 3×3 window of a tile, without what lies off the die. -/
def window (t : Nat) : List Nat :=
  [-1, 0, 1].flatMap fun (dy : Int) => [-1, 0, 1].filterMap fun dx => tileBy t dx dy

/-- A tile under a transit lock: it lies in the window of a tile in transit (R21). A tile that its job's end or freeze sends to idle passed no
request and sets no lock (log entry 82). -/
def State.transitLocked (s : State) (t : Nat) : Bool := s.moves.any fun m => m.locked && (window m.tile).contains t

/-- Grows a set of tiles by 4-adjacency inside `area`. -/
def growIn (area : List Nat) : Nat → List Nat → List Nat
  | 0, l => l
  | n + 1, l => growIn area n (area.filter fun t => l.contains t || (adjacent t).any l.contains)

/-- Whether a tile is simple for its owner (R19). -/
def State.simple (s : State) (t : Nat) : Bool :=
  let a := s.owner t
  let mine := (adjacent t).filter fun u => decide (s.owner u = a)
  let area := (window t).filter fun u => decide (u ≠ t) && decide (s.owner u = a)
  match mine with
  | [] => false
  | u :: _ => mine.all (growIn area 8 [u]).contains

/-- Test (c) of R18, with the counts of the snapshot. -/
def pressureTest (wa wb na nb h : Nat) : Bool :=
  decide (0 < wb) && (wa == 0 ||
    (decide ((16 + h) * wa ^ 2 * (nb * (nb + 1)) ≤ 16 * wb ^ 2 * (na * (na - 1))) &&
     decide (wa ^ 2 * (nb * (nb + 1)) < wb ^ 2 * (na * (na - 1)))))

def isFence (tag : Nat) : Bool := tagIx tag == 0x1FF

/-- Whether a tile qualifies to move to job `b` (R18). -/
def State.qualifies (s : State) (t b : Nat) : Bool :=
  let a := s.owner t
  let na := s.projected a
  let nb := s.projected b
  decide (a ≠ b) && !isFence a && !isFence b && s.mayMove a && s.mayMove b &&
  (isIdle a || decide ((s.job a).anchor ≠ t)) &&
  !(s.tile t).lock && ((adjacent t).filter fun u => decide (s.owner u = b)).all (fun u => !(s.tile u).lock) &&
  decide ((s.floorOf a : Int) < na) && decide (nb < s.ceilingOf b) &&
  (isIdle a || s.simple t) &&
  pressureTest (s.pressureOf a) (s.pressureOf b) na.toNat nb.toNat (s.die (t / 1024)).hyst.toNat &&
  (window t).all fun u => !s.transitLocked u

/-- The lowest of a list of tiles, or a default. -/
def lowest (d : Nat) (l : List Nat) : Nat := l.foldl min (l.headD d)

/-- Requests by rising raster index. -/
def insRequest (r : Request) : List Request → List Request
  | [] => [r]
  | q :: l => if r.tile < q.tile then r :: q :: l else q :: insRequest r l

/-- The tiles chosen on a die: for each ordered pair the lowest qualifying one, for the lowest gainer of a donor (R20). -/
def State.chosen (s : State) (die : Nat) : List Request :=
  let gainers := (s.jobs.filter fun e => decide (tagDie e.1 = die) && decide (e.2.status = .active)).map (·.1)
  let all : List Request := gainers.flatMap fun b =>
    (((s.tilesOf b).flatMap adjacent).dedup.filter fun t => s.qualifies t b).map fun t =>
      ⟨t, lowest t ((adjacent t).filter fun u => decide (s.owner u = b)), s.owner t, b⟩
  let pairs := all.filter fun r => !all.any fun q => decide (q.donor = r.donor) && decide (q.gainer = r.gainer) && decide (q.tile < r.tile)
  let one := pairs.filter fun r => !pairs.any fun q => decide (q.tile = r.tile) && decide (q.gainer < r.gainer)
  one.foldl (fun l r => insRequest r l) []

/-- BORDER_EPOCH_SNAPSHOT: cycle 0 of a border epoch (R17, R20). -/
def execBorderEpochSnapshot (die : Nat) (s : State) : Res :=
  .next (
    if die < 8 ∧ (s.die die).epochAt ≤ s.now then
      let chosen := s.chosen die
      s.modDie die fun d => { d with epochAt := d.epochAt + 4096, requests := chosen }
    else s)

/-! ## Validation (R21), the event record (R30) and the loss upcall (R29, R31) -/

/-- A halted core holds back the moves of its job (R211). -/
def State.anyHalted (s : State) (tag : Nat) : Bool :=
  !isIdle tag && s.cores.any fun e => e.2.halted && decide (s.owner (tileOf e.1) = tag)

/-- Whether an upcall thread of the job that holds a tile stands on one of its cores (R21). -/
def State.upcallOn (s : State) (t : Nat) : Bool :=
  s.threads.any fun e => decide (tileOf e.2.pcn = t) && decide (e.2.job = s.owner t) && decide (e.2.upcall ≠ .none)

/-- Whether a request passes (R21). Its tile must still be simple for its donor, as every committed territory is connected: a seed taken since
the snapshot may have changed its window (R11, R25; log entry 83). -/
def State.valid (s : State) (r : Request) : Bool :=
  let noScrub (t : Nat) : Bool := (coresOf t).all fun p => decide ((s.core p).status ≠ .scrub)
  (adjacent r.tile).contains r.near && decide (s.owner r.tile = r.donor) && decide (s.owner r.near = r.gainer) &&
  (isIdle r.donor || s.simple r.tile) && !s.moves.any (fun m => decide (m.tile = r.tile)) &&
  (window r.tile).all (fun u => !s.transitLocked u) &&
  decide ((s.floorOf r.donor : Int) < s.projected r.donor) && decide (s.projected r.gainer < s.ceilingOf r.gainer) &&
  !s.upcallOn r.tile && !(s.tile r.tile).lock && !(s.tile r.near).lock && noScrub r.tile && noScrub r.near &&
  s.mayMove r.donor && s.mayMove r.gainer && !s.anyHalted r.donor && !s.anyHalted r.gainer

/-- The bytes of an event record (R30). -/
def eventBytes (kind tile other : Nat) (epoch count : Nat) (deadline : Word) : List Byte :=
  leBytes 1 kind ++ leBytes 1 (xOf tile) ++ leBytes 1 (yOf tile) ++ [0] ++ leBytes 2 other ++ [0, 0] ++ leBytes 4 epoch ++
  leBytes 2 count ++ [0, 0] ++ leBytes 8 deadline.toNat ++ leBytes 8 0

/-- A loss record's NEWEPOCH and NEWCOUNT: the job's values once its moves in transit have committed; one that commits to idle in place of the
job changes neither (R30, R37). -/
def State.afterMoves (s : State) (tag : Nat) : Nat × Nat :=
  let mine := s.moves.filter fun m => decide (m.donor = tag) || decide (m.goal = tag)
  (((s.job tag).epoch + BitVec.ofNat 32 mine.length).toNat, (s.projected tag).toNat)

/-- The lowest-numbered LIVE core of a tile. -/
def State.liveCore (s : State) (t : Nat) : Option Pcn := (coresOf t).find? fun p => decide ((s.core p).status = .live)

/-- Starts the loss sequence of a tile: the upcall, or none (R31). -/
def State.startLoss (s : State) (t a b : Nat) (launch : Option Nat) : State :=
  let (id, s) := s.takeId
  let base : Move := ⟨t, a, b, id, none, s.gts, false, false, 0, false, true, launch⟩
  match (if isIdle a ∨ (s.job a).upVec = 0 then none else s.liveCore t) with
  | none => { s with moves := s.moves ++ [base] }
  | some p =>
    let deadline := s.gts + 7408
    let (u, s) := s.upcallThread p .loss
    let s := { s with moves := s.moves ++ [{ base with upcall := some u, deadline := deadline }] }
    let (e, n) := s.afterMoves a
    s.bankStore p eventOff (eventBytes 1 t b e n deadline)

/-- Lantern's validation of one request: it starts the loss sequence, or the request is dropped. -/
def State.validate (s : State) (r : Request) : State := if s.valid r then s.startLoss r.tile r.donor r.gainer none else s

/-- TRANSFER_REQUEST: Lantern takes an epoch's requests of a die, which stand in ascending raster index, and validates each in turn (R21). No
commit falls between two of them (R25). -/
def execTransferRequest (die : Nat) (s : State) : Res :=
  .next ((s.die die).requests.foldl State.validate (s.modDie die fun d => { d with requests := [] }))

/-! ## The loss (R31) -/

def State.moveAt (s : State) (t : Nat) : Option Move := s.moves.find? fun m => decide (m.tile = t)
def State.modMove (s : State) (t : Nat) (f : Move → Move) : State :=
  { s with moves := s.moves.map fun m => if m.tile = t then f m else m }

/-- BORDER_DEADLINE: at DEADLINE the cores of the tile stop, a running upcall ends, and operations in flight are settled. -/
def execBorderDeadline (tile : Nat) (s : State) : Res :=
  .next (
    match s.moveAt tile with
    | none => s
    | some m =>
      if m.stopped || decide (s.gts.toNat < m.deadline.toNat) then s
      else
        let s := s.modMove tile fun m => { m with stopped := true, upcall := none }
        let s := match m.upcall with
          | some u => (s.leaveSlot u).dropThread u
          | none => s
        (s.settleTile tile).endIfSpent m.donor)

/-- The tile that a thread of a ceded tile goes to (R31). -/
def State.evacTile (s : State) (t a : Nat) : Option Nat :=
  let keeps (u : Nat) : Bool := decide (s.owner u = a) && decide (u ≠ t) && !(s.moves.any fun m => decide (m.tile = u)) &&
    (s.liveCore u).isSome
  let near := (adjacent t).filter keeps
  match near with
  | u :: _ => some (lowest u near)
  | [] => (s.tilesOf a).find? keeps

/-- The core it goes to. -/
def State.evacCore (s : State) (p : Pcn) (u : Nat) : Pcn :=
  let q := u * 8 + coreIx p
  if (s.core q).status = .live then q else (s.liveCore u).getD q

/-- A thread's journal entries that are held become fault records of their tokens (R200). -/
def State.recordHeld (s : State) (u : Uid) : State :=
  let t := s.thread u
  let held := (s.core t.pcn).heldFor u
  let s := held.foldl (fun s e => s.modThread u fun t => t.addFailure e.2.inShadow e.2.tok ⟨e.2.pc, e.2.addr, e.2.reason, 0⟩) s
  s.modCore t.pcn fun c => { c with journal := held.foldl (fun j e => mapErase j e.1) c.journal }

/-- The core at which a thread stands: a context that an evacuation holds for want of an image stands at its destination (R31). -/
def Thread.place (t : Thread) : Pcn :=
  match t.status with
  | .migrating q a => if a = .mig then t.pcn else q
  | _ => t.pcn

/-- The threads of a job that stand on a tile. -/
def State.standOn (s : State) (tag t : Nat) : List Uid :=
  (s.threads.filter fun e => decide (e.2.job = tag) && decide (tileOf e.2.place = t)).map (·.1)

/-- A thread leaves a ceded tile for core `q`, as a MIG packet (R31, R70, R214). A RUNNING or READY one stands before its instruction, or before
the PFX that governs it; one that was migrating is READY at its MIG. -/
def State.evacThread (s : State) (u : Uid) (q : Pcn) : State :=
  let s := ((s.recordHeld u).leaveSlot u).modFab fun f => { f.quit [u] with mesh := f.mesh.filter fun p => !p.msg.isMig u }
  let t := s.thread u
  let from_ := tileOf t.place
  let n := (s.job t.job).nimg
  let k := t.image.getD 0
  let sp := (s.core t.pcn).splim
  let s := s.modThread u fun t =>
    let t := { t.settle s.now with
      image := none, asks := false, redirect := none, stackFrom := some (t.stackFrom.getD (stackBase sp n k, stackTop sp n k)) }
    match t.status with
    | .waiting w => { t with status := .migrating q (.waiting w) }
    | .parked => { t with status := .migrating q .parked }
    | .migrating _ (.waiting w) => { t with status := .migrating q (.waiting w) }
    | .migrating _ .parked => { t with status := .migrating q .parked }
    | _ => { t with status := .migrating q .ready, pc := t.trapPoint, pfx := none, mgLoad := none }
  s.sendMesh 1 from_ (tileOf q) (.mig u)

/-- Whether what the settle step let go on has performed, and the threads of the tile's owner there have drained. -/
def State.drainedTile (s : State) (t : Nat) : Bool :=
  !(s.ops.any fun e => decide (e.2.job = s.owner t) &&
    ((e.2.touches t && !e.2.isPooling) ||
    (decide (tileOf (s.thread e.2.uid).place = t) && (mapGet? s.threads e.2.uid).isSome && decide (e.2.phase ≠ .waiting)) ||
    (decide (tileOf e.2.pcn = t) && e.2.kind.isEngine))) &&
  !(s.threads.any fun e => decide (e.2.job = s.owner t) && decide (tileOf e.2.pcn = t) &&
    (e.2.redirect.isSome || decide (e.2.status = .waiting .exitDrain)))

/-- Whether a tile that has stopped may be evacuated: what it waits for has drained; an ended job's tile waits for all the job's operations
(R31, R36). -/
def State.mayEvacuate (s : State) (m : Move) : Bool :=
  s.drainedTile m.tile && !((s.liveJob? m.donor).any (fun j => decide (j.status = .ended)) && s.jobBusy m.donor)

/-- Steps 4 to 6 of R31 on a tile. The records return so that the lowest core's stands first in its band (log entry 94). -/
def State.evacuate (s : State) (tile a : Nat) : State :=
  let here := s.standOn a tile
  let s :=
    if (s.liveJob? a).any Job.live then
      match s.evacTile tile a with
      | none => s.freezeJob a 0x02 0
      | some u => here.foldl (fun s i => s.evacThread i (s.evacCore (s.thread i).place u)) s
    else s
  let s := (coresOf tile).reverse.foldl (fun s p =>
    match (s.core p).dispatched with
    | some r => s.poolReturn a r
    | none => s) s
  (s.scrubTile tile).modMove tile fun m => { m with evacuated := true, scrubAt := s.now }

/-- EVACUATION: threads leave, dispatched tasks return, and the scrub of the cores begins (steps 4 to 6 of R31). The threads of a suspended
donor leave too. Pages that suspended jobs keep on a tile which goes to another job are saved first and are scrubbed with it (R33, R206). -/
def execEvacuation (tile : Nat) (s : State) : Res :=
  .next (
    match s.moveAt tile with
    | none => s
    | some m =>
      if !m.stopped || m.evacuated || !s.mayEvacuate m then s
      else if isIdle m.goal then s.evacuate tile m.donor
      else
        let s := s.saveKept tile
        if (s.keptOn tile).all s.savedThere then (s.giveKept tile).evacuate tile m.donor else s)

/-! ## Preparing a core (R33, R46, R104, R106) -/

/-- The core-scoped registers of a core that a job takes: those of `model`, a core of the launch or of a gain (R46). -/
def Core.taken (c : Core) (j : Job) (model : Core) : Core :=
  { Core.reset with
    status := .live, splim := model.splim, ovfptr := model.ovfptr, hzchk := model.hzchk, slice := model.slice
    wrrw := model.wrrw, l1fuse := j.l1fuse, att := c.att, engfrz := c.engfrz, correctable := c.correctable, nextIssue := c.nextIssue }

/-- The core whose values a launch gives (R46). -/
def Job.launchCore (j : Job) : Core := { Core.reset with splim := BitVec.ofNat 64 j.splim0 }

/-- Prepares one core of a tile, with the bytes of its constant-bank page. -/
def State.prepareCore (s : State) (tag : Nat) (model : Core) (cb : List Byte) (p : Pcn) : State :=
  let j := s.job tag
  let s := (s.modCore p fun c => c.taken j model).mapBank tag p
  if s.keptPage p (j.cbBase.toNat / 4096) then s else s.bankStore p j.cbBase.toNat cb

def State.prepareTile (s : State) (tag tile : Nat) (model : Core) (cb : List Byte) : State :=
  (coresOf tile).foldl (fun s p => s.prepareCore tag model cb p) s

/-- LOCK in the owner registers of a territory once a locked job's count reaches its floor (R14). -/
def State.lockAtFloor (s : State) (tag : Nat) : State :=
  let j := s.job tag
  let ts := s.tilesOf tag
  if j.lockReq && decide (j.floor ≤ ts.length) then ts.foldl (fun s t => s.lockTile t true) s else s

/-- A job that has stopped and holds no tile is gone, and its index is free (R36, R201). -/
def State.reap (s : State) (tag : Nat) : State :=
  match s.liveJob? tag with
  | some j =>
    if !j.live && (s.tilesOf tag).isEmpty && !(s.moves.any fun m => decide (m.donor = tag)) then
      { s with jobs := s.jobs.filter fun e => decide (e.1 ≠ tag) }
    else s
  | none => s

/-! ## The commit (R22, R33) -/

/-- The scrub of a tile in transit has ended: within 12,288 cycles (step 6 of R31). -/
def State.scrubbed (s : State) (m : Move) : Bool :=
  m.evacuated && (decide (m.scrubAt + 12288 ≤ s.now) || decide (m.scrubAt + (Config.scrubCycles m.scrubAt).val ≤ s.now))

/-- The scrub has ended, and no move validated earlier holds one of this move's jobs; idle and FENCE hold none (R22). -/
def State.mayCommit (s : State) (m : Move) : Bool :=
  let holds (tag : Nat) (x : Move) : Bool := !isIdle tag && !isFence tag && (decide (x.donor = tag) || decide (x.gainer = tag))
  s.scrubbed m && !s.moves.any fun x => decide (x.seq < m.seq) && (holds m.donor x || holds m.gainer x)

/-- The cores of a tile that passes to idle. -/
def State.idleTile (s : State) (t : Nat) : State :=
  (coresOf t).foldl (fun s p => s.modCore p fun c => { c with status := .live }) s

/-- Starts a gain upcall with its record (R29, R30, R33). -/
def State.gainUpcall (s : State) (t tag other : Nat) : State :=
  match (if (s.job tag).upVec = 0 then none else s.liveCore t) with
  | none => s
  | some p =>
    let s := s.bankStore p eventOff (eventBytes 2 t other (s.job tag).epoch.toNat (s.tilesOf tag).length 0)
    (s.upcallThread p .gain).2

/-- MOVE_COMMIT: the tile is the gainer's, or idle's when the gainer has stopped (R22, R33, R36, R37). A commit to idle advances the donor's
epoch alone (log entry 81). -/
def execMoveCommit (tile : Nat) (s : State) : Res :=
  .next (
    match s.moveAt tile with
    | none => s
    | some m =>
      if m.launch.isSome || !s.mayCommit m then s
      else
        let b := m.goal
        let anchor := (s.job b).anchor
        let lock := if isIdle b then false else (s.tile anchor).lock
        let s := { s with moves := s.moves.erase m }
        let s := s.setTile tile ⟨tagIx b, lock⟩
        let s := (s.bumpEpoch m.donor).bumpEpoch b
        let s :=
          if isIdle b then s.idleTile tile
          else
            let model := s.core (anchor * 8)
            let s := s.correct (bankKey (anchor * 8) (s.job b).cbBase.toNat) 4096
            let cb := memRead s.ms.mem (bankKey (anchor * 8) (s.job b).cbBase.toNat) 4096
            ((s.prepareTile b tile model cb).lockAtFloor b).gainUpcall tile b m.donor
        s.reap m.donor)

/-! ## Seeds (R35, R430) -/

/-- The lowest local index that no job of a die holds. -/
def State.freeIndex (s : State) (die : Nat) : Option Nat :=
  (span 1 0x1FE).find? fun i => (s.liveJob? (tagOf die i)).isNone

/-- A job starts on its seed tile: the commit gives it the tile, an index, a serial and its tasks (R35, R57, R224, R430). -/
def State.seedJob (s : State) (l : Launch) (tile ix : Nat) (lock : Bool) : State :=
  let die := tile / 1024
  let tag := tagOf die ix
  let serial := ((s.die die).serial + 1) % 65536
  let s := s.modDie die fun d => { d with serial := serial }
  let j := { l.job with
    serial := serial, anchor := tile, epoch := 1, status := .active, seedGts := s.gts
    image := l.image, pool := l.tasks.map fun t => ⟨t, false⟩ }
  let s := s.setJob tag j
  let s := s.setTile tile ⟨ix, lock⟩
  let s := s.prepareTile tag tile j.launchCore (cbPage l.image)
  let s := s.modFab fun f => { f with
    tlb := f.tlb.filter fun t => decide (t.tag ≠ tag)
    migrating := f.migrating.filter fun x => decide (x.1 ≠ tag) }
  let s := s.modHub fun h => { h with launches := h.launches.filter fun x => decide (x.id ≠ l.id) }
  match mapGet? s.lan.slots j.keyslot with
  | some k => s.modLan fun x => { x with measured := (k.session, tag, s.gts, j.measure) :: x.measured }
  | none => s

/-- SEED_COMMIT: the seed tile passes to its new job (R35). A holder that stopped changes nothing. -/
def execSeedCommit (tile : Nat) (s : State) : Res :=
  .next (
    match s.moveAt tile with
    | none => s
    | some m =>
      match m.launch.bind fun i => s.hub.launches.find? fun l => decide (l.id = i), s.freeIndex (tile / 1024) with
      | some l, some ix =>
        if !s.mayCommit m then s
        else
          let s := { s with moves := s.moves.erase m }
          let s := (s.bumpEpoch m.donor).seedJob l tile ix false
          (s.lockAtFloor (tagOf (tile / 1024) ix)).reap m.donor
      | _, _ => s)

end Sys2Proof.Machine
end

