-- ==== Sys2Proof/Machine/Faults.lean ====
section
/-! DEFINITION. Die and device faults (R201), DARK (R202, R203), and the debugger (R210 to R212). -/

namespace Sys2Proof.Machine

/-- DIE_FAULT: every job on the die freezes (R201). -/
def execDieFault (die : Nat) (s : State) : Res := .next (s.freezeDie die 0x03)

/-- DEVICE_FAULT: every job on the device freezes (R201). -/
def execDeviceFault (s : State) : Res := .next (s.freezeDevice 0x04)

/-- A thread of a core that turns DARK: resident, in an image, or parked from it (R203). -/
def Thread.onDark (t : Thread) (p : Pcn) : Bool := decide (t.pcn = p) && (t.image.isSome || t.slot.isSome || decide (t.status = .parked))

/-- DARK_APPLY: Lantern sets a core DARK, as a job asked (R202, R203). -/
def execDarkApply (pcn : Nat) (s : State) : Res :=
  .next (
    let c := s.core pcn
    if c.darkAt.isNone || decide (c.status ≠ .live) then s
    else
      let tag := s.owner (tileOf pcn)
      let s := [0, 1, 2, 3].foldl (fun s (k : Fin 4) => s.closeParty pcn k) s
      let ended := (s.threads.filter fun e => e.2.onDark pcn).map (·.1)
      let s := s.dropThreads fun t => t.onDark pcn
      let s := s.discardOps fun o => ended.contains o.uid
      let s := { s with moves := s.moves.map fun (m : Move) =>
        if (m.upcall.map ended.contains).getD false then { m with upcall := none } else m }
      let s := match (s.core pcn).dispatched with
        | some r => s.poolReturn tag r
        | none => s
      let s := s.modCore pcn fun c => { c with
        status := .dark, darkAt := none, dispatched := none, journal := [], copyQ := [], matQ := [], copyBusy := none }
      s.endIfSpent tag)

/-- DEBUGGER_STOP: a stop that the debugger asks for (R211). -/
def execDebuggerStop (pcn : Nat) (s : State) : Res := .next (s.stopCore pcn stopDebugger)

/-- DEBUGGER_RESUME: a halted core goes on; with STEP it halts again after one instruction (R212). -/
def execDebuggerResume (pcn : Nat) (s : State) : Res :=
  .next (
    if (s.core pcn).halted then
      (s.modCore pcn fun c => { c with
        halted := false, haltGrp := 0, stopCause := none, stepping := c.step, nextIssue := max c.nextIssue s.now }).freeGroups
    else s)

/-- DEBUGGER_ATTACH: ATT and ENGFRZ as the debugger sets them; without a debugger there is no step (R210). -/
def execDebuggerAttach (pcn : Nat) (att : Bool) (engfrz : BitVec 4) (s : State) : Res :=
  .next (s.modCore pcn fun c => { c with att := att, engfrz := engfrz, step := c.step && att, stepping := c.stepping && att })

end Sys2Proof.Machine
end

