-- ==== Sys2Proof/Machine/System.lean ====
section
/-! DEFINITION. TRAP, BKPT (R321, R405), EXIT, UPRET, YIELD, MIG, LDX.MG (R340, R368, R379, R409, R426), and the steps in which a
trap is taken before an instruction issues (R193, R198) or a result falls due (R78, R80). -/

namespace Sys2Proof.Machine

def execTrap (i : BitVec 16) (s : State) : Res := s.issue [] [] 0 fun s => s.takeTrap (trapOf cTrapi (i.setWidth 64))

/-- BKPT stops the core at the next instruction when a debugger is attached, and traps otherwise (R321). -/
def execBkpt (s : State) : Res :=
  s.issue [] [] 0 fun s =>
    if s.myCore.att then (s.finish 4 1).stopCore s.me.pcn stopBkpt else s.takeTrap (trapOf cBkpt 0)

/-- EXIT is ILLEGAL in a handler (R340). -/
def execExit (s : State) : Res :=
  if s.me.inHandler then s.raise (trapOf cIllegal (s.illegalWord .exit))
  else s.issue [] [] 0 fun s => s.closeRegion.exitThread

/-- UPRET is ILLEGAL outside an upcall thread and in a handler (R409). -/
def execUpret (s : State) : Res :=
  if s.me.upcall = .none ∨ s.me.inHandler then s.raise (trapOf cIllegal (s.illegalWord .upret))
  else s.issue [] [] 0 fun s => s.closeRegion.exitThread

/-- YIELD: no effect in an upcall thread, nor when no other thread of the core is READY (R426). -/
def execYield (s : State) : Res :=
  s.issue [] [] 0 fun s =>
    let others := (s.readyOn s.me.pcn).any fun e => decide (e.1 ≠ s.cur)
    let s := s.finish 4 1
    if s.me.upcall = .none && others then s.modMe fun t => { t with status := .ready, readySince := s.now } else s

/-- The trap of a MIG to an address: no core holds it, or one that is not of the job or is DARK (R71, R379). -/
def State.migTrap (s : State) (a : Word) : Option Trap :=
  match migTarget s.me.pcn a with
  | none => some (trapOf cAddr a)
  | some q => if s.owner (tileOf q) ≠ s.me.job ∨ (s.core q).status = .dark then some (trapOf cAddr a) else none

def execMig (a : GReg) (s : State) : Res :=
  if s.me.upcall ≠ .none ∨ s.me.inHandler then s.raise (trapOf cIllegal (s.illegalWord (.mig a)))
  else s.issue [.g a] [] 0 fun s =>
    let va := s.readG 0 a
    match s.migTrap va with
    | some tr => s.takeTrap tr
    | none => s.migrate ((migTarget s.me.pcn va).getD s.me.pcn)

/-- LDX.MG acts as MIG, and its load follows at the destination (R368). -/
def execLdxMg (t b : GReg) (st : Strm) (m : Sel) (k : Tok) (w : Width) (x : Bool) (s : State) : Res :=
  if s.me.upcall ≠ .none ∨ s.me.inHandler then s.raise (trapOf cIllegal (s.illegalWord (.ldxMg t b st m k w x)))
  else s.issue [.g b] [] 0 fun s =>
    let va := s.baseAddr b
    match (s.migTrap va).or (addrTrap true va (Width.bytes w)) with
    | some tr => s.takeTrap tr
    | none =>
      let s := s.modMe fun th => { th with mgLoad := some ⟨va, t, k, st, th.mask m, w, x⟩ }
      s.migrate ((migTarget s.me.pcn va).getD s.me.pcn)

/-- ILLEGAL_ENCODING: bits that no instruction has, as fetched at the pc (R193, R275). -/
def execIllegalEncoding (w : BitVec 32) (s : State) : Res := s.raise (trapOf cIllegal (w.setWidth 64))

/-- RESULT_FALLS_DUE: the results due by now are in their registers (R78, R80). -/
def execResultFallsDue (u : Uid) (s : State) : Res :=
  .next (if (mapGet? s.threads u).isSome then s.modThread u fun t => t.settle s.now else s)

/-- Whether the instruction at a thread's pc is a PFX (R195). -/
def State.atPfx (s : State) (t : Thread) : Bool :=
  match s.fetchInstr t.pcn t.job t.pc with
  | .instr (.pfx ..) _ => t.pfx.isNone
  | _ => false

/-- PSTORE_DELIVERY: before the next instruction of a RUNNING thread (R198), never inside a PFX pair (R213). -/
def execPstoreDelivery (u : Uid) (s : State) : Res :=
  .next (
    if (s.thread u).status = .running ∧ (s.thread u).pfx.isNone then
      match s.pstoreFor u with
      | some e => (({ s with cur := u }.begin).trapPstore e (s.atPfx (s.thread u))).endStep (s.thread u).pcn
      | none => s
    else s)

end Sys2Proof.Machine
end

