-- ==== Sys2Proof/Machine/Issue.lean ====
section
/-! DEFINITION. What a core does before it executes an instruction: the choice of a thread (R44), the fetch (R267, R268), the
traps that come before an instruction issues (R193, R198) and the holds of a fetch miss, of a register fill and of a redirected stack access
(R42, R68, R82). -/

namespace Sys2Proof.Machine

/-! ## Instruction fetch (R268) -/

/-- Lines of an instruction cache of 16 KiB (R1; log entry 7). -/
def ilines : Nat := 256

/-- Puts a line of text into a core's instruction cache; the oldest leaves a full one. -/
def State.icacheFill (s : State) (p : Pcn) (tag : Nat) (va : Word) (data : List Byte) : State :=
  s.modCore p fun c =>
    let keep := if ilines ≤ c.icache.length then c.icache.drop 1 else c.icache
    { c with icache := keep ++ [⟨tag, va.toNat / ilineBytes, data⟩] }

/-- The line of text at an address, which thread `u` of core `p` asks its home slice for over the mesh: a slice read, that a line may refuse
and that is forwarded to another owner (R118, R126, R214, R268). -/
def State.textLine (s : State) (p : Pcn) (u : Uid) (tag : Nat) (va : Word) : Got :=
  let a := va &&& ~~~63
  match s.trip u 0 (tileOf p) (homeTile p a) a ilineBytes false fun t s =>
      s.sliceAccess t.asker u tag a ilineBytes ⟨true, false, false, true⟩ none with
  | .wait s => .wait s
  | .fail s r b => .fail (s.dropFwds u) r b
  | .ok s bs => .ok (s.dropFwds u) bs

/-- The fetch of a thread's next instruction; after a PFX the instruction it governs is fetched with it, but for one that is ILLEGAL by what
has been fetched (R194, R285). -/
def State.fetchFor (s : State) (t : Thread) : FetchedInstr :=
  match s.fetchInstr t.pcn t.job t.pc with
  | .instr (.pfx a b c) n =>
    if s.pfxBad t a b (t.pc + 4) then .instr (.pfx a b c) n
    else match s.fetchInstr t.pcn t.job (t.pc + 4) with
      | .miss va => .miss va
      | .fail va => .fail va
      | _ => .instr (.pfx a b c) n
  | r => r

/-- A thread asks no longer for what it was fetching or for a redirected access: it issues, or it traps (R73). -/
def State.quit (s : State) (u : Uid) : State := s.modFab fun f => f.quit [u]

/-- Whether a core's thread may issue: a halted core issues nothing, but for the second half of a PFX pair (R31, R204, R212, R213). -/
def State.mayIssue (s : State) (p : Pcn) (t : Thread) : Bool := s.coreUp p && (!(s.core p).halted || t.pfx.isSome)

/-- The traps of a thread that cannot fetch: a refused posted store first, then ADDR (R194, R198). `pair`: the instruction at the pc is a
PFX, whose governed instruction cannot be fetched (R195, R213). -/
def State.fetchTrap (s : State) (u : Uid) (va : Word) (pair : Bool) : State :=
  let s := ({ s with cur := u }.quit u).begin
  match (if s.me.pfx.isNone then s.pstoreFor u else none) with
  | some e => (s.trapPstore e pair).endStep s.me.pcn
  | none => (s.takeTrap { trapOf cAddr va with pair := pair }).endStep s.me.pcn

/-- INSTRUCTION_FETCH_FILL: the line that a core's thread misses arrives from its text page, or the fetch traps ADDR. -/
def execInstructionFetchFill (pcn : Nat) (s : State) : Res :=
  .next (
    match s.runningOn pcn with
    | none => s
    | some (u, t) =>
      if t.redirect.isSome || !s.mayIssue pcn t then s
      else match s.fetchFor t with
        | .miss va =>
          (match s.textLine pcn u t.job va with
           | .wait s => s
           | .ok s data => s.icacheFill pcn t.job va data
           | .fail s _ _ => s.fetchTrap u va (s.atPfx t))
        | .fail va => s.fetchTrap u va (s.atPfx t)
        | _ => s)

/-! ## Redirected stack accesses (R68) -/

/-- Whether the stream edges of a thread's redirected access hold. -/
def State.redirectMay (s : State) (u : Uid) (r : Redirect) : Bool :=
  let shadow := (s.thread u).inHandler
  !s.ops.any fun e =>
    decide (e.2.uid = u) && decide (e.2.inShadow = shadow) && !e.2.counted &&
    match e.2.strm with
    | some k => decide (k = r.strm) || r.mask.getLsbD k.val
    | none => false

/-- A redirected load's value reaches its register as the load's latency lays down, the held cycles counted. -/
def State.redirectLoad (s : State) (r : Redirect) (bs : List Byte) : State :=
  let issued := s.me.lastIssue
  s.retire r.dst (issued + loadLatency r.dst - s.now) (loadValue r.dst bs r.sx) (fullMask r.dst)

/-- The end of a redirected access of the executing thread: its bytes, for a load. -/
def State.redirectEnd (s : State) (r : Redirect) (bs : List Byte) : State :=
  let p := s.me.pcn
  let s := (s.quit s.cur).modMe fun t => { t with redirect := none }
  ((if r.store.isNone then s.redirectLoad r bs else s).finish r.size 1).endStep p

/-- A redirected access traps. -/
def State.redirectStop (s : State) (tr : Trap) : State :=
  (((s.quit s.cur).modMe fun t => { t with redirect := none }).takeTrap tr).endStep s.me.pcn

/-- The executing thread's access, over the mesh to its slice. One that cannot be translated traps SPILL, and one that meets poison or a bad
tag traps LMUE (R68, R111, R238). -/
def State.redirectDo (s : State) (r : Redirect) : State :=
  let u := s.cur
  let p := s.me.pcn
  let tag := s.me.job
  match s.trip u 0 (tileOf p) (homeTile p r.va) r.va r.bytes r.store.isSome fun t s =>
      s.sliceAccess t.asker u tag r.va r.bytes ⟨r.store.isNone, true, false, true⟩ r.store with
  | .wait s => s
  | .fail s x b => s.redirectStop (if x = 0x09 then trapOf cLmue b else trapOf cSpill r.va)
  | .ok s bs => s.redirectEnd r bs

/-- REDIRECTED_ACCESS_COMPLETION: the access performs at its slice and the hold ends, or it traps. A single step ends with it (R212). -/
def execRedirectedAccessCompletion (u : Uid) (s : State) : Res :=
  .next (
    match mapGet? s.threads u with
    | none => s
    | some t =>
      match t.redirect with
      | none => s
      | some r => if t.status = .running ∧ s.redirectMay u r then { s with cur := u }.redirectDo r else s)

/-! ## Register fills (R42, R82) -/

/-- The registers that an instruction reads. -/
def readsOf : Instr → List Reg
  | .add _ a b | .sub _ a b | .and _ a b | .or _ a b | .xor _ a b | .shl _ a b | .shr _ a b | .sar _ a b | .min _ a b | .minu _ a b
  | .max _ a b | .maxu _ a b | .slt _ a b | .sltu _ a b | .seq _ a b | .mul _ a b | .mulh _ a b | .mulhu _ a b | .div _ a b _
  | .divu _ a b _ | .rem _ a b _ | .remu _ a b _ | .fadd _ a b _ | .fsub _ a b _ | .fmul _ a b _ | .fmin _ a b _ | .fmax _ a b _
  | .feq _ a b _ | .flt _ a b _ | .fle _ a b _ | .fsgn _ a b _ | .fsgnn _ a b _ | .fsgnx _ a b _ | .fdiv _ a b _ _ | .beq a b _
  | .bne a b _ | .blt a b _ | .bge a b _ | .bltu a b _ | .bgeu a b _ | .addShort a b | .subShort a b | .stShort a b | .st a b _ _ _ _
  | .stx a b _ _ _ _ | .stxSf a b _ _ _ _ | .stxNl a b _ _ _ | .stxNh a b _ _ _ | .aadd a b _ _ _ _ | .aand a b _ _ _ _
  | .aor a b _ _ _ _ | .axor a b _ _ _ _ | .amin a b _ _ _ _ | .amax a b _ _ _ _ | .aminu a b _ _ _ _ | .amaxu a b _ _ _ _
  | .aswp a b _ _ _ _ | .watch a b _ _ _ _ | .mma a b _ _ _ _ _ | .mmod a b _ _ _ _ | .mload a b _ _ _ _ | .mdrain a b _ _ _ _
  | .spawn a b _ _ _ | .ffmak a b _ | .ffmal a b _ | .ffmai a b _ => [.g a, .g b]
  | .sel a b c | .ffma a b c _ | .cpy a b c _ _ _ | .cpy2d a b c _ _ _ | .mcrd a b c _ _ _ | .bind a b c _ _ _
  | .signal a b c _ _ _ => [.g a, .g b, .g c]
  | .acas t b _ _ _ _ => [.g b, .g t, .g (t + 1)]
  | .clz _ a | .ctz _ a | .popc _ a | .sext _ a _ | .zext _ a _ | .addi _ a _ | .andi _ a _ | .ori _ a _ | .xori _ a _ | .shli _ a _
  | .shri _ a _ | .sari _ a _ | .mov _ a | .addiShort a _ | .shliShort a _ | .movk a _ _ | .litH a _ | .fclass _ a _ | .fcvt _ a _ _
  | .faddk _ a _ | .fmulk _ a _ | .faddl _ a _ | .fmull _ a _ | .faddi _ a _ | .fmuli _ a _ | .fsqrt _ a _ _ | .bz a _ | .bnz a _
  | .bnzShort a _ | .jr a | .callr a | .ld _ a _ _ _ _ _ | .ldShort _ a | .vld _ a _ _ _ | .vldShort _ a | .ldx _ a _ _ _ _ _
  | .ldxWf _ a _ _ _ _ _ | .ldxWfc _ a _ _ _ _ _ | .ldxMg _ a _ _ _ _ _ | .vldx _ a _ _ _ | .vldxWf _ a _ _ _ | .vldxWfc _ a _ _ _
  | .chunk _ a _ _ _ | .feclr a _ _ _ | .feset a _ _ _ | .mzero _ a _ _ | .cpyl a _ _ _ | .taskq a _ _ _ | .join a _ _ _
  | .leave a _ _ _ | .gbar a | .tshape _ a _ | .tpress a _ | .mig a => [.g a]
  | .vst t b _ _ _ | .vstShort t b | .vstx t b _ _ _ | .vstxSf t b _ _ _ => [.v t, .g b]
  | .vadd _ a b k _ | .vsub _ a b k _ | .vmul _ a b k _ | .vmin _ a b k _ | .vmax _ a b k _ | .vand _ a b k _ | .vor _ a b k _
  | .vxor _ a b k _ | .vshl _ a b k _ | .vshr _ a b k _ | .vsar _ a b k _ | .vsel _ a b k _ | .vmodadd _ a b k | .vmodsub _ a b k
  | .vmodmul _ a b k | .vntt _ a b k | .vperm _ a b k _ | .vcmp _ a b k _ _ => [.v a, .v b] ++ kRead k
  | .vfma d a b k _ => [.v a, .v b, .v d] ++ kRead k
  | .vaddShort a b | .vmulShort a b | .vmaxShort a b => [.v a, .v b]
  | .vabs _ a k _ | .vneg _ a k _ | .vmov _ a k _ | .vcvt _ a k _ _ _ | .vred _ a _ k _ | .vexp2 _ a k _ | .vrcp _ a k _
  | .vrsqrt _ a k _ => .v a :: kRead k
  | .vbcast _ a k _ => .g a :: kRead k
  | .vmovShort _ a | .vext _ a _ _ => [.v a]
  | .kand _ a b | .kor _ a b | .kxor _ a b => kRead a ++ kRead b
  | .knot _ a => kRead a
  | .csrr _ c => csrReads c.toNat
  | .csrw a _ => [.g a]
  | .csrx _ a c => .g a :: csrReads c.toNat
  | _ => []

/-- The registers that an instruction of a thread reads and that its slot has not loaded. -/
def Thread.unloaded (t : Thread) (i : Instr) : List Reg := (readsOf i).filter t.cold.contains

/-- The lines of some registers are loaded for a thread that stands before an instruction: the instruction is held until they have come. -/
def State.loadLines (s : State) (u : Uid) (rs : List Reg) : State :=
  let s := s.modThread u fun t => { t with
    cold := t.cold.filter fun r => !rs.contains r
    notBefore := max s.now (max (s.core t.pcn).nextIssue t.notBefore) + Config.fillCycles s.fresh }
  { s with fresh := s.fresh + 1 }

/-! ## Issue -/

/-- What a core's turn comes to. -/
inductive Ready
  | wait (s : State)                          -- nothing to issue in this cycle
  | idle (s : State)                          -- the turn is used up
  | run (s : State) (i : Instr) (size : Nat)  -- an instruction issues
  | illegal (s : State) (w : BitVec 32)       -- bits that no instruction has
deriving DecidableEq, Repr

/-- A running thread, ready to fetch. A refused posted store traps before the instruction at the pc, or in place of a fetch that fails. -/
def State.readyThread (s : State) (p : Pcn) (u : Uid) (t : Thread) : Ready :=
  let s := { s with cur := u }
  if t.redirect.isSome then .wait s
  else if (s.quantumSpent p).isSome then
    match execQuantumExpiry p s with
    | .next s => .idle s
    | _ => .idle s
  else match s.fetchInstr p t.job t.pc with
    | .miss _ => .wait s
    | .fail va => .idle (s.fetchTrap u va (s.atPfx t))
    | got =>
      match (if t.pfx.isNone then s.pstoreFor u else none) with
      | some e => .idle ((s.begin.trapPstore e (s.atPfx t)).endStep p)
      | none =>
        match got with
        | .instr i n => if t.unloaded i = [] then .run s i n else .idle (s.loadLines u (readsOf i))
        | .illegal w => .illegal s w
        | _ => .wait s

/-- A core's turn: it chooses a thread and what it issues. A halted core issues nothing, but for the second half of a PFX pair. -/
def State.prepare (s : State) (p : Pcn) : Ready :=
  let s := if (s.core p).halted then s else s.select p
  match s.runningOn p with
  | none => .wait s
  | some (u, t) =>
    if !s.mayIssue p t then .wait s else s.readyThread p u t

/-- The end of a single step: the core halts after an instruction that has issued and is no PFX (R212). One that was held has not issued, and
one whose stack access is redirected ends with that access. `before`: the state in which it was executed. -/
def State.afterIssue (s before : State) (p : Pcn) (i : Instr) : State :=
  let half := match i with
    | .pfx .. => (s.threads.any fun e => decide (e.2.pcn = p) && e.2.pfx.isSome)
    | _ => false
  if half || decide ((s.core p).nextIssue = (before.core p).nextIssue) ||
      (s.threads.any fun e => decide (e.2.pcn = p) && e.2.redirect.isSome) then s
  else s.endStep p

end Sys2Proof.Machine
end

