-- ==== Sys2Proof/Machine/Host.lean ====
section
/-! DEFINITION. The host port: posted writes, their numbers and the horizon (R149, R150), BAR0 (R220), host reads, the access
checks of functions (R234, R235), the hub copy engine and the scale-up ports (R226, R228), the clock and bring-up (R229). -/

namespace Sys2Proof.Machine

/-! ## A function's access to device memory (R232 to R235) -/

/-- The entry that lets a master's access by physical address through, at every slice that it touches and at the HBM controller. The home of a
physical address is that of the same virtual one (log entry 40). -/
def State.sliceEntry (s : State) (master die pa n : Nat) (rd wr : Bool) : Option AccessEntry :=
  s.pathEntry master die (BitVec.ofNat 64 pa) pa n rd wr

/-- The entries that let a function's access through: at the host interface or the hub copy engine, and at the slice. -/
def State.fnEntry (s : State) (target fn die pa n : Nat) (rd wr : Bool) : Option (AccessEntry × AccessEntry) :=
  match s.tableEntry target (masterFn fn) die pa n rd wr, s.sliceEntry (masterFn fn) die pa n rd wr with
  | some e, some x => some (e, x)
  | _, _ => none

/-- The key instance under which a slice tags a sector written by physical address: in the tagged region it is the window's (R236, R237). -/
def State.paTag (s : State) (die pa : Nat) (x : AccessEntry) : Option Nat :=
  if (s.die die).tagLo.toNat ≤ pa ∧ pa < (s.die die).tagHi.toNat then some (s.winInst x) else none

/-- TDISP's state of a VF (R240). -/
def State.tdispOf (s : State) (vf : Nat) : Tdisp := (mapGet? s.lan.tdisp vf).getD .unlocked

/-- The key instance of a slot bound to a VF. -/
def State.vfSlotInst (s : State) (slot vf : Nat) : Option Nat :=
  (mapGet? s.lan.slots slot).bind fun k => if slot ≠ 0 ∧ k.vf = vf then some k.inst else none

/-- Whether the 64 KiB page of a key holds the tag of a CLEAR sector: it is a CLEAR page (log entry 9). -/
def State.clearPageAt (s : State) (key : Nat) : Bool :=
  s.ms.seals.any fun e => e.2.clear && decide (e.1 / 1024 = key / 65536)

/-- How a host access goes: refused, plain under a slice's tag, or sealed under a key instance. -/
inductive HostWay
  | refused
  | plain (tag : Option Nat)
  | sealed (inst : Nat)
deriving DecidableEq, Repr

/-- A window with SEAL = 1 is open only to a VF in RUN, over its IDE stream, under its own key slot, and there for SEALED pages (R235). -/
def State.hostWay (s : State) (fn die pa n : Nat) (rd wr ide : Bool) : HostWay :=
  match s.fnEntry tgtHost fn die pa n rd wr with
  | none => .refused
  | some (e, x) =>
    if !e.seal then .plain (s.paTag die pa x)
    else if decide (fn = 0) || !ide || decide (s.tdispOf fn ≠ .run) || s.clearPageAt (hbmKey die pa) ||
        s.clearPageAt (hbmKey die (pa + (n - 1))) then .refused
    else match s.vfSlotInst e.keyslot fn with
      | some i => .sealed i
      | none => .refused

/-- A sector of a SEALED page, touched by `n` bytes at a key, that does not match under a key instance; `part`: of those not covered
whole. -/
def State.hostBad (s : State) (inst key n : Nat) (part : Bool) : Option Nat :=
  (sectors key n).find? fun sec =>
    !(part && coversSector key n sec) &&
    match s.sealOf sec with
    | some z => z.bad || z.clear || decide (z.key ≠ inst)
    | none => true

/-- The tags that an access by physical address meets as its lines are filled (R236, R238). -/
def State.paTags (s : State) (die pa n : Nat) (tag : Option Nat) (master : Nat) (part : Bool) : State :=
  s.checkTags die (BitVec.ofNat 64 pa) (hbmKey die pa) n tag master part

/-- A write by physical address that performs at its slice, to a page that is not SEALED; none: a sector that it writes in part is poisoned,
and it cannot be merged (R111, R238). -/
def State.paWrite? (s : State) (die pa : Nat) (tag : Option Nat) (master : Nat) (bs : List Byte) : State × Bool :=
  let s := s.paTags die pa bs.length tag master true
  if s.unmergeable (hbmKey die pa) bs.length then (s, false) else (s.plainWrite tag (hbmKey die pa) bs, true)

def State.paWrite (s : State) (die pa : Nat) (tag : Option Nat) (master : Nat) (bs : List Byte) : State :=
  (s.paWrite? die pa tag master bs).1

/-- The part of a host write in one line. One to a SEALED page whose version would wrap is refused (log entry 95). -/
def State.hostLineWrite (s : State) (fn die pa : Nat) (bs : List Byte) (ide : Bool) : State :=
  let key := hbmKey die pa
  match s.hostWay fn die pa bs.length false true ide with
  | .refused => s.say (.unsupported fn)
  | .plain tag =>
    match s.paWrite? die pa tag (masterFn fn) bs with
    | (s, true) => s
    | (s, false) => s.say (.unsupported fn)
  | .sealed i =>
    match s.hostBad i key bs.length true with
    | some sec => (s.logTag sec (masterFn fn)).say (.unsupported fn)
    | none =>
      if s.versionWraps 0x80 key bs.length then s.say (.unsupported fn)
      else (s.sealWrite i key bs.length).sliceWrite key bs

/-- A host write that performs at its slices, each line of it at its own. One that is refused at one of them writes nothing (R234). -/
def State.hostMemWrite (s : State) (fn die pa : Nat) (bs : List Byte) (ide : Bool) : State :=
  if s.hostWay fn die pa bs.length false true ide = .refused then s.say (.unsupported fn)
  else (lineParts (hbmKey die pa) bs.length).foldl
    (fun s x => s.hostLineWrite fn die (pa + x.1) ((bs.drop x.1).take x.2) ide) s

/-- No access to `n` bytes at a physical address performs now (R128, R149, R239). -/
def State.paBusy (s : State) (die pa n : Nat) : Bool := s.keyBusy (hbmKey die pa) n

/-- A line that `n` bytes touch is locked by a key sweep, or its page is being migrated. -/
def State.paSwept (s : State) (die pa n : Nat) : Bool :=
  (lineParts (hbmKey die pa) n).any fun x =>
    s.lineSwept (lineOf (hbmKey die pa + x.1)) || s.keyMoving (hbmKey die pa + x.1)

/-! ## The hub copy engine (R226, R228) -/

def State.channel (s : State) (c : Nat) : Channel := (mapGet? s.hub.channels c).getD Channel.reset
def State.modChannel (s : State) (c : Nat) (f : Channel → Channel) : State :=
  s.modHub fun h => { h with channels := mapSet h.channels c (f (s.channel c)) }

/-- The 32 bytes of a template. -/
def State.templateBytes (s : State) (t : Nat) : List Byte :=
  (span (32 * t) 32).map fun k => (mapGet? s.hub.templates k).getD 0

def Template.ofBytes (bs : List Byte) : Template :=
  ⟨leWord (bs.take 8), leWord ((bs.drop 8).take 8), wordAt bs 4, leNat ((bs.drop 20).take 2)⟩

/-- A template's values (R226). -/
def templateOk (bs : List Byte) : Bool :=
  let t := Template.ofBytes bs
  decide (64 ≤ t.len) && decide (t.len ≤ 2 ^ 24) && t.len % 64 == 0 && (decide (t.dev < 512) || decide (t.dev = 0xFFFF)) &&
  (bs.drop 22).all fun b => b == 0

/-- Die and physical address of an address that the hub uses (log entry 41). -/
def hubAddr (a : Word) : Nat × Nat := (wfld a 52 3, wfld a 0 52)

/-- The sectors of `n` bytes as offsets. -/
def offsets64 (n : Nat) : List Nat := (List.range (n / 64)).map (64 * ·)

/-- Whether a function may have the hub copy engine access `n` bytes at an address: never a window with SEAL = 1. -/
def State.copyPasses (s : State) (fn : Nat) (a : Word) (n : Nat) (rd wr : Bool) : Bool :=
  let (die, pa) := hubAddr a
  decide (wfld a 55 9 = 0) && (offsets64 n).all fun o =>
    ((s.fnEntry tgtHubCopy fn die (pa + o) 64 rd wr).map fun e => !e.1.seal).getD false

/-- An aperture store's effect. -/
def State.hubStart (s : State) (fn chan : Nat) (data : Word) : State :=
  let c := s.channel chan
  let bs := s.templateBytes (wfld data 0 8)
  let t := Template.ofBytes bs
  if 4 ≤ c.starts.length then s.modChannel chan fun c => { c with overrun := true }
  else if decide (wfld data 8 56 = 0) && templateOk bs && s.copyPasses fn t.src t.len true false &&
      (decide (t.dev ≠ 0xFFFF) || s.copyPasses fn t.dst t.len false true) then
    s.modChannel chan fun c => { c with starts := c.starts ++ [(fn, t)] }
  else s.modChannel chan fun c => { c with error := true }

/-- The live planes in ascending number. -/
def State.livePlanes (s : State) : List Nat := (List.range 32).filter fun p => s.hub.planes.getLsbD p

/-- The plane of a destination address (R228). -/
def planeOf (live : List Nat) (a : Word) : Nat := live.getD (wfld a 9 5 % live.length) 0

/-- The tag of a function's window at an address that the hub copy engine uses. -/
def State.copyTag (s : State) (fn die pa : Nat) (rd wr : Bool) : Option Nat :=
  (s.sliceEntry (masterFn fn) die pa 64 rd wr).bind (s.paTag die pa)

/-- One sector of a copy: it is written here or sent, to the plane of its destination address. One that cannot be read stops the copy. -/
def State.copySector (s : State) (fn : Nat) (t : Template) (o : Nat) : State × Bool :=
  let (d, pa) := hubAddr t.src
  let (dd, dpa) := hubAddr t.dst
  let dst := t.dst + BitVec.ofNat 64 o
  let s := s.paTags d (pa + o) 64 (s.copyTag fn d (pa + o) true false) (masterFn fn) false
  if (s.poisonedIn (hbmKey d (pa + o)) 64).isSome then (s, false)
  else
    let bs := s.seen 0 (hbmKey d (pa + o)) 64
    if t.dev = 0xFFFF then (s.paWrite dd (dpa + o) (s.copyTag fn dd (dpa + o) false true) (masterFn fn) bs, true)
    else (s.say (.scaleSector (planeOf s.livePlanes dst) t.dev dst bs), true)

/-- The sectors of a copy in rising order, as far as they can be read. -/
def State.copySectors (s : State) (fn : Nat) (t : Template) : List Nat → State × Bool
  | [] => (s, true)
  | o :: r =>
    match s.copySector fn t o with
    | (s, true) => s.copySectors fn t r
    | (s, false) => (s, false)

/-- HUB_COPY_START: a store to the aperture that has a number and no earlier one still held (R149, R226). -/
def execHubCopyStart (fn chan : Nat) (data : Word) (s : State) : Res :=
  .next (
    if 64 < fn ∨ 64 ≤ chan ∨ s.hub.held ≠ [] then s
    else (s.modHub fun h => { h with seqNo := h.seqNo + 1, horizon := h.seqNo + 1 }).hubStart fn chan data)

/-- HUB_COPY_COMPLETION: the channel's oldest start moves every sector. A line that is busy, or the want of a live plane, keeps it waiting. A
copy within the device is then complete; one to another device when every sector has been acknowledged, which is the event's second
occurrence (R228). -/
def execHubCopyCompletion (chan : Nat) (s : State) : Res :=
  .next (
    match (s.channel chan).starts with
    | [] => s
    | (fn, t) :: rest =>
      let retire (s : State) (bad : Bool) : State :=
        s.modChannel chan fun c => { c with starts := rest, sent := false, error := c.error || bad }
      if (s.channel chan).sent then retire s false
      else if s.paBusy (hubAddr t.src).1 (hubAddr t.src).2 t.len ||
          (if t.dev = 0xFFFF then s.paBusy (hubAddr t.dst).1 (hubAddr t.dst).2 t.len else s.livePlanes.isEmpty) then s
      else match s.copySectors fn t (offsets64 t.len) with
        | (s, false) => retire s true
        | (s, true) => if t.dev = 0xFFFF then retire s false else s.modChannel chan fun c => { c with sent := true })

/-- SCALE_UP_SECTOR_ARRIVAL: a sector from another device is written and acknowledged. It is checked as an access of the hub copy
engine for the PF (log entry 42). -/
def execScaleUpSectorArrival (plane die pa : Nat) (data : List Byte) (s : State) : Res :=
  .next (
    match s.fnEntry tgtHubCopy 0 die pa 64 false true with
    | none => s
    | some (e, x) =>
      if s.livePlanes.contains plane && decide (die < 8) && pa % 64 == 0 && data.length == 64 && !e.seal && !s.paBusy die pa 64 then
        (s.paWrite die pa (s.paTag die pa x) (masterFn 0) data).say (.ack plane)
      else s)

/-- LIVE_PLANE_CHANGE (R228). -/
def execLivePlaneChange (plane : Fin 32) (live : Bool) (s : State) : Res :=
  .next (s.modHub fun h => { h with
    planes := if live then h.planes ||| (1#32 <<< plane.val) else h.planes &&& ~~~(1#32 <<< plane.val) })

/-! ## Queues and their control blocks (R221, R227, R232) -/

def State.queue (s : State) (q : Nat) : Queue := (mapGet? s.hub.queues q).getD Queue.reset
def State.setQueue (s : State) (q : Nat) (x : Queue) : State := s.modHub fun h => { h with queues := mapSet h.queues q x }
def State.modQueue (s : State) (q : Nat) (f : Queue → Queue) : State := s.setQueue q (f (s.queue q))

/-- The command processor that serves a queue (R221). -/
def procOf (q : Nat) : Nat := q % 8

/-- The entry that lets the processor of a queue through at a slice (R232; log entry 67). -/
def State.fwEntry (s : State) (q die pa n : Nat) (rd wr : Bool) : Option AccessEntry := s.sliceEntry (masterFw (procOf q)) die pa n rd wr

/-- Reads `n` bytes for the processor of a queue; a read that is refused or meets poison gives zeros (log entry 67). -/
def State.fwRead (s : State) (q die pa n : Nat) : List Byte :=
  if (s.fwEntry q die pa n true false).isSome && (s.poisonedIn (hbmKey die pa) n).isNone then s.seen 0x100 (hbmKey die pa) n
  else List.replicate n 0

/-- The tags of what the processor reads: sectors that do not match are poisoned and logged (R236, R238). -/
def State.fwTags (s : State) (q die pa n : Nat) : State :=
  match s.fwEntry q die pa n true false with
  | some e => s.paTags die pa n (s.paTag die pa e) (masterFw (procOf q)) false
  | none => s

/-- The capability for a queue's control block: 256 bytes (R221, R227). -/
def Queue.qcbCap (x : Queue) : Cap := ⟨x.regs.qcbPa, 256⟩

/-- A field of a queue's control block. -/
def State.qcb (s : State) (q : Nat) (off n : Nat) : Nat :=
  let x := s.queue q
  leNat (s.fwRead q x.regs.qcbDie (x.qcbCap.base + off) n)

/-- The tags of the control block's fields, as they are read. -/
def State.qcbTags (s : State) (q : Nat) : State := s.fwTags q (s.queue q).regs.qcbDie (s.queue q).qcbCap.base 0x80

/-- A field of a queue's control block, which lies on a CLEAR page, is written; a refused write, and one that cannot be merged, writes
nothing. -/
def State.putQcb (s : State) (q : Nat) (off n v : Nat) : State :=
  let x := s.queue q
  match s.fwEntry q x.regs.qcbDie (x.qcbCap.base + off) n false true with
  | some e => s.paWrite x.regs.qcbDie (x.qcbCap.base + off) (some (s.winInst e)) (masterFw (procOf q)) (leBytes n v)
  | none => s

/-- The line of a queue's control block is busy: no access performs there now. -/
def State.qcbHeld (s : State) (q : Nat) : Bool := s.paBusy (s.queue q).regs.qcbDie (s.queue q).regs.qcbPa 256

/-- The writes to a control block that wait are made, and the vector is raised after them (R149, R225, R239). -/
def State.runWants (s : State) (q : Nat) : State :=
  if s.qcbHeld q then s
  else
    let x := s.queue q
    let s := s.setQueue q { x with wants := [], alarm := false }
    let s := x.wants.foldl (fun s w => s.putQcb q w.1 w.2.1 w.2.2) s
    if x.alarm then s.raiseVector q else s

/-- Writes a field of a queue's control block, once its line is not busy. -/
def State.setQcb (s : State) (q : Nat) (off n v : Nat) : State :=
  if s.qcbHeld q || (s.queue q).wants != [] then s.modQueue q fun x => { x with wants := x.wants ++ [(off, n, v)] }
  else s.putQcb q off n v

/-- A queue fault (R225): QFAULT, QFIELD and QREC, the vector, and the queue stops until it is rebound. -/
def State.queueFault (s : State) (q code field idx : Nat) : State :=
  let s := ((s.setQcb q 0x80 1 code).setQcb q 0x81 1 field).setQcb q 0x84 4 idx
  let s := s.modQueue q fun x => { x with fault := true, asked := false, tail := none, waiting := false }
  if (s.queue q).wants = [] then s.raiseVector q else s.modQueue q fun x => { x with alarm := true }

/-! ## Binding (R221, R222, R241) -/

/-- The binding registers' ranges (R221). -/
def bindingOk (b : Binding) : Bool :=
  decide (b.fn ≤ 64) && b.fn == b.vf && decide (b.qcbDie < 8) && b.qcbPa % 256 == 0 && decide (b.qcbPa + 256 ≤ hbmBytes) &&
  decide (b.die < 8) && decide (1 ≤ b.prio) && decide (b.prio ≤ 15) && decide (1 ≤ b.quota) && decide (b.quota ≤ 510) &&
  decide (b.keyslot < 1024)

/-- The fields that the command processor reads at bind. -/
def State.bindFields (s : State) (q : Nat) : Binding :=
  { (s.queue q).regs with
    die := s.qcb q 0x40 1, prio := s.qcb q 0x41 1, vf := s.qcb q 0x42 2, quota := s.qcb q 0x44 2, keyslot := s.qcb q 0x46 2 }

/-- The offset of the first field that differs from the binding registers. -/
def bindMismatch (a b : Binding) : Option Nat :=
  if a.die ≠ b.die then some 0x40
  else if a.prio ≠ b.prio then some 0x41
  else if a.vf ≠ b.vf then some 0x42
  else if a.quota ≠ b.quota then some 0x44
  else if a.keyslot ≠ b.keyslot then some 0x46
  else none

/-- A VF whose configuration is frozen (R241). -/
def State.vfFrozen (s : State) (vf : Nat) : Bool := s.tdispOf vf == .locked || s.tdispOf vf == .run

/-- A PF write to a frozen register: dropped and logged in a ring of eight (R241). -/
def State.logDrop (s : State) (off vf : Nat) : State :=
  s.modLan fun l => { l with dropLog := ((off, vf, BitVec.ofNat 64 (s.gts.toNat % 2 ^ 48)) :: l.dropLog).take 8 }

/-- The bind proper: the fields are cached, and checked against the binding registers. -/
def State.bindQueue (s : State) (q : Nat) : State :=
  let s := s.qcbTags q
  let x := s.queue q
  let c := s.bindFields q
  let s := s.setQueue q { x with
    bound := true, cached := c, fault := false, asked := false, tail := none, waiting := false, due := false }
  match bindMismatch c x.regs with
  | some f => s.queueFault q 0x03 f (s.qcb q 0x0C 4)
  | none => if x.fault then s.setQcb q 0x80 1 0 else s

/-- What the processor of a queue has to do with its control block, and can do now: writes that wait, and a bind. -/
def State.runQueue (s : State) (q : Nat) : State :=
  let s := if (s.queue q).wants = [] then s else s.runWants q
  if (s.queue q).due && (s.queue q).wants == [] && !s.qcbHeld q then s.bindQueue q else s

/-- What waited for a busy line goes on (R118, R149, R239). -/
def State.runHub (s : State) : State := ((s.hub.queues.map (·.1)).foldl State.runQueue s).runNotices

/-- The PF writes a queue's binding registers, unless they are frozen, and the processor reads its fields. A write with a value out of its range,
with a function other than the VF, or for a seventeenth queue of a VF is ignored (log entry 96). A write that is dropped still rebinds a queue
that is bound, with the registers as they stand (log entry 97). -/
def State.bind (s : State) (q : Nat) (b : Binding) : State :=
  let x := s.queue q
  let mine := s.queuesOf b.fn
  if decide (1024 ≤ q) || !bindingOk b || (decide (b.fn ≠ 0) && !mine.contains q && decide (16 ≤ mine.length)) then s
  else
    let frozen := if x.bound && s.vfFrozen x.regs.fn then some x.regs.fn else if s.vfFrozen b.fn then some b.fn else none
    match frozen with
    | some vf =>
      let s := s.logDrop (0x40000 + q * 32) vf
      if x.bound then (s.setQueue q { x with due := true }).runQueue q else s
    | none => (s.setQueue q { x with regs := b, due := true }).runQueue q

/-- QUEUE_BIND (R221, R222, R241). -/
def execQueueBind (q : Nat) (b : Binding) (s : State) : Res := .next (s.bind q b)

/-- The binding registers of a queue as the 32 bytes that stand in the PF's BAR0 (log entry 43). -/
def bindingBytes (b : Binding) : List Byte :=
  leBytes 8 (b.qcbPa + b.qcbDie * 2 ^ 52) ++ leBytes 2 b.fn ++ leBytes 2 b.vf ++ leBytes 2 b.quota ++ leBytes 2 b.keyslot ++
  leBytes 1 b.die ++ leBytes 1 b.prio ++ List.replicate 14 0

def bindingOf (bs : List Byte) : Binding :=
  let f (o n : Nat) : Nat := leNat ((bs.drop o).take n)
  ⟨f 8 2, f 0 8 / 2 ^ 52 % 8, f 0 8 % 2 ^ 52, f 16 1, f 17 1, f 10 2, f 12 2, f 14 2⟩

/-! ## BAR0 (R220, R221) -/

/-- What stands at an offset of a function's BAR0. -/
inductive BarPlace
  | doorbell (q : Option Nat)
  | aperture (chan : Nat)
  | template (off : Nat)
  | binding (q off : Nat)
  | status (chan : Nat)
  | ready
  | clock
  | none
deriving DecidableEq, Repr

/-- The size of a function's BAR0: 64 MiB on the PF, 256 KiB on a VF. -/
def barSize (fn : Nat) : Nat := if fn = 0 then 2 ^ 26 else 2 ^ 18

/-- The layout of BAR0; the PF's READY and clock registers stand at 0x0 and 0x8, its binding registers at 0x40000 + 32 × queue (log
entry 43). -/
def State.barPlace (s : State) (fn off : Nat) : BarPlace :=
  let bells := if fn = 0 then 1024 else 16
  if 0x10000 ≤ off ∧ off < 0x10000 + 8 * bells then .doorbell ((s.queuesOf fn)[(off - 0x10000) / 8]?)
  else if 0x20000 ≤ off ∧ off < 0x20200 then .aperture ((off - 0x20000) / 8)
  else if fn = 0 ∧ 0x30000 ≤ off ∧ off < 0x32000 then .template (off - 0x30000)
  else if fn = 0 ∧ 0x32000 ≤ off ∧ off < 0x32200 then .status ((off - 0x32000) / 8)
  else if fn = 0 ∧ 0x40000 ≤ off ∧ off < 0x48000 then .binding ((off - 0x40000) / 32) ((off - 0x40000) % 32)
  else if fn = 0 ∧ off < 8 then .ready
  else if fn = 0 ∧ off < 16 then .clock
  else .none

/-- A doorbell asks its queue's processor to read TAIL; none is accepted before READY, and one to a faulted queue has no effect
(R223, R229). -/
def State.ring (s : State) (q : Nat) : State :=
  match mapGet? s.hub.queues q with
  | some x =>
    if s.hub.ready && x.bound && !x.fault then
      s.modHub fun h => { h with queues := mapSet h.queues q { x with asked := true } }
    else s
  | none => s

/-- A host write that performs at a register: at the one that its first byte names, but for the bytes of the template table. -/
def State.barWrite (s : State) (fn off : Nat) (bs : List Byte) : State :=
  match s.barPlace fn off with
  | .doorbell (some q) => s.ring q
  | .aperture c => if off % 8 = 0 ∧ bs.length = 8 then s.hubStart fn c (leWord bs) else s
  | .template t => s.modHub fun h => { h with
      templates := (bs.zipIdx.filter fun b => decide (t + b.2 < 0x2000)).foldl (fun m b => mapSet m (t + b.2) b.1) h.templates }
  | .binding q o =>
    let old := bindingBytes (s.queue q).regs
    s.bind q (bindingOf (old.take o ++ (bs.take (32 - o)) ++ old.drop (o + bs.length)))
  | _ => s

/-- A byte of a register. -/
def State.barByte (s : State) (fn off : Nat) : Byte :=
  match s.barPlace fn off with
  | .template t => (mapGet? s.hub.templates t).getD 0
  | .binding q o => (bindingBytes (s.queue q).regs).getD o 0
  | .status c =>
    let x := s.channel c
    if off % 8 = 0 then BitVec.ofNat 8 ((if x.overrun then 1 else 0) + (if x.error then 2 else 0)) else 0
  | .ready => if off = 0 ∧ s.hub.ready then 1 else 0
  | .clock => (leBytes 8 s.clockMHz).getD (off - 8) 0
  | _ => 0

/-! ## Posted writes and reads (R149, R150) -/

/-- The SR-IOV resources of a VF are written by the PF; of a VF whose configuration is frozen, the write is dropped and logged (R241). -/
def State.sriovWrite (s : State) (fn vf : Nat) (bs : List Byte) : State :=
  if fn ≠ 0 then s
  else if s.vfFrozen vf then s.logDrop (vf * 8) vf
  else s.modHub fun h => { h with sriov := mapSet h.sriov vf (leWord bs) }

/-- A host write performs at its target. -/
def State.hostPerform (s : State) (fn : Nat) (a : HostAddr) (bs : List Byte) (ide : Bool) : State :=
  match a with
  | .mem die pa => s.hostMemWrite fn die.val pa bs ide
  | .bar off => s.barWrite fn off bs
  | .sriov vf => s.sriovWrite fn vf bs

/-- Whether the host interface refuses an access on arrival. -/
def State.hostRefused (s : State) (fn : Nat) (a : HostAddr) (n : Nat) (rd wr ide : Bool) : Bool :=
  match a with
  | .mem die pa => decide (s.hostWay fn die.val pa n rd wr ide = .refused)
  | .bar off => decide (barSize fn < off + n)
  | .sriov vf => decide (fn ≠ 0) || decide (vf = 0) || decide (64 < vf) || decide (8 < n)

/-- A write must wait for the sweep of a line (R239). -/
def State.hostSwept (s : State) (a : HostAddr) (n : Nat) : Bool :=
  match a with
  | .mem die pa => s.paSwept die.val pa n
  | .bar _ | .sriov _ => false

/-- A host function, and a payload of the port (R219). -/
def hostSize (fn n limit : Nat) : Bool := decide (fn ≤ 64) && decide (0 < n) && decide (n ≤ limit)

/-- HOST_POSTED_WRITE: a write without Relaxed Ordering takes the next number and is held; one with it performs, once no line of it is being
swept. -/
def execHostPostedWrite (fn : Nat) (a : HostAddr) (data : List Byte) (relaxed ide : Bool) (s : State) : Res :=
  .next (
    if !hostSize fn data.length 512 then s
    else if s.hostRefused fn a data.length false true ide then
      let s := s.say (.unsupported fn)
      if relaxed then s else s.modHub fun h => { h with seqNo := h.seqNo + 1 }
    else if relaxed then (if s.hostSwept a data.length then s else (s.hostPerform fn a data ide).runHub)
    else s.modHub fun h => { h with seqNo := h.seqNo + 1, held := h.held ++ [⟨h.seqNo + 1, fn, a, data, ide⟩] })

/-- HORIZON_BROADCAST: the held writes up to the new horizon perform, in the order of their numbers, once no line of them is being swept. -/
def execHorizonBroadcast (n : Nat) (s : State) : Res :=
  .next (
    if n ≤ s.hub.horizon ∨ s.hub.seqNo < n then s
    else
      let (now, later) := s.hub.held.partition fun w => decide (w.num ≤ n)
      if now.any fun w => s.hostSwept w.addr w.data.length then s
      else
        let s := s.modHub fun h => { h with horizon := n, held := later }
        (now.foldl (fun s w => s.hostPerform w.fn w.addr w.data w.ide) s).runHub)

/-- A read of device memory by the host; none: a line of it is busy. -/
def State.hostMemRead (s : State) (fn die pa n : Nat) (ide : Bool) : Option State :=
  let key := hbmKey die pa
  if s.paBusy die pa n then none
  else match s.hostWay fn die pa n true false ide with
    | .refused => some (s.say (.unsupported fn))
    | .plain tag =>
      let s := s.paTags die pa n tag (masterFn fn) false
      if (s.poisonedIn key n).isSome then some (s.say (.unsupported fn))
      else some (s.say (.readData fn (s.seen 0 key n)))
    | .sealed i =>
      if (s.poisonedIn key n).isSome then some (s.say (.unsupported fn))
      else match s.hostBad i key n false with
        | some sec => some ((s.logTag sec (masterFn fn)).say (.unsupported fn))
        | none => some (s.say (.readData fn (memRead s.ms.mem key n)))

/-- HOST_READ: of device memory, of BAR0 or of SR-IOV resources (R220, R234, R235). A read of a busy line is taken again later. -/
def execHostRead (fn : Nat) (a : HostAddr) (len : Nat) (ide : Bool) (s : State) : Res :=
  .next (
    if !hostSize fn len 4096 then s
    else match a with
      | .mem die pa => (s.hostMemRead fn die.val pa len ide).getD s
      | .bar off =>
        if barSize fn < off + len then s.say (.unsupported fn)
        else s.say (.readData fn ((span off len).map (s.barByte fn)))
      | .sriov vf =>
        if s.hostRefused fn a len true false ide then s.say (.unsupported fn)
        else s.say (.readData fn (leBytes len ((mapGet? s.hub.sriov vf).getD 0).toNat)))

/-! ## Clock and bring-up (R229) -/

/-- A clock of another frequency: GTS goes on from the same fraction of a nanosecond. -/
def State.setClock (s : State) (mhz : Nat) : State :=
  { s with clockMHz := mhz, gtsPhase := s.gtsPhase * mhz / s.clockMHz }

/-- POWER_CLOCK_STEP: down while power is at its limit, up as it falls. -/
def execPowerClockStep (atLimit : Bool) (s : State) : Res :=
  .next (s.setClock (if atLimit then max 1400 (s.clockMHz - 100) else min 2700 (s.clockMHz + 100)))

/-- One step of bring-up: Lantern is measured, the firmware is measured, the links train, the HBM stacks are scrubbed, every core is set LIVE,
and READY is set. Lantern's own measurement stands in block 1, and training leaves no state (R229, R243). -/
def State.bringUpStep (s : State) : State :=
  let s := match s.hub.bringUp with
    | 1 => s.modLan fun l => { l with fwDigest := BitVec.ofNat 256 (leNat (Config.measurement 3)) }
    | 3 =>
      let hbm (k : Nat) : Bool := decide (2 ^ 56 ≤ k) && decide (k < 2 ^ 57)
      s.modMs fun m => { m with
        mem := m.mem.filter fun c => !hbm c.1
        poison := m.poison.filter fun g => !hbm (g * 16)
        seals := m.seals.filter fun e => !hbm (e.1 * 64) }
    | 4 => { s with fallow := Core.reset, cores := s.cores.map fun e => (e.1, { e.2 with status := .live }) }
    | 5 => s.modHub fun h => { h with ready := true }
    | _ => s
  if s.hub.bringUp < 6 then s.modHub fun h => { h with bringUp := h.bringUp + 1 } else s

/-- HUB_RESET: the hub leaves reset with GTS 0, and bring-up runs through its six steps to READY. -/
def execHubReset (s : State) : Res :=
  let s := { State.reset with fresh := s.fresh, nextId := s.nextId, schedule := s.schedule }
  .next (s.bringUpStep.bringUpStep.bringUpStep.bringUpStep.bringUpStep.bringUpStep)

end Sys2Proof.Machine
end

