-- ==== Sys2Proof/Machine/Launch.lean ====
section
/-! DEFINITION. The command processors: doorbells (R223), launch records and their faults (R224, R225, R227, R243, R244), the choice of a
seed (R35, R206) and the wait for a job index (R430). -/

namespace Sys2Proof.Machine

/-! ## Doorbells (R223) -/

/-- The first field of a control block that is out of range: QFAULT and its offset. -/
def State.qcbFault (s : State) (q : Nat) : Option (Nat × Nat) :=
  let size := s.qcb q 0x08 4
  if s.qcb q 0 8 % 128 ≠ 0 then some (0x07, 0x00)
  else if size < 16 ∨ 65536 < size ∨ 2 ^ size.log2 ≠ size then some (0x07, 0x08)
  else if size ≤ s.qcb q 0x0C 4 then some (0x07, 0x0C)
  else if size ≤ s.qcb q 0x10 4 then some (0x06, 0x10)
  else none

/-- The control block cannot be had now: its line is busy, something waits to be done with it, or the tables let the processor not in (log
entry 67). -/
def State.qcbBusy (s : State) (q : Nat) : Bool :=
  let x := s.queue q
  s.qcbHeld q || x.due || x.wants != [] || (s.fwEntry q x.regs.qcbDie x.regs.qcbPa 256 true true).isNone

/-- DOORBELL: the processor, when it reads no records, reads TAIL and checks the fields that it uses. It holds a capability for the ring and
its place there (R227). -/
def execDoorbell (q : Nat) (s : State) : Res :=
  .next (
    let x := s.queue q
    if !x.bound || x.fault || !x.asked || x.tail.isSome || x.waiting || s.qcbBusy q then s
    else
      let s := s.qcbTags q
      match s.qcbFault q with
      | some f => s.queueFault q f.1 f.2 (s.qcb q 0x0C 4)
      | none => s.setQueue q { x with
          asked := false, tail := some (s.qcb q 0x10 4), head := s.qcb q 0x0C 4, ring := ⟨s.qcb q 0 8, 128 * s.qcb q 0x08 4⟩ })

/-! ## The record (R224, R227) -/

def recF (bs : List Byte) (off n : Nat) : Nat := leNat ((bs.drop off).take n)

/-- CBBASE of a record. -/
def recCb (bs : List Byte) : Nat := (recF bs 0x22 1 * 0x800 + 4095) / 4096 * 4096

/-- The offsets of the fields that are out of range whatever memory holds, in rising order. -/
def staticFaults (bs : List Byte) : List Nat :=
  let f := recF bs
  let when_ (b : Bool) (o : Nat) : List Nat := if b then [o] else []
  let splim := eventOff - f 0x23 1 * 1024
  when_ (f 0 1 != 1) 0x00 ++ when_ (decide (32 ≤ f 1 1)) 0x01 ++
  when_ (decide (31 < f 2 1) && f 2 1 != 0xFF) 0x02 ++ when_ (decide (31 < f 3 1) && f 3 1 != 0xFF) 0x03 ++
  when_ (f 4 2 == 0 || decide (1024 < f 4 2)) 0x04 ++ when_ (decide (f 6 2 < f 4 2) || decide (1024 < f 6 2)) 0x06 ++
  when_ (!nodeOk (BitVec.ofNat 64 (f 0x10 8))) 0x10 ++ when_ (f 0x18 8 % 4 != 0) 0x18 ++ when_ (decide (256 < f 0x20 2)) 0x20 ++
  when_ (decide (f 0x22 1 < 3) || decide (32 < f 0x22 1)) 0x22 ++
  when_ (f 0x23 1 % 4 != 0 || decide (128 < f 0x23 1) || (f 0x23 1 != 0 && decide (splim < recCb bs + 4096))) 0x23 ++
  when_ (f 0x24 4 == 0 || decide (64 < f 0x24 4)) 0x24 ++ when_ (f 0x28 8 % 64 != 0) 0x28 ++ when_ (f 0x30 8 % 8 != 0) 0x30 ++
  when_ (f 0x40 8 % 65536 != 0 || decide (f 0x40 8 < 0x10000 + f 6 2 * 8 * 0x50000)) 0x40 ++
  when_ (f 0x48 8 != 0 || ((bs.drop 0x48).take 56).any fun b => b != 0) 0x48

/-- The job that a record describes, before it has an index (R13, R74, R104, R221, R224). -/
def recordJob (q : Nat) (c : Binding) (bs : List Byte) (measure : BitVec 256) : Job :=
  let f := recF bs
  let flag (i : Nat) : Bool := (f 1 1).testBit i
  let w (o : Nat) : Word := BitVec.ofNat 64 (f o 8)
  { Job.reset with
    weight := c.prio, floor := f 4 2, ceiling := f 6 2, lockReq := flag 0, conf := flag 1, rc := flag 2, l1fuse := flag 3
    lz := flag 4, seed := w 8, ptRoot := w 0x10, cbBase := BitVec.ofNat 64 (recCb bs), nimg := f 0x22 1, spill := f 0x23 1
    queue := q, vf := c.vf, keyslot := c.keyslot, doneCtr := w 0x30, saveArea := w 0x38, saveBytes := w 0x40
    measure := measure }

/-- The fields whose use would pass the bounds of a capability: the seed records and the save area must end within the global window, in
which the processor's capability for them lies (R101, R227; log entry 66). -/
def capFaults (bs : List Byte) : List Nat :=
  (if 2 ^ 52 < recF bs 0x28 8 + 64 * recF bs 0x24 4 then [0x28] else []) ++
  (if 2 ^ 52 < recF bs 0x38 8 + recF bs 0x40 8 then [0x38] else [])

/-- What reading a job's memory gives: it must wait, it cannot be had (with the log of a tag that did not match), or it is there. -/
inductive JobGot
  | wait
  | no (after : State)
  | ok (data : List (List Byte))
deriving DecidableEq, Repr

/-- A read of `n` bytes of the job's memory: the page, its rights, a host owner or the tables may forbid it, and a busy line makes it
wait. -/
def State.jobRead (s : State) (tag : Nat) (va : Word) (n : Nat) : JobGot :=
  if va.toNat < 0x1000000 ∨ 2 ^ 52 < va.toNat + n then .no s
  else match s.xlat tag va n ⟨true, false, false, true⟩ with
    | .wait => .wait
    | .fail _ => .no s
    | .ok owner pa pte e =>
      let key := ownerKey owner pa
      if owner = 8 then .no s
      else if s.keyBusy key n then .wait
      else
        let s := s.checkTags owner va key n (if pteClear pte then some (s.winInst e) else none) (masterJob tag) false
        match s.sliceBad tag va pte key n with
        | some (_, s) => .no s
        | none => .ok [s.seen pte key n]

/-- Reads a list of pieces, all or none. -/
def State.jobReads (s : State) (tag n : Nat) : List Word → JobGot
  | [] => .ok []
  | a :: r =>
    match s.jobRead tag a n with
    | .ok x =>
      match s.jobReads tag n r with
      | .ok y => .ok (x ++ y)
      | other => other
    | other => other

/-- The addresses of `count` pieces of `n` bytes. -/
def pieces (a : Word) (n count : Nat) : List Word := (List.range count).map fun i => a + BitVec.ofNat 64 (i * n)

/-- The words of the constant-bank image, and the seed records. -/
def State.recordImage (s : State) (tag : Nat) (bs : List Byte) : JobGot :=
  s.jobReads tag 4 (pieces (BitVec.ofNat 64 (recF bs 0x18 8)) 4 (recF bs 0x20 2))
def State.recordTasks (s : State) (tag : Nat) (bs : List Byte) : JobGot :=
  match s.jobReads tag 64 (pieces (BitVec.ofNat 64 (recF bs 0x28 8)) 64 (recF bs 0x24 4)) with
  | .ok l => if l.all fun b => (TaskRec.ofBytes b).ok then .ok l else .no s
  | other => other

/-- Whether every page of the save area is PIN-mapped (R207); one that passes its capability's bounds is at fault by that (R227). -/
def State.areaPinned (s : State) (tag : Nat) (j : Job) : Bool :=
  let first := j.saveArea.toNat / 65536
  decide (2 ^ 52 < j.saveArea.toNat + j.saveBytes.toNat) || decide (0x1000000 ≤ j.saveArea.toNat) &&
  (span first ((j.saveArea.toNat + j.saveBytes.toNat - 1) / 65536 - first + 1)).all fun p =>
    match s.walk (tagDie tag) j.ptRoot (BitVec.ofNat 64 (p * 65536)) with
    | some e => ptePin e
    | none => false

/-- Whether the completion word can be written: a CLEAR, writable page of device memory (R224). -/
def State.doneOk (s : State) (tag : Nat) (j : Job) : Bool :=
  decide (0x1000000 ≤ j.doneCtr.toNat) && decide (j.doneCtr.toNat + 8 ≤ 2 ^ 52) &&
  match s.xlatNow tag j.doneCtr 8 ⟨false, true, true, true⟩ with
  | .ok .. => true
  | _ => false

/-- The record as it is measured: addresses and the root entry replaced by zero (R243). -/
def maskedRecord (bs : List Byte) : List Byte :=
  bs.zipIdx.map fun b =>
    if (0x10 ≤ b.2 ∧ b.2 < 0x20) ∨ (0x28 ≤ b.2 ∧ b.2 < 0x40) then 0 else b.1

/-- Whether a confidential launch has a loaded key of its VF, which runs (R244). -/
def State.confOk (s : State) (c : Binding) : Bool :=
  (s.vfSlotInst c.keyslot c.vf).isSome && s.tdispOf c.vf == .run

/-- The state in which a record's job reads as it will: it stands in the job table under `tag`, and no leaf of it is cached. -/
def State.scratch (s : State) (tag : Nat) (j : Job) : State :=
  (s.setJob tag j).modFab fun f => { f with
    tlb := f.tlb.filter fun t => decide (t.tag ≠ tag)
    migrating := f.migrating.filter fun x => decide (x.1 ≠ tag) }

def JobGot.missing : JobGot → Bool
  | .no _ => true
  | _ => false

/-- The fields that memory and the job's rights put at fault, in scratch state `s`. -/
def State.memoryFaults (s : State) (tag : Nat) (j : Job) (image tasks : JobGot) : List Nat :=
  (if image.missing then [0x18] else []) ++ (if tasks.missing then [0x28] else []) ++
  (if s.doneOk tag j then [] else [0x30]) ++ (if s.areaPinned tag j then [] else [0x38])

/-- Of the fields at fault the one at the lowest offset, with its QFAULT: one out of range (0x01), or at a capability's bounds (0x02). -/
def firstFault (range caps : List Nat) : Option (Nat × Nat) :=
  match range.min?, caps.min? with
  | some a, some b => some (if a ≤ b then (0x01, a) else (0x02, b))
  | some a, none => some (0x01, a)
  | none, some b => some (0x02, b)
  | none, none => none

/-! ## The seed (R35, R206) -/

/-- Whether a tile may be taken as a seed. -/
def State.seedOk (s : State) (t : Nat) : Bool :=
  let a := s.owner t
  !isFence a && (isIdle a || decide ((s.job a).anchor ≠ t)) && !(s.tile t).lock && !s.transitLocked t &&
  !s.moves.any (fun m => decide (m.tile = t)) && !s.anyHalted a &&
  decide ((s.floorOf a : Int) < s.projected a) && (isIdle a || s.simple t) &&
  (coresOf t).all (fun p => decide ((s.core p).status ≠ .scrub)) &&
  !s.upcallOn t

/-- The hinted tile of a record. -/
def recHint (die : Nat) (bs : List Byte) : Option Nat :=
  if recF bs 2 1 < 32 ∧ recF bs 3 1 < 32 then some (tileAt die (recF bs 2 1) (recF bs 3 1)) else none

/-- The first candidate that is not skipped: the hint, idle tiles, the others. -/
def State.seedTile (s : State) (die : Nat) (hint : Option Nat) : Option Nat :=
  let all := span (die * 1024) 1024
  ((hint.filter s.seedOk).or (all.find? fun t => isIdle (s.owner t) && s.seedOk t)).or
    (all.find? fun t => !isIdle (s.owner t) && s.seedOk t)

/-- A flushed territory whose context areas have been saved, with nothing on its way to the save area (R206, R208). -/
def SaveImage.atRest (v : SaveImage) (j : Job) : Bool :=
  v.flushed && !v.restoring && v.writing.isEmpty &&
  (v.tiles.flatMap coresOf).all fun p => (List.range (j.cbBase.toNat / 4096)).all fun k => v.has p k

/-- The tiles of a suspended and flushed job that a hint names, if the whole of its territory is still in place (R206). -/
def State.grantTiles (s : State) (j : Job) (hint : Option Nat) : Option (List Nat) :=
  match hint with
  | none => none
  | some t =>
    let tag := s.owner t
    match (s.job tag).saved with
    | none => none
    | some v =>
      if !isIdle tag && v.atRest (s.job tag) && v.tiles.contains t && v.tiles.all (fun u => decide (s.owner u = tag)) &&
          decide (j.floor ≤ v.tiles.length) && decide (v.tiles.length ≤ j.ceiling) &&
          !s.moves.any (fun m => v.tiles.contains m.tile) then some v.tiles
      else none

/-- A launch takes a suspended job's tiles as a locked territory; its seed commit gives it the lowest free index, `ix` (R430). -/
def State.grant (s : State) (l : Launch) (hint ix : Nat) (ts : List Nat) : State :=
  let tag := tagOf (hint / 1024) ix
  let s := ts.foldl State.scrubTile s
  let s := s.seedJob l hint ix true
  ts.foldl (fun s t => if t = hint then s else (s.setTile t ⟨ix, true⟩).prepareTile tag t l.job.launchCore (cbPage l.image)) s

/-- A launch takes its seed tile through the loss sequence of the tile's holder. -/
def State.startSeed (s : State) (t : Nat) (id : Nat) : State := s.startLoss t (s.owner t) (tagOf (t / 1024) 0x1FF) (some id)

/-! ## Launches in progress -/

/-- Launches of a die that have not reached their commit. -/
def State.pendingOn (s : State) (die : Nat) : Nat :=
  (s.hub.launches.filter fun l => decide (tagDie l.tag = die)).length

/-- The index that a further launch would be given at its commit: the commits before it take the lower ones. -/
def State.indexFor (s : State) (die : Nat) : Option Nat :=
  ((span 1 0x1FE).filter fun i => (s.liveJob? (tagOf die i)).isNone)[s.pendingOn die]?

/-- A launch of a queue that has lost its move: its holder froze before the stop (R37). -/
def State.unseeded (s : State) (q : Nat) : Option Launch :=
  s.hub.launches.find? fun l => decide (l.queue = q) && !s.moves.any fun m => decide (m.launch = some l.id)

/-- Places such a launch anew, or fails it (R35). -/
def State.reseed (s : State) (l : Launch) : State :=
  match s.seedTile (tagDie l.tag) l.hint with
  | some t => s.startSeed t l.id
  | none => (s.modHub fun h => { h with launches := h.launches.filter fun x => decide (x.id ≠ l.id) }).queueFault l.queue 0x04 0xFF l.qrec

/-- Jobs of a queue, those on their way included. -/
def State.queueJobs (s : State) (q : Nat) : Nat :=
  (s.jobs.filter fun e => decide (e.2.queue = q) && decide (e.2.status ≠ .frozen)).length +
  (s.hub.launches.filter fun l => decide (l.queue = q)).length

/-- The record has been accepted: HEAD moves on (R223). -/
def State.advanceHead (s : State) (q : Nat) : State :=
  let x := s.queue q
  let h := (x.head + 1) % (x.ring.len / 128)
  (s.setQueue q { x with head := h }).setQcb q 0x0C 4 h

/-- A record that passes its checks takes its tiles, or fails for want of a candidate. -/
def State.accept (s : State) (q : Nat) (j : Job) (bs : List Byte) (ix head : Nat) (image tasks : List (List Byte)) : State :=
  let die := (s.queue q).cached.die
  let tag := tagOf die ix
  let hint := recHint die bs
  let (id, s) := s.takeId
  let l : Launch := ⟨id, head, q, tag, j, tasks.map TaskRec.ofBytes, image.map fun b => BitVec.ofNat 32 (leNat b), hint⟩
  match hint, s.grantTiles j hint with
  | some t, some ts => (s.grant l t ix ts).advanceHead q
  | _, _ =>
    match s.seedTile die hint with
    | none => s.queueFault q 0x04 0xFF head
    | some t => ((s.modHub fun h => { h with launches := h.launches ++ [l] }).startSeed t id).advanceHead q

/-- The index that a record's job would take: at once for a grant, else once the launches before it have theirs. -/
def State.recordIndex (s : State) (die : Nat) (j : Job) (bs : List Byte) : Option Nat :=
  if (s.grantTiles j (recHint die bs)).isSome then s.freeIndex die else s.indexFor die

/-- The record at HEAD (R224): a queue fault, a wait for an index or for a busy line, or a launch. -/
def State.takeRecord (s : State) (q head : Nat) (bs : List Byte) : State :=
  let s := s.modQueue q fun x => { x with
    seeds := ⟨recF bs 0x28 8, 64 * recF bs 0x24 4⟩, area := ⟨recF bs 0x38 8, recF bs 0x40 8⟩ }
  let x := s.queue q
  let j0 := recordJob q x.cached bs 0
  let range := staticFaults bs ++ (if j0.conf && !s.confOk x.cached then [0x01] else [])
  let full (s : State) : State := s.queueFault q 0x05 0xFF head
  match s.recordIndex x.cached.die j0 bs with
  | none =>
    (match firstFault range (capFaults bs) with
     | some f => s.queueFault q f.1 f.2 head
     | none => if x.cached.quota ≤ s.queueJobs q then full s else s.setQueue q { x with waiting := true })
  | some ix =>
    let tag := tagOf x.cached.die ix
    let r := s.scratch tag j0
    let root := !range.contains 0x10
    let image := if root then r.recordImage tag bs else .ok []
    let tasks := if root && !(capFaults bs).contains 0x28 then r.recordTasks tag bs else .ok []
    match image, tasks with
    | .wait, _ | _, .wait => s
    | image, tasks =>
      let logged (s : State) (g : JobGot) : State :=
        match g with
        | .no r => { s with lan := r.lan, ms := r.ms }
        | _ => s
      let more := if root then r.memoryFaults tag j0 image tasks else []
      match firstFault (range ++ more) (capFaults bs), image, tasks with
      | some f, image, tasks => (logged (logged s tasks) image).queueFault q f.1 f.2 head
      | none, .ok im, .ok ts =>
        if x.cached.quota ≤ s.queueJobs q then full s
        else s.accept q (recordJob q x.cached bs (Config.sha256 (maskedRecord bs ++ im.flatten ++ ts.flatten))) bs ix head im ts
      | none, _, _ => s

/-- One turn of a command processor on a queue that it reads: through its capability for the ring it reads the record at its place. -/
def State.readRecord (s : State) (q : Nat) : State :=
  let x := s.queue q
  match x.tail with
  | none => s
  | some tail =>
    if !x.bound || x.fault || s.qcbBusy q then s
    else if x.head = tail then s.setQueue q { x with tail := none }
    else
      let a := hubAddr (BitVec.ofNat 64 (x.ring.base + 128 * x.head))
      if s.paBusy a.1 a.2 128 || (s.fwEntry q a.1 a.2 128 true false).isNone then s
      else
        let s := (s.fwTags q a.1 a.2 128).modQueue q fun x => { x with record := ⟨x.ring.base + 128 * x.head, 128⟩ }
        s.takeRecord q x.head (s.fwRead q a.1 a.2 128)

/-- LAUNCH_RECORD: the processor takes the record at HEAD, unless a launch of the queue must be placed anew. -/
def execLaunchRecord (q : Nat) (s : State) : Res :=
  .next (
    match s.unseeded q with
    | some l => s.reseed l
    | none => if (s.queue q).waiting then s else s.readRecord q)

/-- LAUNCH_INDEX_WAIT: an index has become free, and the waiting record is taken again (R430). -/
def execLaunchIndexWait (q : Nat) (s : State) : Res :=
  .next (
    let x := s.queue q
    if x.waiting && (s.freeIndex x.cached.die).isSome then (s.setQueue q { x with waiting := false }).readRecord q else s)

end Sys2Proof.Machine
end

