-- ==== Sys2Proof/Machine/Lantern.lean ====
section
/-! DEFINITION. Lantern: the request mailbox (R12, R17, R230 to R234, R237), the rotation of memory keys (R239), TDISP (R240,
R241), SPDM and its sessions (R242 to R246), and the hand-over of firmware (R247). -/

namespace Sys2Proof.Machine

/-! ## The mailbox (R230) -/

def lanDone : Nat := 0
def lanRefused : Nat := 1

/-- Whether an access of a master is on its way (R234). -/
def State.masterBusy (s : State) (master : Nat) : Bool :=
  if master / 2 ^ 14 = 0 then
    s.fab.trips.any (fun t => ((mapGet? s.threads t.who).any fun x => decide (x.job = master)) ||
      decide (((s.job master).saved.map (·.id)) = some t.who)) ||
    (s.ops.any fun e => decide (e.2.job = master) &&
      match e.2.phase with
      | .queued | .waiting | .performed | .finished | .failed _ => false
      | _ => true) || s.fab.fwds.any fun f => decide (f.tag = master)
  else if master / 2 ^ 14 = 1 then
    (s.hub.held.any fun w => decide (masterFn w.fn = master)) ||
    s.hub.channels.any fun c => c.2.starts.any fun x => decide (masterFn x.1 = master)
  else false

/-- The VF whose entry an entry is, none for another master (R241). -/
def entryVf (w0 : Word) : Option Nat :=
  let m := wfld w0 48 16
  if m / 2 ^ 14 = 1 ∧ m % 2 ^ 14 ≠ 0 then some (m % 2 ^ 14) else none

/-- An entry's reserved fields and its master (R232, R233). -/
def entryOk (w0 w1 : Word) : Bool :=
  decide (wfld w0 36 12 = 0) && decide (wfld w1 40 14 = 0) && decide (wfld w0 62 2 ≠ 3) && decide (wfld w0 60 2 = 0)

/-- Puts an entry into the tables, which stand in rising order of target and index. -/
def putEntry (e : AccessEntry) : List AccessEntry → List AccessEntry
  | [] => [e]
  | x :: r =>
    if e.target < x.target ∨ (e.target = x.target ∧ e.index < x.index) then e :: x :: r
    else if e.target = x.target ∧ e.index = x.index then e :: r
    else x :: putEntry e r

/-- The entry of a table at an index. -/
def State.entryAt (s : State) (target index : Nat) : Option AccessEntry :=
  s.lan.access.find? fun e => decide (e.target = target) && decide (e.index = index)

/-- The frozen VF that a change of an entry concerns. -/
def State.frozenEntry (s : State) (target index : Nat) (w0 : Word) : Option Nat :=
  (((s.entryAt target index).bind fun e => entryVf e.w0).filter s.vfFrozen).or ((entryVf w0).filter s.vfFrozen)

/-- A change of an access table: `w0`, `w1` are the entry's words. -/
def State.setAccess (s : State) (target index : Nat) (w0 w1 : Word) : State :=
  match s.frozenEntry target index w0 with
  | some vf => (s.logDrop (target * 65536 + index * 16) vf).say (.lantern lanRefused)
  | none =>
    let busy := s.masterBusy (wfld w0 48 16) || ((s.entryAt target index).map fun e => s.masterBusy (wfld e.w0 48 16)).getD false
    if decide (522 ≤ target) || decide (4096 ≤ index) || !entryOk w0 w1 || busy then s.say (.lantern lanRefused)
    else (s.modLan fun l => { l with access := putEntry ⟨target, index, w0, w1⟩ l.access }).say (.lantern lanDone)

/-- Converts a tile between idle and FENCE (R12). -/
def State.setFence (s : State) (die x y : Nat) (from_ to_ : Nat) : State :=
  let t := tileAt die x y
  if 8 ≤ die ∨ 32 ≤ x ∨ 32 ≤ y ∨ (s.tile t).job ≠ from_ ∨ (s.moves.any fun m => decide (m.tile = t)) then s.say (.lantern lanRefused)
  else (s.setTile t ⟨to_, false⟩).say (.lantern lanDone)

/-- The owner register of a core (R10). -/
def State.ownerReg (s : State) (p : Pcn) : BitVec 32 :=
  let t := s.tile (tileOf p)
  BitVec.ofNat 32 ((s.core p).status.code * 2 ^ 13 + (if t.lock then 2 ^ 12 else 0) + dieOf p * 2 ^ 9 + t.job)

/-- Sets a die's tagged region: 64 KiB-aligned bounds inside its memory, while no job lives on the die (R237). -/
def State.setTagged (s : State) (die : Nat) (lo hi base : Word) : State :=
  if decide (8 ≤ die) || lo.toNat % 65536 != 0 || hi.toNat % 65536 != 0 || decide (hi.toNat < lo.toNat) ||
      decide (hbmBytes < hi.toNat) || base.toNat % 32 != 0 || (s.jobs.any fun e => decide (tagDie e.1 = die)) then
    s.say (.lantern lanRefused)
  else (s.modDie die fun d => { d with tagLo := lo, tagHi := hi, tagBase := base }).say (.lantern lanDone)

/-- Whether an LMPU entry keeps R103 to R105 for the job that owns a core: no reserved bit, the entries of the context area, the constant
bank and the carve-out as the launch gives them, no SYS elsewhere, and at most 64 RC pages in the cluster. -/
def State.lmpuKeeps (s : State) (p page : Nat) (v : Byte) : Bool :=
  let j := s.job (s.owner (tileOf p))
  let cb := j.cbBase.toNat / 4096
  let others := (s.ms.lmpu.filter fun e => decide (e.1 / 48 / 8 = tileOf p) && decide (e.1 ≠ p * 48 + page) && e.2.getLsbD 2).length
  decide (p < 65536) && decide (page < 48) && !isIdle (s.owner (tileOf p)) && !isFence (s.owner (tileOf p)) &&
  (if page ≤ cb ∨ j.splim0 / 4096 ≤ page then v == j.lmpuPage page
   else decide (v.toNat < 16) && (!v.getLsbD 2 || decide (others < 64)))

/-- Sets an LMPU entry, or refuses to (R104 to R106, R230). An entry of a suspended job's page is set in its image too (R103, R204). -/
def State.setLmpu (s : State) (p page : Nat) (v : Byte) : State :=
  if s.lmpuKeeps p page v then
    let tag := s.owner (tileOf p)
    let s := if ((s.job tag).saved.map (·.flushed)).getD false then s.modSaved tag fun i => { i with lmpu := mapSet i.lmpu (p * 48 + page) v } else s
    (s.modMs fun m => { m with lmpu := mapSet m.lmpu (p * 48 + page) v }).say (.lantern lanDone)
  else s.say (.lantern lanRefused)

/-- Loads a die's new memory key, and the sweep begins at the die's first line; refused while a sweep of the die runs (R239). -/
def State.startRotation (s : State) (die : Nat) : State :=
  if decide (die < 8) && (s.die die).sweep.isNone then
    (s.modDie die fun d => { d with sweep := some 0, keyNo := d.keyNo + 1 }).say (.lantern lanDone)
  else s.say (.lantern lanRefused)

/-- Destroys a key slot (R231); a frozen binding stays (R241). -/
def State.destroySlot (s : State) (slot : Nat) : State :=
  match mapGet? s.lan.slots slot with
  | none => s.say (.lantern lanRefused)
  | some k =>
    if s.vfFrozen k.vf then (s.logDrop slot k.vf).say (.lantern lanRefused)
    else (s.modLan fun l => { l with slots := mapErase l.slots slot }).say (.lantern lanDone)

/-- LANTERN_REQUEST: a request that keeps the rules is carried out; any other changes nothing and answers a refusal code. No
request may write an owner register otherwise than as it stands (R10, R230). -/
def execLanternRequest (r : LanternReq) (s : State) : Res :=
  .next (
    match r with
    | .fence die x y => s.setFence die x y 0 0x1FF
    | .unfence die x y => s.setFence die x y 0x1FF 0
    | .hyst die h => if die < 8 then (s.modDie die fun d => { d with hyst := h }).say (.lantern lanDone) else s.say (.lantern lanRefused)
    | .setAccess t i w0 w1 => s.setAccess t i w0 w1
    | .setTagged die lo hi base => s.setTagged die lo hi base
    | .destroySlot k => s.destroySlot k
    | .setLmpu p page v => s.setLmpu p page v
    | .rotateKey die => s.startRotation die
    | .setOwner p v => s.say (.lantern (if decide (p < 65536) && v == s.ownerReg p then lanDone else lanRefused)))

/-! ## Key rotation (R239) -/

/-- KEY_ROTATION_START. -/
def execKeyRotationStart (die : Nat) (s : State) : Res := .next (s.startRotation die)

/-- SWEEP_LINE_COMMIT: the line at SWP is under the new key, and SWP advances; past the last line the sweep is over. What waited for the line
goes on. -/
def execSweepLineCommit (die : Nat) (s : State) : Res :=
  .next (
    match (s.die die).sweep with
    | some n => (s.modDie die fun d => { d with sweep := if (n + 1) * 512 < hbmBytes then some (n + 1) else none }).runHub
    | none => s)

/-! ## The loss of a session (R231, R246) -/

/-- The key slots of a session. -/
def State.slotsOf (s : State) (id : Nat) : List Nat := (s.lan.slots.filter fun e => decide (e.2.session = id)).map (·.1)

/-- A launch on its way whose key is destroyed fails as if the key had not been loaded (R244); its tile goes to idle. -/
def State.failLaunch (s : State) (l : Launch) : State :=
  let s := { s with moves := s.moves.map fun (m : Move) =>
    if m.launch = some l.id then { m with launch := none, toIdle := true } else m }
  (s.modHub fun h => { h with launches := h.launches.filter fun x => decide (x.id ≠ l.id) }).queueFault l.queue 0x01 0x01 l.qrec

/-- What Lantern does to the jobs and the keys of a session. -/
def State.lossActions (s : State) (id : Nat) : State :=
  let slots := s.slotsOf id
  let s := (s.hub.launches.filter fun l => slots.contains l.job.keyslot).foldl State.failLaunch s
  let s := (s.jobs.filter fun e => slots.contains e.2.keyslot).foldl (fun s e => s.freezeJob e.1 0x05 0) s
  s.modLan fun l => { l with
    slots := slots.foldl mapErase l.slots
    sessions := mapErase l.sessions id
    measured := l.measured.filter fun e => decide (e.1 ≠ id)
    lost := id :: l.lost }

/-- A VF enters ERROR, and its sessions are lost. -/
def State.enterError (s : State) (vf : Nat) : State :=
  let s := s.modLan fun l => { l with tdisp := mapSet l.tdisp vf .error }
  (s.lan.sessions.filter fun e => decide (e.2.fn = vf)).foldl (fun s e => s.lossActions e.1) s

/-- A session is lost; a VF that it was bound to by a key slot enters ERROR (R240). -/
def State.loseSession (s : State) (id : Nat) : State :=
  let vfs := (s.lan.slots.filter fun e => decide (e.2.session = id) && decide (e.2.vf ≠ 0)).map (·.2.vf)
  vfs.dedup.foldl State.enterError (s.lossActions id)

/-! ## TDISP (R240) -/

/-- Whether a number names a VF (R219). -/
def isVf (n : Nat) : Bool := decide (1 ≤ n) && decide (n ≤ 64)

/-- A TDISP request: answered with an error where the state does not allow it. -/
def State.tdispMove (s : State) (vf : Nat) (ok : Tdisp → Bool) (next : Tdisp) : State :=
  if !isVf vf then s
  else if ok (s.tdispOf vf) then (s.modLan fun l => { l with tdisp := mapSet l.tdisp vf next }).say (.tdisp vf true)
  else s.say (.tdisp vf false)

def execLockInterfaceRequest (vf : Nat) (s : State) : Res := .next (s.tdispMove vf (· == .unlocked) .locked)
def execStartInterfaceRequest (vf : Nat) (s : State) : Res := .next (s.tdispMove vf (· == .locked) .run)
/-- STOP_INTERFACE_REQUEST: accepted in every state. -/
def execStopInterfaceRequest (vf : Nat) (s : State) : Res := .next (s.tdispMove vf (fun _ => true) .unlocked)

/-- TDISP_ERROR: a write of the VF's BAR or MSI-X table in configuration space, or its FLR. -/
def execTdispError (vf : Nat) (s : State) : Res := .next (if isVf vf then s.enterError vf else s)

/-! ## SPDM (R242, R243) -/

/-- A response whose content SPDM and the device's keys fix (log entry 21). -/
def State.answer (s : State) (fn : Nat) (name : String) (head : List Byte) : State :=
  ({ s with fresh := s.fresh + 1 }).say (.spdm fn name (head ++ Config.spdmBody s.fresh))

/-- A request over the DOE mailbox of a function. -/
def State.doe (s : State) (fn : Nat) (name : String) : Res := .next (if fn ≤ 64 then s.answer fn name [] else s)

def execGetVersion (fn : Nat) (s : State) : Res := s.doe fn "VERSION"
def execGetCapabilities (fn : Nat) (s : State) : Res := s.doe fn "CAPABILITIES"
/-- NEGOTIATE_ALGORITHMS: SLH-DSA-SHA2-128s as an extended asymmetric algorithm, SHA-256 as hash and measurement hash, secp384r1 and
AES-256-GCM. -/
def execNegotiateAlgorithms (fn : Nat) (s : State) : Res :=
  .next (if fn ≤ 64 then s.say (.algorithms fn .slhDsaSha2_128s .sha256 .sha256 .secp384r1 .aes256Gcm) else s)
def execGetDigests (fn : Nat) (s : State) : Res := s.doe fn "DIGESTS"
def execChallenge (fn : Nat) (s : State) : Res := s.doe fn "CHALLENGE_AUTH"

/-- GET_CERTIFICATE: slot 0 only. -/
def execGetCertificate (fn slot : Nat) (s : State) : Res :=
  if slot = 0 then s.doe fn "CERTIFICATE" else .next (s.say (.spdmError fn))

/-! ## Sessions (R242, R244, R245) -/

/-- 2 × HeartbeatPeriod in nanoseconds. -/
def Session.span_ (x : Session) : Word := BitVec.ofNat 64 (2 * x.period * 1000000000)

/-- Whether a message of a secured session counts: it came before the deadline, or the session has none (R245). -/
def Session.hears (x : Session) (gts : Word) : Bool := x.secured && (x.period == 0 || gts.ult x.deadline)

/-- A message of a secured session: it moves the deadline and `f` answers it; at or after the deadline it is discarded. -/
def State.inSession (s : State) (id : Nat) (f : Session → State → State) : Res :=
  .next (
    match mapGet? s.lan.sessions id with
    | none => s
    | some x =>
      if x.hears s.gts then
        f x (s.modLan fun l => { l with sessions := mapSet l.sessions id { x with deadline := s.gts + x.span_ } })
      else s)

/-- KEY_EXCHANGE: a session not yet secured, of 32 for a function and 256 for the device, under the lowest number that none has (log
entry 98). -/
def execKeyExchange (fn period : Nat) (s : State) : Res :=
  .next (
    if 64 < fn then s
    else if 256 ≤ s.lan.sessions.length ∨ 32 ≤ (s.lan.sessions.filter fun e => decide (e.2.fn = fn)).length then s.say (.spdmError fn)
    else match (List.range 256).find? fun i => (mapGet? s.lan.sessions i).isNone with
      | none => s.say (.spdmError fn)
      | some id =>
        (s.modLan fun l => { l with sessions := mapSet l.sessions id ⟨fn, false, period, 0, 0⟩ }).answer fn "KEY_EXCHANGE_RSP"
          (leBytes 2 id))

/-- FINISH: the session is secured, and its beacon begins. -/
def execFinish (session : Nat) (s : State) : Res :=
  .next (
    match mapGet? s.lan.sessions session with
    | none => s
    | some x =>
      if x.secured then s.say (.spdmError x.fn)
      else
        (s.modLan fun l => { l with
          sessions := mapSet l.sessions session { x with secured := true, deadline := s.gts + x.span_ } }).answer x.fn "FINISH_RSP" [])

def execHeartbeat (session : Nat) (s : State) : Res := s.inSession session fun x s => s.answer x.fn "HEARTBEAT_ACK" []

/-- KEY_UPDATE: the session's keys are renewed. -/
def execKeyUpdate (session : Nat) (s : State) : Res :=
  s.inSession session fun x s =>
    (s.modLan fun l => { l with
      sessions := mapSet l.sessions session { x with deadline := s.gts + x.span_, keyGen := x.keyGen + 1 } }).answer x.fn "KEY_UPDATE_ACK" []

/-- END_SESSION: answered, and the session is lost. -/
def execEndSession (session : Nat) (s : State) : Res :=
  s.inSession session fun x s => (s.answer x.fn "END_SESSION_ACK" []).loseSession session

/-- LOAD_KEY: the lowest empty slot takes the key, bound to the session and its VF; never for a session without a heartbeat. -/
def execLoadKey (session : Nat) (key : BitVec 256) (s : State) : Res :=
  s.inSession session fun x s =>
    match (if x.period = 0 then none else (span 1 1023).find? fun k => (mapGet? s.lan.slots k).isNone) with
    | none => s.say (.spdmError x.fn)
    | some k =>
      let (inst, s) := s.takeId
      (s.modLan fun l => { l with slots := mapSet l.slots k ⟨key, session, x.fn, inst⟩ }).answer x.fn "VENDOR_DEFINED_RESPONSE" (leBytes 2 k)

/-- SESSION_TIMEOUT: no message of a secured session has come for 2 × HeartbeatPeriod. -/
def execSessionTimeout (session : Nat) (s : State) : Res :=
  .next (
    match mapGet? s.lan.sessions session with
    | some x => if x.due s.gts then s.loseSession session else s
    | none => s)

/-! ## Measurements and hand-over (R243, R247) -/

def fwBytes (x : Nat × BitVec 256) : List Byte := leBytes 8 x.1 ++ leBytes 32 x.2.toNat

/-- The entries of block 0x20 for a session: tag, six zero bytes, GTS of the seed commit, measurement. -/
def State.launchBlock (s : State) (session : Nat) : List Byte :=
  (s.lan.measured.filter fun e => decide (e.1 = session)).reverse.flatMap fun e =>
    leBytes 2 e.2.1 ++ List.replicate 6 0 ++ leBytes 8 e.2.2.1.toNat ++ leBytes 32 e.2.2.2.toNat

/-- A measurement block, if it is present. `session`: the requester's, none outside one; block 0x20 is then present and empty (log entry 99). -/
def State.block? (s : State) (session : Option Nat) (i : Nat) : Option (List Byte) :=
  match i with
  | 1 | 2 | 4 => some (Config.measurement i)
  | 3 => some (fwBytes (s.lan.fwVersion, s.lan.fwDigest))
  | 5 => s.lan.staged.map fwBytes
  | 6 => some [if s.lan.staged.isSome then 1 else 0]
  | 0x20 => some ((session.map s.launchBlock).getD [])
  | _ => none

/-- The measurement record of a response: the block of an index, or for 0xFF every present block, each after its index and
length. -/
def State.measurementRecord (s : State) (session : Option Nat) (index : Nat) : Option (List Byte) :=
  if index = 0xFF then
    some ([1, 2, 3, 4, 5, 6, 0x20].flatMap fun i =>
      match s.block? session i with
      | some b => leBytes 1 i ++ leBytes 4 b.length ++ b
      | none => [])
  else s.block? session index

/-- The answer to GET_MEASUREMENTS. -/
def State.measure (s : State) (fn : Nat) (session : Option Nat) (index : Nat) : State :=
  match s.measurementRecord session index with
  | some b => s.answer fn "MEASUREMENTS" b
  | none => s.say (.spdmError fn)

/-- GET_MEASUREMENTS: inside a secured session of the function, or outside one. -/
def execGetMeasurements (fn session index : Nat) (s : State) : Res :=
  match mapGet? s.lan.sessions session with
  | some x =>
    if x.secured ∧ x.fn = fn then s.inSession session fun _ s => s.measure fn (some session) index
    else .next (if fn ≤ 64 then s.measure fn none index else s)
  | none => .next (if fn ≤ 64 then s.measure fn none index else s)

/-- HANDOVER_STAGE: Lantern measures a staged image into block 5, and HANDOVER_PENDING is set. -/
def execHandoverStage (version : Nat) (digest : BitVec 256) (s : State) : Res :=
  .next (s.modLan fun l => { l with staged := some (version, digest) })

/-- HANDOVER_COMMIT: one entry of the measurement log; blocks 3, 5 and 6 change in one step. -/
def execHandoverCommit (s : State) : Res :=
  .next (
    match s.lan.staged with
    | none => s
    | some x => s.modLan fun l => { l with fwVersion := x.1, fwDigest := x.2, staged := none, mlog := x :: l.mlog })

end Sys2Proof.Machine
end

