-- ==== Sys2Proof/Machine/Ring.lean ====
section
/-! DEFINITION. The die ring (R215 to R217) and the migration of a page between dies (R127, R128). -/

namespace Sys2Proof.Machine

/-! ## Slots (R216, R217) -/

/-- The stop after a stop, clockwise. -/
def nextStop (d : Nat) : Nat := (d + 1) % 8

/-- Whether a class lives in the shared pool. -/
def RingClass.pooled : RingClass → Bool
  | .vc0 | .vc1 => true
  | .e0 | .e1 => false

/-- Whether two classes draw on the same slots. -/
def RingClass.shares (a b : RingClass) : Bool := a == b || (a.pooled && b.pooled)

/-- Slots of a class at a ring input. -/
def RingClass.slots (c : RingClass) : Nat := if c.pooled then 16 else 4

/-- A packet that stands in the slots of a ring input: one that waits to be injected does not. -/
def RingPkt.inSlots (p : RingPkt) : Bool := decide (p.at_ ≠ p.src)

/-- Free slots of a class at a stop's input, as its upstream stop judges: by the report of this cycle, less the flits that it has sent
since. What leaves the input in this cycle is free from the next report on (R217). -/
def State.ringFree (s : State) (stop : Nat) (c : RingClass) : Nat :=
  c.slots - ((s.fab.ring.filter fun p => decide (p.at_ = stop) && p.inSlots && p.cls.shares c).map (·.flits)).sum -
    ((s.fab.ringLeft.filter fun x => decide (x.1 = s.now) && decide (x.2.1 = stop) && x.2.2.1.shares c).map (·.2.2.2)).sum

/-- The slots that a packet leaves are in the report of this cycle. -/
def State.leaveInput (s : State) (p : RingPkt) : State :=
  if p.inSlots then
    s.modFab fun f => { f with ringLeft := (s.now, p.at_, p.cls, p.flits) :: f.ringLeft.filter fun x => decide (x.1 = s.now) }
  else s

/-- The link out of a stop still carries flits of an earlier packet, at one flit a cycle (R215). -/
def State.linkBusy (s : State) (stop : Nat) : Bool :=
  s.fab.ring.any fun q => q.inSlots && decide (q.at_ = nextStop stop) && decide (s.now < q.since)

/-- Whether a packet has crossed the dateline once it has made its next hop. -/
def RingPkt.crosses (p : RingPkt) : Bool := p.crossed || decide (p.at_ = 7)

/-- The class a packet takes for its next hop, none when it waits (R216). -/
def State.hopClass (s : State) (p : RingPkt) : Option RingClass :=
  let n := nextStop p.at_
  let esc : RingClass := if p.crosses then .e1 else .e0
  let fits (c : RingClass) : Bool := decide (p.flits ≤ s.ringFree n c)
  if p.inSlots && !p.cls.pooled then (if fits esc then some esc else none)
  else if fits .vc0 then some (if p.crosses then .vc1 else .vc0)
  else if fits esc then some esc
  else none

/-- A packet that could hop now: the whole of it is here. -/
def State.mayHop (s : State) (p : RingPkt) : Bool :=
  decide (p.at_ ≠ p.dst) && (!p.inSlots || decide (p.since ≤ s.now)) && (s.hopClass p).isSome

/-- An injection that has waited 8 cycles and must be granted. -/
def State.overdue (s : State) (p : RingPkt) : Bool := !p.inSlots && s.mayHop p && decide (p.since + 7 ≤ s.now)

/-- Whether a stop's output serves a packet: a through packet before an injection, but for an overdue one; injections in the
order in which they came (R217). -/
def State.served (s : State) (p : RingPkt) : Bool :=
  let here := s.fab.ring.filter fun q => decide (q.at_ = p.at_)
  if p.inSlots then !here.any s.overdue
  else
    (s.overdue p || !here.any fun q => q.inSlots && s.mayHop q) &&
    !here.any fun q => !q.inSlots && s.mayHop q && decide (q.id < p.id)

/-- RING_HOP: a packet moves to the next stop, whole, in the class of R216; the link carries one flit a cycle. -/
def execRingHop (pkt : Nat) (s : State) : Res :=
  .next (
    match s.fab.ring.find? fun p => decide (p.id = pkt) with
    | none => s
    | some p =>
      if p.at_ = p.dst then s
      else match s.hopClass p with
        | none => s
        | some c =>
          if !s.mayHop p || !s.served p || s.linkBusy p.at_ then s
          else (s.leaveInput p).modFab fun f => { f with ring := f.ring.map fun (q : RingPkt) =>
            if q.id = pkt then { q with at_ := nextStop p.at_, crossed := p.crosses, cls := c, since := s.now + p.flits } else q })

/-- What a die's ring interface has taken and not yet performed. -/
def State.ejected (s : State) (die : Nat) : Nat :=
  (s.ops.filter fun e => decide (e.2.phase = .atOwner die)).length +
  (s.fab.fwds.filter fun f => decide (f.owner = die) && decide (f.stage = .there)).length

/-- A message that waits at its destination to be performed. -/
def Msg.isRequest : Msg → Bool
  | .req _ | .fwd _ => true
  | _ => false

/-- RING_EJECTION: a packet at its destination leaves its slots for the ejection buffer, if that has room, and is delivered (R217). -/
def execRingEjection (pkt : Nat) (s : State) : Res :=
  .next (
    match s.fab.ring.find? fun p => decide (p.id = pkt) with
    | none => s
    | some p =>
      if p.at_ ≠ p.dst ∨ (p.inSlots ∧ s.now < p.since) ∨ (p.msg.isRequest ∧ Config.ejectSlots + 1 ≤ s.ejected p.dst) then s
      else
        ((s.leaveInput p).modFab fun f => { f with ring := f.ring.filter fun q => decide (q.id ≠ pkt) }).landed p.dst p.msg)

/-! ## Page migration (R127, R128) -/

/-- A leaf with another owner and page. -/
def movedPte (pte : Word) (owner pa : Nat) : Word :=
  BitVec.ofNat 64 (wfld pte 0 9 + owner * 2 ^ 9 + wfld pte 13 3 * 2 ^ 13 + pa / 65536 % 2 ^ 36 * 2 ^ 16 + wfld pte 52 12 * 2 ^ 52)

/-- Copies a page's bytes, with the poison of its sectors. The sectors of a SEALED page are sealed anew at their new address; another page's
are copied as an access to it sees them. -/
def State.movePage (s : State) (pte : Word) (old new : Nat) : State :=
  let from_ (k : Nat) : Bool := decide (old ≤ k) && decide (k < old + 65536)
  let into (k : Nat) : Bool := decide (new ≤ k) && decide (k < new + 65536)
  let sealed := pteSealed pte
  let raw := sealed || !s.ms.seals.any fun e => from_ (e.1 * 64)
  s.modMs fun m => { m with
    mem :=
      if raw then (m.mem.filter fun c => from_ c.1).foldl (fun l c => memPut l (c.1 - old + new) c.2) (memClear m.mem new 65536)
      else memWrite m.mem new (s.seen pte old 65536)
    poison := ((m.poison.filter fun g => from_ (g * 16)).map fun g => g - old / 16 + new / 16).foldl setIns
      (m.poison.filter fun g => !into (g * 16))
    seals := (m.seals.filter fun e => sealed && from_ (e.1 * 64)).foldl
      (fun z e =>
        let k := e.1 - old / 64 + new / 64
        mapSet z k { e.2 with version := ((mapGet? m.seals k).map (·.version)).getD 0 + 1 })
      (m.seals.filter fun e => !into (e.1 * 64)) }

/-- Whether a page may be moved: neither PIN nor CLEAR, to another place of a die's memory (R127). -/
def migratable (pte : Word) (old new die pa : Nat) : Bool :=
  !ptePin pte && !pteClear pte && decide (die < 8) && decide (pa % 65536 = 0) && decide (pa + 65536 ≤ hbmBytes) && decide (old ≠ new)

/-- The key of the page that a leaf names. -/
def pageKey (pte : Word) : Nat := ownerKey (pteOwner pte) (ptePa pte 0)

/-- The jobs in which a virtual address leads to a page: every one that shares it has it there (R116). -/
def State.sharers (s : State) (va : Word) (key : Nat) : List Nat :=
  (s.jobs.filter fun e =>
    (s.walk (tagDie e.1) e.2.ptRoot va).any fun pte => decide (pageKey pte = key)).map (·.1)

/-- The leaf of a job's page is rewritten with its new place (step 3 of R128). -/
def State.rewriteLeaf (s : State) (va : Word) (die pa tag : Nat) : State :=
  let root := (s.job tag).ptRoot
  match s.walk (tagDie tag) root va with
  | none => s
  | some pte => s.modMs fun m => { m with
      mem := memWrite m.mem (hbmKey (tagDie tag) (s.leafPa (tagDie tag) root va)) (leBytes 8 (movedPte pte die pa).toNat) }

/-- Steps 2 to 5 of R128. -/
def State.migratePage (s : State) (va pte : Word) (old new die pa : Nat) : State :=
  let inPage (k : Nat) : Bool := (decide (old ≤ k) && decide (k < old + 65536)) || (decide (new ≤ k) && decide (k < new + 65536))
  let tags := s.sharers va old
  let gone := (s.fab.tlb.filter fun t => decide (pageKey t.pte = old)).map fun t => (t.tag, t.vpage)
  let stale (tag vpage : Nat) : Bool := gone.contains (tag, vpage) || (tags.contains tag && decide (vpage = va.toNat / 65536))
  let s := tags.foldl (fun s tag => s.rewriteLeaf va die pa tag) (s.movePage pte old new)
  let s := s.modFab fun f => { f with
    tlb := f.tlb.filter fun t => !stale t.tag t.vpage
    resident := f.resident.filter fun r => !inPage r.line
    migrating := f.migrating.filter fun m => decide (m.2.2 ≠ old) }
  s.mapCores fun _ c => { c with l1 := c.l1.filter fun l => !stale l.job (l.addr / 1024) }

/-- Whether firmware may read the page, write its new place and rewrite its leaves, as the command processor of the job's queue: by the access
tables, and with no line of them held or being swept (R149, R232, R239; log entry 93). -/
def State.moverPasses (s : State) (master : Nat) (va pte : Word) (die pa : Nat) : Bool :=
  let page := va &&& ~~~0xFFFF
  (s.ownerEntry master (pteOwner pte) page (ptePa pte 0) 65536 true false).isSome &&
  (s.pathEntry master die page pa 65536 false true).isSome &&
  (s.sharers va (pageKey pte)).all fun t =>
    let leaf := s.leafPa (tagDie t) (s.job t).ptRoot va
    (s.pathEntry master (tagDie t) (BitVec.ofNat 64 leaf) leaf 8 true true).isSome

/-- A line of the page, of its new place or of a leaf that is held by a host write or locked by a key sweep. -/
def State.moverWaits (s : State) (va pte : Word) (new : Nat) : Bool :=
  let held (key n : Nat) : Bool := (lineParts key n).any fun x => s.lineHeld (lineOf (key + x.1)) || s.lineSwept (lineOf (key + x.1))
  held (pageKey pte) 65536 || held new 65536 ||
  (s.sharers va (pageKey pte)).any fun t => held (hbmKey (tagDie t) (s.leafPa (tagDie t) (s.job t).ptRoot va)) 8

/-- PAGE_MIGRATION: firmware moves a page of a job (R127, R128). Taken once it begins: from then on every access to the page is refused
(step 1). It begins when nothing of the page is being filled or forwarded. Taken again it copies the page, rewrites its leaf, shoots down what
caches it, and ends the refusal. -/
def execPageMigration (tag : Nat) (va : Word) (die pa : Nat) (s : State) : Res :=
  let stop (s : State) : State := s.modFab fun f => { f with
    migrating := f.migrating.filter fun m => !(decide (m.1 = tag) && decide (m.2.1 = va.toNat / 65536)) }
  .next (State.runNotices (
    match s.liveJob? tag with
    | none => stop s
    | some j =>
      match s.walk (tagDie tag) j.ptRoot va with
      | none => stop s
      | some pte =>
        let old := pageKey pte
        let new := ownerKey die pa
        let inPage (k : Nat) : Bool := decide (old ≤ k) && decide (k < old + 65536)
        if !migratable pte old new die pa || !s.moverPasses (masterFw (j.queue % 8)) va pte die pa then stop s
        else if s.moverWaits va pte new then s
        else if s.keyMoving old then s.migratePage va pte old new die pa
        else if s.fab.fills.any (fun f => inPage f.line) || s.fab.fwds.any (fun f => inPage f.key) then s
        else s.modFab fun f => { f with migrating := f.migrating ++ [(tag, va.toNat / 65536, old)] }))

end Sys2Proof.Machine
end

