-- ==== Sys2Proof/Machine/Suspend.lean ====
section
/-! DEFINITION. Suspension of a territory: the halt, a command held on a link, the flush (R204), the saving and the claiming of
pages (R206 to R208), and resumption (R205, R209). -/

namespace Sys2Proof.Machine

/-! ## Halt (R37, R204) -/

/-- A thread stops at an instruction boundary, which a PFX pair has none inside (R204, R213). -/
def Thread.rewind (t : Thread) : Thread := { t with pc := t.trapPoint, pfx := none }

/-- TERRITORY_SUSPEND: LOCK is set, moves are settled, and the cores stop issuing. A tile whose move has stopped goes to its gainer, and is no
tile of the suspended territory (R37). A job whose last thread ends with a cancelled move ends instead (R36). -/
def execTerritorySuspend (tag : Nat) (s : State) : Res :=
  .next (
    if s.jobActive tag then
      let ts := s.tilesOf tag
      let lock := (s.tile (s.job tag).anchor).lock
      let s := ts.foldl (fun s t => s.lockTile t true) s
      let s := (s.cancelledDonors tag ++ [tag]).foldl (fun s a => s.endIfSpent a) (s.settleMoves tag)
      if !s.jobActive tag then s
      else
        let s := { s with threads := s.threads.map fun (e : Uid × Thread) => if e.2.job = tag then (e.1, e.2.rewind) else e }
        let (id, s) := s.takeId
        s.modJob tag fun j => { j with
          status := .suspended
          saved := some ⟨s.gts, s.now, lock, ts.filter (fun t => !s.moves.any fun m => decide (m.tile = t)), [], false, [], [], [], false, 0,
            id, [], []⟩ }
    else s)

/-! ## A command held on a link (step 1 of R204) -/

/-- Beats that a LINK operand has taken, and puts back ahead of those in its FIFO. -/
def State.putBack (s : State) (o : Op) (i l src : Nat) : State :=
  let took := ((o.pieces.drop i).take l).filterMap fun p => p.data.map beatOf
  let f := tileOf o.pcn * 4 + src
  if took = [] then s
  else s.modFab fun x => { x with links := mapSet x.links f (took ++ (mapGet? x.links f).getD []) }

/-- How many beats of an operand have been forwarded: those taken, but for one that still waits for its FIFO. -/
def State.forwarded (s : State) (id : OpId) (o : Op) (i l skip : Nat) (fwd : Option Nat) : Nat :=
  match fwd.bind (targetFifo (tileOf o.pcn)) with
  | none => 0
  | some g =>
    let took := (((o.pieces.drop i).take l).filterMap (·.data)).length
    let held := if s.fab.flight.any fun b => decide (b.op = id) && decide (b.fifo = g) then 1 else 0
    max skip (took - held)

/-- The source of an operand's beats. -/
def linkOf (d : Word) : Nat :=
  match Operand.ofWord d with
  | .link _ src _ => src
  | _ => 0

/-- A held matrix command goes back to the head of its queue. -/
def State.unstartMatrix (s : State) (id : OpId) (o : Op) (a b : Word) (k r bits : Nat) : State :=
  let n := imageBytes k r bits
  let la := beatsOf (tileOf o.pcn) a n
  let lb := beatsOf (tileOf o.pcn) b n
  let ib := o.pieces.length - lb
  let fa := s.forwarded id o 0 la (o.aux % 2 ^ 16) (o.sends 0)
  let fb := s.forwarded id o ib lb (o.aux / 2 ^ 16) (o.sends 1)
  let s := if lb = 0 then s else s.putBack o ib lb (linkOf b)
  let s := if la = 0 then s else s.putBack o 0 la (linkOf a)
  let s := (s.dropFwds id).releaseEngine id o
  let s := s.modFab fun f => { f with flight := f.flight.filter fun x => decide (x.op ≠ id) }
  (s.setOp id { o with phase := .queued, pieces := [], recd := none, result := [], aux := fa + 2 ^ 16 * fb }).modCore o.pcn
    fun c => { c with matQ := id :: c.matQ }

/-- A held link-sending copy goes back to the head of its queue with the number of beats it has sent. -/
def State.unstartCopy (s : State) (id : OpId) (o : Op) : State :=
  let sent := if s.inFlight id then o.aux - 1 else o.aux
  let s := (s.dropFwds id).releaseEngine id o
  let s := s.modFab fun f => { f with flight := f.flight.filter fun x => decide (x.op ≠ id) }
  (s.setOp id { o with phase := .queued, pieces := [], aux := sent }).modCore o.pcn fun c => { c with copyQ := id :: c.copyQ }

/-- LINK_HOLD_TIMEOUT: 2,048 cycles after the halt a command that a link holds is stopped. -/
def execLinkHoldTimeout (op : OpId) (s : State) : Res :=
  .next (
    match s.op? op with
    | none => s
    | some o =>
      match (s.job o.job).saved with
      | none => s
      | some v =>
        if decide (o.phase ≠ .started) || v.flushed || decide (s.now < v.haltAt + 2048) then s
        else match o.kind.product with
          | some (a, b, k, r, bits) =>
            let n := imageBytes k r bits
            let la := beatsOf (tileOf o.pcn) a n
            let lb := beatsOf (tileOf o.pcn) b n
            let waits := (nextBeat o.pieces 0 la).isSome || (nextBeat o.pieces (o.pieces.length - lb) lb).isSome
            if waits || s.inFlight op then s.unstartMatrix op o a b k r bits else s
          | none => if o.copyLink.isSome && s.inFlight op then s.unstartCopy op o else s)

/-! ## Flush (step 2 of R204, R208) -/

/-- Operations of a job that are neither waiting to go nor over: a posted store that has failed is over once it has been refused (R198). -/
def State.movingOps (s : State) (tag : Nat) : Bool :=
  s.ops.any fun e => decide (e.2.job = tag) && match e.2.phase with
    | .failed _ => e.2.jidx.isSome
    | .queued | .waiting | .performed | .finished => false
    | _ => true

/-- A core's engine record. -/
def State.engineRec (s : State) (p : Pcn) : EngineRec :=
  ⟨p, s.core p, if coreIx p = 0 then s.fab.links.filter fun e => decide (e.1 / 4 = tileOf p) else []⟩

/-- What the flush sends to the save area (R204, R208): the header, zeros in the context part of each slot, and the engine records, as the
15 chunks that are numbered from 64 on. -/
def State.flushArea (s : State) (tag : Nat) (v : SaveImage) : State :=
  let j := s.job tag
  let ps := v.tiles.flatMap coresOf
  let zeros := ps.flatMap fun p => savings p (j.slotBase v p) 0x10000 []
  let s := s.modSaved tag fun v => { v with writing := savings (ps.headD 0) j.saveArea 0x10000 (v.areaHeader tag) ++ zeros }
  v.engines.foldl (fun s r =>
    let bs := s.recordBytes r
    (List.range 15).foldl (fun s k => s.saveChunk tag r.pcn (64 + k) (recordChunk bs k) []) s) s

/-- What the flush takes into the image: the cores, the pages that stay in place and the LMPU entries (R103, R204, R206). -/
def State.flushed (s : State) (v : SaveImage) : SaveImage :=
  let ps := v.tiles.flatMap coresOf
  { v with
    engines := ps.map s.engineRec
    flushed := true
    kept := s.ms.lmap.filter fun k => ps.contains (k / 48) && !s.keptPage (k / 48) (k % 48)
    lmpu := s.ms.lmpu.filter fun e => ps.contains (e.1 / 48) && !s.keptPage (e.1 / 48) (e.1 % 48) }

/-- SUSPEND_FLUSH: once the engines have stopped and tiles past their stop have gone, slots go to their images and engine records to the save
area. Taken again, what is on its way to the save area goes on. -/
def execSuspendFlush (tag : Nat) (s : State) : Res :=
  .next (
    match (s.job tag).saved with
    | none => s
    | some v =>
      if v.flushed then s.saveWrites tag
      else if s.movingOps tag || s.moves.any (fun m => decide (m.donor = tag)) then s
      else
        let s := (s.threads.filter fun e => decide (e.2.job = tag)).foldl (fun s e =>
          (s.modThread e.1 fun t => if t.status = .running then { t with status := .ready, readySince := s.now } else t).leaveSlot e.1) s
        let v := s.flushed v
        (s.modJob tag fun j => { j with saved := some v }).flushArea tag v)

/-! ## Saving pages (R206 to R209) -/

/-- BACKGROUND_PAGE_SAVE: a page with LZ = 0, or of the context area, is saved after the flush (R206, R208). -/
def execBackgroundPageSave (pcn page : Nat) (s : State) : Res :=
  .next (
    match s.victimOf pcn page with
    | none => s
    | some (tag, v) =>
      if !v.restoring && v.writing.isEmpty && !v.has pcn page && ((s.job tag).isContext page || !v.lazy pcn page) then
        s.savePage tag pcn page
      else s)

/-- PAGE_CLAIM: the lowest page that stays in place on a core is claimed for the job that holds it now, before a thread of that job starts
there; a page with LZ = 1 is saved first (R206, R207). -/
def execPageClaim (pcn page : Nat) (s : State) : Res :=
  .next (
    match s.victimOf pcn page with
    | none => s
    | some (tag, v) =>
      let mine := (s.keptOn (tileOf pcn)).filter fun x => decide (x.2.1 = pcn) && decide (x.2.2 < page)
      if decide (s.owner (tileOf pcn) = tag) || isIdle (s.owner (tileOf pcn)) || mine != [] || (s.core pcn).lastRan.isSome then s
      else if v.has pcn page then (if v.writing.isEmpty then s.givePage tag pcn page else s)
      else if v.lazy pcn page then s.savePage tag pcn page
      else s)

/-! ## Resumption (R205, R209) -/

/-- A page that was saved and has left its bank comes back; a page of the context area is its threads' images (R40, R205). -/
def State.restorePage (s : State) (tag : Nat) (v : SaveImage) (x : SavedPage) : State :=
  if 64 ≤ x.page then s
  else if (s.job tag).isContext x.page then
    { s with threads := s.threads.map fun (e : Uid × Thread) =>
        match e.2.image with
        | some k =>
          if e.2.job = tag ∧ e.2.pcn = x.pcn ∧ k / 2 = x.page then (e.1, e.2.ofImage ((x.data.drop (k % 2 * 0x800)).take 0x800)) else e
        | none => e }
  else if v.kept.contains (x.pcn * 48 + x.page) then s
  else
    let s := s.bankStore x.pcn (x.page * 4096) x.data
    s.modMs fun m => { m with full := x.full.foldl setIns m.full }

/-- The bytes of a core's engine record, as its chunks were read back. -/
def SaveImage.recordOf (v : SaveImage) (p : Pcn) : List Byte :=
  (v.store.filter fun x => decide (x.pcn = p) && decide (64 ≤ x.page)).flatMap (·.data)

/-- A core continues as its record says, and maps its bank again. Its caches are empty, as its tile had another owner (R112, R268), its
error counter goes on, and its journal holds the stores that have not left it since (R197, R204). -/
def State.restoreCore (s : State) (tag : Nat) (v : SaveImage) (r : EngineRec) : State :=
  let (r, cmds) := s.recordOfBytes r (v.recordOf r.pcn)
  let s := cmds.foldl (fun s c => s.modOp c.id fun o => { o with kind := o.kind.ofWords c.words, aux := c.aux }) s
  let s := s.modCore r.pcn fun c => { r.core with
    att := c.att, engfrz := c.engfrz, halted := c.halted, haltGrp := c.haltGrp, stopCause := c.stopCause, nextIssue := s.now
    icache := [], l1 := [], correctable := c.correctable
    journal := r.core.journal.filter fun e => e.2.held || (s.op? e.2.op).isSome }
  let s := s.modFab fun f => { f with links := r.beats.foldl (fun l b => mapSet l b.1 b.2) f.links }
  let s := s.mapBank tag r.pcn
  s.modMs fun m => { m with lmpu := (v.lmpu.filter fun e => decide (e.1 / 48 = r.pcn)).foldl (fun l e => mapSet l e.1 e.2) m.lmpu }

/-- The job runs again on its cores: saved pages, engine records, and LOCK if it was launched locked (R205). -/
def State.finishResume (s : State) (tag : Nat) (v : SaveImage) : State :=
  let s := v.tiles.foldl (fun s t => s.setTile t ⟨tagIx tag, v.lock || (s.job tag).lockReq⟩) s
  let s := (s.modJob tag fun j => { j with status := .active, saved := none }).modFab fun f => f.quit [v.id]
  let s := v.engines.foldl (fun s r => s.restoreCore tag v r) s
  (v.store.foldl (fun s x => s.restorePage tag v x) s).endIfSpent tag

/-- TERRITORY_RESUME: once every tile is idle or the job's, at rest, and what was saved has come to the save area. The image is then opened
chunk by chunk. -/
def execTerritoryResume (tag : Nat) (s : State) : Res :=
  .next (
    match (s.job tag).saved with
    | none => s
    | some v =>
      let free (t : Nat) : Bool := (isIdle (s.owner t) || decide (s.owner t = tag)) && !s.moves.any fun m => decide (m.tile = t)
      if !v.flushed || v.restoring || !v.writing.isEmpty || decide ((s.job tag).status ≠ .suspended) || !v.tiles.all free then s
      else
        let s := v.tiles.foldl (fun s t => s.setTile t ⟨tagIx tag, true⟩) s
        s.modSaved tag fun v => { v with restoring := true })

/-- What is read to open a chunk: its bytes, and if it is sealed its tag; with the first one the image's header, its AAD (R209). -/
def Job.chunkReads (j : Job) (v : SaveImage) (x : SavedPage) : List (Word × Nat) :=
  pagesOf 9 (j.saveSlot v x.pcn x.page) 4096 ++
  (if x.sealed.isNone then []
   else pagesOf 9 (j.tagSlot v x.pcn x.page) 16 ++ if v.opened = 0 then pagesOf 9 j.saveArea 16 else [])

/-- Bytes read back, from the pieces that they were read in. -/
def SaveImage.gotAt (v : SaveImage) (a : Word) (n : Nat) : List Byte :=
  (pagesOf 9 a n).flatMap fun x => ((v.got.find? fun g => decide (g.1 = x.1)).map (·.2)).getD []

/-- Whether a chunk opens: the save area holds the bytes and the tag that were sealed, and for the first chunk the header, and the key slot
the key (R209). -/
def State.chunkOpens (s : State) (tag : Nat) (v : SaveImage) (x : SavedPage) : Bool :=
  let j := s.job tag
  match x.sealed with
  | none => true
  | some (inst, aad, t) =>
    decide (s.slotInst j.keyslot = inst) &&
    decide (v.gotAt (j.saveSlot v x.pcn x.page) 4096 = chunkBytes inst aad x.data) &&
    decide (v.gotAt (j.tagSlot v x.pcn x.page) 16 = leBytes 16 t.toNat) &&
    (decide (v.opened ≠ 0) || decide (leNat (v.gotAt j.saveArea 16) = aad.toNat))

/-- What the opened chunk held: a sealed one what was sealed. -/
def SavedPage.opened (x : SavedPage) (v : SaveImage) (j : Job) : SavedPage :=
  if x.sealed.isSome then x else { x with data := v.gotAt (j.saveSlot v x.pcn x.page) 4096 }

/-- The reads of a chunk go on. One that fails is a fault of the resumed job. -/
def State.readChunk (s : State) (tag : Nat) (v : SaveImage) (x : SavedPage) : State :=
  let j := s.job tag
  ((j.chunkReads v x).filter fun r => !v.got.any fun g => decide (g.1 = r.1)).foldl (fun s r =>
    if (s.job tag).saved.isNone then s
    else match s.areaAccess tag v.id x.pcn r.1 r.2 none with
      | .wait s => s
      | .ok s bs => s.modSaved tag fun v => { v with got := v.got ++ [(r.1, bs)] }
      | .fail s _ _ => s.freezeJob tag 0x02 0) s

/-- RESTORE_CHUNK_OPEN: the next chunk in save order is read and opened; a bad tag aborts, and the job faults (R205, R209). -/
def execRestoreChunkOpen (tag : Nat) (s : State) : Res :=
  .next (
    match (s.job tag).saved with
    | none => s
    | some v =>
      if !v.restoring then s
      else match v.store[v.opened]? with
        | none => s.finishResume tag v
        | some x =>
          let s := s.readChunk tag v x
          match (s.job tag).saved with
          | none => s
          | some v =>
            if !((s.job tag).chunkReads v x).all fun r => v.got.any fun g => decide (g.1 = r.1) then s
            else if !s.chunkOpens tag v x then s.freezeJob tag 0x02 0
            else
              let v := { v with opened := v.opened + 1, got := [], store := v.store.set v.opened (x.opened v (s.job tag)) }
              let s := (s.modJob tag fun j => { j with saved := some v }).dropFwds v.id
              if v.store.length ≤ v.opened then s.finishResume tag v else s)

end Sys2Proof.Machine
end

