-- ==== Sys2Proof/Machine/Dispatch.lean ====
section
/-! DEFINITION. One arm per constructor of `Instr`: each is one call of the meaning of its row. -/

namespace Sys2Proof.Machine

def exec (i : Instr) (s : State) : Host.Outcome State Fault Refusal :=
  match i with
  | .add d a b => Sys2Proof.Machine.execAdd d a b s
  | .addShort d st => Sys2Proof.Machine.execAddShort d st s
  | .sub d a b => Sys2Proof.Machine.execSub d a b s
  | .subShort d st => Sys2Proof.Machine.execSubShort d st s
  | .and d a b => Sys2Proof.Machine.execAnd d a b s
  | .or d a b => Sys2Proof.Machine.execOr d a b s
  | .xor d a b => Sys2Proof.Machine.execXor d a b s
  | .shl d a b => Sys2Proof.Machine.execShl d a b s
  | .shr d a b => Sys2Proof.Machine.execShr d a b s
  | .sar d a b => Sys2Proof.Machine.execSar d a b s
  | .min d a b => Sys2Proof.Machine.execMin d a b s
  | .minu d a b => Sys2Proof.Machine.execMinu d a b s
  | .max d a b => Sys2Proof.Machine.execMax d a b s
  | .maxu d a b => Sys2Proof.Machine.execMaxu d a b s
  | .slt d a b => Sys2Proof.Machine.execSlt d a b s
  | .sltu d a b => Sys2Proof.Machine.execSltu d a b s
  | .seq d a b => Sys2Proof.Machine.execSeq d a b s
  | .mul d a b => Sys2Proof.Machine.execMul d a b s
  | .mulh d a b => Sys2Proof.Machine.execMulh d a b s
  | .mulhu d a b => Sys2Proof.Machine.execMulhu d a b s
  | .clz d a => Sys2Proof.Machine.execClz d a s
  | .ctz d a => Sys2Proof.Machine.execCtz d a s
  | .popc d a => Sys2Proof.Machine.execPopc d a s
  | .sext d a w => Sys2Proof.Machine.execSext d a w s
  | .zext d a w => Sys2Proof.Machine.execZext d a w s
  | .sel d a b => Sys2Proof.Machine.execSel d a b s
  | .addi d a imm => Sys2Proof.Machine.execAddi d a imm s
  | .addiShort d imm => Sys2Proof.Machine.execAddiShort d imm s
  | .andi d a imm => Sys2Proof.Machine.execAndi d a imm s
  | .ori d a imm => Sys2Proof.Machine.execOri d a imm s
  | .xori d a imm => Sys2Proof.Machine.execXori d a imm s
  | .shli d a st => Sys2Proof.Machine.execShli d a st s
  | .shliShort d st => Sys2Proof.Machine.execShliShort d st s
  | .shri d a st => Sys2Proof.Machine.execShri d a st s
  | .sari d a st => Sys2Proof.Machine.execSari d a st s
  | .movi d h imm => Sys2Proof.Machine.execMovi d h imm s
  | .movk d h imm => Sys2Proof.Machine.execMovk d h imm s
  | .mov d st => Sys2Proof.Machine.execMov d st s
  | .addpc d imm => Sys2Proof.Machine.execAddpc d imm s
  | .lit d l => Sys2Proof.Machine.execLit d l s
  | .litZ d l => Sys2Proof.Machine.execLitZ d l s
  | .litH d l => Sys2Proof.Machine.execLitH d l s
  | .div d a b k => Sys2Proof.Machine.execDiv d a b k s
  | .divu d a b k => Sys2Proof.Machine.execDivu d a b k s
  | .rem d a b k => Sys2Proof.Machine.execRem d a b k s
  | .remu d a b k => Sys2Proof.Machine.execRemu d a b k s
  | .fadd d a b f => Sys2Proof.Machine.execFadd d a b f s
  | .fsub d a b f => Sys2Proof.Machine.execFsub d a b f s
  | .fmul d a b f => Sys2Proof.Machine.execFmul d a b f s
  | .ffma d a b f => Sys2Proof.Machine.execFfma d a b f s
  | .fmin d a b f => Sys2Proof.Machine.execFmin d a b f s
  | .fmax d a b f => Sys2Proof.Machine.execFmax d a b f s
  | .feq d a b f => Sys2Proof.Machine.execFeq d a b f s
  | .flt d a b f => Sys2Proof.Machine.execFlt d a b f s
  | .fle d a b f => Sys2Proof.Machine.execFle d a b f s
  | .fclass d a f => Sys2Proof.Machine.execFclass d a f s
  | .fsgn d a b f => Sys2Proof.Machine.execFsgn d a b f s
  | .fsgnn d a b f => Sys2Proof.Machine.execFsgnn d a b f s
  | .fsgnx d a b f => Sys2Proof.Machine.execFsgnx d a b f s
  | .fcvt d a f c => Sys2Proof.Machine.execFcvt d a f c s
  | .faddk d a c => Sys2Proof.Machine.execFaddk d a c s
  | .fmulk d a c => Sys2Proof.Machine.execFmulk d a c s
  | .ffmak d a c => Sys2Proof.Machine.execFfmak d a c s
  | .ldk d c => Sys2Proof.Machine.execLdk d c s
  | .faddl d a l => Sys2Proof.Machine.execFaddl d a l s
  | .fmull d a l => Sys2Proof.Machine.execFmull d a l s
  | .ffmal d a l => Sys2Proof.Machine.execFfmal d a l s
  | .fdiv d a b k f => Sys2Proof.Machine.execFdiv d a b k f s
  | .fsqrt d a k f => Sys2Proof.Machine.execFsqrt d a k f s
  | .ffmai d m imm => Sys2Proof.Machine.execFfmai d m imm s
  | .fmovi d imm => Sys2Proof.Machine.execFmovi d imm s
  | .faddi d m imm => Sys2Proof.Machine.execFaddi d m imm s
  | .fmuli d m imm => Sys2Proof.Machine.execFmuli d m imm s
  | .br o => Sys2Proof.Machine.execBr o s
  | .call o => Sys2Proof.Machine.execCall o s
  | .beq a b o => Sys2Proof.Machine.execBeq a b o s
  | .bne a b o => Sys2Proof.Machine.execBne a b o s
  | .blt a b o => Sys2Proof.Machine.execBlt a b o s
  | .bge a b o => Sys2Proof.Machine.execBge a b o s
  | .bltu a b o => Sys2Proof.Machine.execBltu a b o s
  | .bgeu a b o => Sys2Proof.Machine.execBgeu a b o s
  | .bz a o => Sys2Proof.Machine.execBz a o s
  | .bnz a o => Sys2Proof.Machine.execBnz a o s
  | .bnzShort d o => Sys2Proof.Machine.execBnzShort d o s
  | .jr a => Sys2Proof.Machine.execJr a s
  | .callr a => Sys2Proof.Machine.execCallr a s
  | .dly n => Sys2Proof.Machine.execDly n s
  | .waitt k n => Sys2Proof.Machine.execWaitt k n s
  | .waittShort k n => Sys2Proof.Machine.execWaittShort k n s
  | .tkrd k g => Sys2Proof.Machine.execTkrd k g s
  | .tkclr k => Sys2Proof.Machine.execTkclr k s
  | .stmsk j m => Sys2Proof.Machine.execStmsk j m s
  | .ld t b st m w x o => Sys2Proof.Machine.execLd t b st m w x o s
  | .ldShort d st => Sys2Proof.Machine.execLdShort d st s
  | .st t b st m w o => Sys2Proof.Machine.execSt t b st m w o s
  | .stShort d st => Sys2Proof.Machine.execStShort d st s
  | .vld t b st m o => Sys2Proof.Machine.execVld t b st m o s
  | .vldShort d st => Sys2Proof.Machine.execVldShort d st s
  | .vst t b st m o => Sys2Proof.Machine.execVst t b st m o s
  | .vstShort st d => Sys2Proof.Machine.execVstShort st d s
  | .ldx t b st m k w x => Sys2Proof.Machine.execLdx t b st m k w x s
  | .ldxWf t b st m k w x => Sys2Proof.Machine.execLdxWf t b st m k w x s
  | .ldxWfc t b st m k w x => Sys2Proof.Machine.execLdxWfc t b st m k w x s
  | .ldxMg t b st m k w x => Sys2Proof.Machine.execLdxMg t b st m k w x s
  | .stx t b st m k w => Sys2Proof.Machine.execStx t b st m k w s
  | .stxSf t b st m k w => Sys2Proof.Machine.execStxSf t b st m k w s
  | .stxNl t b st m k => Sys2Proof.Machine.execStxNl t b st m k s
  | .stxNh t b st m k => Sys2Proof.Machine.execStxNh t b st m k s
  | .vldx t b st m k => Sys2Proof.Machine.execVldx t b st m k s
  | .vldxWf t b st m k => Sys2Proof.Machine.execVldxWf t b st m k s
  | .vldxWfc t b st m k => Sys2Proof.Machine.execVldxWfc t b st m k s
  | .vstx t b st m k => Sys2Proof.Machine.execVstx t b st m k s
  | .vstxSf t b st m k => Sys2Proof.Machine.execVstxSf t b st m k s
  | .aadd t b st m k w => Sys2Proof.Machine.execAadd t b st m k w s
  | .aand t b st m k w => Sys2Proof.Machine.execAand t b st m k w s
  | .aor t b st m k w => Sys2Proof.Machine.execAor t b st m k w s
  | .axor t b st m k w => Sys2Proof.Machine.execAxor t b st m k w s
  | .amin t b st m k w => Sys2Proof.Machine.execAmin t b st m k w s
  | .amax t b st m k w => Sys2Proof.Machine.execAmax t b st m k w s
  | .aminu t b st m k w => Sys2Proof.Machine.execAminu t b st m k w s
  | .amaxu t b st m k w => Sys2Proof.Machine.execAmaxu t b st m k w s
  | .aswp t b st m k w => Sys2Proof.Machine.execAswp t b st m k w s
  | .acas t b st m k w => Sys2Proof.Machine.execAcas t b st m k w s
  | .chunk t b st m k => Sys2Proof.Machine.execChunk t b st m k s
  | .watch v b st m c w => Sys2Proof.Machine.execWatch v b st m c w s
  | .feclr b st m c => Sys2Proof.Machine.execFeclr b st m c s
  | .feset b st m c => Sys2Proof.Machine.execFeset b st m c s
  | .vadd d a b k t => Sys2Proof.Machine.execVadd d a b k t s
  | .vaddShort d st => Sys2Proof.Machine.execVaddShort d st s
  | .vsub d a b k t => Sys2Proof.Machine.execVsub d a b k t s
  | .vmul d a b k t => Sys2Proof.Machine.execVmul d a b k t s
  | .vmulShort d st => Sys2Proof.Machine.execVmulShort d st s
  | .vfma d a b k t => Sys2Proof.Machine.execVfma d a b k t s
  | .vmin d a b k t => Sys2Proof.Machine.execVmin d a b k t s
  | .vmax d a b k t => Sys2Proof.Machine.execVmax d a b k t s
  | .vmaxShort d st => Sys2Proof.Machine.execVmaxShort d st s
  | .vabs d a k t => Sys2Proof.Machine.execVabs d a k t s
  | .vneg d a k t => Sys2Proof.Machine.execVneg d a k t s
  | .vand d a b k t => Sys2Proof.Machine.execVand d a b k t s
  | .vor d a b k t => Sys2Proof.Machine.execVor d a b k t s
  | .vxor d a b k t => Sys2Proof.Machine.execVxor d a b k t s
  | .vshl d a b k t => Sys2Proof.Machine.execVshl d a b k t s
  | .vshr d a b k t => Sys2Proof.Machine.execVshr d a b k t s
  | .vsar d a b k t => Sys2Proof.Machine.execVsar d a b k t s
  | .vmov d a k t => Sys2Proof.Machine.execVmov d a k t s
  | .vmovShort d st => Sys2Proof.Machine.execVmovShort d st s
  | .vsel d a b k t => Sys2Proof.Machine.execVsel d a b k t s
  | .vmodadd d a b k => Sys2Proof.Machine.execVmodadd d a b k s
  | .vmodsub d a b k => Sys2Proof.Machine.execVmodsub d a b k s
  | .vmodmul d a b k => Sys2Proof.Machine.execVmodmul d a b k s
  | .vntt d a b k => Sys2Proof.Machine.execVntt d a b k s
  | .vcvt d a k src dst sr => Sys2Proof.Machine.execVcvt d a k src dst sr s
  | .vred d a o k t => Sys2Proof.Machine.execVred d a o k t s
  | .vperm d a b k t => Sys2Proof.Machine.execVperm d a b k t s
  | .vbcast d a k t => Sys2Proof.Machine.execVbcast d a k t s
  | .vext d a lane t => Sys2Proof.Machine.execVext d a lane t s
  | .vexp2 d a k t => Sys2Proof.Machine.execVexp2 d a k t s
  | .vrcp d a k t => Sys2Proof.Machine.execVrcp d a k t s
  | .vrsqrt d a k t => Sys2Proof.Machine.execVrsqrt d a k t s
  | .vcmp d a b k t c => Sys2Proof.Machine.execVcmp d a b k t c s
  | .kand d a b => Sys2Proof.Machine.execKand d a b s
  | .kor d a b => Sys2Proof.Machine.execKor d a b s
  | .kxor d a b => Sys2Proof.Machine.execKxor d a b s
  | .knot d a => Sys2Proof.Machine.execKnot d a s
  | .mma a b k t f n m => Sys2Proof.Machine.execMma a b k t f n m s
  | .mmod a b k t n m => Sys2Proof.Machine.execMmod a b k t n m s
  | .mzero d c a k => Sys2Proof.Machine.execMzero d c a k s
  | .mload d c a k st m => Sys2Proof.Machine.execMload d c a k st m s
  | .mdrain d c a k st m => Sys2Proof.Machine.execMdrain d c a k st m s
  | .cpy a b c k st m => Sys2Proof.Machine.execCpy a b c k st m s
  | .cpy2d a b c k st m => Sys2Proof.Machine.execCpy2d a b c k st m s
  | .cpyl a k st m => Sys2Proof.Machine.execCpyl a k st m s
  | .mcrd a b c k st m => Sys2Proof.Machine.execMcrd a b c k st m s
  | .spawn a b k st m => Sys2Proof.Machine.execSpawn a b k st m s
  | .taskq a k st m => Sys2Proof.Machine.execTaskq a k st m s
  | .bind a b c k st m => Sys2Proof.Machine.execBind a b c k st m s
  | .signal a b c k st m => Sys2Proof.Machine.execSignal a b c k st m s
  | .join a k st m => Sys2Proof.Machine.execJoin a k st m s
  | .leave a k st m => Sys2Proof.Machine.execLeave a k st m s
  | .gbar a => Sys2Proof.Machine.execGbar a s
  | .tshape d a k => Sys2Proof.Machine.execTshape d a k s
  | .tpress a k => Sys2Proof.Machine.execTpress a k s
  | .upret => Sys2Proof.Machine.execUpret s
  | .exit => Sys2Proof.Machine.execExit s
  | .yield => Sys2Proof.Machine.execYield s
  | .mig a => Sys2Proof.Machine.execMig a s
  | .csrr d c => Sys2Proof.Machine.execCsrr d c s
  | .csrw a c => Sys2Proof.Machine.execCsrw a c s
  | .csrx d a c => Sys2Proof.Machine.execCsrx d a c s
  | .trap imm => Sys2Proof.Machine.execTrap imm s
  | .tret => Sys2Proof.Machine.execTret s
  | .bkpt => Sys2Proof.Machine.execBkpt s
  | .pfx o m e => Sys2Proof.Machine.execPfx o m e s
  | .corestateWrite v => Sys2Proof.Machine.execCorestateWrite v s
  | .jackFree idx => Sys2Proof.Machine.execJackFree idx s
  | .jackResend idx => Sys2Proof.Machine.execJackResend idx s
  | .dbgctlHalt => Sys2Proof.Machine.execDbgctlHalt s
  | .dbgctlStepWrite v => Sys2Proof.Machine.execDbgctlStepWrite v s
  | .cfgWrite v => Sys2Proof.Machine.execCfgWrite v s
  | .upvecWrite v => Sys2Proof.Machine.execUpvecWrite v s
  | .trapvecWrite v => Sys2Proof.Machine.execTrapvecWrite v s
  | .fstatWrite v => Sys2Proof.Machine.execFstatWrite v s
  | .trappcWrite v => Sys2Proof.Machine.execTrappcWrite v s
  | .wrrwWrite v => Sys2Proof.Machine.execWrrwWrite v s
  | .resultFallsDue u => Sys2Proof.Machine.execResultFallsDue u s
  | .orderingQueueRelease op => Sys2Proof.Machine.execOrderingQueueRelease op s
  | .memoryReadPerform op idx => Sys2Proof.Machine.execMemoryReadPerform op idx s
  | .memoryWritePerform op idx => Sys2Proof.Machine.execMemoryWritePerform op idx s
  | .uncorrectableError pcn off => Sys2Proof.Machine.execUncorrectableError pcn off s
  | .lineFillArrival fill => Sys2Proof.Machine.execLineFillArrival fill s
  | .waitHintRetry op => Sys2Proof.Machine.execWaitHintRetry op s
  | .atomicStep op => Sys2Proof.Machine.execAtomicStep op s
  | .chunkStep op => Sys2Proof.Machine.execChunkStep op s
  | .bindStep op => Sys2Proof.Machine.execBindStep op s
  | .signalStep op => Sys2Proof.Machine.execSignalStep op s
  | .poolAppend req => Sys2Proof.Machine.execPoolAppend req s
  | .taskDispatch pcn => Sys2Proof.Machine.execTaskDispatch pcn s
  | .groupJoinStep op => Sys2Proof.Machine.execGroupJoinStep op s
  | .groupLeaveStep op => Sys2Proof.Machine.execGroupLeaveStep op s
  | .gbarArrival u => Sys2Proof.Machine.execGbarArrival u s
  | .watchArrival op => Sys2Proof.Machine.execWatchArrival op s
  | .waitLoadArrival op => Sys2Proof.Machine.execWaitLoadArrival op s
  | .nibbleStoreStep op => Sys2Proof.Machine.execNibbleStoreStep op s
  | .postedStoreRefusal op => Sys2Proof.Machine.execPostedStoreRefusal op s
  | .pstoreDelivery u => Sys2Proof.Machine.execPstoreDelivery u s
  | .operationCompletion op => Sys2Proof.Machine.execOperationCompletion op s
  | .waittWake u => Sys2Proof.Machine.execWaittWake u s
  | .quantumExpiry pcn => Sys2Proof.Machine.execQuantumExpiry pcn s
  | .threadEnd u => Sys2Proof.Machine.execThreadEnd u s
  | .migrationDeparture u => Sys2Proof.Machine.execMigrationDeparture u s
  | .migrationArrival u => Sys2Proof.Machine.execMigrationArrival u s
  | .borderEpochSnapshot die => Sys2Proof.Machine.execBorderEpochSnapshot die s
  | .transferRequest die => Sys2Proof.Machine.execTransferRequest die s
  | .borderDeadline tile => Sys2Proof.Machine.execBorderDeadline tile s
  | .evacuation tile => Sys2Proof.Machine.execEvacuation tile s
  | .moveCommit tile => Sys2Proof.Machine.execMoveCommit tile s
  | .seedCommit tile => Sys2Proof.Machine.execSeedCommit tile s
  | .dieFault die => Sys2Proof.Machine.execDieFault die s
  | .deviceFault => Sys2Proof.Machine.execDeviceFault s
  | .darkApply pcn => Sys2Proof.Machine.execDarkApply pcn s
  | .territorySuspend tag => Sys2Proof.Machine.execTerritorySuspend tag s
  | .linkHoldTimeout op => Sys2Proof.Machine.execLinkHoldTimeout op s
  | .suspendFlush tag => Sys2Proof.Machine.execSuspendFlush tag s
  | .backgroundPageSave pcn page => Sys2Proof.Machine.execBackgroundPageSave pcn page s
  | .pageClaim pcn page => Sys2Proof.Machine.execPageClaim pcn page s
  | .territoryResume tag => Sys2Proof.Machine.execTerritoryResume tag s
  | .restoreChunkOpen tag => Sys2Proof.Machine.execRestoreChunkOpen tag s
  | .debuggerStop pcn => Sys2Proof.Machine.execDebuggerStop pcn s
  | .debuggerResume pcn => Sys2Proof.Machine.execDebuggerResume pcn s
  | .matrixGrant cluster => Sys2Proof.Machine.execMatrixGrant cluster s
  | .matrixCompletion op => Sys2Proof.Machine.execMatrixCompletion op s
  | .linkBeatArrival idx => Sys2Proof.Machine.execLinkBeatArrival idx s
  | .copyCommandStart pcn => Sys2Proof.Machine.execCopyCommandStart pcn s
  | .cpylElement op => Sys2Proof.Machine.execCpylElement op s
  | .mcrdLineRequest op => Sys2Proof.Machine.execMcrdLineRequest op s
  | .mcrdSectorDelivery delivery sector pcn => Sys2Proof.Machine.execMcrdSectorDelivery delivery sector pcn s
  | .pageMigration tag va die pa => Sys2Proof.Machine.execPageMigration tag va die pa s
  | .meshPacketHop op => Sys2Proof.Machine.execMeshPacketHop op s
  | .ringHop pkt => Sys2Proof.Machine.execRingHop pkt s
  | .ringEjection pkt => Sys2Proof.Machine.execRingEjection pkt s
  | .hostPostedWrite fn a data relaxed ide => Sys2Proof.Machine.execHostPostedWrite fn a data relaxed ide s
  | .horizonBroadcast n => Sys2Proof.Machine.execHorizonBroadcast n s
  | .doorbell q => Sys2Proof.Machine.execDoorbell q s
  | .launchRecord q => Sys2Proof.Machine.execLaunchRecord q s
  | .launchIndexWait q => Sys2Proof.Machine.execLaunchIndexWait q s
  | .queueBind q b => Sys2Proof.Machine.execQueueBind q b s
  | .hubCopyStart fn chan data => Sys2Proof.Machine.execHubCopyStart fn chan data s
  | .powerClockStep atLimit => Sys2Proof.Machine.execPowerClockStep atLimit s
  | .hubReset => Sys2Proof.Machine.execHubReset s
  | .lanternRequest r => Sys2Proof.Machine.execLanternRequest r s
  | .keyRotationStart die => Sys2Proof.Machine.execKeyRotationStart die s
  | .sweepLineCommit die => Sys2Proof.Machine.execSweepLineCommit die s
  | .lockInterfaceRequest vf => Sys2Proof.Machine.execLockInterfaceRequest vf s
  | .startInterfaceRequest vf => Sys2Proof.Machine.execStartInterfaceRequest vf s
  | .stopInterfaceRequest vf => Sys2Proof.Machine.execStopInterfaceRequest vf s
  | .tdispError vf => Sys2Proof.Machine.execTdispError vf s
  | .getVersion fn => Sys2Proof.Machine.execGetVersion fn s
  | .getCapabilities fn => Sys2Proof.Machine.execGetCapabilities fn s
  | .negotiateAlgorithms fn => Sys2Proof.Machine.execNegotiateAlgorithms fn s
  | .getDigests fn => Sys2Proof.Machine.execGetDigests fn s
  | .getCertificate fn slot => Sys2Proof.Machine.execGetCertificate fn slot s
  | .challenge fn => Sys2Proof.Machine.execChallenge fn s
  | .getMeasurements fn session index => Sys2Proof.Machine.execGetMeasurements fn session index s
  | .keyExchange fn period => Sys2Proof.Machine.execKeyExchange fn period s
  | .finish session => Sys2Proof.Machine.execFinish session s
  | .heartbeat session => Sys2Proof.Machine.execHeartbeat session s
  | .keyUpdate session => Sys2Proof.Machine.execKeyUpdate session s
  | .endSession session => Sys2Proof.Machine.execEndSession session s
  | .loadKey session key => Sys2Proof.Machine.execLoadKey session key s
  | .sessionTimeout session => Sys2Proof.Machine.execSessionTimeout session s
  | .handoverStage version digest => Sys2Proof.Machine.execHandoverStage version digest s
  | .handoverCommit => Sys2Proof.Machine.execHandoverCommit s
  | .illegalEncoding w => Sys2Proof.Machine.execIllegalEncoding w s
  | .instructionFetchFill pcn => Sys2Proof.Machine.execInstructionFetchFill pcn s
  | .redirectedAccessCompletion u => Sys2Proof.Machine.execRedirectedAccessCompletion u s
  | .hostRead fn a len ide => Sys2Proof.Machine.execHostRead fn a len ide s
  | .hubCopyCompletion chan => Sys2Proof.Machine.execHubCopyCompletion chan s
  | .scaleUpSectorArrival plane die pa data => Sys2Proof.Machine.execScaleUpSectorArrival plane die pa data s
  | .livePlaneChange plane live => Sys2Proof.Machine.execLivePlaneChange plane live s
  | .debuggerAttach pcn att engfrz => Sys2Proof.Machine.execDebuggerAttach pcn att engfrz s

end Sys2Proof.Machine
end

