-- ==== Sys2Proof/Machine/Schedule.lean ====
section
/-! DEFINITION. Which agent moves next (log entry 1): the events that fall due by time, the order of simultaneous events (R3, R38) and of
accesses to one bank in one cycle (R102), the steps that other agents take when the schedule names none, the turn of a core, and the
placing of an instruction where a core fetches it. -/

namespace Sys2Proof.Machine

/-! ## Outcomes -/

def Res.then_ (r : Res) (f : State → State) : Res :=
  match r with
  | .next s => .next (f s)
  | .fault e => .fault e
  | .refused e => .refused e

/-- The next state, or the state as it was. -/
def Res.orElse (r : Res) (s : State) : State :=
  match r with
  | .next t => t
  | _ => s

/-! ## The order of simultaneous events (R3, R38) -/

/-- The rank of an agent and its source number; none: the event is not ranked. -/
abbrev Agent := Option (Nat × Nat)

def agDescriptor (tag : Nat) : Agent := some (1, tag)
def agLantern : Agent := some (2, 0)
def agEpoch (die : Nat) : Agent := some (3, die)
def agProcessor (q : Nat) : Agent := some (4, procOf q)
def agCore (p : Pcn) : Agent := some (5, p)
def agSlice (sl : Nat) : Agent := some (6, sl)
def agDebugger (p : Nat) : Agent := some (7, p)

/-- One rank and source number before another. -/
def agBefore (a b : Nat × Nat) : Bool := decide (a.1 < b.1) || (decide (a.1 = b.1) && decide (a.2 < b.2))

/-- The agent that completes an operation: the territory descriptor for TPRESS (R16); no other completion is ranked. -/
def State.completer (s : State) (id : OpId) : Agent :=
  match s.op? id with
  | some o => (match o.kind with
    | .tpress _ => agDescriptor o.job
    | _ => none)
  | none => none

/-- The bytes that an operation's step touches at its address. -/
def OpKind.touched : OpKind → Nat
  | .load _ n _ _ _ | .store _ n _ _ | .atom _ _ n _ _ _ => n
  | .fe _ c _ => 16 * c
  | .signal _ _ len => 16 + len.toNat
  | .bind .. | .join _ | .leave _ | .watch .. => 16
  | .chunk .. => 32
  | _ => 64

/-- What a step of an operation touches: piece `k` of an engine command, or its address. -/
def Op.place (o : Op) (k : Nat) (wr : Bool) : Option (Word × Nat) :=
  match o.pieces[k]? with
  | some p => (if wr then p.wr else p.rd).map fun a => (a, p.len)
  | none => some (o.kind.addr, o.kind.touched)

/-- The slice at which a step of an operation performs; a bank is no agent of R3. -/
def State.homeAgent (s : State) (id : OpId) (k : Nat) (wr : Bool) : Agent :=
  match s.op? id with
  | none => none
  | some o =>
    match o.place k wr, o.phase with
    | some (a, _), .atOwner d => if d < 8 then agSlice (sliceNo d a) else none
    | some (a, _), _ => (match winOf o.pcn a with
      | .global => agSlice (sliceNo (dieOf o.pcn) a)
      | _ => none)
    | none, _ => none

/-- The agent at the end of a waiting thread: its core, or the processor of its job's queue if the job ends with it (R36). -/
def State.ender (s : State) (u : Uid) : Agent :=
  let t := s.thread u
  let j := s.job t.job
  if j.pool.isEmpty && !(s.threads.any fun e => decide (e.1 ≠ u) && decide (e.2.job = t.job)) then agProcessor j.queue else agCore t.pcn

/-- The slice that holds a job's pool (R51). -/
def State.poolSlice (s : State) (tag : Nat) : Nat :=
  let t := s.poolTile tag
  tagDie tag * 64 + yOf t / 4 * 8 + xOf t / 4

/-- The rank of the agent that performs an event and its source number (R3). A message in flight, a bank, an engine, a link and the host are
no agents of the table. -/
def State.agentOf (s : State) : Instr → Agent
  | .operationCompletion id => s.completer id
  | .transferRequest _ | .borderDeadline _ | .evacuation _ | .moveCommit _ | .seedCommit _ | .darkApply _ | .sessionTimeout _
  | .lanternRequest _ | .keyRotationStart _ | .sweepLineCommit _ | .loadKey .. | .endSession _ | .tdispError _
  | .territorySuspend _ | .territoryResume _ | .restoreChunkOpen _ => agLantern
  | .borderEpochSnapshot d => agEpoch d
  | .doorbell q | .launchRecord q | .launchIndexWait q | .queueBind q _ => agProcessor q
  | .threadEnd u => s.ender u
  | .waittWake u | .migrationDeparture u | .pstoreDelivery u | .redirectedAccessCompletion u => agCore (s.thread u).pcn
  | .instructionFetchFill p | .quantumExpiry p => agCore p
  | .atomicStep id | .chunkStep id | .bindStep id | .signalStep id | .groupJoinStep id | .groupLeaveStep id | .watchArrival id
  | .nibbleStoreStep id => s.homeAgent id 0 true
  | .memoryWritePerform id k => s.homeAgent id k true
  | .gbarArrival u =>
    match (s.thread u).status with
    | .waiting (.gbar a) => agSlice (sliceNo (tagDie (s.thread u).job) a)
    | _ => none
  | .poolAppend req => (s.fab.poolReqs.find? fun r => decide (r.id = req)).bind fun r => agSlice (s.poolSlice r.tag)
  | .debuggerStop p | .debuggerResume p | .debuggerAttach p .. => agDebugger p
  | _ => none

/-- Whether an event of an agent may still happen at the present GTS: none that ranks after it has happened there. -/
def State.inOrder (s : State) (a : Agent) : Bool :=
  match s.mark, a with
  | some (g, m), some x => decide (g ≠ s.gts) || !agBefore x m
  | _, _ => true

/-- Time comes to the latest cycle that a step has come to: cores may have issued in later cycles of the present GTS than the last one did. -/
def State.catchUp (s : State) : State := s.advanceTo s.front

/-- The cycle in which GTS reaches a value, and the value that GTS has in a cycle, at the present clock. -/
def State.cycleOf (s : State) (g : Nat) : Nat := s.now + ((g - s.gts.toNat) * s.clockMHz - s.gtsPhase + 999) / 1000
def State.gtsAt (s : State) (c : Nat) : Nat := s.gts.toNat + (s.gtsPhase + (c - s.now) * 1000) / s.clockMHz

/-- An event that falls due by time: its GTS, its agent, its cycle, and its meaning. -/
structure Timed where
  gts   : Nat
  agent : Nat × Nat
  cycle : Nat
  run   : State → Res

/-- Whether a move's commit can be had once its scrub has ended. -/
def State.commitReady (s : State) (m : Move) : Bool :=
  m.evacuated && { s with now := max s.now (m.scrubAt + 12288) }.mayCommit m &&
  match m.launch with
  | none => true
  | some i => s.hub.launches.any (fun l => decide (l.id = i)) && (s.freeIndex (m.tile / 1024)).isSome

/-- The events that fall due by time: DEADLINE (R31), beacon timeouts (R245), a DARK setting at its latest (R202), the end of a scrub at its
latest (R31), the requests of an epoch within its first 512 cycles (R20), and cycle 0 of a border epoch (R17). -/
def State.timed (s : State) : List Timed :=
  let atGts (g : Nat) (f : State → Res) : Timed := ⟨g, (2, 0), s.cycleOf g, f⟩
  let atCycle (c : Nat) (a : Nat × Nat) (f : State → Res) : Timed := ⟨s.gtsAt c, a, c, f⟩
  ((s.moves.filter fun m => !m.stopped).map fun m => atGts m.deadline.toNat (execBorderDeadline m.tile)) ++
  ((s.lan.sessions.filter fun e => e.2.secured && e.2.period != 0).map fun e => atGts e.2.deadline.toNat (execSessionTimeout e.1)) ++
  (s.cores.filterMap fun e => e.2.darkAt.bind fun g =>
    if e.2.status = .live then some (atGts g.toNat (execDarkApply e.1)) else none) ++
  ((s.moves.filter s.commitReady).map fun m =>
    atCycle (m.scrubAt + 12288) (2, 0) (if m.launch.isSome then execSeedCommit m.tile else execMoveCommit m.tile)) ++
  ((s.dies.filter fun e => e.2.requests != []).map fun e => atCycle (e.2.epochAt - 3584) (2, 0) (execTransferRequest e.1)) ++
  (List.range 8).map fun d => atCycle (s.die d).epochAt (3, d) (execBorderEpochSnapshot d)

def Timed.before (a b : Timed) : Bool := decide (a.gts < b.gts) || (decide (a.gts = b.gts) && agBefore a.agent b.agent)

/-- The first of some events. -/
def firstTimed (l : List Timed) : Option Timed :=
  l.foldl (fun (r : Option Timed) t =>
    match r with
    | some x => if t.before x then some t else r
    | none => some t) none

/-- The event by time that comes first before an event of an agent at GTS `g`: one that has a lower GTS, or the same and a lower rank; an event
that is not ranked comes after all of its GTS. -/
def State.mustRun (s : State) (g : Nat) (a : Agent) : Option Timed :=
  firstTimed (s.timed.filter fun t => decide (t.gts < g) || (decide (t.gts = g) && a.all fun x => agBefore t.agent x))

/-- Time passes to the next value of GTS. -/
def State.nextNs (s : State) : State :=
  let s := s.catchUp
  let t := s.advanceTo (max (s.now + 1) (s.cycleOf (s.gts.toNat + 1)))
  { t with front := t.now }

/-! ## Accesses to one granule in one cycle (R102) -/

/-- A use of a bank: its place among the uses of a cycle, the key and the bytes. -/
structure BankUse where
  place : Nat
  key   : Nat
  n     : Nat
deriving DecidableEq, Repr

/-- The place of an access in a cycle: writes and full-empty changes of the cluster's cores by core index, other writes, then reads likewise.
`core`: the index of the core of the cluster whose pipeline or load-store unit makes it. -/
def usePlace (core : Option Nat) (wr : Bool) : Nat := (if wr then 0 else 16) + core.getD 8

/-- The load or store that an instruction makes in a local window: whether it writes, its base, address and bytes. -/
def State.localAccess (s : State) : Instr → Option (Bool × GReg × Word × Nat)
  | .ld _ b _ _ w _ o => some (false, b, s.readG 0 b + ldOff w o s, Width.bytes w)
  | .ldShort _ b => some (false, b, s.readG 0 b, 8)
  | .st _ b _ _ w o => some (true, b, s.readG 0 b + ldOff w o s, Width.bytes w)
  | .stShort _ b => some (true, b, s.readG 0 b, 8)
  | .vld _ b _ _ o => some (false, b, s.readG 0 b + vldOff o s, 32)
  | .vldShort _ b => some (false, b, s.readG 0 b, 32)
  | .vst _ b _ _ o => some (true, b, s.readG 0 b + vldOff o s, 32)
  | .vstShort _ b => some (true, b, s.readG 0 b, 32)
  | _ => none

/-- The bank uses of an instruction that issues. -/
def State.issueUses (s : State) (i : Instr) : List BankUse :=
  match s.localAccess i with
  | none => []
  | some (wr, b, a, n) =>
    match s.localPlace b a n wr true with
    | .bank q o => [⟨usePlace (some (coreIx s.me.pcn)) wr, bankKey q o, n⟩]
    | _ => []

/-- Whether the load-store unit of its core makes an operation's access, and not an engine or a message. -/
def OpKind.byCore : OpKind → Bool
  | .load .. | .store .. | .atom .. | .chunk .. | .fe .. | .bind .. | .join _ | .leave _ => true
  | _ => false

/-- A use of `n` bytes at an address by an operation. -/
def Op.bankUse (o : Op) (wr : Bool) (a : Word) (n : Nat) : List BankUse :=
  match winOf o.pcn a with
  | .bank q off _ =>
    [⟨usePlace (if o.kind.byCore && decide (tileOf q = tileOf o.pcn) then some (coreIx o.pcn) else none) wr, bankKey q off, n⟩]
  | _ => []

/-- The bank use of a step of an operation. -/
def State.opUses (s : State) (id : OpId) (k : Nat) (wr : Bool) : List BankUse :=
  match s.op? id with
  | none => []
  | some o =>
    match o.place k wr with
    | none => []
    | some (a, n) => o.bankUse wr a n

/-- What an engine command reads as it starts: its record, its list header, or the index lists of its GATHER operands. -/
def Op.startUses (o : Op) : List BankUse :=
  match o.kind with
  | .cpy2d _ _ r | .mcrd _ _ r | .cpyl r => o.bankUse false r 64
  | .mma a b .. | .mmod a b .. =>
    ([a, b].filter fun d => decide (wfld d 62 2 = 1)).flatMap fun d => o.bankUse false (descAddr d) 64
  | _ => []

def State.startsOf (s : State) (l : List OpId) : List BankUse := (l.filterMap s.op?).flatMap Op.startUses

def State.copyUses (s : State) (p : Pcn) : List BankUse := s.startsOf ((s.core p).copyQ.take 1)
def State.matUses (s : State) (t : Nat) : List BankUse := s.startsOf ((coresOf t).flatMap fun p => (s.core p).matQ.take 1)

/-- What a walk reads as it comes to its next element: the element, and the word of predicates. -/
def State.elementUses (s : State) (id : OpId) : List BankUse :=
  match s.op? id with
  | none => []
  | some o =>
    match o.kind with
    | .cpyl _ =>
      let read (a n : Nat) : List BankUse := if a = 0 then [] else o.bankUse false (BitVec.ofNat 64 a) n
      read (dwordAt o.result 0) 32 ++ read (dwordAt o.result 1) 8
    | _ => []

/-- The counter object that the closing SIGNAL of an MDRAIN writes (R182). -/
def State.closingUses (s : State) (id : OpId) : List BankUse :=
  match s.op? id with
  | none => []
  | some o =>
    match o.kind with
    | .mdrain _ ctl obj .. => if wbit ctl 10 then o.bankUse true obj 16 else []
    | _ => []

/-- The bank bytes that a sector of a multicast read's line is delivered to. -/
def State.sectorUses (s : State) (d sec : Nat) (p : Pcn) : List BankUse :=
  (s.fab.deliveries.filter fun x => decide (x.id = d)).flatMap fun x =>
    (x.parts.filter fun q => decide (q.1.sector = sec) && decide (q.1.pcn = p)).map fun q =>
      ⟨usePlace none true, bankKey p q.1.off, q.1.data.length⟩

/-- The bank uses of an event. -/
def State.eventUses (s : State) : Instr → List BankUse
  | .memoryReadPerform id k => s.opUses id k false
  | .waitLoadArrival id | .watchArrival id => s.opUses id 0 false
  | .memoryWritePerform id k => s.opUses id k true
  | .atomicStep id | .chunkStep id | .bindStep id | .signalStep id | .groupJoinStep id | .groupLeaveStep id | .nibbleStoreStep id =>
    s.opUses id 0 true
  | .copyCommandStart p => s.copyUses p
  | .matrixGrant t => s.matUses t
  | .cpylElement id => s.elementUses id
  | .matrixCompletion id => s.closingUses id
  | .mcrdSectorDelivery d sec p => s.sectorUses d sec p
  | _ => []

/-- The uses logged in a granule. -/
def State.logged (s : State) (u : BankUse) : List (Nat × Nat × Nat) :=
  s.bankLog.filter fun e => (granules u.key u.n).contains e.1

/-- A use that comes too late: one in a later cycle, or that ranks after it in its cycle, has touched a granule of it. -/
def State.bankClash (s : State) (us : List BankUse) : Bool :=
  us.any fun u => (s.logged u).any fun e => agBefore (s.now, u.place) e.2

/-- A use that follows a logged one, which it may see: it is caused by it. -/
def State.follows (s : State) (us : List BankUse) : Bool := us.any fun u => (s.logged u).any fun e => !agBefore (s.now, u.place) e.2

/-- What a step leaves for the order of those after it: its agent, its cycle, and its bank uses. -/
def State.noted (s : State) (a : Agent) (us : List BankUse) : State :=
  { s with
    mark := match a with
      | some x => (match s.mark with
        | some (g, m) => if g = s.gts ∧ agBefore x m then s.mark else some (s.gts, x)
        | none => some (s.gts, x))
      | none => s.mark
    front := max s.front s.now
    bankLog := us.flatMap (fun u => (granules u.key u.n).map fun g => (g, s.now, u.place)) ++
      s.bankLog.filter fun e => decide (s.windowStart ≤ e.2.1) }

/-- No instruction issues in an earlier cycle than a step that may have caused it: on its own core, for a core's step; of an agent that ranks
before the cores, at the same GTS. -/
def State.causes (s : State) (a : Agent) : State :=
  match a with
  | some (r, n) =>
    if r < 5 then s
    else if r = 5 then s.modCore n fun c => { c with nextIssue := max c.nextIssue s.now }
    else { s with back := s.now }
  | none => { s with back := s.now }

/-! ## One agent moves -/

/-- What another agent does in one step: whose event it is, the banks it uses, and its meaning. -/
structure Deed where
  agent : Agent
  uses  : List BankUse
  run   : State → Res

/-- An event of an instruction row as a deed. -/
def State.deedOf (s : State) (i : Instr) : Deed := ⟨s.agentOf i, s.eventUses i, exec i⟩

/-- A deed is done. -/
def State.doDeed (s : State) (d : Deed) : Res := Res.then_ (d.run s) fun t => (t.noted d.agent d.uses).causes d.agent

/-- An event that has fallen due by time happens in its cycle. -/
def State.runTimed (s : State) (t : Timed) : Res := (s.catchUp.advanceTo t.cycle).doDeed ⟨some t.agent, [], t.run⟩

/-- Whether a deed may be done now, in the order of R3 and R102. -/
def State.mayDo (s : State) (d : Deed) : Bool := s.inOrder d.agent && !s.bankClash d.uses

/-- The loads that wait on bits which changed in a bank cycle look at the end of it, before time passes (R102, R108). -/
def State.timely (s : State) (r : Res) : Res :=
  match r with
  | .next t => if s.looks ≠ [] ∧ s.lookAt < t.now then .next s.lookAll else r
  | _ => r

/-- The schedule's entry is used up. -/
def State.pop (s : State) : State := { s with schedule := s.schedule.tail }

/-- Whether a core's instruction did not issue: it was held. -/
def State.heldOn (s t : State) (p : Pcn) : Bool := decide ((t.core p).nextIssue = (s.core p).nextIssue)

/-- An instruction of meaning `run` issues on core `p`, prepared in `s`; `i` is the instruction, YIELD for bits that are none. What falls due
before it by time comes first; an issue that another agent's event has overtaken waits for the next GTS, and an access that comes too late in
its cycle for the next cycle. -/
def State.issueOn (before s : State) (p : Pcn) (i : Instr) (run : State → Res) : Res :=
  let b := s.begin
  match before.mustRun b.gts.toNat (agCore p) with
  | some t => before.runTimed t
  | none =>
    let us := b.issueUses i
    if !b.inOrder (agCore p) && !b.follows us then .next before.nextNs
    else if b.bankClash us then .next (s.modMe fun t => { t with notBefore := b.now + 1 })
    else Res.then_ (run s.pop) fun t =>
      if s.heldOn t p then { t with front := max t.front t.now }
      else ((t.quit s.cur).afterIssue s p i).noted (agCore p) us

/-- A core's turn to issue. -/
def State.stepCore (s : State) (p : Pcn) : Res :=
  match s.prepare p with
  | .wait t => .next t.pop.hold
  | .idle t => .next t.pop
  | .run t i _ => s.issueOn t p i (exec i)
  | .illegal t w => s.issueOn t p .yield (execIllegalEncoding w)

/-! ## Steps that may be taken -/

/-- A deed of Lantern. -/
def lanternDeed (f : State → Res) : Deed := ⟨agLantern, [], f⟩

/-- A deed of no ranked agent at no bank. -/
def otherDeed (f : State → Res) : Deed := ⟨none, [], f⟩

/-- A step of an operation at its home: piece `k` of it, or its address. -/
def State.homeDeed (s : State) (id : OpId) (k : Nat) (wr : Bool) (f : State → Res) : Deed :=
  ⟨if wr then s.homeAgent id k true else none, s.opUses id k wr, f⟩

def State.readDeed (s : State) (id : OpId) (k : Nat) : Deed := s.homeDeed id k false (execMemoryReadPerform id k)
def State.writeDeed (s : State) (id : OpId) (k : Nat) : Deed := s.homeDeed id k true (execMemoryWritePerform id k)
def State.endDeed (s : State) (id : OpId) : Deed := ⟨s.completer id, [], execOperationCompletion id⟩

/-- Of a list of deeds, the first that may be done now and changes the state. -/
def State.firstDeed (s : State) : List Deed → Option State
  | [] => none
  | d :: r =>
    if !s.mayDo d then s.firstDeed r
    else
      let t := Res.orElse (d.run s) s
      if t = s then s.firstDeed r else some ((t.noted d.agent d.uses).causes d.agent)

/-- What Lantern may do (R21, R31, R33, R35, R203, R209). -/
def State.lanternSteps (s : State) : List Deed :=
  (((s.dies.filter fun e => e.2.requests != []).map fun e => execTransferRequest e.1) ++
    (s.moves.map fun m => execEvacuation m.tile) ++ (s.moves.map fun m => execMoveCommit m.tile) ++
    (s.moves.map fun m => execSeedCommit m.tile) ++ ((s.cores.filter fun e => e.2.darkAt.isSome).map fun e => execDarkApply e.1) ++
    (s.jobs.filter fun e => e.2.saved.isSome).map fun e => execRestoreChunkOpen e.1).map lanternDeed

/-- What the command processors may do. -/
def State.processorSteps (s : State) : List Deed :=
  s.hub.queues.flatMap fun e =>
    [execDoorbell e.1, execLaunchRecord e.1, execLaunchIndexWait e.1].map fun f => ⟨agProcessor e.1, [], f⟩

/-- What the hub may do, and the completions of TPRESS. -/
def State.hubSteps (s : State) : List Deed :=
  ((if s.hub.held = [] then [] else [execHorizonBroadcast s.hub.seqNo]) ++
    (s.hub.channels.filter fun e => !e.2.sent).map fun e => execHubCopyCompletion e.1).map otherDeed

def State.pressSteps (s : State) : List Deed :=
  (s.ops.filter fun e => match e.2.kind with | .tpress _ => true | _ => false).map fun e => s.endDeed e.1

/-- What is to be done for suspended territories: saves to their areas, and the claims that a core's new holder needs. -/
def State.savingSteps (s : State) : List Deed :=
  (s.jobs.flatMap fun e =>
    match e.2.saved with
    | none => []
    | some v =>
      if !v.flushed || v.restoring || !v.writing.isEmpty then [execSuspendFlush e.1]
      else
        let ps := v.tiles.flatMap coresOf
        (ps.flatMap fun p => ((span 0 48).filter fun k => !v.has p k && (e.2.isContext k || v.kept.contains (p * 48 + k))).map fun k =>
          execBackgroundPageSave p k) ++
        (ps.filter s.claimsDue).flatMap fun p => ((v.kept.filter fun k => decide (k / 48 = p)).take 1).map fun k => execPageClaim p (k % 48)).map otherDeed

/-- What an operation does next, by where it stands. -/
def State.opSteps (s : State) (id : OpId) (o : Op) : List Deed :=
  let step (f : State → Res) : Deed := s.homeDeed id 0 true f
  let home : List Deed :=
    match o.kind with
    | .load _ _ _ _ .plain | .taskq _ => [s.readDeed id 0]
    | .load .. => [s.homeDeed id 0 false (execWaitLoadArrival id)]
    | .store _ _ _ q => if q = .nl ∨ q = .nh then [step (execNibbleStoreStep id)] else [s.writeDeed id 0]
    | .atom .. => [step (execAtomicStep id)]
    | .chunk .. => [step (execChunkStep id)]
    | .watch .. => [⟨s.homeAgent id 0 true, s.opUses id 0 false, execWatchArrival id⟩]
    | .fe .. | .tshape .. => [s.writeDeed id 0]
    | .spawn .. => [s.readDeed id 0, s.endDeed id]
    | .bind .. => [step (execBindStep id)]
    | .signal .. => if o.hop then [step (execSignalStep id)] else [s.readDeed id 0]
    | .join _ => [step (execGroupJoinStep id)]
    | .leave _ => [step (execGroupLeaveStep id)]
    | .alu .. | .fpu .. | .tpress _ | .cpy .. | .cpy2d .. | .cpyl _ | .mcrd .. | .mma .. | .mmod .. | .mzero .. | .mload ..
    | .mdrain .. => []
  match o.phase with
  | .queued => [otherDeed (execOrderingQueueRelease id), s.endDeed id]
  | .travel .. => [otherDeed (execMeshPacketHop id)]
  | .refused _ => [otherDeed (execWaitHintRetry id)]
  | .arrived | .atOwner _ => home
  | .started =>
    ((List.range o.pieces.length).flatMap fun k => [s.readDeed id k, s.writeDeed id k]) ++
    [⟨none, s.elementUses id, execCpylElement id⟩, ⟨none, s.closingUses id, execMatrixCompletion id⟩] ++
    [execMcrdLineRequest id, execLinkHoldTimeout id].map otherDeed
  | .performed | .finished => [s.endDeed id]
  | .failed _ => [otherDeed (execPostedStoreRefusal id), s.endDeed id]
  | .onRing | .returning _ | .waiting | .pooling _ => []

/-- What the fabric, the engines and the cores' operations may do. -/
def State.fabricSteps (s : State) : List Deed :=
  ((s.fab.mesh.map fun p => execMeshPacketHop p.id) ++ (s.fab.hubLink.map fun p => execMeshPacketHop p.id) ++
    s.fab.fills.map fun f => execLineFillArrival f.id).map otherDeed ++
  (s.fab.deliveries.flatMap fun d => d.parts.map fun p =>
    ⟨none, s.sectorUses d.id p.1.sector p.1.pcn, execMcrdSectorDelivery d.id p.1.sector p.1.pcn⟩) ++
  ((s.fab.ring.flatMap fun p => [execRingEjection p.id, execRingHop p.id]) ++
    (List.range s.fab.flight.length).map execLinkBeatArrival).map otherDeed ++
  (s.fab.poolReqs.map fun r => ⟨agSlice (s.poolSlice r.tag), [], execPoolAppend r.id⟩) ++
  (s.ops.flatMap fun e => s.opSteps e.1 e.2) ++
  ((s.cores.filter fun e => e.2.copyQ != []).map fun e => ⟨none, s.copyUses e.1, execCopyCommandStart e.1⟩) ++
  (s.cores.filter fun e => e.2.matQ != []).map fun e => ⟨none, s.matUses (e.1 / 8), execMatrixGrant (e.1 / 8)⟩

/-- What a thread that does not issue may do. -/
def State.threadSteps (s : State) (u : Uid) (t : Thread) : List Deed :=
  match t.status with
  | .waiting (.token ..) | .waiting .retDrain => [⟨agCore t.pcn, [], execWaittWake u⟩]
  | .waiting .exitDrain => [⟨s.ender u, [], execThreadEnd u⟩]
  | .waiting (.migDrain _) => [⟨agCore t.pcn, [], execMigrationDeparture u⟩]
  | .waiting (.gbar a) => [⟨agSlice (sliceNo (tagDie t.job) a), [], execGbarArrival u⟩]
  | .migrating .. => [otherDeed (execMigrationArrival u)]
  | .running =>
    [⟨agCore t.pcn, [], if t.redirect.isSome then execRedirectedAccessCompletion u else execInstructionFetchFill t.pcn⟩]
  | .waiting (.watch _) | .parked | .ready => []

/-- The cores of jobs whose pools hold records. -/
def State.hungry (s : State) : List Pcn :=
  (s.jobs.filter fun e => e.2.pool != []).flatMap fun e => (s.tilesOf e.1).flatMap coresOf

/-! ## Turns -/

/-- Whether a core has anything to issue. -/
def State.busyCore (s : State) (p : Pcn) : Bool :=
  s.coreUp p && ((s.runningOn p).isSome || !(s.readyOn p).isEmpty || (s.core p).dispatched.isSome)

/-- The cores that hold a thread or a dispatched task, by rising number. -/
def State.candidates (s : State) : List Pcn :=
  (((s.threads.map fun e => e.2.pcn) ++ (s.cores.filter fun e => e.2.dispatched.isSome).map (·.1)).foldl setIns []).filter s.busyCore

/-- A state with the time, and the thread that executes, of another. -/
def State.clockOf (t s : State) : State := { t with now := s.now, gts := s.gts, gtsPhase := s.gtsPhase, front := s.front, cur := s.cur }

/-- What a core would do in its turn: none if nothing but time would pass. -/
def State.turnOf (s : State) (p : Pcn) : Option State :=
  match s.stepCore p with
  | .next t => if t.clockOf s = s then none else some t
  | _ => none

/-- The cycle in which a core would issue next, and its bank uses. -/
def State.nextUses (s : State) (p : Pcn) : Nat × List BankUse :=
  match s.prepare p with
  | .run t i _ => (t.begin.now, t.begin.issueUses i)
  | .illegal t _ => (t.begin.now, [])
  | .wait _ | .idle _ => (s.now, [])

/-- One core's bank use must come before another's: it touches a granule of it in an earlier cycle, or an earlier place of the same. -/
def usesFirst (a b : Nat × List BankUse) : Bool :=
  a.2.any fun u => b.2.any fun v => agBefore (a.1, u.place) (b.1, v.place) &&
    (granules u.key u.n).any fun g => (granules v.key v.n).contains g

/-- The turns that may be taken at the present GTS. -/
def State.turns (s : State) : List (Pcn × (Nat × List BankUse) × State) :=
  s.candidates.filterMap fun p =>
    let n := s.nextUses p
    if decide (s.gtsAt n.1 ≤ s.gts.toNat) && (s.inOrder (agCore p) || s.follows n.2) then (s.turnOf p).map fun t => (p, n, t) else none

/-- The turn that is taken: of the cores that can issue at the present GTS the lowest (R3), but for one that would use a bank's granule after
another core (R102). -/
def State.nextTurn (s : State) : Option State :=
  let l := s.turns
  ((l.find? fun x => !l.any fun y => decide (y.1 ≠ x.1) && usesFirst y.2.1 x.2.1).or l.head?).map (·.2.2)

/-- Time passes, as nothing else can happen at the present GTS; the key sweeps go on. -/
def State.idleCycle (s : State) : State :=
  (s.dies.filter fun e => e.2.sweep.isSome).foldl (fun s e => Res.orElse (execSweepLineCommit e.1 s) s) s.nextNs

/-- The step of a machine whose schedule is empty: bring-up; what has fallen due, after what ranks before it; Lantern and the processors; the
turns of the cores; what the other agents may do; or time passes. -/
def State.autoStep (s : State) : Res :=
  if s.hub.bringUp < 6 then .next s.bringUpStep
  else
    let s := s.catchUp
    let early := s.pressSteps ++ s.lanternSteps
    match firstTimed (s.timed.filter fun t => decide (t.gts ≤ s.gts.toNat)) with
    | some x =>
      (match s.firstDeed (early.filter fun d => d.agent.any fun a => agBefore a x.agent || a == x.agent) with
       | some t => .next t
       | none => s.runTimed x)
    | none =>
      match ((s.firstDeed (early ++ s.processorSteps)).or s.nextTurn).or
          (s.firstDeed (s.hubSteps ++ s.savingSteps ++ s.fabricSteps ++ (s.threads.flatMap fun e => s.threadSteps e.1 e.2) ++
            s.hungry.map fun p => otherDeed (execTaskDispatch p))) with
      | some t => .next t
      | none => .next s.idleCycle

/-- Whether an event may be scheduled as a step of its own: the writes of CSRs and the trap of an illegal encoding are parts of
the instruction that makes them. -/
def schedulable (i : Instr) : Bool :=
  i.isEvent &&
  match i with
  | .corestateWrite _ | .jackFree _ | .jackResend _ | .dbgctlHalt | .dbgctlStepWrite _ | .cfgWrite _ | .upvecWrite _
  | .trapvecWrite _ | .fstatWrite _ | .trappcWrite _ | .wrrwWrite _ | .illegalEncoding _ => false
  | _ => true

/-- A scheduled event: what falls due before it by time comes first, an event that others have overtaken waits for the next GTS (R3), and a bank
access that comes too late in its cycle for the next cycle (R102). A waiting load that arrives looks after the changes of its cycle. -/
def State.stepEvent (s : State) (i : Instr) : Res :=
  if !schedulable i then .next s.pop
  else
    let s := s.catchUp
    let d := s.deedOf i
    match s.mustRun s.gts.toNat d.agent with
    | some t => s.runTimed t
    | none =>
      if !s.inOrder d.agent then .next s.nextNs
      else if s.bankClash d.uses then .next { s.hold with front := s.now + 1 }
      else s.pop.doDeed d

/-- An error of one bit strikes a byte of a bank: until the granule is read or written whole, it is correctable (R110). -/
def State.upset (s : State) (p off : Nat) : State :=
  if p < 65536 ∧ off < bankBytes then s.modMs fun m => { m with weak := setIns m.weak (bankKey p off / 16) } else s

/-- The sector of a die's memory that holds a byte no longer matches its tag (R238). -/
def State.corrupt (s : State) (die pa : Nat) : State :=
  s.modMs fun m => { m with seals := m.seals.map fun e => if e.1 = hbmKey die pa / 64 then (e.1, { e.2 with bad := true }) else e }

/-! ## Placing an instruction (log entry 44) -/

/-- A line of an instruction cache with some bytes replaced, from the eight at address `a`. -/
def patchLine (old : List Byte) (line a : Nat) (bs : List Byte) : List Byte :=
  (List.range ilineBytes).map fun i =>
    let k := line * ilineBytes + i
    if a ≤ k ∧ k < a + bs.length then bs.getD (k - a) 0 else old.getD i 0

/-- Puts bytes of text where a core fetches them for a job. -/
def State.placeText (s : State) (p : Pcn) (tag : Nat) (a : Word) (bs : List Byte) : State :=
  s.modCore p fun c =>
    let line (l : Nat) : Line :=
      ⟨tag, l, patchLine (((c.icache.find? fun x => decide (x.job = tag) && decide (x.addr = l)).map (·.data)).getD []) l a.toNat bs⟩
    let ls := ((span (a.toNat / ilineBytes) 2).filter fun l => decide (l * ilineBytes < a.toNat + bs.length))
    { c with icache := ls.map line ++ c.icache.filter fun x => !(decide (x.job = tag) && ls.contains x.addr) }

/-- A device that has been brought up, and a job of one tile of die 0 whose first thread runs on core 0 at the lowest text address. -/
def State.bootThread (s : State) : State :=
  let tag := tagOf 0 1
  let s := { s with fallow := Core.reset }.modHub fun h => { h with bringUp := 6, ready := true }
  let s := s.setJob tag Job.reset
  let s := s.setTile 0 ⟨1, false⟩
  let s := s.modCore 0 fun c => { c with splim := BitVec.ofNat 64 (Job.splim0 Job.reset) }
  let (u, s) := s.threadFromTask 0 0 ⟨0x1000000, 0, 0, 0, 0, 0, 0, 0, 0⟩
  { (s.startRunning 0 u).modThread u fun t => { t with cold := [] } with cur := u }

/-- Whether the current thread is one that would issue on its core's next turn, nothing falling due before. -/
def State.curIssues (s : State) : Bool :=
  let t := s.me
  decide (t.status = .running) && t.cold.isEmpty && s.coreUp t.pcn && !(s.core t.pcn).halted && t.redirect.isNone && t.pfx.isNone &&
  (s.quantumSpent t.pcn).isNone && (s.pstoreFor s.cur).isNone && decide (0x1000000 ≤ t.pc.toNat) && decide (t.pc.toNat + 8 ≤ 2 ^ 52) &&
  decide ((s.runningOn t.pcn).map (·.1) = some s.cur) &&
  (s.mustRun s.begin.gts.toNat (agCore t.pcn)).isNone && !(s.readyOn t.pcn).any fun e => e.2.preferred && decide (e.2.upcall ≠ .none)

/-- An instruction of eight bytes placed where the current thread fetches it, or where a first thread does; its core has the
next turn, and nothing that came before it in its cycle is in its way. -/
def State.placeWord (s : State) (bs : List Byte) : State :=
  let s := if s.curIssues then s else s.bootThread
  let s := s.placeText s.me.pcn s.me.job s.me.pc bs
  { s with schedule := .issue s.me.pcn :: s.schedule, mark := none, bankLog := [], looks := [] }

end Sys2Proof.Machine
end

