-- ==== Sys2Proof/Machine/Step.lean ====
section
/-! DEFINITION. One step of the machine: the next entry of the schedule, or what `State.autoStep` chooses. -/

namespace Sys2Proof.Machine

def step (s : State) : Host.Outcome State Fault Refusal :=
  match s.schedule with
  | [] => s.timely s.autoStep
  | .issue p :: _ => if p < 65536 then s.timely (s.stepCore p) else .fault (.noSuchCore p)
  | .event i :: _ => s.timely (s.stepEvent i)
  | .upset p off :: _ => .next (s.pop.upset p off)
  | .corrupt die pa :: _ => .next (s.pop.corrupt die pa)

/-- The state in which the next step fetches and runs the instruction whose bits are `w`. -/
def State.withFetchWord (s : State) (nbits w : Nat) : State := s.placeWord (natToBytes 8 (w % 2 ^ nbits))

end Sys2Proof.Machine
end

