-- ==== Sys2Proof/Safety.lean ====
section
/-! DEFINITION. The terms in which claims speak of a run: what a state keeps for good (`State.Inv`), and when the executing thread
issues and what an instruction that completes leaves behind (`State.issueAt`, `State.Waited`, `State.completes`). -/

namespace Sys2Proof.Machine

/-! ## What every state keeps -/

/-- Memory stands in its canonical form, the clock is between 1.4 and 2.7 GHz with the phase of GTS inside a cycle (R1, R229), and
the log of dropped writes holds at most eight (R241). -/
def State.Inv (s : State) : Prop :=
  Memory.wf s.ms.mem = true ∧ 1400 ≤ s.clockMHz ∧ s.clockMHz ≤ 2700 ∧ s.gtsPhase < s.clockMHz ∧ s.lan.dropLog.length ≤ 8

/-! ## When an instruction issues, and what it finds (R75, R78 to R81, R87, R111) -/

/-- The cycle in which the executing thread's instruction issues: the first that its core and the thread allow, that the present GTS bears
or a later one, and that comes no earlier than the last step of another agent (log entry 1). -/
def State.issueAt (s : State) : Nat := max (max s.myCore.nextIssue s.me.notBefore) (max s.back s.windowStart)

/-- The clock at another cycle, a later one or one that bears the same GTS: GTS counts nanoseconds of a core clock of `clockMHz` (R3, R229). -/
def State.clockAt (s : State) (t : Nat) : State :=
  { s with
    now := t
    gts := s.gts + BitVec.ofNat 64 ((s.gtsPhase + 1000 * t - 1000 * s.now) / s.clockMHz)
    gtsPhase := (s.gtsPhase + 1000 * t - 1000 * s.now) % s.clockMHz }

/-- The executing thread with the results that have fallen due by its issue cycle in its registers. -/
def State.ready (s : State) : Thread := s.me.settle s.issueAt

/-- That thread as it issues: its quantum begins, if it has issued nothing since it was chosen (R45). -/
def State.issued (s : State) : Thread :=
  { s.ready with lastIssue := s.issueAt, quantumAt := s.me.quantumAt.or (some s.issueAt) }

/-- A G register as an instruction that has waited for it reads it. -/
def State.regG (s : State) (r : GReg) : Word := s.ready.g[r]
/-- A V register. -/
def State.regV (s : State) (r : VReg) : Vec := s.ready.v[r]
/-- A K register; K0 reads as all ones (R362). -/
def State.regK (s : State) (r : KReg) : Mask := if r = 0 then BitVec.allOnes 32 else s.ready.k[r]

/-- The program has waited: every fixed-latency result for a register that is read has fallen due (R79), no outstanding
tokened operation of the thread is to write a register that is read, nor in checked mode one that is written (R87), no register
that is read has a poisoned image granule (R111), and in checked mode no write overtakes an earlier one (R81). -/
abbrev State.Waited (s : State) (reads writes : List Reg) (lat : Nat) : Prop :=
  (∀ p ∈ s.me.pending, p.reg ∈ reads → p.due ≤ s.issueAt) ∧
  (∀ e ∈ s.ops, e.2.uid = s.cur → e.2.tok ≠ none → ∀ r ∈ e.2.kind.dests,
    r ∉ reads ∧ (s.myCore.hzchk = true → r ∉ writes)) ∧
  (∀ x ∈ s.me.coldPoison, x.1 ∉ reads) ∧
  (s.myCore.hzchk = true → lat ≠ 0 →
    ∀ p ∈ s.me.pending, p.reg ∈ writes → p.reg ≠ .fstat → p.due ≤ s.issueAt ∨ p.due < s.issueAt + lat)

/-! ## What a completed instruction leaves -/

/-- A result of an instruction: `value` in the bits `mask` of a register, `lat` cycles after the issue (R78), after the writes of what has
issued before (R80). -/
def State.result (s : State) (r : Reg) (lat : Nat) (value mask : Vec) : PendingWrite :=
  ⟨r, value, mask, s.issueAt + lat, false, s.nextId⟩

/-- A 64-bit result for Gd. -/
def State.resultG (s : State) (d : GReg) (lat : Nat) (v : Word) : PendingWrite :=
  s.result (.g d) lat (v.setWidth 256) (BitVec.setWidth 256 (BitVec.allOnes 64))

/-- The state after an instruction that does nothing but write results: the pc at `target`, no prefix in force, the core's next
issue `cost` cycles on (R76, R77), the results on their way; everything else as before. The free values that the instruction
could have taken are used up (log entry 2). -/
def State.completes (s : State) (target : Word) (cost : Nat) (ws : List PendingWrite) : State :=
  { s.clockAt s.issueAt with
    fresh := s.fresh + 8
    threads := mapSet s.threads s.cur { s.issued with
      pc := target, pfx := none, pending := s.ready.pending ++ ws
      coldPoison := s.me.coldPoison.filter fun x => !(ws.map (·.reg)).contains x.1 }
    cores := mapSet s.cores s.me.pcn { s.myCore with nextIssue := s.issueAt + cost } }

/-- The state after an instruction of `size` bytes that completes in one cycle. -/
def State.wrote (s : State) (size : Nat) (ws : List PendingWrite) : State :=
  s.completes (s.me.pc + BitVec.ofNat 64 size) 1 ws

end Sys2Proof.Machine
end

