-- ==== Sys2Proof/Certificates/Slice0/Obligations.lean ====
section
/-! DEFINITION. What is claimed of the machine, from the numbered rules of spec/. The tables in the namespace `Sys2Proof.Spec`
restate what the rules give an instruction, apart from the meanings of Machine/. -/

open Sys2Proof Sys2Proof.Machine

/-! ## Scalar integer instructions -/

/-- An instruction that reads G registers and writes one: what it reads, its destination, latency and size, and the result. -/
structure Sys2Proof.Spec.Row where
  reads : List GReg
  dest  : GReg
  lat   : Nat
  size  : Nat
  value : State → Word

/-- A truth value as a register holds it. -/
def Sys2Proof.Spec.flag (b : Bool) : Word := BitVec.ofNat 64 b.toNat

/-- A signed immediate of `n` bits, which a PFX extends by 15 bits on the left (R285). -/
def Sys2Proof.Spec.immediate (p : Option PfxState) {n : Nat} (f : BitVec n) : Int :=
  match p with
  | some p => p.ext15.toInt * 2 ^ n + f.toNat
  | none => f.toInt

/-- The bits that a width keeps. -/
def Sys2Proof.Spec.bits : Width → Nat
  | .b8 => 8 | .h16 => 16 | .w32 => 32 | .d64 => 64

/-- Three-operand integer operations, as the reference entries state them on integers. -/
def Sys2Proof.Spec.binary : Instr → Option Sys2Proof.Spec.Row
  | .add d a b => some ⟨[a, b], d, 1, 4, fun s => BitVec.ofNat 64 ((s.regG a).toNat + (s.regG b).toNat)⟩
  | .addShort d b => some ⟨[d, b], d, 1, 2, fun s => BitVec.ofNat 64 ((s.regG d).toNat + (s.regG b).toNat)⟩
  | .sub d a b => some ⟨[a, b], d, 1, 4, fun s => BitVec.ofInt 64 ((s.regG a).toInt - (s.regG b).toInt)⟩
  | .subShort d b => some ⟨[d, b], d, 1, 2, fun s => BitVec.ofInt 64 ((s.regG d).toInt - (s.regG b).toInt)⟩
  | .and d a b => some ⟨[a, b], d, 1, 4, fun s => BitVec.ofNat 64 ((s.regG a).toNat &&& (s.regG b).toNat)⟩
  | .or d a b => some ⟨[a, b], d, 1, 4, fun s => BitVec.ofNat 64 ((s.regG a).toNat ||| (s.regG b).toNat)⟩
  | .xor d a b => some ⟨[a, b], d, 1, 4, fun s => BitVec.ofNat 64 ((s.regG a).toNat ^^^ (s.regG b).toNat)⟩
  | .shl d a b => some ⟨[a, b], d, 1, 4, fun s => BitVec.ofNat 64 ((s.regG a).toNat * 2 ^ ((s.regG b).toNat % 64))⟩
  | .shr d a b => some ⟨[a, b], d, 1, 4, fun s => BitVec.ofNat 64 ((s.regG a).toNat / 2 ^ ((s.regG b).toNat % 64))⟩
  | .sar d a b => some ⟨[a, b], d, 1, 4, fun s => BitVec.ofInt 64 ((s.regG a).toInt / 2 ^ ((s.regG b).toNat % 64))⟩
  | .min d a b => some ⟨[a, b], d, 1, 4, fun s => if (s.regG a).toInt ≤ (s.regG b).toInt then s.regG a else s.regG b⟩
  | .minu d a b => some ⟨[a, b], d, 1, 4, fun s => if (s.regG a).toNat ≤ (s.regG b).toNat then s.regG a else s.regG b⟩
  | .max d a b => some ⟨[a, b], d, 1, 4, fun s => if (s.regG a).toInt ≤ (s.regG b).toInt then s.regG b else s.regG a⟩
  | .maxu d a b => some ⟨[a, b], d, 1, 4, fun s => if (s.regG a).toNat ≤ (s.regG b).toNat then s.regG b else s.regG a⟩
  | .slt d a b => some ⟨[a, b], d, 1, 4, fun s => Spec.flag (decide ((s.regG a).toInt < (s.regG b).toInt))⟩
  | .sltu d a b => some ⟨[a, b], d, 1, 4, fun s => Spec.flag (decide ((s.regG a).toNat < (s.regG b).toNat))⟩
  | .seq d a b => some ⟨[a, b], d, 1, 4, fun s => Spec.flag (decide ((s.regG a).toNat = (s.regG b).toNat))⟩
  | .mul d a b => some ⟨[a, b], d, 3, 4, fun s => BitVec.ofNat 64 ((s.regG a).toNat * (s.regG b).toNat)⟩
  | .mulh d a b => some ⟨[a, b], d, 3, 4, fun s => BitVec.ofInt 64 ((s.regG a).toInt * (s.regG b).toInt / 2 ^ 64)⟩
  | .mulhu d a b => some ⟨[a, b], d, 3, 4, fun s => BitVec.ofNat 64 ((s.regG a).toNat * (s.regG b).toNat / 2 ^ 64)⟩
  | .sel d a b => some ⟨[a, b, d], d, 1, 4, fun s => if (s.regG d).toNat = 0 then s.regG b else s.regG a⟩
  | _ => none

/-- Operations on one register. -/
def Sys2Proof.Spec.unary : Instr → Option Sys2Proof.Spec.Row
  | .clz d a => some ⟨[a], d, 2, 4, fun s => BitVec.ofNat 64 ((List.range 64).takeWhile fun i => !(s.regG a).getLsbD (63 - i)).length⟩
  | .ctz d a => some ⟨[a], d, 2, 4, fun s => BitVec.ofNat 64 ((List.range 64).takeWhile fun i => !(s.regG a).getLsbD i).length⟩
  | .popc d a => some ⟨[a], d, 2, 4, fun s => BitVec.ofNat 64 ((List.range 64).filter fun i => (s.regG a).getLsbD i).length⟩
  | .sext d a w => some ⟨[a], d, 1, 4, fun s => BitVec.ofInt 64 (Int.bmod (s.regG a).toNat (2 ^ Spec.bits w))⟩
  | .zext d a w => some ⟨[a], d, 1, 4, fun s => BitVec.ofNat 64 ((s.regG a).toNat % 2 ^ Spec.bits w)⟩
  | .mov d a => some ⟨[a], d, 1, 2, fun s => s.regG a⟩
  | _ => none

/-- Operations with an immediate operand, and constants. -/
def Sys2Proof.Spec.withImmediate : Instr → Option Sys2Proof.Spec.Row
  | .addi d a i => some ⟨[a], d, 1, 4, fun s => BitVec.ofInt 64 ((s.regG a).toInt + Spec.immediate s.me.pfx i)⟩
  | .addiShort d i => some ⟨[d], d, 1, 2, fun s => BitVec.ofInt 64 ((s.regG d).toInt + i.toInt)⟩
  | .andi d a i => some ⟨[a], d, 1, 4, fun s => s.regG a &&& BitVec.ofInt 64 (Spec.immediate s.me.pfx i)⟩
  | .ori d a i => some ⟨[a], d, 1, 4, fun s => s.regG a ||| BitVec.ofInt 64 (Spec.immediate s.me.pfx i)⟩
  | .xori d a i => some ⟨[a], d, 1, 4, fun s => s.regG a ^^^ BitVec.ofInt 64 (Spec.immediate s.me.pfx i)⟩
  | .shli d a n => some ⟨[a], d, 1, 4, fun s => BitVec.ofNat 64 ((s.regG a).toNat * 2 ^ n.toNat)⟩
  | .shliShort d n => some ⟨[d], d, 1, 2, fun s => BitVec.ofNat 64 ((s.regG d).toNat * 2 ^ n.toNat)⟩
  | .shri d a n => some ⟨[a], d, 1, 4, fun s => BitVec.ofNat 64 ((s.regG a).toNat / 2 ^ n.toNat)⟩
  | .sari d a n => some ⟨[a], d, 1, 4, fun s => BitVec.ofInt 64 ((s.regG a).toInt / 2 ^ n.toNat)⟩
  | .movi d h i => some ⟨[], d, 1, 4, fun _ => BitVec.ofNat 64 (i.toNat * 2 ^ (16 * h.val))⟩
  | .movk d h i => some ⟨[d], d, 1, 4, fun s => BitVec.ofNat 64 ((s.regG d).toNat % 2 ^ (16 * h.val) + i.toNat * 2 ^ (16 * h.val) +
      (s.regG d).toNat / 2 ^ (16 * h.val + 16) * 2 ^ (16 * h.val + 16))⟩
  | .addpc d i => some ⟨[], d, 1, 4, fun s => BitVec.ofInt 64 (s.me.pc.toInt + 2 * i.toInt)⟩
  | .lit d l => some ⟨[], d, 1, 8, fun _ => BitVec.ofInt 64 l.toInt⟩
  | .litZ d l => some ⟨[], d, 1, 8, fun _ => BitVec.ofNat 64 l.toNat⟩
  | .litH d l => some ⟨[d], d, 1, 8, fun s => BitVec.ofNat 64 (l.toNat * 2 ^ 32 + (s.regG d).toNat % 2 ^ 32)⟩
  | _ => none

/-- An instruction of a table, in a program that has waited for its operands, completes with the result that the table gives and
changes nothing else. -/
def Sys2Proof.Spec.Completes (table : Instr → Option Sys2Proof.Spec.Row) : Prop :=
  ∀ (i : Instr) (s : State) (r : Sys2Proof.Spec.Row), table i = some r →
    s.Waited (r.reads.map Reg.g) [Reg.g r.dest] r.lat →
    exec i s = .next (s.wrote r.size [s.resultG r.dest r.lat (r.value s)])

/-- R312, R315, R370, R371, R385, R389, R425, R427. -/
def Sys2Proof.Spec.IntegerRegisterOperations : Prop := Spec.Completes Spec.binary

/-- R316, R327, R335. -/
def Sys2Proof.Spec.BitCountsExtensionsAndMov : Prop := Spec.Completes Spec.unary

/-- R312, R313, R314, R369, R371, R383. -/
def Sys2Proof.Spec.ImmediateOperationsAndConstants : Prop := Spec.Completes Spec.withImmediate

/-! ## Scalar floating point -/

/-- An instruction that reads G registers and writes one with a floating-point result: the result's bits and its flags. -/
structure Sys2Proof.Spec.FpRow where
  reads : List GReg
  dest  : GReg
  lat   : Nat
  size  : Nat
  value : State → Nat × BitVec 5

/-- The value that a register holds in a scalar format: FP32 stands in bits 31 to 0. -/
def Sys2Proof.Spec.num (s : State) (f : FFmt) (r : GReg) : FVal :=
  match f with
  | .f32 => Fmt.f32.decode ((s.regG r).toNat % 2 ^ 32)
  | .f64 => Fmt.f64.decode (s.regG r).toNat

def Sys2Proof.Spec.fmt : FFmt → Fmt
  | .f32 => Fmt.f32 | .f64 => Fmt.f64

/-- The rounding mode in force (R159). -/
def Sys2Proof.Spec.mode (s : State) : RMode :=
  if s.me.fmode.getLsbD 1 then (if s.me.fmode.getLsbD 0 then .rdn else .rup) else (if s.me.fmode.getLsbD 0 then .rtz else .rne)

/-- The flags whose enables act: FMODE bits 8 to 4, and none inside a handler (R159, R195). -/
def Sys2Proof.Spec.enables (s : State) : BitVec 5 := if s.me.inHandler then 0 else s.me.fmode.extractLsb' 4 5

/-- −x. -/
def Sys2Proof.Spec.minus : FVal → FVal
  | .nan q => .nan q
  | .inf n => .inf (!n)
  | .fin n a b => .fin (!n) a b

/-- The FP32 constant whose 20 high bits an FI form carries (R270). -/
def Sys2Proof.Spec.const20 (i : BitVec 20) : FVal := Fmt.f32.decode (i.toNat * 4096)

/-- The sign bit of a scalar operand, and the rest of its bits. -/
def Sys2Proof.Spec.signOf (s : State) (f : FFmt) (r : GReg) : Bool :=
  match f with
  | .f32 => (s.regG r).getLsbD 31
  | .f64 => (s.regG r).getLsbD 63
def Sys2Proof.Spec.body (s : State) (f : FFmt) (r : GReg) : Nat :=
  match f with
  | .f32 => (s.regG r).toNat % 2 ^ 31
  | .f64 => (s.regG r).toNat % 2 ^ 63
def Sys2Proof.Spec.withSign (s : State) (f : FFmt) (r : GReg) (neg : Bool) : Nat × BitVec 5 :=
  (Spec.body s f r + (if neg then (match f with | .f32 => 2 ^ 31 | .f64 => 2 ^ 63) else 0), 0)

/-- Additions, products, fused products and constants. -/
def Sys2Proof.Spec.fpArithmetic : Instr → Option Sys2Proof.Spec.FpRow
  | .fadd d a b f => some ⟨[a, b], d, 4, 4, fun s => (Spec.fmt f).add (Spec.mode s) (Spec.num s f a) (Spec.num s f b)⟩
  | .fsub d a b f => some ⟨[a, b], d, 4, 4, fun s => (Spec.fmt f).add (Spec.mode s) (Spec.num s f a) (Spec.minus (Spec.num s f b))⟩
  | .fmul d a b f => some ⟨[a, b], d, 4, 4, fun s => (Spec.fmt f).mul (Spec.mode s) (Spec.num s f a) (Spec.num s f b)⟩
  | .ffma d a b f => some ⟨[a, b, d], d, 4, 4, fun s =>
      (Spec.fmt f).fma (Spec.mode s) (Spec.num s f a) (Spec.num s f b) (Spec.num s f d)⟩
  | .faddl d a l => some ⟨[a], d, 4, 8, fun s => Fmt.f32.add (Spec.mode s) (Spec.num s .f32 a) (Fmt.f32.decode l.toNat)⟩
  | .fmull d a l => some ⟨[a], d, 4, 8, fun s => Fmt.f32.mul (Spec.mode s) (Spec.num s .f32 a) (Fmt.f32.decode l.toNat)⟩
  | .ffmal d a l => some ⟨[a, d], d, 4, 8, fun s =>
      Fmt.f32.fma (Spec.mode s) (Spec.num s .f32 d) (Spec.num s .f32 a) (Fmt.f32.decode l.toNat)⟩
  | .faddi d a i => some ⟨[a], d, 4, 4, fun s => Fmt.f32.add (Spec.mode s) (Spec.num s .f32 a) (Spec.const20 i)⟩
  | .fmuli d a i => some ⟨[a], d, 4, 4, fun s => Fmt.f32.mul (Spec.mode s) (Spec.num s .f32 a) (Spec.const20 i)⟩
  | .ffmai d a i => some ⟨[a, d], d, 4, 4, fun s =>
      Fmt.f32.fma (Spec.mode s) (Spec.num s .f32 d) (Spec.num s .f32 a) (Spec.const20 i)⟩
  | .fmovi d i => some ⟨[], d, 4, 4, fun _ => (i.toNat * 4096, 0)⟩
  | _ => none

/-- Comparison of two values that are no NaNs, as cross products of fractions; infinities lie beyond every fraction. -/
def Sys2Proof.Spec.below : FVal → FVal → Bool
  | .fin p a b, .fin q c d => decide ((if p then -1 else 1) * (a : Int) * d < (if q then -1 else 1) * (c : Int) * b)
  | .inf p, .inf q => p && !q
  | .inf p, .fin .. => p
  | .fin .., .inf q => !q
  | _, _ => false
def Sys2Proof.Spec.alike : FVal → FVal → Bool
  | .fin p a b, .fin q c d => decide ((if p then -1 else 1) * (a : Int) * d = (if q then -1 else 1) * (c : Int) * b)
  | .inf p, .inf q => p == q
  | _, _ => false
def Sys2Proof.Spec.anyNan (x y : FVal) : Bool := x.isNan || y.isNan
def Sys2Proof.Spec.anySnan (x y : FVal) : Bool := x.isSnan || y.isSnan
def Sys2Proof.Spec.invalid (b : Bool) : BitVec 5 := if b then 16 else 0

/-- Comparisons and sign operations (R155, R355). -/
def Sys2Proof.Spec.fpTests : Instr → Option Sys2Proof.Spec.FpRow
  | .feq d a b f => some ⟨[a, b], d, 2, 4, fun s =>
      ((Spec.alike (Spec.num s f a) (Spec.num s f b)).toNat, Spec.invalid (Spec.anySnan (Spec.num s f a) (Spec.num s f b)))⟩
  | .flt d a b f => some ⟨[a, b], d, 2, 4, fun s =>
      ((Spec.below (Spec.num s f a) (Spec.num s f b)).toNat, Spec.invalid (Spec.anyNan (Spec.num s f a) (Spec.num s f b)))⟩
  | .fle d a b f => some ⟨[a, b], d, 2, 4, fun s =>
      ((Spec.below (Spec.num s f a) (Spec.num s f b) || Spec.alike (Spec.num s f a) (Spec.num s f b)).toNat,
        Spec.invalid (Spec.anyNan (Spec.num s f a) (Spec.num s f b)))⟩
  | .fsgn d a b f => some ⟨[a, b], d, 2, 4, fun s => Spec.withSign s f a (Spec.signOf s f b)⟩
  | .fsgnn d a b f => some ⟨[a, b], d, 2, 4, fun s => Spec.withSign s f a (!Spec.signOf s f b)⟩
  | .fsgnx d a b f => some ⟨[a, b], d, 2, 4, fun s => Spec.withSign s f a (Spec.signOf s f a != Spec.signOf s f b)⟩
  | .fmin d a b f => some ⟨[a, b], d, 2, 4, fun s => (Spec.fmt f).minMax false
      (Spec.body s f a + (if Spec.signOf s f a then (Spec.fmt f).signBit else 0))
      (Spec.body s f b + (if Spec.signOf s f b then (Spec.fmt f).signBit else 0))⟩
  | .fmax d a b f => some ⟨[a, b], d, 2, 4, fun s => (Spec.fmt f).minMax true
      (Spec.body s f a + (if Spec.signOf s f a then (Spec.fmt f).signBit else 0))
      (Spec.body s f b + (if Spec.signOf s f b then (Spec.fmt f).signBit else 0))⟩
  | .fclass d a f => some ⟨[a], d, 2, 4, fun s => (2 ^ (Spec.fmt f).classBit
      (Spec.body s f a + (if Spec.signOf s f a then (Spec.fmt f).signBit else 0)), 0)⟩
  | _ => none

/-- The results of a floating-point instruction: Gd, and with it the flags that it raises, ORed into FSTAT (R160). -/
def Sys2Proof.Spec.fpWrites (s : State) (r : Reg) (lat : Nat) (value mask : Vec) (fl : BitVec 5) : List PendingWrite :=
  s.result r lat value mask :: (if fl = 0 then [] else [s.result .fstat lat (fl.setWidth 256) (fl.setWidth 256)])

/-- In a program that has waited, an instruction of a table that raises no enabled flag completes with its result and its flags,
and changes nothing else. -/
def Sys2Proof.Spec.CompletesFp (table : Instr → Option Sys2Proof.Spec.FpRow) : Prop :=
  ∀ (i : Instr) (s : State) (r : Sys2Proof.Spec.FpRow), table i = some r →
    s.Waited (r.reads.map Reg.g) [Reg.g r.dest] r.lat → (r.value s).2 &&& Spec.enables s = 0 →
    exec i s = .next (s.wrote r.size
      (Spec.fpWrites s (.g r.dest) r.lat (BitVec.ofNat 256 (r.value s).1) (fullMask (.g r.dest)) (r.value s).2))

/-- R341, R342, R343, R353. -/
def Sys2Proof.Spec.FloatingArithmeticCompletes : Prop := Spec.CompletesFp Spec.fpArithmetic

/-- R345, R346, R354, R355. -/
def Sys2Proof.Spec.FloatingTestsComplete : Prop := Spec.CompletesFp Spec.fpTests

/-- The state after a precise trap of a job that has a handler, taken outside a handler: the frame, the shadow bank, the handler's
address, and three cycles until it issues (R95, R195). `fpc` and `faddr` come from a record; `pair`: the trap is raised at a PFX that
has not executed. -/
def Sys2Proof.Spec.trappedAt (pair : Bool) (s : State) (code : Nat) (tval tframe fpc faddr : Word) : State :=
  { s.clockAt s.issueAt with
    threads := mapSet s.threads s.cur { s.issued with
      trapPc := (s.me.pfx.map fun p => p.pc).getD s.me.pc
      cause := BitVec.ofNat 64 code, tval := tval, tframe := tframe
      fStatus := s.ready.statusWord ((s.myCore.heldFor s.cur).length) code pair, fTokOut := s.ready.tokOut, fPc := fpc, fAddr := faddr
      shadow := TokenBank.reset, shadowFail := 0, shadowRec := none
      inHandler := true, pfx := none, pc := s.myJob.trapVec }
    cores := mapSet s.cores s.me.pcn { s.myCore with
      regions := s.myCore.regions.set s.me.party (s.myCore.regions[s.me.party] + 1)
      nextIssue := s.issueAt + 3 } }

/-- The same of a trap whose instruction is no PFX. -/
abbrev Sys2Proof.Spec.trapped := Sys2Proof.Spec.trappedAt false

/-- A job that has a handler, and a RUNNING thread that is in none. -/
abbrev Sys2Proof.Spec.canTrap (s : State) : Prop := s.myJob.trapVec ≠ 0 ∧ s.me.inHandler = false ∧ s.me.status = .running

/-- R160: an instruction that raises an enabled flag traps FPX with the flags, and writes nothing. Of the model's own in it: log entry 55.
-/
def Obligations.EnabledFlagTrapsBeforeAnyWrite : Prop :=
  ∀ (i : Instr) (s : State) (r : Sys2Proof.Spec.FpRow), (Spec.fpArithmetic i = some r ∨ Spec.fpTests i = some r) →
    s.Waited (r.reads.map Reg.g) [Reg.g r.dest] r.lat → Spec.canTrap s → (r.value s).2 &&& Spec.enables s ≠ 0 →
    exec i s = .next (Spec.trapped s 0x0D ((r.value s).2.setWidth 64) 0 0 0)

/-- A stored number as a format's encoding: sign, and the magnitude `z` of a finite pattern. R153: an exact result that the format
holds is the result, in every rounding mode, without a flag. -/
def Obligations.RepresentableResultIsExact : Prop :=
  ∀ (f : Fmt) (z : Nat) (rm : RMode) (sat neg : Bool) (num den n d : Nat),
    f ∈ [Fmt.f64, Fmt.f32, Fmt.f16, Fmt.bf16] → 0 < z → z < f.infBits → f.decode z = .fin false n d →
    0 < den → num * d = n * den →
    f.round (.mode rm) sat ⟨neg, num, den, false⟩ = (z + (if neg then f.signBit else 0), 0)

/-! ## Conversions and the constant bank -/

/-- Whether FCVT rounds stochastically: FMODE.SR is set and the target is FP32, BF16 or FP16 (R162, R348). -/
def Sys2Proof.Spec.fcvtDraws (s : State) (f : FFmt) : FcvtOp → Bool
  | .toF32 | .toBF16 | .toF16 => s.me.fmode.getLsbD 2
  | .ofI32 | .ofI64 => s.me.fmode.getLsbD 2 && decide (f = .f32)
  | .toF64 | .toI32 | .toI64 => false

/-- What FCVT writes: Ga[31:0] or Ga as an integer, or Ga in format `f`, converted under RM or with the draw of the thread at
SRCTR; an integer result sign-extended (R161, R348). -/
def Sys2Proof.Spec.fcvtValue (s : State) (a : GReg) (f : FFmt) (c : FcvtOp) : Nat × BitVec 5 :=
  let rd : Rounding :=
    if Spec.fcvtDraws s f c then .stoch (drawElem s.myJob.seed s.me.lcn s.me.srctr 0) else .mode (Spec.mode s)
  let sat := s.me.fmode.getLsbD 3
  match c with
  | .toI32 => ((BitVec.ofInt 64 (intConvert 32 (Spec.mode s) (Spec.num s f a)).1).toNat, (intConvert 32 (Spec.mode s) (Spec.num s f a)).2)
  | .toI64 => ((BitVec.ofInt 64 (intConvert 64 (Spec.mode s) (Spec.num s f a)).1).toNat, (intConvert 64 (Spec.mode s) (Spec.num s f a)).2)
  | .ofI32 => (Spec.fmt f).convert rd sat (FVal.ofInt (Int.bmod (s.regG a).toNat (2 ^ 32)))
  | .ofI64 => (Spec.fmt f).convert rd sat (FVal.ofInt (s.regG a).toInt)
  | .toF32 => Fmt.f32.convert rd sat (Spec.num s f a)
  | .toF64 => Fmt.f64.convert rd sat (Spec.num s f a)
  | .toBF16 => Fmt.bf16.convert rd sat (Spec.num s f a)
  | .toF16 => Fmt.f16.convert rd sat (Spec.num s f a)

/-- R348, R164: FCVT writes the conversion at latency 3 with its flags, and takes one draw where it rounds stochastically; one that
raises an enabled flag traps FPX and leaves SRCTR as it was. -/
def Sys2Proof.Spec.ConversionsComplete : Prop :=
  ∀ (d a : GReg) (f : FFmt) (c : FcvtOp) (s : State), s.Waited [Reg.g a] [Reg.g d] 3 →
    ((Spec.fcvtValue s a f c).2 &&& Spec.enables s = 0 →
      exec (.fcvt d a f c) s = .next ((s.wrote 4 (Spec.fpWrites s (.g d) 3 (BitVec.ofNat 256 (Spec.fcvtValue s a f c).1)
        (fullMask (.g d)) (Spec.fcvtValue s a f c).2)).modMe fun t =>
          { t with srctr := t.srctr + BitVec.ofNat 64 (Spec.fcvtDraws s f c).toNat })) ∧
    ((Spec.fcvtValue s a f c).2 &&& Spec.enables s ≠ 0 → Spec.canTrap s →
      exec (.fcvt d a f c) s = .next (Spec.trapped s 0x0D ((Spec.fcvtValue s a f c).2.setWidth 64) 0 0 0))

/-- A number that stands in `n` bytes of memory, the lowest address least significant (R4). -/
def Sys2Proof.Spec.number (s : State) (key n : Nat) : Nat :=
  (List.range n).foldl (fun v i => v + (memGet s.ms.mem (key + i)).toNat * 256 ^ i) 0

/-- An instruction with the FP32 or 32-bit constant CB[c]: its registers, latency and value for a constant. -/
structure Sys2Proof.Spec.KRow where
  reads : List GReg
  dest  : GReg
  word  : BitVec 8
  lat   : Nat
  value : State → Nat → Nat × BitVec 5

def Sys2Proof.Spec.withConstant : Instr → Option Sys2Proof.Spec.KRow
  | .faddk d a c => some ⟨[a], d, c, 4, fun s k => Fmt.f32.add (Spec.mode s) (Spec.num s .f32 a) (Fmt.f32.decode k)⟩
  | .fmulk d a c => some ⟨[a], d, c, 4, fun s k => Fmt.f32.mul (Spec.mode s) (Spec.num s .f32 a) (Fmt.f32.decode k)⟩
  | .ffmak d a c => some ⟨[a, d], d, c, 4, fun s k =>
      Fmt.f32.fma (Spec.mode s) (Spec.num s .f32 d) (Spec.num s .f32 a) (Fmt.f32.decode k)⟩
  | .ldk d c => some ⟨[], d, c, 3, fun _ k => (k, 0)⟩
  | _ => none

/-- R344, R365: where the own bank grants the read of CB[c] and holds no poison there, the instruction completes with the constant
as its operand; a correctable error that the read meets is corrected and counted. -/
def Sys2Proof.Spec.ConstantBankOperands : Prop :=
  ∀ (i : Instr) (s : State) (r : Sys2Proof.Spec.KRow) (off : Nat), Spec.withConstant i = some r →
    off = s.myJob.cbBase.toNat % 2 ^ 18 + 4 * r.word.toNat →
    s.Waited (r.reads.map Reg.g) [Reg.g r.dest] r.lat →
    s.lmpuOk s.me.pcn off 4 false = true → s.poisonedIn (bankKey s.me.pcn off) 4 = none →
    (r.value s (Spec.number s (bankKey s.me.pcn off) 4)).2 &&& Spec.enables s = 0 →
    exec i s = .next ((s.correct (bankKey s.me.pcn off) 4).wrote 4
      (Spec.fpWrites s (.g r.dest) r.lat (BitVec.ofNat 256 (r.value s (Spec.number s (bankKey s.me.pcn off) 4)).1)
        (fullMask (.g r.dest)) (r.value s (Spec.number s (bankKey s.me.pcn off) 4)).2))

/-- R104, R111, R160, R193, R194, R344, R365: an instruction whose own bank does not grant the read of its constant traps LMPU, of a granule
that holds poison LMUE, and one that raises an enabled flag FPX with the flags; none of them writes its register. Of the model's own in
it: log entry 55. -/
def Sys2Proof.Spec.ConstantBankTraps : Prop :=
  ∀ (i : Instr) (s : State) (r : Sys2Proof.Spec.KRow) (off key : Nat), Spec.withConstant i = some r →
    off = s.myJob.cbBase.toNat % 2 ^ 18 + 4 * r.word.toNat → key = bankKey s.me.pcn off →
    s.Waited (r.reads.map Reg.g) [Reg.g r.dest] r.lat → Spec.canTrap s →
    (s.lmpuOk s.me.pcn off 4 false = false → exec i s = .next (Spec.trapped s 0x04 (BitVec.ofNat 64 off) 0 0 0)) ∧
    (s.lmpuOk s.me.pcn off 4 false = true → ∀ g, s.poisonedIn key 4 = some g →
      exec i s = .next (Spec.trapped s 0x0F (BitVec.ofNat 64 (g * 16 % 2 ^ 18)) 0 0 0)) ∧
    (s.lmpuOk s.me.pcn off 4 false = true → s.poisonedIn key 4 = none →
      (r.value s (Spec.number s key 4)).2 &&& Spec.enables s ≠ 0 →
      exec i s = .next (Spec.trapped (s.correct key 4) 0x0D ((r.value s (Spec.number s key 4)).2.setWidth 64) 0 0 0))

/-! ## Control flow -/

/-- A branch, jump or call: what it reads, whether it is taken and where it goes, its size, and whether it writes LK. -/
structure Sys2Proof.Spec.Branch where
  reads  : List GReg
  taken  : State → Bool
  target : State → Word
  size   : Nat
  link   : Bool

/-- The address `n` halfwords from the instruction. -/
def Sys2Proof.Spec.halfwords (s : State) (n : Int) : Word := BitVec.ofInt 64 (s.me.pc.toInt + 2 * n)

def Sys2Proof.Spec.branch : Instr → Option Sys2Proof.Spec.Branch
  | .beq a b o => some ⟨[a, b], fun s => decide (s.regG a = s.regG b), fun s => Spec.halfwords s (Spec.immediate s.me.pfx o), 4, false⟩
  | .bne a b o => some ⟨[a, b], fun s => decide (s.regG a ≠ s.regG b), fun s => Spec.halfwords s (Spec.immediate s.me.pfx o), 4, false⟩
  | .blt a b o => some ⟨[a, b], fun s => decide ((s.regG a).toInt < (s.regG b).toInt),
      fun s => Spec.halfwords s (Spec.immediate s.me.pfx o), 4, false⟩
  | .bge a b o => some ⟨[a, b], fun s => decide ((s.regG b).toInt ≤ (s.regG a).toInt),
      fun s => Spec.halfwords s (Spec.immediate s.me.pfx o), 4, false⟩
  | .bltu a b o => some ⟨[a, b], fun s => decide ((s.regG a).toNat < (s.regG b).toNat),
      fun s => Spec.halfwords s (Spec.immediate s.me.pfx o), 4, false⟩
  | .bgeu a b o => some ⟨[a, b], fun s => decide ((s.regG b).toNat ≤ (s.regG a).toNat),
      fun s => Spec.halfwords s (Spec.immediate s.me.pfx o), 4, false⟩
  | .bz a o => some ⟨[a], fun s => decide (s.regG a = 0), fun s => Spec.halfwords s (Spec.immediate s.me.pfx o), 4, false⟩
  | .bnz a o => some ⟨[a], fun s => decide (s.regG a ≠ 0), fun s => Spec.halfwords s (Spec.immediate s.me.pfx o), 4, false⟩
  | .bnzShort d o => some ⟨[d], fun s => decide (s.regG d ≠ 0), fun s => Spec.halfwords s o.toInt, 2, false⟩
  | .br o => some ⟨[], fun _ => true, fun s => Spec.halfwords s o.toInt, 4, false⟩
  | .call o => some ⟨[], fun _ => true, fun s => Spec.halfwords s o.toInt, 4, true⟩
  | .jr a => some ⟨[a], fun _ => true, fun s => BitVec.ofNat 64 ((s.regG a).toNat / 2 * 2), 4, false⟩
  | .callr a => some ⟨[a], fun _ => true, fun s => BitVec.ofNat 64 ((s.regG a).toNat / 2 * 2), 4, true⟩
  | _ => none

/-- R76, R317, R318, R322, R323, R324, R360: a taken branch goes to its target with two bubble cycles, one not taken to the next
instruction; a call writes the address of the instruction after it into G15. -/
def Sys2Proof.Spec.BranchesAndCalls : Prop :=
  ∀ (i : Instr) (s : State) (r : Sys2Proof.Spec.Branch), Spec.branch i = some r →
    s.Waited (r.reads.map Reg.g) (if r.link then [Reg.g 15] else []) (if r.link then 1 else 0) →
    exec i s = .next (if r.taken s
      then s.completes (r.target s) 3 (if r.link then [s.resultG 15 1 (s.me.pc + 4)] else [])
      else s.wrote r.size [])

/-! ## Delays, tokens and prefixes -/

/-- The counters that a thread's instructions name: the shadow bank inside a handler (R95). -/
def Sys2Proof.Spec.bank (t : Thread) : TokenBank := if t.inHandler then t.shadow else t.live

/-- Whether the slot of a token holds a record; in a handler, its failure bit (R90, R95). -/
def Sys2Proof.Spec.hasRecord (t : Thread) (k : Tok) : Bool :=
  if t.inHandler then t.shadowFail.getLsbD k.val else (t.live.records[k]).isSome

/-- OUT of a token (R84). -/
def Sys2Proof.Spec.outOf (t : Thread) (k : Tok) : Nat :=
  ((Spec.bank t).tokens[k].issued.toNat + 2 ^ 16 - (Spec.bank t).tokens[k].done.toNat) % 2 ^ 16

/-- The DONEs of a token that count in the cycle in which the executing instruction issues, or a later one: it does not see them (R85). -/
def Sys2Proof.Spec.unseen (s : State) (k : Tok) : Nat :=
  (s.me.doneAt.filter fun e => decide (s.issueAt ≤ e.1) && decide (e.2.1 = s.me.inHandler) && decide (e.2.2 = k)).length

/-- OUT of a token as the executing instruction sees it. -/
def Sys2Proof.Spec.outSeen (s : State) (k : Tok) : Nat := Spec.outOf s.me k + Spec.unseen s k

/-- R77, R339: DLY n changes no state; the next instruction issues n cycles after it. -/
def Sys2Proof.Spec.DelayChangesNothing : Prop :=
  ∀ (n : BitVec 4) (s : State), 1 ≤ n.toNat → s.Waited [] [] 0 → exec (.dly n) s = .next (s.completes (s.me.pc + 2) n.toNat [])

/-- A thread that has blocked at its instruction: WAITING, its race region closed (R43, R75, R145). -/
def Sys2Proof.Spec.blocked (s : State) (w : Wait) : State :=
  { s.clockAt s.issueAt with
    fresh := s.fresh + 8
    threads := mapSet s.threads s.cur { s.issued with status := .waiting w, preferred := false }
    cores := mapSet s.cores s.me.pcn { s.myCore with
      regions := s.myCore.regions.set s.me.party (s.myCore.regions[s.me.party] + 1)
      nextIssue := s.issueAt + 1 } }

/-- R86, R422: WAITT passes when OUT is at most n and the slot is empty, and blocks its thread while OUT exceeds n. -/
def Sys2Proof.Spec.WaittPassesOrBlocks : Prop :=
  ∀ (i : Instr) (k : Tok) (n size : Nat) (s : State),
    ((∃ m : BitVec 8, i = .waitt k m ∧ n = m.toNat ∧ size = 4) ∨ (∃ m : BitVec 4, i = .waittShort k m ∧ n = m.toNat ∧ size = 2)) →
    s.Waited [] [] 0 →
    (Spec.outSeen s k ≤ n → Spec.hasRecord s.me k = false → exec i s = .next (s.wrote size []).closeRegion) ∧
    (n < Spec.outSeen s k → exec i s = .next (Spec.blocked s (.token k n size)))

/-- R89, R193, R195, R350: a WAITT that passes over a record outside a handler empties the slot and traps ASYNC, or FPX for a
record with REASON 0x0A; FPC and FADDR hold the record. -/
def Sys2Proof.Spec.WaittDeliversTheRecord : Prop :=
  ∀ (k : Tok) (n : BitVec 8) (s : State) (r : FaultRec), s.Waited [] [] 0 → Spec.canTrap s → s.me.live.records[k] = some r →
    Spec.outSeen s k ≤ n.toNat →
    ∃ t, exec (.waitt k n) s = .next t ∧
      t.me.live.records[k] = none ∧ t.me.live.tokens = s.me.live.tokens ∧ t.me.g = s.ready.g ∧
      t.me.inHandler = true ∧ t.me.pc = s.myJob.trapVec ∧
      t.me.trapPc = (s.me.pfx.map fun p => p.pc).getD s.me.pc ∧
      t.me.cause = (if r.reason = 0x0A then 0x0D else 0x0A) ∧
      t.me.tval = (if r.reason = 0x0A then r.addr &&& 0x1F else BitVec.ofNat 64 k.val) ∧
      t.me.tframe = 0 ∧ t.me.fAddr = r.addr ∧
      t.me.fPc.toNat % 2 ^ 52 = r.pc.toNat % 2 ^ 52 ∧ t.me.fPc.toNat / 2 ^ 52 % 2 ^ 8 = r.reason.toNat ∧
      t.me.fPc.toNat / 2 ^ 60 = min 15 r.more.toNat ∧
      t.ms = s.ms ∧ t.ops = s.ops

/-- R90, R91, R132, R403: TKRD reads a token's counters and record bit; TKCLR clears the counters of a token at OUT = 0 with an
empty slot, and traps TOKSTATE at any other OUT; STMSK writes a mask of SM1 to SM6. -/
def Sys2Proof.Spec.TokenAndMaskInstructions : Prop :=
  ∀ (k : Tok) (g : GReg) (j : BitVec 4) (m : BitVec 8) (s : State),
    (s.Waited [] [Reg.g g] 2 → exec (.tkrd k g) s = .next (s.wrote 4 [s.resultG g 2 (BitVec.ofNat 64
      ((Spec.bank s.me).tokens[k].issued.toNat +
        ((Spec.bank s.me).tokens[k].done - BitVec.ofNat 16 (Spec.unseen s k)).toNat * 2 ^ 16 +
        Spec.outSeen s k % 256 * 2 ^ 32 + (Spec.hasRecord s.me k).toNat * 2 ^ 40))])) ∧
    (s.Waited [] [] 0 → Spec.outSeen s k = 0 → Spec.hasRecord s.me k = false →
      exec (.tkclr k) s = .next ((s.wrote 4 []).modMe fun t => if t.inHandler
        then { t with shadow := { t.shadow with tokens := t.shadow.tokens.set k ⟨0, 0⟩ } }
        else { t with live := { t.live with tokens := t.live.tokens.set k ⟨0, 0⟩ } })) ∧
    (s.Waited [] [] 0 → Spec.canTrap s → Spec.outSeen s k ≠ 0 →
      exec (.tkclr k) s = .next (Spec.trapped s 0x10 (BitVec.ofNat 64 k.val) 0 0 0)) ∧
    (s.Waited [] [] 0 → ∀ h : 1 ≤ j.toNat ∧ j.toNat ≤ 6,
      exec (.stmsk j m) s = .next ((s.wrote 4 []).modMe fun t => if t.inHandler
        then { t with shadow := { t.shadow with sm := t.shadow.sm.set j.toNat m (by omega) } }
        else { t with live := { t.live with sm := t.live.sm.set j.toNat m (by omega) } }))

/-- R134, R213, R285, R386: a PFX before an instruction that it may govern holds for that instruction alone: the next instruction
executes with it, and it is gone then (`State.completes`). -/
def Sys2Proof.Spec.PrefixGovernsTheNextInstruction : Prop :=
  ∀ (mo : Bool) (mask : BitVec 8) (ext : BitVec 15) (i : Instr) (size : Nat) (s : State),
    s.Waited [] [] 0 → s.fetchInstr s.me.pcn s.me.job (s.me.pc + 4) = .instr i size → size ≠ 2 →
    (mo = false → mask = 0) →
    (Instr.pfxUse i = .plain ∧ mo = false ∨ ∃ m, Instr.pfxUse i = .masked m ∧ (mo = true → m = 0)) →
    exec (.pfx mo mask ext) s = .next ((s.wrote 4 []).modMe fun t => { t with pfx := some ⟨mo, mask, ext, s.me.pc⟩ })

/-! ## Local memory -/

/-- A local access: its base register, the register loaded or stored, the instruction's size, the bytes accessed, and the offset. -/
structure Sys2Proof.Spec.Local where
  base   : GReg
  reg    : Reg
  size   : Nat
  bytes  : Nat
  offset : State → Int
  signed : Bool

def Sys2Proof.Spec.loads : Instr → Option Sys2Proof.Spec.Local
  | .ld t b _ _ w x o => some ⟨b, .g t, 4, Spec.bits w / 8, fun s => Spec.immediate s.me.pfx o * (Spec.bits w / 8 : Nat), x⟩
  | .ldShort d b => some ⟨b, .g d, 2, 8, fun _ => 0, false⟩
  | .vld t b _ _ o => some ⟨b, .v t, 4, 32, fun s => Spec.immediate s.me.pfx o * 32, false⟩
  | .vldShort d b => some ⟨b, .v d, 2, 32, fun _ => 0, false⟩
  | _ => none

def Sys2Proof.Spec.stores : Instr → Option Sys2Proof.Spec.Local
  | .st t b _ _ w o => some ⟨b, .g t, 4, Spec.bits w / 8, fun s => Spec.immediate s.me.pfx o * (Spec.bits w / 8 : Nat), false⟩
  | .stShort d b => some ⟨b, .g d, 2, 8, fun _ => 0, false⟩
  | .vst t b _ _ o => some ⟨b, .v t, 4, 32, fun s => Spec.immediate s.me.pfx o * 32, false⟩
  | .vstShort v b => some ⟨b, .v v, 2, 32, fun _ => 0, false⟩
  | _ => none

/-- G[base] + offset. -/
def Sys2Proof.Spec.Local.addr (r : Sys2Proof.Spec.Local) (s : State) : Word :=
  BitVec.ofInt 64 ((s.regG r.base).toInt + r.offset s)

/-- The pattern of a register. -/
def Sys2Proof.Spec.pattern (s : State) : Reg → Nat
  | .g r => (s.regG r).toNat
  | .v r => (s.regV r).toNat
  | .k r => (s.regK r).toNat
  | .fstat => s.me.fstat.toNat

/-- The access is one to byte `off` of the bank of core `q`, through the local window (R97), and is not redirected (R68). -/
abbrev Sys2Proof.Spec.Local.at (r : Sys2Proof.Spec.Local) (s : State) (q off : Nat) : Prop :=
  winOf s.me.pcn (r.addr s) = .bank q off false ∧ ¬(r.base = 14 ∧ (r.addr s).toNat < s.myStackBase.toNat)

/-- No other party's access of a race-checked page conflicts with this one (R146). -/
abbrev Sys2Proof.Spec.raceFree (s : State) (q off : Nat) (wr : Bool) : Prop :=
  s.isRc q off = true → s.raceConflict (bankKey q off) (partyOf s.me.pcn s.me.party) wr = none

/-- R364, R419: what a load leaves. Its bytes fall due in its register, zero- or sign-extended, at latency 3 (4 into V); an access
of an RC page is recorded, and a correctable error corrected. -/
def Sys2Proof.Spec.LocalLoadsComplete : Prop :=
  ∀ (i : Instr) (s : State) (r : Sys2Proof.Spec.Local) (q off : Nat), Spec.loads i = some r →
    s.Waited [Reg.g r.base] [r.reg] (if r.bytes = 32 then 4 else 3) →
    r.at s q off → (s.core q).status ≠ .dark → (r.addr s).toNat % r.bytes = 0 → s.lmpuOk q off r.bytes false = true →
    Spec.raceFree s q off false → s.poisonedIn (bankKey q off) r.bytes = none →
    exec i s = .next (((s.noteAccess s.me.pcn q off r.bytes s.me.party false).correct (bankKey q off) r.bytes).wrote r.size
      [s.result r.reg (if r.bytes = 32 then 4 else 3)
        (if r.bytes = 32 then BitVec.ofNat 256 (Spec.number s (bankKey q off) 32)
          else ((if r.signed then BitVec.ofInt 64 (Int.bmod (Spec.number s (bankKey q off) r.bytes) (2 ^ (8 * r.bytes)))
            else BitVec.ofNat 64 (Spec.number s (bankKey q off) r.bytes)) : Word).setWidth 256)
        (fullMask r.reg)])

/-- The memory system `m` once `n` bytes have been written in a bank, `mem` being the bytes: the LMAP bits of their pages are set, the poison
and the errors of granules covered whole are gone, and the full-empty bits of all granules touched are set if `full` says so (R106, R107, R110,
R111). -/
def Sys2Proof.Spec.stored (m : MemSys) (mem : List Host.Cell) (c off n : Nat) (full : Bool) : MemSys :=
  { m with
    mem := mem
    full := if full then (granules (bankKey c off) n).foldl setIns m.full else m.full
    poison := (wholeGranules (bankKey c off) n).foldl setDel m.poison
    weak := (wholeGranules (bankKey c off) n).foldl setDel m.weak
    lmap := ((granules (bankKey c off) n).map fun g => c * 48 + g * 16 % 2 ^ 18 / 4096).foldl setIns m.lmap }

/-- R395, R419: what a store leaves. The low bytes of the register stand at the address, every other byte of memory is as before, and
no register is written; besides memory, the page's LMAP bit, the poison of granules covered whole and an RC page's record change. -/
def Sys2Proof.Spec.LocalStoresComplete : Prop :=
  ∀ (i : Instr) (s : State) (r : Sys2Proof.Spec.Local) (q off : Nat), Spec.stores i = some r →
    s.Waited [Reg.g r.base, r.reg] [] 0 →
    r.at s q off → (s.core q).status ≠ .dark → (r.addr s).toNat % r.bytes = 0 → s.lmpuOk q off r.bytes true = true →
    Spec.raceFree s q off true → (r.bytes ≠ 32 → s.poisonedIn (bankKey q off) r.bytes = none) → Memory.wf s.ms.mem = true →
    ∃ t, exec i s = .next t ∧
      (∀ k, memGet t.ms.mem k =
        if bankKey q off ≤ k ∧ k < bankKey q off + r.bytes then BitVec.ofNat 8 (Spec.pattern s r.reg / 256 ^ (k - bankKey q off))
        else memGet s.ms.mem k) ∧
      t.ms = Spec.stored (s.noteAccess s.me.pcn q off r.bytes s.me.party true).ms t.ms.mem q off r.bytes false ∧
      { t with ms := (s.noteAccess s.me.pcn q off r.bytes s.me.party true).ms } =
        (s.noteAccess s.me.pcn q off r.bytes s.me.party true).wrote r.size []

/-- R99, R104, R111, R146, R194, R203: the precise traps of a local access that is not redirected, in their order. -/
def Sys2Proof.Spec.LocalAccessTraps : Prop :=
  ∀ (i : Instr) (s : State) (r : Sys2Proof.Spec.Local) (wr : Bool),
    (if wr then Spec.stores i = some r ∧ s.Waited [Reg.g r.base, r.reg] [] 0
      else Spec.loads i = some r ∧ s.Waited [Reg.g r.base] [r.reg] (if r.bytes = 32 then 4 else 3)) → Spec.canTrap s →
    ((∀ q off, winOf s.me.pcn (r.addr s) ≠ .bank q off false) → exec i s = .next (Spec.trapped s 0x05 (r.addr s) 0 0 0)) ∧
    (∀ q off, r.at s q off →
      ((s.core q).status = .dark → exec i s = .next (Spec.trapped s 0x05 (r.addr s) 0 0 0)) ∧
      ((s.core q).status ≠ .dark → (r.addr s).toNat % r.bytes ≠ 0 → exec i s = .next (Spec.trapped s 0x03 (r.addr s) 0 0 0)) ∧
      ((s.core q).status ≠ .dark → (r.addr s).toNat % r.bytes = 0 →
        (s.lmpuOk q off r.bytes wr = false → exec i s = .next (Spec.trapped s 0x04 (r.addr s) 0 0 0)) ∧
        (s.lmpuOk q off r.bytes wr = true → s.isRc q off = true →
          ∀ p w, s.raceConflict (bankKey q off) (partyOf s.me.pcn s.me.party) wr = some (p, w) →
            exec i s = .next (Spec.trapped s 0x08 (r.addr s)
              (BitVec.ofNat 64 ((if w then 32 else 0) + p % 4 * 8 + p / 4 % 8)) 0 0)) ∧
        (s.lmpuOk q off r.bytes wr = true → Spec.raceFree s q off wr → ¬(wr = true ∧ r.bytes = 32) →
          ∀ g, s.poisonedIn (bankKey q off) r.bytes = some g →
            exec i s = .next (Spec.trapped s 0x0F (r.addr s + BitVec.ofNat 64 (g * 16) - BitVec.ofNat 64 (bankKey q off)) 0 0 0))))

/-- R68: an access through G14 below its image's stack base traps ALIGN and SPILL, or holds issue with the global address at which it
performs. -/
def Sys2Proof.Spec.StackAccessesAreRedirected : Prop :=
  ∀ (i : Instr) (s : State) (r : Sys2Proof.Spec.Local) (wr : Bool) (q off : Nat) (va : Word),
    (if wr then Spec.stores i = some r ∧ s.Waited [Reg.g r.base, r.reg] [] 0
      else Spec.loads i = some r ∧ s.Waited [Reg.g r.base] [r.reg] (if r.bytes = 32 then 4 else 3)) →
    winOf s.me.pcn (r.addr s) = .bank q off false → r.base = 14 → (r.addr s).toNat < s.myStackBase.toNat →
    va = BitVec.ofInt 64 (s.myCore.ovfptr.toInt + ((s.me.image.getD 0 : Nat) + 1) * 0x100000 -
      (s.myStackBase.toNat - (r.addr s).toNat : Nat)) →
    ((r.addr s).toNat % r.bytes ≠ 0 → Spec.canTrap s → exec i s = .next (Spec.trapped s 0x03 (r.addr s) 0 0 0)) ∧
    ((r.addr s).toNat % r.bytes = 0 → (0x100000 < s.myStackBase.toNat - (r.addr s).toNat ∨ s.myCore.ovfptr.toNat < 0x1000000 ∨
        s.myCore.ovfptr.toNat % 65536 ≠ 0 ∨ ∃ e, s.xlat s.me.job va r.bytes ⟨!wr, true, false, true⟩ = .fail e) → Spec.canTrap s →
      exec i s = .next (Spec.trapped s 0x11 va 0 0 0)) ∧
    ((r.addr s).toNat % r.bytes = 0 → s.myStackBase.toNat - (r.addr s).toNat ≤ 0x100000 → 0x1000000 ≤ s.myCore.ovfptr.toNat →
        s.myCore.ovfptr.toNat % 65536 = 0 → (∃ o p e m, s.xlat s.me.job va r.bytes ⟨!wr, true, false, true⟩ = .ok o p e m) →
      ∃ t x, exec i s = .next t ∧ t.me.redirect = some x ∧ x.va = va ∧ x.bytes = r.bytes ∧ x.dst = r.reg ∧
        x.store = (if wr then some (leBytes r.bytes (Spec.pattern s r.reg)) else none) ∧
        t.me.pc = s.me.pc ∧ t.me.g = s.ready.g ∧ t.me.v = s.ready.v ∧ t.ms = s.ms)

/-! ## Operations: what issues -/

/-- An instruction that issues an operation: the registers it reads and its operation will write, its token, stream and mask
selector, what it needs of its core (R82, R83, R197), the operands with which it traps nothing, what it captures, whether it closes a
race region (R145), and what else it changes of its thread. -/
structure Sys2Proof.Spec.Issue where
  reads  : State → List Reg
  writes : List Reg
  tok    : Option Tok
  strm   : Option Strm
  sel    : Option Sel
  queue  : Bool
  posted : State → Bool
  copy   : Bool
  matrix : Bool
  ok     : State → Bool
  kind   : State → OpKind
  closes : Bool
  extra  : State → Thread → Thread

/-- G[base] with the bytes that a PFX adds (R285). -/
def Sys2Proof.Spec.based (s : State) (b : GReg) : Word :=
  BitVec.ofInt 64 ((s.regG b).toInt + (match s.me.pfx with | some p => p.ext15.toInt | none => 0))

/-- The address is in a window of the core, and aligned. -/
def Sys2Proof.Spec.anywhere (s : State) (b : GReg) (n : Nat) : Bool :=
  inWindow s.me.pcn (Spec.based s b) && decide ((Spec.based s b).toNat % n = 0)
def Sys2Proof.Spec.global (s : State) (b : GReg) (n : Nat) : Bool :=
  decide (winOf s.me.pcn (Spec.based s b) = .global) && decide ((Spec.based s b).toNat % n = 0)
def Sys2Proof.Spec.localAt (s : State) (a : Word) (n : Nat) : Bool := isLocal s.me.pcn a && decide (a.toNat % n = 0)

/-- An operation that computes a register's value with no access to memory. -/
def Sys2Proof.Spec.unitOp (reads : List GReg) (writes : List Reg) (k : Tok) (kind : State → OpKind) : Sys2Proof.Spec.Issue :=
  ⟨fun _ => reads.map Reg.g, writes, some k, none, none, false, fun _ => false, false, false, fun _ => true, kind, false, fun _ t => t⟩

/-- A tokened operation of the ordering queue. -/
def Sys2Proof.Spec.memOp (reads writes : List Reg) (k : Tok) (st : Strm) (m : Sel) (ok : State → Bool) (kind : State → OpKind)
    (closes : Bool) : Sys2Proof.Spec.Issue :=
  ⟨fun _ => reads, writes, some k, some st, some m, true, fun _ => false, false, false, ok, kind, closes, fun _ t => t⟩

/-- A store: posted unless its address is in the local window (R197). -/
def Sys2Proof.Spec.storeOp (b : GReg) (src : Reg) (k : Tok) (st : Strm) (m : Sel) (n : Nat) (q : StQual) : Sys2Proof.Spec.Issue :=
  ⟨fun _ => [.g b, src], [], some k, some st, some m, true, fun s => !isLocal s.me.pcn (Spec.based s b), false, false,
    fun s => Spec.anywhere s b n,
    fun s => .store (Spec.based s b) n
      (match q with | .nl | .nh => [BitVec.ofNat 8 (Spec.pattern s src % 16)] | _ => leBytes n (Spec.pattern s src)) q,
    decide (q = .sf), fun _ t => t⟩

def Sys2Proof.Spec.loadOp (b : GReg) (dst : Reg) (k : Tok) (st : Strm) (m : Sel) (n : Nat) (x : Bool) (q : LdQual) :
    Sys2Proof.Spec.Issue :=
  Spec.memOp [.g b] [dst] k st m (fun s => Spec.anywhere s b n) (fun s => .load (Spec.based s b) n dst x q) (decide (q ≠ .plain))

def Sys2Proof.Spec.atomicOp (o : AtomOp) (t b : GReg) (st : Strm) (m : Sel) (k : Tok) (w : AWidth) : Sys2Proof.Spec.Issue :=
  let n := match w with | .w32 => 4 | .d64 => 8
  Spec.memOp ([.g b, .g t] ++ (if o = .cas then [.g (t + 1)] else [])) [.g t] k st m (fun s => Spec.anywhere s b n)
    (fun s => .atom o (Spec.based s b) n (BitVec.ofNat 64 ((s.regG t).toNat % 256 ^ n))
      (if o = .cas then BitVec.ofNat 64 ((s.regG (t + 1)).toNat % 256 ^ n) else 0) t) true

def Sys2Proof.Spec.copyOp (reads : List GReg) (k : Tok) (st : Strm) (m : Sel) (ok : State → Bool) (kind : State → OpKind) :
    Sys2Proof.Spec.Issue :=
  ⟨fun _ => reads.map Reg.g, [], some k, some st, some m, false, fun _ => false, true, false, ok, kind, true, fun _ t => t⟩

def Sys2Proof.Spec.matrixOp (reads : List GReg) (k : Tok) (st : Option Strm) (m : Option Sel) (ok : State → Bool)
    (kind : State → OpKind) : Sys2Proof.Spec.Issue :=
  ⟨fun _ => reads.map Reg.g, [], some k, st, m, false, fun _ => false, false, true, ok, kind, true, fun _ t => t⟩

/-- The integer that a G register holds, with and without sign. -/
def Sys2Proof.Spec.sint (s : State) (r : GReg) : Int := (s.regG r).toInt
def Sys2Proof.Spec.nat (s : State) (r : GReg) : Nat := (s.regG r).toNat

/-- Division (R338, R387), FDIV and FSQRT (R350): results are those of the operands at issue. -/
def Sys2Proof.Spec.divisions : Instr → Option Sys2Proof.Spec.Issue
  | .div d a b k => some (Spec.unitOp [a, b] [.g d] k fun s =>
      .alu d (if Spec.nat s b = 0 then BitVec.allOnes 64 else BitVec.ofInt 64 (Int.tdiv (Spec.sint s a) (Spec.sint s b))))
  | .divu d a b k => some (Spec.unitOp [a, b] [.g d] k fun s =>
      .alu d (if Spec.nat s b = 0 then BitVec.allOnes 64 else BitVec.ofNat 64 (Spec.nat s a / Spec.nat s b)))
  | .rem d a b k => some (Spec.unitOp [a, b] [.g d] k fun s =>
      .alu d (if Spec.nat s b = 0 then s.regG a else BitVec.ofInt 64 (Int.tmod (Spec.sint s a) (Spec.sint s b))))
  | .remu d a b k => some (Spec.unitOp [a, b] [.g d] k fun s =>
      .alu d (if Spec.nat s b = 0 then s.regG a else BitVec.ofNat 64 (Spec.nat s a % Spec.nat s b)))
  | .fdiv d a b k f => some (Spec.unitOp [a, b] [.g d] k fun s =>
      let r := (Spec.fmt f).div (Spec.mode s) (Spec.num s f a) (Spec.num s f b)
      .fpu d (BitVec.ofNat 64 r.1) r.2 (Spec.enables s))
  | .fsqrt d a k f => some (Spec.unitOp [a] [.g d] k fun s =>
      let r := (Spec.fmt f).sqrt (Spec.mode s) (Spec.num s f a)
      .fpu d (BitVec.ofNat 64 r.1) r.2 (Spec.enables s))
  | _ => none

/-- Tokened loads and stores (R366, R367, R397, R398, R421). -/
def Sys2Proof.Spec.transfers : Instr → Option Sys2Proof.Spec.Issue
  | .ldx t b st m k w x => some (Spec.loadOp b (.g t) k st m (Spec.bits w / 8) x .plain)
  | .ldxWf t b st m k w x => some (Spec.loadOp b (.g t) k st m (Spec.bits w / 8) x .wf)
  | .ldxWfc t b st m k w x => some (Spec.loadOp b (.g t) k st m (Spec.bits w / 8) x .wfc)
  | .vldx t b st m k => some (Spec.loadOp b (.v t) k st m 32 false .plain)
  | .vldxWf t b st m k => some (Spec.loadOp b (.v t) k st m 32 false .wf)
  | .vldxWfc t b st m k => some (Spec.loadOp b (.v t) k st m 32 false .wfc)
  | .stx t b st m k w => some (Spec.storeOp b (.g t) k st m (Spec.bits w / 8) .plain)
  | .stxSf t b st m k w => some (Spec.storeOp b (.g t) k st m (Spec.bits w / 8) .sf)
  | .stxNl t b st m k => some (Spec.storeOp b (.g t) k st m 1 .nl)
  | .stxNh t b st m k => some (Spec.storeOp b (.g t) k st m 1 .nh)
  | .vstx t b st m k => some (Spec.storeOp b (.v t) k st m 32 .plain)
  | .vstxSf t b st m k => some (Spec.storeOp b (.v t) k st m 32 .sf)
  | _ => none

/-- Atomics, CHUNK, FESET and FECLR (R310, R326, R352). -/
def Sys2Proof.Spec.atomics : Instr → Option Sys2Proof.Spec.Issue
  | .aadd t b st m k w => some (Spec.atomicOp .add t b st m k w)
  | .aand t b st m k w => some (Spec.atomicOp .and t b st m k w)
  | .aor t b st m k w => some (Spec.atomicOp .or t b st m k w)
  | .axor t b st m k w => some (Spec.atomicOp .xor t b st m k w)
  | .amin t b st m k w => some (Spec.atomicOp .min t b st m k w)
  | .amax t b st m k w => some (Spec.atomicOp .max t b st m k w)
  | .aminu t b st m k w => some (Spec.atomicOp .minu t b st m k w)
  | .amaxu t b st m k w => some (Spec.atomicOp .maxu t b st m k w)
  | .aswp t b st m k w => some (Spec.atomicOp .swp t b st m k w)
  | .acas t b st m k w => some (Spec.atomicOp .cas t b st m k w)
  | .chunk t b st m k => some (Spec.memOp [.g b] [.g t, .g (t + 1)] k st m (fun s => Spec.global s b 32)
      (fun s => .chunk (Spec.based s b) t) true)
  | .feclr b st m c => some { Spec.memOp [.g b] [] 0 st m
      (fun s => match winOf s.me.pcn (Spec.based s b) with
        | .bank q off false => decide (off + 16 * c.toNat ≤ 0x30000) && decide ((s.core q).status ≠ .dark) &&
            decide ((Spec.based s b).toNat % 16 = 0) && s.lmpuOk q off (16 * c.toNat) true
        | _ => false)
      (fun s => .fe (Spec.based s b) c.toNat false) true with tok := none }
  | .feset b st m c => some { Spec.memOp [.g b] [] 0 st m
      (fun s => match winOf s.me.pcn (Spec.based s b) with
        | .bank q off false => decide (off + 16 * c.toNat ≤ 0x30000) && decide ((s.core q).status ≠ .dark) &&
            decide ((Spec.based s b).toNat % 16 = 0) && s.lmpuOk q off (16 * c.toNat) true
        | _ => false)
      (fun s => .fe (Spec.based s b) c.toNat true) true with tok := none }
  | _ => none

/-- Task, counter, group and territory operations (R320, R359, R391, R393, R402, R404, R408). -/
def Sys2Proof.Spec.requests : Instr → Option Sys2Proof.Spec.Issue
  | .spawn a b k st m => some (Spec.memOp [.g a, .g b] [] k st m
      (fun s => decide (s.me.upcall = .none) &&
        (isLocal s.me.pcn (Spec.based s a) || decide (winOf s.me.pcn (Spec.based s a) = .global)) &&
        isBank s.me.pcn (s.regG b) && decide ((Spec.based s a).toNat % 64 = 0))
      (fun s => .spawn (Spec.based s a) (s.regG b)) true)
  | .taskq a k st m => some (Spec.memOp [.g a] [] k st m (fun s => Spec.localAt s (Spec.based s a) 64)
      (fun s => .taskq (Spec.based s a)) true)
  | .bind a b c k st m => some (Spec.memOp [.g a, .g b, .g c] [] k st m (fun s => Spec.anywhere s a 128)
      (fun s => .bind (Spec.based s a) (s.regG b) (s.regG c)) true)
  | .signal a b c k st m => some (Spec.memOp [.g a, .g b, .g c] [] k st m
      (fun s => Spec.anywhere s a 128 && (!([32, 64, 96].contains (Spec.nat s c)) ||
        (Spec.localAt s (s.regG b) 32 && rangeIn s.me.pcn (s.regG b) (Spec.nat s c))))
      (fun s => .signal (Spec.based s a) (s.regG b) (s.regG c)) true)
  | .join a k st m => some (Spec.memOp [.g a] [] k st m (fun s => Spec.global s a 16) (fun s => .join (Spec.based s a)) true)
  | .leave a k st m => some (Spec.memOp [.g a] [] k st m (fun s => Spec.global s a 16) (fun s => .leave (Spec.based s a)) true)
  | .tshape d a k => some { Spec.memOp [.g a] [.g d, .g (d + 1)] k 0 0
      (fun s => Spec.localAt s (s.regG a) 16 && rangeIn s.me.pcn (s.regG a) 128) (fun s => .tshape (s.regG a) d) false with sel := none }
  | .tpress a k => some (Spec.unitOp [a] [] k fun s => .tpress (s.regG a))
  | _ => none

/-- The engine commands (R328, R330, R331, R373, R375, R376, R380). -/
def Sys2Proof.Spec.commands : Instr → Option Sys2Proof.Spec.Issue
  | .cpy a b c k st m => some (Spec.copyOp [a, b, c] k st m
      (fun s => decide (Spec.nat s c = 0) || decide (2 ^ 24 < Spec.nat s c) ||
        (inWindow s.me.pcn (Spec.based s a) && rangeIn s.me.pcn (Spec.based s a) (Spec.nat s c) &&
          inWindow s.me.pcn (s.regG b) && rangeIn s.me.pcn (s.regG b) (Spec.nat s c)))
      (fun s => .cpy (Spec.based s a) (s.regG b) (s.regG c)))
  | .cpy2d a b c k st m => some (Spec.copyOp [a, b, c] k st m (fun _ => true)
      (fun s => .cpy2d (Spec.based s a) (s.regG b) (s.regG c)))
  | .cpyl a k st m => some (Spec.copyOp [a] k st m (fun _ => true) (fun s => .cpyl (Spec.based s a)))
  | .mcrd a b c k st m => some (Spec.copyOp [a, b, c] k st m
      (fun s => decide (winOf s.me.pcn (s.regG b) = .global) && isLocal s.me.pcn (s.regG c))
      (fun s => .mcrd (Spec.based s a) (s.regG b) (s.regG c)))
  | .mma a b k t f n m => some (Spec.matrixOp [a, b] n none (some m) (fun _ => true)
      (fun s => .mma (s.regG a) (s.regG b) (16 * (k.val + 1)) t f (s.me.fmode.getLsbD 3)))
  | .mmod a b k t n m => some (Spec.matrixOp [a, b] n none (some m)
      (fun s => decide (s.me.modq.toNat % 2 = 1) && decide (3 ≤ s.me.modq.toNat) && decide (s.me.modq.toNat < 2 ^ 62))
      (fun s => .mmod (s.regG a) (s.regG b) (16 * (k.val + 1)) t s.me.modq))
  | .mzero _ c t k => some (Spec.matrixOp [c] k none none (fun _ => true) (fun s => .mzero (s.regG c) t))
  | .mload d c t k st m => some (Spec.matrixOp [d, c] k (some st) (some m) (fun _ => true)
      (fun s => .mload (Spec.based s d) (s.regG c) t))
  | .mdrain d c t k st m => some { Spec.matrixOp [d, c] k (some st) (some m) (fun _ => true)
      (fun s => .mdrain (Spec.based s d) (s.regG c)
        (if (s.regG c).getLsbD 10 && decide (c ≠ 15) then s.regG (c + 1) else 0) s.me.srctr s.me.lcn t (decide (c ≠ 15))) with
      reads := fun s => [.g d, .g c] ++ (if (s.regG c).getLsbD 10 && decide (c ≠ 15) then [.g (c + 1)] else [])
      extra := fun s t => if (s.regG c).getLsbD 6 then { t with srctr := t.srctr + 64 } else t }
  | _ => none

/-- OUT of a stream (R129). -/
def Sys2Proof.Spec.streamOut (t : Thread) (k : Strm) : Nat :=
  ((Spec.bank t).streams[k].issued.toNat + 64 - (Spec.bank t).streams[k].done.toNat) % 64

/-- No cause of R82 holds the issue. -/
abbrev Sys2Proof.Spec.Issue.free (r : Sys2Proof.Spec.Issue) (s : State) : Prop :=
  (∀ k, r.tok = some k → Spec.outOf s.me k ≠ 255) ∧ (∀ k, r.strm = some k → Spec.streamOut s.me k < 63) ∧
  (r.queue = true → s.waitingOps s.me.pcn < 32) ∧ (r.posted s = true → (freeEntry s.myCore.journal).isSome = true) ∧
  (r.copy = true → s.myCore.copyQ.length < 2) ∧ (r.matrix = true → s.myCore.matQ.length < 2)

/-- The mask that a selector gives the instruction: its PFX's, or SM's (R131, R134). -/
def Sys2Proof.Spec.Issue.maskIn (r : Sys2Proof.Spec.Issue) (s : State) : Byte :=
  match r.sel with
  | none => 0
  | some m => match s.me.pfx with
    | some p => if p.mo then p.mask8 else (Spec.bank s.me).sm[m]
    | none => (Spec.bank s.me).sm[m]

/-- ISSUED of the token and of the stream advance, in the bank in force (R84, R129). -/
def Sys2Proof.Spec.count (tok : Option Tok) (strm : Option Strm) (t : Thread) : Thread :=
  let up (b : TokenBank) : TokenBank := { b with
    tokens := match tok with
      | some k => b.tokens.set k { b.tokens[k] with issued := b.tokens[k].issued + 1 }
      | none => b.tokens
    streams := match strm with
      | some k => b.streams.set k { b.streams[k] with issued := b.streams[k].issued + 1 }
      | none => b.streams }
  if t.inHandler then { t with shadow := up t.shadow } else { t with live := up t.live }

/-- The operation as it stands in the machine once it has issued. -/
def Sys2Proof.Spec.Issue.op (r : Sys2Proof.Spec.Issue) (s : State) : Op where
  uid := s.cur
  job := s.me.job
  pcn := s.me.pcn
  pc := (s.me.pfx.map fun p => p.pc).getD s.me.pc
  kind := r.kind s
  phase := .queued
  tok := r.tok
  strm := r.strm
  mask := r.maskIn s
  inShadow := s.me.inHandler
  counted := r.strm.isNone
  jidx := if r.posted s then freeEntry s.myCore.journal else none
  hop := false
  result := []
  pieces := []
  wrote := false
  recd := none
  sent := false
  aux := 0
  slot := s.me.party
  region := s.myCore.regions[s.me.party]
  stepped := s.myCore.stepping
  resent := false

/-- The journal with the entry of a posted store (R197). -/
def Sys2Proof.Spec.Issue.journal (r : Sys2Proof.Spec.Issue) (s : State) : AMap JEntry :=
  match (r.op s).jidx, r.kind s, r.tok with
  | some j, .store a _ data q, some k =>
    mapSet s.myCore.journal j ⟨s.cur, s.nextId, (r.op s).pc, a, data, q, k, false, false, s.me.inHandler, 0⟩
  | _, _, _ => s.myCore.journal

/-- The state after an issue: the pc four bytes on, the counters advanced, the operation in the machine and in its queue; memory and
every register are as they were. -/
def Sys2Proof.Spec.Issue.issued (r : Sys2Proof.Spec.Issue) (s : State) : State :=
  { ((s.wrote 4 []).modMe fun t => r.extra s (Spec.count r.tok r.strm t)).modMyCore fun c => { c with
      journal := r.journal s
      copyQ := if r.copy then c.copyQ ++ [s.nextId] else c.copyQ
      matQ := if r.matrix then c.matQ ++ [s.nextId] else c.matQ
      regions := if r.closes then c.regions.set s.me.party (c.regions[s.me.party] + 1) else c.regions } with
    nextId := s.nextId + 1
    ops := mapSet s.ops s.nextId (r.op s) }

/-- What every row of a table issues, in a program that has waited and that nothing holds. -/
def Sys2Proof.Spec.Issues (table : Instr → Option Sys2Proof.Spec.Issue) : Prop :=
  ∀ (i : Instr) (s : State) (r : Sys2Proof.Spec.Issue), table i = some r →
    s.Waited (r.reads s) r.writes 0 → r.free s → r.ok s = true → exec i s = .next (r.issued s)

/-- R84, R338, R350, R387. -/
def Sys2Proof.Spec.DivisionsIssue : Prop := Spec.Issues Spec.divisions
/-- R84, R129, R197, R366, R367, R397, R398, R421. -/
def Sys2Proof.Spec.LoadsAndStoresIssue : Prop := Spec.Issues Spec.transfers
/-- R84, R129, R310, R326, R352. -/
def Sys2Proof.Spec.AtomicsIssue : Prop := Spec.Issues Spec.atomics
/-- R84, R129, R320, R359, R391, R393, R402, R404, R408. -/
def Sys2Proof.Spec.RequestsIssue : Prop := Spec.Issues Spec.requests
/-- R83, R84, R129, R328, R330, R331, R373, R375, R376, R380. -/
def Sys2Proof.Spec.EngineCommandsIssue : Prop := Spec.Issues Spec.commands

/-- R82: what holds issue lets one cycle pass after that in which the instruction would have issued; the instruction stays where it is, and
nothing else changes. -/
def Sys2Proof.Spec.HeldIssueWaits : Prop :=
  ∀ (i : Instr) (s : State) (r : Sys2Proof.Spec.Issue),
    (Spec.divisions i = some r ∨ Spec.transfers i = some r ∨ Spec.atomics i = some r ∨ Spec.requests i = some r ∨
      Spec.commands i = some r) →
    (∀ x y k st m, i = .spawn x y k st m → s.me.upcall = .none) →
    s.Waited (r.reads s) r.writes 0 → ¬ r.free s → exec i s = .next (s.clockAt (s.issueAt + 1))

/-- WATCH of `n` bytes (R66, R424). -/
def Sys2Proof.Spec.watchOp (v b : GReg) (st : Strm) (m : Sel) (c : WCond) (n : Nat) : Sys2Proof.Spec.Issue :=
  { Spec.memOp [.g b, .g v] [] 0 st m (fun s => Spec.global s b n)
      (fun s => .watch (Spec.based s b) n c (BitVec.ofNat 64 ((s.regG v).toNat % 256 ^ n))) true with tok := none }

/-- R66, R82, R100, R357, R424: WATCH and GBAR trap ADDR outside the global space and ALIGN where they are misaligned; WATCH is held as its
queue or its stream is full. -/
def Sys2Proof.Spec.WaitingInstructionsTrap : Prop :=
  (∀ (v b : GReg) (st : Strm) (m : Sel) (c : WCond) (w : AWidth) (s : State) (r : Sys2Proof.Spec.Issue) (n : Nat),
    n = (match w with | .w32 => 4 | .d64 => 8) → r = Spec.watchOp v b st m c n → s.Waited (r.reads s) r.writes 0 →
    (¬ r.free s → exec (.watch v b st m c w) s = .next (s.clockAt (s.issueAt + 1))) ∧
    (r.free s → Spec.canTrap s →
      (isGlobal s.me.pcn (Spec.based s b) = false → exec (.watch v b st m c w) s = .next (Spec.trapped s 0x05 (Spec.based s b) 0 0 0)) ∧
      (isGlobal s.me.pcn (Spec.based s b) = true → (Spec.based s b).toNat % n ≠ 0 →
        exec (.watch v b st m c w) s = .next (Spec.trapped s 0x03 (Spec.based s b) 0 0 0)))) ∧
  (∀ (a : GReg) (s : State), s.Waited [Reg.g a] [] 0 → Spec.canTrap s →
    (isGlobal s.me.pcn (Spec.based s a) = false → exec (.gbar a) s = .next (Spec.trapped s 0x05 (Spec.based s a) 0 0 0)) ∧
    (isGlobal s.me.pcn (Spec.based s a) = true → (Spec.based s a).toNat % 16 ≠ 0 →
      exec (.gbar a) s = .next (Spec.trapped s 0x03 (Spec.based s a) 0 0 0)))

/-- R66, R424: WATCH issues in its stream without a token, and its thread waits. -/
def Sys2Proof.Spec.WatchIssuesAndBlocks : Prop :=
  ∀ (v b : GReg) (st : Strm) (m : Sel) (c : WCond) (w : AWidth) (s : State) (r : Sys2Proof.Spec.Issue) (n : Nat),
    n = (match w with | .w32 => 4 | .d64 => 8) → r = Spec.watchOp v b st m c n →
    s.Waited (r.reads s) r.writes 0 → r.free s → r.ok s = true →
    exec (.watch v b st m c w) s = .next { (Spec.blocked s (.watch s.nextId)).modMe (Spec.count none (some st)) with
      nextId := s.nextId + 1
      ops := mapSet s.ops s.nextId (r.op s) }

/-- The operand that an instruction checks first: its base register, alignment, and the windows that it may name. -/
def Sys2Proof.Spec.checked : Instr → Option (GReg × Nat × (State → Word → Bool))
  | .ldx _ b _ _ _ w _ | .ldxWf _ b _ _ _ w _ | .ldxWfc _ b _ _ _ w _ | .stx _ b _ _ _ w | .stxSf _ b _ _ _ w =>
    some (b, Spec.bits w / 8, fun s => inWindow s.me.pcn)
  | .vldx _ b _ _ _ | .vldxWf _ b _ _ _ | .vldxWfc _ b _ _ _ | .vstx _ b _ _ _ | .vstxSf _ b _ _ _ =>
    some (b, 32, fun s => inWindow s.me.pcn)
  | .stxNl _ b _ _ _ | .stxNh _ b _ _ _ => some (b, 1, fun s => inWindow s.me.pcn)
  | .aadd _ b _ _ _ w | .aand _ b _ _ _ w | .aor _ b _ _ _ w | .axor _ b _ _ _ w | .amin _ b _ _ _ w | .amax _ b _ _ _ w
  | .aminu _ b _ _ _ w | .amaxu _ b _ _ _ w | .aswp _ b _ _ _ w | .acas _ b _ _ _ w =>
    some (b, (match w with | .w32 => 4 | .d64 => 8), fun s => inWindow s.me.pcn)
  | .chunk _ b _ _ _ => some (b, 32, fun s => isGlobal s.me.pcn)
  | .join a _ _ _ | .leave a _ _ _ => some (a, 16, fun s => isGlobal s.me.pcn)
  | .taskq a _ _ _ => some (a, 64, fun s => isLocal s.me.pcn)
  | .bind a _ _ _ _ _ => some (a, 128, fun s => inWindow s.me.pcn)
  | _ => none

/-- R99, R100, R194: an operation whose address no window holds traps ADDR, and one that is misaligned ALIGN; it issues nothing. -/
def Sys2Proof.Spec.OperationAddressTraps : Prop :=
  ∀ (i : Instr) (s : State) (r : Sys2Proof.Spec.Issue) (b : GReg) (n : Nat) (win : State → Word → Bool),
    (Spec.transfers i = some r ∨ Spec.atomics i = some r ∨ Spec.requests i = some r) → Spec.checked i = some (b, n, win) →
    s.Waited (r.reads s) r.writes 0 → r.free s → Spec.canTrap s →
    (win s (Spec.based s b) = false → exec i s = .next (Spec.trapped s 0x05 (Spec.based s b) 0 0 0)) ∧
    (win s (Spec.based s b) = true → (Spec.based s b).toNat % n ≠ 0 → exec i s = .next (Spec.trapped s 0x03 (Spec.based s b) 0 0 0))

/-- The first address of a range that is in no window of the core: its own start if no window holds that (R329). -/
def Sys2Proof.Spec.outside (p : Pcn) (a : Word) (n : Nat) : Option Word :=
  match winOf p a with
  | .bank _ off _ => if off + n ≤ 0x30000 then none else some (a + BitVec.ofNat 64 (0x30000 - off))
  | .global => if a.toNat + n ≤ 2 ^ 52 then none else some (BitVec.ofNat 64 (2 ^ 52))
  | _ => some a

/-- What an instruction checks of its operands before it issues, in order: whether the check fails, and the CAUSE and TVAL of its trap (R169,
R194, R328, R352, R373, R391, R393, R408). -/
def Sys2Proof.Spec.faults (s : State) : Instr → List (Bool × Nat × Word)
  | .spawn a b .. => [(!(isLocal s.me.pcn (Spec.based s a) || decide (winOf s.me.pcn (Spec.based s a) = .global)), 0x05, Spec.based s a),
      (!isBank s.me.pcn (s.regG b), 0x05, s.regG b), (decide ((Spec.based s a).toNat % 64 ≠ 0), 0x03, Spec.based s a)]
  | .signal a b c .. => [(!inWindow s.me.pcn (Spec.based s a), 0x05, Spec.based s a),
      ([32, 64, 96].contains (Spec.nat s c) && !(isLocal s.me.pcn (s.regG b) && rangeIn s.me.pcn (s.regG b) (Spec.nat s c)), 0x05, s.regG b),
      (decide ((Spec.based s a).toNat % 128 ≠ 0), 0x03, Spec.based s a),
      ([32, 64, 96].contains (Spec.nat s c) && decide ((s.regG b).toNat % 32 ≠ 0), 0x03, s.regG b)]
  | .tshape _ a _ => [(!(isLocal s.me.pcn (s.regG a) && rangeIn s.me.pcn (s.regG a) 128), 0x05, s.regG a),
      (decide ((s.regG a).toNat % 16 ≠ 0), 0x03, s.regG a)]
  | .cpy a b c .. =>
    if Spec.nat s c = 0 ∨ 2 ^ 24 < Spec.nat s c then []
    else [Spec.based s a, s.regG b].map fun x =>
      ((Spec.outside s.me.pcn x (Spec.nat s c)).isSome, 0x05, (Spec.outside s.me.pcn x (Spec.nat s c)).getD 0)
  | .mcrd _ b c .. => [(decide (winOf s.me.pcn (s.regG b) ≠ .global), 0x05, s.regG b), (!isLocal s.me.pcn (s.regG c), 0x05, s.regG c)]
  | .feset b _ _ c | .feclr b _ _ c =>
    match winOf s.me.pcn (Spec.based s b) with
    | .bank q off false => [(decide (0x30000 < off + 16 * c.toNat ∨ (s.core q).status = .dark), 0x05, Spec.based s b),
        (decide ((Spec.based s b).toNat % 16 ≠ 0), 0x03, Spec.based s b),
        (!s.lmpuOk q off (16 * c.toNat) true, 0x04, Spec.based s b)]
    | _ => [(true, 0x05, Spec.based s b)]
  | .mmod .. => [(!(decide (s.me.modq.toNat % 2 = 1) && decide (3 ≤ s.me.modq.toNat) && decide (s.me.modq.toNat < 2 ^ 62)), 0x0E, s.me.modq)]
  | _ => []

/-- R169, R194, R203, R328, R329, R352, R373, R391, R393, R408: of an instruction that is free to issue, the first of these checks that fails
traps with its cause and value, and nothing issues. Of the model's own in it: log entry 55, and log entry 91 (of a CPY whose two ranges both
leave their windows, the destination is named). -/
def Sys2Proof.Spec.OperandTraps : Prop :=
  ∀ (i : Instr) (s : State) (r : Sys2Proof.Spec.Issue) (code : Nat) (v : Word),
    (Spec.atomics i = some r ∨ Spec.requests i = some r ∨ Spec.commands i = some r) →
    (Spec.faults s i).find? (·.1) = some (true, code, v) → s.me.upcall = .none → s.Waited (r.reads s) r.writes 0 → r.free s →
    Spec.canTrap s → exec i s = .next (Spec.trapped s code v 0 0 0)

/-- R63, R357: GBAR blocks its thread at a group in the global space. -/
def Sys2Proof.Spec.GroupBarrierBlocks : Prop :=
  ∀ (a : GReg) (s : State), s.Waited [Reg.g a] [] 0 → Spec.global s a 16 = true →
    exec (.gbar a) s = .next (Spec.blocked s (.gbar (Spec.based s a)))

/-! ## Vector instructions -/

/-- An instruction on vector and mask registers: what it reads, its destination, latency and size; the value, the bits that it
writes, and its flags. -/
structure Sys2Proof.Spec.VRow where
  reads : List Reg
  dest  : Reg
  lat   : Nat
  size  : Nat
  value : State → Vec × Vec × BitVec 5

/-- Lane `i` of width `w` (R171). -/
def Sys2Proof.Spec.lane (v : Vec) (w i : Nat) : Nat := v.toNat / 2 ^ (w * i) % 2 ^ w

/-- A register with `f i` in lane `i` of `n` lanes of width `w`. -/
def Sys2Proof.Spec.ofLanes (w n : Nat) (f : Nat → Nat) : Vec :=
  BitVec.ofNat 256 ((List.range n).foldl (fun acc i => acc + f i % 2 ^ w * 2 ^ (w * i)) 0)

/-- The lanes of a type, and their width. -/
def Sys2Proof.Spec.lanes : VType → Nat
  | .f32 | .i32 => 8 | .bf16 | .f16 | .i16 => 16 | .i8 => 32 | .i64 => 4
def Sys2Proof.Spec.width (t : VType) : Nat := 256 / Spec.lanes t
/-- The format of a floating-point type. -/
def Sys2Proof.Spec.format : VType → Option Fmt
  | .f32 => some Fmt.f32 | .bf16 => some Fmt.bf16 | .f16 => some Fmt.f16 | _ => none

/-- A mask operand as it is read: K0 is no register (R172, R362). -/
def Sys2Proof.Spec.maskRead (k : KReg) : List Reg := if k = 0 then [] else [.k k]

/-- Results in the active lanes of a register, and the flags of the active lanes. -/
def Sys2Proof.Spec.laneResult (s : State) (t : VType) (k : KReg) (f : Nat → Nat × BitVec 5) : Vec × Vec × BitVec 5 :=
  (Spec.ofLanes (Spec.width t) (Spec.lanes t) fun i => (f i).1,
    Spec.ofLanes (Spec.width t) (Spec.lanes t) fun i => if (s.regK k).getLsbD i then 2 ^ Spec.width t - 1 else 0,
    (List.range (Spec.lanes t)).foldl (fun fl i => if (s.regK k).getLsbD i then fl ||| (f i).2 else fl) 0)

/-- A lane as a signed number, and a number in a lane: wrapped, or clamped to the type under FMODE.SAT (R161). -/
def Sys2Proof.Spec.signed (w x : Nat) : Int := Int.bmod x (2 ^ w)
def Sys2Proof.Spec.wrapped (w : Nat) (z : Int) : Nat := (z % 2 ^ w).toNat
def Sys2Proof.Spec.clamped (s : State) (w : Nat) (z : Int) : Nat :=
  Spec.wrapped w (if s.me.fmode.getLsbD 3 then max (-(2 ^ (w - 1))) (min z (2 ^ (w - 1) - 1)) else z)

/-- A lane result: of a floating-point format, or of integers. -/
def Sys2Proof.Spec.laneOp (s : State) (t : VType) (fp : Fmt → FVal → FVal → Nat × BitVec 5) (int : Int → Int → Int) (x y : Nat) :
    Nat × BitVec 5 :=
  match Spec.format t with
  | some f => fp f (f.decode x) (f.decode y)
  | none => (Spec.clamped s (Spec.width t) (int (Spec.signed (Spec.width t) x) (Spec.signed (Spec.width t) y)), 0)
def Sys2Proof.Spec.laneAdd (s : State) (t : VType) : Nat → Nat → Nat × BitVec 5 :=
  Spec.laneOp s t (fun f => f.add (Spec.mode s)) (· + ·)
def Sys2Proof.Spec.laneSub (s : State) (t : VType) : Nat → Nat → Nat × BitVec 5 :=
  Spec.laneOp s t (fun f x y => f.add (Spec.mode s) x (Spec.minus y)) (· - ·)
def Sys2Proof.Spec.laneMul (s : State) (t : VType) : Nat → Nat → Nat × BitVec 5 :=
  Spec.laneOp s t (fun f => f.mul (Spec.mode s)) (· * ·)
def Sys2Proof.Spec.laneLess (t : VType) (isMax : Bool) (x y : Nat) : Nat × BitVec 5 :=
  match Spec.format t with
  | some f => f.minMax isMax x y
  | none => (if (Spec.signed (Spec.width t) x ≤ Spec.signed (Spec.width t) y) = (isMax = false) then x else y, 0)
/-- VABS and VNEG (R411). -/
def Sys2Proof.Spec.laneSign (t : VType) (fp : Fmt → Nat → Nat) (int : Int → Int) (x : Nat) : Nat × BitVec 5 :=
  match Spec.format t with
  | some f => if (f.decode x).isNan then (f.nanBits, Spec.invalid (f.decode x).isSnan) else (fp f x, 0)
  | none => (Spec.wrapped (Spec.width t) (int (Spec.signed (Spec.width t) x)), 0)

/-- Vd from Va and Vb, lane by lane. -/
def Sys2Proof.Spec.lane3 (lat : Nat) (d a b : VReg) (k : KReg) (t : VType) (f : State → Nat → Nat → Nat × BitVec 5) :
    Sys2Proof.Spec.VRow :=
  ⟨[.v a, .v b] ++ Spec.maskRead k, .v d, lat, 4, fun s => Spec.laneResult s t k fun i =>
    f s (Spec.lane (s.regV a) (Spec.width t) i) (Spec.lane (s.regV b) (Spec.width t) i)⟩
def Sys2Proof.Spec.lane2 (lat : Nat) (d a : VReg) (k : KReg) (t : VType) (f : State → Nat → Nat × BitVec 5) : Sys2Proof.Spec.VRow :=
  ⟨[.v a] ++ Spec.maskRead k, .v d, lat, 4, fun s => Spec.laneResult s t k fun i => f s (Spec.lane (s.regV a) (Spec.width t) i)⟩
/-- A two-byte F32 form on Vd and Vs, every lane active. -/
def Sys2Proof.Spec.laneShort (lat : Nat) (d r : VReg) (f : State → Nat → Nat → Nat × BitVec 5) : Sys2Proof.Spec.VRow :=
  { Spec.lane3 lat d d r 0 .f32 f with size := 2 }

/-- Vector arithmetic (R411), and VEXP2, VRCP, VRSQRT of R416. -/
def Sys2Proof.Spec.vectorArithmetic : Instr → Option Sys2Proof.Spec.VRow
  | .vadd d a b k t => some (Spec.lane3 2 d a b k t fun s => Spec.laneAdd s t)
  | .vsub d a b k t => some (Spec.lane3 2 d a b k t fun s => Spec.laneSub s t)
  | .vmul d a b k t => some (Spec.lane3 3 d a b k t fun s => Spec.laneMul s t)
  | .vfma d a b k t => match Spec.format t with
    | some f => some ⟨[.v a, .v b, .v d] ++ Spec.maskRead k, .v d, 4, 4, fun s => Spec.laneResult s t k fun i =>
        f.fma (Spec.mode s) (f.decode (Spec.lane (s.regV a) (Spec.width t) i)) (f.decode (Spec.lane (s.regV b) (Spec.width t) i))
          (f.decode (Spec.lane (s.regV d) (Spec.width t) i))⟩
    | none => none
  | .vmin d a b k t => some (Spec.lane3 2 d a b k t fun _ => Spec.laneLess t false)
  | .vmax d a b k t => some (Spec.lane3 2 d a b k t fun _ => Spec.laneLess t true)
  | .vabs d a k t => some (Spec.lane2 2 d a k t fun _ => Spec.laneSign t (fun f x => x % f.signBit) fun z => z.natAbs)
  | .vneg d a k t => some (Spec.lane2 2 d a k t fun _ =>
      Spec.laneSign t (fun f x => if f.signBit ≤ x then x - f.signBit else x + f.signBit) fun z => -z)
  | .vaddShort d r => some (Spec.laneShort 2 d r fun s => Spec.laneAdd s .f32)
  | .vmulShort d r => some (Spec.laneShort 3 d r fun s => Spec.laneMul s .f32)
  | .vmaxShort d r => some (Spec.laneShort 2 d r fun _ => Spec.laneLess .f32 true)
  | .vexp2 d a k t => match Spec.format t with
    | some f => some (Spec.lane2 10 d a k t fun s x => f.exp2 (Spec.mode s) (f.decode x))
    | none => none
  | .vrcp d a k t => match Spec.format t with
    | some f => some (Spec.lane2 10 d a k t fun s x => f.rcp (Spec.mode s) (f.decode x))
    | none => none
  | .vrsqrt d a k t => match Spec.format t with
    | some f => some (Spec.lane2 10 d a k t fun s x => f.rsqrt (Spec.mode s) (f.decode x))
    | none => none
  | _ => none

/-- Logic, shifts and moves between lanes (R412, R416). -/
def Sys2Proof.Spec.vectorMoves : Instr → Option Sys2Proof.Spec.VRow
  | .vand d a b k t => some (Spec.lane3 2 d a b k t fun _ x y => (x &&& y, 0))
  | .vor d a b k t => some (Spec.lane3 2 d a b k t fun _ x y => (x ||| y, 0))
  | .vxor d a b k t => some (Spec.lane3 2 d a b k t fun _ x y => (x ^^^ y, 0))
  | .vshl d a b k t => some (Spec.lane3 2 d a b k t fun _ x y => (x * 2 ^ (y % Spec.width t), 0))
  | .vshr d a b k t => some (Spec.lane3 2 d a b k t fun _ x y => (x / 2 ^ (y % Spec.width t), 0))
  | .vsar d a b k t => some (Spec.lane3 2 d a b k t fun _ x y =>
      (Spec.wrapped (Spec.width t) (Spec.signed (Spec.width t) x / 2 ^ (y % Spec.width t)), 0))
  | .vmov d a k t => some (Spec.lane2 2 d a k t fun _ x => (x, 0))
  | .vmovShort d a => some ⟨[.v a], .v d, 2, 2, fun s => (s.regV a, BitVec.allOnes 256, 0)⟩
  | .vsel d a b k t => some ⟨[.v a, .v b] ++ Spec.maskRead k, .v d, 2, 4, fun s =>
      (Spec.ofLanes (Spec.width t) (Spec.lanes t) fun i =>
        Spec.lane (if (s.regK k).getLsbD i then s.regV a else s.regV b) (Spec.width t) i, BitVec.allOnes 256, 0)⟩
  | .vperm d a b k t => some (Spec.lane3 3 d a b k t fun s _ y =>
      (Spec.lane (s.regV a) (Spec.width t) (y % Spec.lanes t), 0))
  | .vbcast d a k t => some ⟨[.g a] ++ Spec.maskRead k, .v d, 2, 4, fun s => Spec.laneResult s t k fun _ => ((s.regG a).toNat, 0)⟩
  | .vext d a l t => some ⟨[.v a], .g d, 3, 4, fun s =>
      let x := Spec.lane (s.regV a) (Spec.width t) l.val
      ((match Spec.format t with
        | some _ => BitVec.ofNat 64 x
        | none => BitVec.ofInt 64 (Spec.signed (Spec.width t) x)).setWidth 256, fullMask (.g d), 0)⟩
  | _ => none

/-- A node of the tree of R166 over `2 ^ n` lanes from lane `i` on, with the flags of every combination. -/
def Sys2Proof.Spec.tree (f : Nat → Nat → Nat × BitVec 5) (leaf : Nat → Nat) : Nat → Nat → Nat × BitVec 5
  | 0, i => (leaf i, 0)
  | n + 1, i =>
    let l := Spec.tree f leaf n i
    let r := Spec.tree f leaf n (i + 2 ^ n)
    ((f l.1 r.1).1, (f l.1 r.1).2 ||| l.2 ||| r.2)

/-- What a masked-off lane enters a reduction as (R166). -/
def Sys2Proof.Spec.identity (t : VType) : RedOp → Nat
  | .sum => match Spec.format t with | some f => f.signBit | none => 0
  | .min => match Spec.format t with | some f => f.infBits | none => 2 ^ (Spec.width t - 1) - 1
  | .max => match Spec.format t with | some f => f.signBit + f.infBits | none => 2 ^ (Spec.width t - 1)

def Sys2Proof.Spec.combine (s : State) (t : VType) : RedOp → Nat → Nat → Nat × BitVec 5
  | .sum => Spec.laneAdd s t
  | .min => Spec.laneLess t false
  | .max => Spec.laneLess t true

/-- A comparison of two lanes (R417). -/
def Sys2Proof.Spec.holds : VCond → (lt eq : Bool) → Bool
  | .eq, _, eq => eq
  | .ne, _, eq => !eq
  | .lt, lt, _ => lt
  | .le, lt, eq => lt || eq
  | .gt, lt, eq => !lt && !eq
  | .ge, lt, _ => !lt
def Sys2Proof.Spec.compare (t : VType) (c : VCond) (x y : Nat) : Bool × BitVec 5 :=
  match Spec.format t with
  | some f =>
    if Spec.anyNan (f.decode x) (f.decode y) then
      (decide (c = .ne), Spec.invalid (Spec.anySnan (f.decode x) (f.decode y) || decide (c ≠ .eq ∧ c ≠ .ne)))
    else (Spec.holds c (Spec.below (f.decode x) (f.decode y)) (Spec.alike (f.decode x) (f.decode y)), 0)
  | none => (Spec.holds c (decide (Spec.signed (Spec.width t) x < Spec.signed (Spec.width t) y)) (decide (x = y)), 0)

/-- Reductions, comparisons and mask operations (R166, R362, R417). -/
def Sys2Proof.Spec.vectorMasks : Instr → Option Sys2Proof.Spec.VRow
  | .vred d a o k t => some ⟨[.v a] ++ Spec.maskRead k, .v d, 5, 4, fun s =>
      let r := Spec.tree (Spec.combine s t o)
        (fun i => if (s.regK k).getLsbD i then Spec.lane (s.regV a) (Spec.width t) i else Spec.identity t o) (Nat.log2 (Spec.lanes t)) 0
      (BitVec.ofNat 256 r.1, BitVec.allOnes 256, r.2)⟩
  | .vcmp d a b k t c => some ⟨[.v a, .v b] ++ Spec.maskRead k, .k d, 2, 4, fun s =>
      let r (i : Nat) := Spec.compare t c (Spec.lane (s.regV a) (Spec.width t) i) (Spec.lane (s.regV b) (Spec.width t) i)
      (Spec.ofLanes 1 (Spec.lanes t) fun i => ((s.regK k).getLsbD i && (r i).1).toNat, fullMask (.k d),
        (List.range (Spec.lanes t)).foldl (fun fl i => if (s.regK k).getLsbD i then fl ||| (r i).2 else fl) 0)⟩
  | .kand d a b => some ⟨Spec.maskRead a ++ Spec.maskRead b, .k d, 2, 4, fun s =>
      (BitVec.ofNat 256 ((s.regK a).toNat &&& (s.regK b).toNat), fullMask (.k d), 0)⟩
  | .kor d a b => some ⟨Spec.maskRead a ++ Spec.maskRead b, .k d, 2, 4, fun s =>
      (BitVec.ofNat 256 ((s.regK a).toNat ||| (s.regK b).toNat), fullMask (.k d), 0)⟩
  | .kxor d a b => some ⟨Spec.maskRead a ++ Spec.maskRead b, .k d, 2, 4, fun s =>
      (BitVec.ofNat 256 ((s.regK a).toNat ^^^ (s.regK b).toNat), fullMask (.k d), 0)⟩
  | .knot d a => some ⟨Spec.maskRead a, .k d, 2, 4, fun s => (BitVec.ofNat 256 (2 ^ 32 - 1 - (s.regK a).toNat), fullMask (.k d), 0)⟩
  | _ => none

/-- What an instruction writes: its destination's bits, unless it is K0, and its flags. -/
def Sys2Proof.Spec.VRow.results (r : Sys2Proof.Spec.VRow) (s : State) : List PendingWrite :=
  (if r.dest = .k 0 then [] else [s.result r.dest r.lat (r.value s).1 (r.value s).2.1]) ++
  (if (r.value s).2.2 = 0 then [] else [s.result .fstat r.lat ((r.value s).2.2.setWidth 256) ((r.value s).2.2.setWidth 256)])

/-- In a program that has waited, an instruction of a table completes with its results when it raises no enabled flag; when it does,
it traps FPX and writes nothing. -/
def Sys2Proof.Spec.CompletesV (table : Instr → Option Sys2Proof.Spec.VRow) : Prop :=
  ∀ (i : Instr) (s : State) (r : Sys2Proof.Spec.VRow), table i = some r → s.Waited r.reads [r.dest] r.lat →
    ((r.value s).2.2 &&& Spec.enables s = 0 → exec i s = .next (s.wrote r.size (r.results s))) ∧
    ((r.value s).2.2 &&& Spec.enables s ≠ 0 → Spec.canTrap s →
      exec i s = .next (Spec.trapped s 0x0D ((r.value s).2.2.setWidth 64) 0 0 0))

/-- R171, R172, R411, R416. -/
def Sys2Proof.Spec.VectorArithmeticCompletes : Prop := Spec.CompletesV Spec.vectorArithmetic
/-- R171, R172, R412, R416. -/
def Sys2Proof.Spec.VectorMovesComplete : Prop := Spec.CompletesV Spec.vectorMoves
/-- R166, R172, R362, R417. -/
def Sys2Proof.Spec.ReductionsAndMasksComplete : Prop := Spec.CompletesV Spec.vectorMasks

/-- Modular operations on the lane pair (2j, 2j + 1) and on single lanes (R168); `i` is the lane written. -/
def Sys2Proof.Spec.modular : Instr → Option (VReg × VReg × VReg × KReg × Nat × (Int → (Nat → Nat) → (Nat → Nat) → Nat → Int))
  | .vmodadd d a b k => some (d, a, b, k, 3, fun q x y i => ((x i : Int) + y i) % q)
  | .vmodsub d a b k => some (d, a, b, k, 3, fun q x y i => ((x i : Int) - y i) % q)
  | .vmodmul d a b k => some (d, a, b, k, 7, fun q x y i => ((x i : Int) * y i) % q)
  | .vntt d a b k => some (d, a, b, k, 9, fun q w x i =>
      let t := ((w (i / 2 * 2) : Int) * x (i / 2 * 2 + 1)) % q
      if i % 2 = 0 then (x i + t) % q else ((x (i - 1) : Int) - t) % q)
  | _ => none

/-- R167 to R169, R413: a modular instruction writes residues modulo MODQ in its active lanes; an invalid MODQ traps MODQ with the
register's value and writes nothing. Of the model's own in it: log entries 2, 55. -/
def Obligations.ModularInstructions : Prop :=
  ∀ (i : Instr) (s : State) (d a b : VReg) (k : KReg) (lat : Nat) (f : Int → (Nat → Nat) → (Nat → Nat) → Nat → Int),
    Spec.modular i = some (d, a, b, k, lat, f) → s.Waited ([.v a, .v b] ++ Spec.maskRead k) [.v d] lat →
    (s.me.modq.toNat % 2 = 1 → 3 ≤ s.me.modq.toNat → s.me.modq.toNat < 2 ^ 62 →
      exec i s = .next (s.wrote 4 [s.result (.v d) lat
        (Spec.ofLanes 64 4 fun j => (f s.me.modq.toNat (Spec.lane (s.regV a) 64) (Spec.lane (s.regV b) 64) j).toNat)
        (Spec.ofLanes 64 4 fun j => if (s.regK k).getLsbD j then 2 ^ 64 - 1 else 0)])) ∧
    (¬(s.me.modq.toNat % 2 = 1 ∧ 3 ≤ s.me.modq.toNat ∧ s.me.modq.toNat < 2 ^ 62) → Spec.canTrap s →
      exec i s = .next (Spec.trapped s 0x0E s.me.modq 0 0 0))

/-- The elements of a format in a register (R171, R415). -/
def Sys2Proof.Spec.elements : CFmt → Nat
  | .f32 | .i32 => 8 | .bf16 | .f16 | .i16 => 16 | .i8 | .md8 => 32 | .i64 => 4 | .fp4 => 64

/-- R162, R164, R415: VCVT converts as many elements as both formats have, in the active ones; bits above them become 0; a
stochastic one takes a draw for every four elements. One that raises an enabled flag traps FPX and leaves Vd and SRCTR. -/
def Sys2Proof.Spec.VectorConversionsComplete : Prop :=
  ∀ (d a : VReg) (k : KReg) (src dst : CFmt) (sr : Bool) (s : State) (n w v : Nat) (sto : Bool) (el : Nat → Nat × BitVec 5)
    (act : Nat → Bool) (fl : BitVec 5),
    n = min (Spec.elements src) (Spec.elements dst) → v = 256 / Spec.elements src → w = 256 / Spec.elements dst →
    sto = (decide (dst ∉ [CFmt.i32, .i16, .i8, .i64]) && (sr || s.me.fmode.getLsbD 2)) →
    el = (fun i => CFmt.convertTo dst (Spec.mode s)
      (if sto then .stoch (drawElem s.myJob.seed s.me.lcn s.me.srctr i) else .mode (Spec.mode s)) (s.me.fmode.getLsbD 3)
      (CFmt.value src (Spec.lane (s.regV a) v i))) →
    act = (fun i => (s.regK k).getLsbD (if src = .fp4 ∨ dst = .fp4 then i / 2 else i)) →
    fl = (List.range n).foldl (fun fl i => if act i then fl ||| (el i).2 else fl) 0 →
    s.Waited ([.v a] ++ Spec.maskRead k) [.v d] 3 →
    (fl &&& Spec.enables s = 0 →
      exec (.vcvt d a k src dst sr) s = .next ((s.wrote 4 (Spec.fpWrites s (.v d) 3 (Spec.ofLanes w n fun i => (el i).1)
        (~~~(Spec.ofLanes w n fun i => if act i then 0 else 2 ^ w - 1)) fl)).modMe fun t =>
          { t with srctr := t.srctr + BitVec.ofNat 64 (if sto then (n + 3) / 4 else 0) })) ∧
    (fl &&& Spec.enables s ≠ 0 → Spec.canTrap s →
      exec (.vcvt d a k src dst sr) s = .next (Spec.trapped s 0x0D (fl.setWidth 64) 0 0 0))

/-! ## Control and status registers -/

/-- What a read of CSR `n` gives: the table of R333, and 0 for any other number. FSTAT and GTS are those of the issue cycle. -/
def Sys2Proof.Spec.csr (s : State) (n : Nat) : Word :=
  if n = 0x000 then s.me.tid.setWidth 64
  else if n = 0x001 then s.me.lcn.setWidth 64
  else if n = 0x002 then BitVec.ofNat 64 s.me.pcn
  else if n = 0x003 then BitVec.ofNat 64 (s.me.job % 4096 + s.myJob.serial % 65536 * 65536)
  else if n = 0x004 then (s.clockAt s.issueAt).gts
  else if n = 0x010 then s.me.fmode.setWidth 64
  else if n = 0x011 then s.ready.fstat.setWidth 64
  else if n = 0x012 then s.myJob.seed
  else if n = 0x013 then s.me.srctr
  else if n = 0x014 then s.me.modq
  else if n = 0x020 then BitVec.ofNat 64 (s.me.image.getD 0 * 0x800)
  else if n = 0x021 then s.myJob.cbBase
  else if n = 0x022 then s.myCore.splim
  else if n = 0x023 then s.myCore.ovfptr
  else if n = 0x030 then s.myJob.trapVec
  else if n = 0x031 then s.me.trapPc
  else if n = 0x032 then s.me.cause
  else if n = 0x033 then s.me.tval
  else if n = 0x034 then s.me.tframe
  else if n = 0x035 then s.myJob.upVec
  else if n = 0x036 then s.me.upArg
  else if n = 0x040 then BitVec.ofNat 64 (s.myCore.hzchk.toNat + 16 * s.myCore.slice.toNat + 256 * s.myCore.l1fuse.toNat)
  else if n = 0x041 then s.myCore.wrrw.setWidth 64
  else if n = 0x050 then BitVec.ofNat 64 ((s.myCore.heldFor s.cur).foldl (fun n e => n + 2 ^ e.1) 0 + 2 ^ 32 * s.myCore.journal.length)
  else if n = 0x060 then s.myCore.hgmask.setWidth 64
  else if n = 0x061 then BitVec.ofNat 64 (s.myCore.att.toNat + 4 * s.myCore.step.toNat + 256 * s.myCore.engfrz.toNat)
  else if n = 0x070 then
    let p := s.me.coreName.getD s.me.pcn
    BitVec.ofNat 64 (p % 8192 + 2 ^ 13 * (match (s.core p).status with | .live => 0 | .scrub => 1 | .dark => 2))
  else 0

/-- The numbers that a program may write (R333). -/
def Sys2Proof.Spec.csrWritable : List Nat :=
  [0x010, 0x011, 0x013, 0x014, 0x022, 0x023, 0x030, 0x031, 0x032, 0x033, 0x034, 0x035, 0x036, 0x040, 0x041, 0x051, 0x060, 0x061, 0x070]

/-- JACK (R199): an entry that is held for the writer is freed, or its store goes again, counted nowhere. -/
def Sys2Proof.Spec.jack (s : State) (i : Nat) (retry : Bool) : State :=
  match mapGet? s.myCore.journal i with
  | none => s
  | some e =>
    if e.held = true ∧ e.uid = s.cur then
      if retry then
        { s.modMyCore fun c => { c with journal := mapSet c.journal i { e with held := false, told := false, op := s.nextId } } with
          nextId := s.nextId + 1
          ops := mapSet s.ops s.nextId {
            uid := s.cur, job := s.me.job, pcn := s.me.pcn, pc := e.pc, kind := .store e.addr e.data.length e.data e.qual
            phase := .queued, tok := none, strm := none, mask := 0, inShadow := e.inShadow, counted := true, jidx := some i
            hop := false, result := [], pieces := [], wrote := false, recd := none, sent := false, aux := 0, slot := s.me.party
            region := s.myCore.regions[s.me.party], stepped := false, resent := true } }
      else s.modMyCore fun c => { c with journal := mapErase c.journal i }
    else s

/-- DBGCTL (R210): STEP while a debugger is attached. -/
def Sys2Proof.Spec.stepBit (s : State) (b : Bool) : State := s.modMyCore fun c => { c with step := if c.att then b else c.step }

/-- A stop of the groups of the core (R210, R211): every member halts, and the group keeps the first cause. -/
def Sys2Proof.Spec.stopGroups (s : State) (groups : BitVec 4) : State :=
  { s with
    groups := Vector.ofFn fun g => if groups.getLsbD g.val then some (s.groups[g].getD 0) else s.groups[g]
    cores := s.cores.map fun e => (e.1,
      if e.2.hgmask &&& groups = 0 then e.2
      else { e.2 with halted := true, stepping := false, stopCause := some (e.2.stopCause.getD 0),
                      haltGrp := e.2.haltGrp ||| (e.2.hgmask &&& groups) }) }

/-- What a write to a writable CSR other than CORESTATE does. -/
def Sys2Proof.Spec.csrEffect (n : Nat) (v : Word) (s : State) : State :=
  if n = 0x010 then s.modMe fun t => { t with fmode := BitVec.ofNat 9 (v.toNat % 512) }
  else if n = 0x011 then s.modMe fun t => { t with fstat := BitVec.ofNat 5 (v.toNat % 32) }
  else if n = 0x013 then s.modMe fun t => { t with srctr := v }
  else if n = 0x014 then s.modMe fun t => { t with modq := v }
  else if n = 0x022 then s.modMyCore fun c => { c with splim := v }
  else if n = 0x023 then s.modMyCore fun c => { c with ovfptr := v }
  else if n = 0x030 then s.modJob s.me.job fun j => { j with trapVec := if 0x1000000 ≤ v.toNat ∧ v.toNat % 2 = 0 then v else 0 }
  else if n = 0x031 then s.modMe fun t => { t with trapPc := BitVec.ofNat 64 (v.toNat / 2 * 2) }
  else if n = 0x032 then s.modMe fun t => { t with cause := v }
  else if n = 0x033 then s.modMe fun t => { t with tval := v }
  else if n = 0x034 then s.modMe fun t => { t with tframe := v }
  else if n = 0x035 then s.modJob s.me.job fun j => { j with upVec := v }
  else if n = 0x036 then s.modMe fun t => { t with upArg := v }
  else if n = 0x040 then s.modMyCore fun c => { c with
    hzchk := decide (v.toNat % 2 = 1), sliceNext := some (BitVec.ofNat 4 (v.toNat / 16 % 16)) }
  else if n = 0x041 then s.modMyCore fun c => { c with wrrw := if v.toNat % 16 = 0 then 1 else BitVec.ofNat 4 (v.toNat % 16) }
  else if n = 0x051 then Spec.jack s (v.toNat % 32) (decide (v.toNat / 256 % 2 = 1))
  else if n = 0x060 then s.modMyCore fun c => { c with hgmask := BitVec.ofNat 4 (v.toNat % 16) }
  else if n = 0x061 then
    let t := Spec.stepBit s (decide (v.toNat / 4 % 2 = 1))
    if v.toNat / 2 % 2 = 1 then Spec.stopGroups t t.myCore.hgmask else t
  else s

/-- R333, R334: CSRR reads any CSR at latency 2. Of the model's own in it: log entries 2, 76. -/
def Obligations.CsrReads : Prop :=
  ∀ (d : GReg) (c : BitVec 12) (s : State), s.Waited (if c = 0x011 then [.fstat] else []) [.g d] 2 →
    exec (.csrr d c) s = .next (s.wrote 4 [s.resultG d 2 (Spec.csr s c.toNat)])

/-- R45, R159, R160, R174, R195, R196, R199, R210, R333, R334: CSRW and CSRX of a writable CSR other than CORESTATE have its effect;
CSRX gives the old value. -/
def Sys2Proof.Spec.CsrWrites : Prop :=
  ∀ (d a : GReg) (c : BitVec 12) (s : State), c.toNat ∈ Spec.csrWritable → c ≠ 0x070 →
    (s.Waited [.g a] [] 0 → exec (.csrw a c) s = .next (Spec.csrEffect c.toNat (s.regG a) (s.wrote 4 []))) ∧
    (s.Waited (.g a :: (if c = 0x011 then [.fstat] else [])) [.g d] 2 →
      exec (.csrx d a c) s = .next (Spec.csrEffect c.toNat (s.regG a) (s.wrote 4 [s.resultG d 2 (Spec.csr s c.toNat)])))

/-- R194, R333, R334: a write to a CSR that has none traps PRIV with its number, whatever the registers hold. -/
def Sys2Proof.Spec.CsrPrivilege : Prop :=
  ∀ (d a : GReg) (c : BitVec 12) (s : State), c.toNat ∉ Spec.csrWritable → Spec.canTrap s →
    exec (.csrw a c) s = .next (Spec.trapped s 0x02 (c.setWidth 64) 0 0 0) ∧
    exec (.csrx d a c) s = .next (Spec.trapped s 0x02 (c.setWidth 64) 0 0 0)

/-- The core that a CORESTATE value names, on the writer's die (R202). -/
def Sys2Proof.Spec.namedCore (s : State) (v : Word) : Pcn := s.me.pcn / 8192 * 8192 + v.toNat % 8192

/-- R202: a write to CORESTATE that names another core of the territory with STATE DARK makes that core the one that later reads
name, and asks Lantern to set it DARK within 10 µs; its misuses trap PRIV and ADDR. -/
def Sys2Proof.Spec.CoreStateWrites : Prop :=
  ∀ (a d : GReg) (s : State), s.Waited [.g a] [.g d] 2 →
    (((s.regG a).toNat / 8192 % 4 = 2 ∧ Spec.namedCore s (s.regG a) ≠ s.me.pcn) →
      (s.owner (Spec.namedCore s (s.regG a) / 8) = s.me.job → (s.core (Spec.namedCore s (s.regG a))).status ≠ .dark →
        exec (.csrw a 0x070) s = .next (((s.wrote 4 []).modMe fun t => { t with coreName := some (Spec.namedCore s (s.regG a)) }).modCore
          (Spec.namedCore s (s.regG a)) fun c => { c with
            darkAt := some (c.darkAt.getD ((s.clockAt s.issueAt).gts + 10000)) }) ∧
        exec (.csrx d a 0x070) s = .next (((s.wrote 4 [s.resultG d 2 (Spec.csr s 0x070)]).modMe fun t =>
          { t with coreName := some (Spec.namedCore s (s.regG a)) }).modCore
          (Spec.namedCore s (s.regG a)) fun c => { c with
            darkAt := some (c.darkAt.getD ((s.clockAt s.issueAt).gts + 10000)) })) ∧
      (s.owner (Spec.namedCore s (s.regG a) / 8) ≠ s.me.job → Spec.canTrap s →
        exec (.csrw a 0x070) s = .next (Spec.trapped s 0x05 (s.regG a) 0 0 0))) ∧
    (¬((s.regG a).toNat / 8192 % 4 = 2 ∧ Spec.namedCore s (s.regG a) ≠ s.me.pcn) → Spec.canTrap s →
      exec (.csrw a 0x070) s = .next (Spec.trapped s 0x02 0x070 0 0 0))

/-- The effects of CSR writes that opcode_table.json lists as steps: the CSR and the value that has the same effect. -/
def Sys2Proof.Spec.csrStep : Instr → Option (Nat × Word)
  | .jackFree i => some (0x051, BitVec.ofNat 64 i.val)
  | .jackResend i => some (0x051, BitVec.ofNat 64 (256 + i.val))
  | .cfgWrite v => some (0x040, v)
  | .upvecWrite v => some (0x035, v)
  | .trapvecWrite v => some (0x030, v)
  | .fstatWrite v => some (0x011, v)
  | .trappcWrite v => some (0x031, v)
  | .wrrwWrite v => some (0x041, v)
  | _ => none

/-- R28, R45, R160, R174, R195, R196, R199, R202, R210: the steps of these writes. -/
def Sys2Proof.Spec.CsrWriteSteps : Prop :=
  ∀ (s : State) (v : Word) (b : Bool),
    (∀ i n w, Spec.csrStep i = some (n, w) → exec i s = .next (Spec.csrEffect n w s)) ∧
    exec (.dbgctlStepWrite b) s = .next (Spec.stepBit s b) ∧
    exec .dbgctlHalt s = .next (Spec.stopGroups s s.myCore.hgmask) ∧
    (v.toNat / 8192 % 4 = 2 → Spec.namedCore s v ≠ s.me.pcn → s.owner (Spec.namedCore s v / 8) = s.me.job →
      (s.core (Spec.namedCore s v)).status ≠ .dark →
      exec (.corestateWrite v) s = .next ((s.modMe fun t => { t with coreName := some (Spec.namedCore s v) }).modCore
        (Spec.namedCore s v) fun c => { c with darkAt := some (c.darkAt.getD (s.gts + 10000)) }))

/-! ## Exceptions -/

/-- R193, R321, R405: TRAP and a BKPT with no debugger attached take their traps; BKPT with one attached completes and halts the core
and its groups. -/
def Sys2Proof.Spec.SoftwareTraps : Prop :=
  ∀ (n : BitVec 16) (s : State), s.Waited [] [] 0 →
    (Spec.canTrap s → exec (.trap n) s = .next (Spec.trapped s 0x0B (n.setWidth 64) 0 0 0)) ∧
    (Spec.canTrap s → s.myCore.att = false → exec .bkpt s = .next (Spec.trapped s 0x0C 0 0 0 0)) ∧
    (s.myCore.att = true → exec .bkpt s = .next ((s.wrote 4 []).stopCore s.me.pcn 1))

/-- R195, R201: a trap in a job without a handler, or inside its handler, faults the job: its threads and operations are gone, its
pool is empty, and what is left of it is frozen. -/
def Sys2Proof.Spec.UnhandledTrapFaultsTheJob : Prop :=
  ∀ (n : BitVec 16) (s : State) (j : Job), s.Waited [] [] 0 → (s.myJob.trapVec = 0 ∨ s.me.inHandler = true) →
    s.liveJob? s.me.job = some j → j.status ≠ .frozen → s.me.job % 512 ≠ 0 →
    ∃ t, exec (.trap n) s = .next t ∧ (∀ e ∈ t.threads, e.2.job ≠ s.me.job) ∧ (∀ e ∈ t.ops, e.2.job ≠ s.me.job) ∧
      (∀ j', t.liveJob? s.me.job = some j' → j'.status = .frozen ∧ j'.pool = [])

/-- R95, R196, R406: TRET in a handler whose shadow bank has drained without a failure returns to TRAPPC with the live bank in force;
while it has not drained, the thread waits. Of the model's own in it: log entry 2. -/
def Obligations.ReturnFromTrap : Prop :=
  ∀ (s : State), s.Waited [] [] 0 → s.me.inHandler = true →
    ((∀ k : Tok, Spec.outOf s.me k = 0) → (∀ k : Strm, Spec.streamOut s.me k = 0) → s.me.shadowFail = 0 →
      exec .tret s = .next ((s.completes s.me.trapPc 3 []).modMe fun t => { t with inHandler := false }).closeRegion) ∧
    (((∃ k : Tok, Spec.outOf s.me k ≠ 0) ∨ ∃ k : Strm, Spec.streamOut s.me k ≠ 0) →
      ∃ t, exec .tret s = .next t ∧ t.me = { s.issued with status := .waiting .retDrain, preferred := false } ∧
        t.ms = s.ms ∧ t.ops = s.ops ∧ t.jobs = s.jobs)

/-- Whether every stream of the thread has drained and every token stands at OUT = 0. -/
abbrev Sys2Proof.Spec.drained (t : Thread) : Prop :=
  (∀ k : Tok, t.live.tokens[k].issued = t.live.tokens[k].done) ∧ ∀ k : Strm, t.live.streams[k].issued = t.live.streams[k].done

/-- No refused store and no record of the thread is to be delivered (R89, R198). -/
abbrev Sys2Proof.Spec.quiet (s : State) : Prop :=
  (∀ e ∈ s.myCore.journal, e.2.held = true → e.2.uid = s.cur → e.2.told = true) ∧ ∀ k : Tok, s.me.live.records[k] = none

/-- The keys of a table rise (an invariant that every step keeps: `Obligations.EveryStepKeepsItsTables`). -/
abbrev Sys2Proof.Spec.rising {α : Type} (m : AMap α) : Prop := m.Pairwise fun a b => a.1 < b.1

/-- R34, R72, R340, R409: EXIT, and UPRET of an upcall thread, end the thread once its counters have drained: its image, slot and
registers are gone, and a border move that waited for it stops its tile; until then the thread waits. Here the job goes on with
another thread. -/
def Sys2Proof.Spec.ThreadsEnd : Prop :=
  ∀ (i : Instr) (s : State), (i = .exit ∨ i = .upret ∧ s.me.upcall ≠ .none) → s.Waited [] [] 0 → s.me.inHandler = false →
    (Spec.drained s.me → Spec.quiet s → (∃ e ∈ s.threads, e.1 ≠ s.cur ∧ e.2.job = s.me.job) →
      ∃ t, exec i s = .next t ∧ t.threads = mapErase (mapSet s.threads s.cur s.me) s.cur ∧
        t.moves = (s.moves.map fun m => if m.upcall = some s.cur then { m with upcall := none, stopped := true } else m) ∧
        t.ms = s.ms ∧ t.jobs = s.jobs ∧ t.now = s.issueAt) ∧
    (¬Spec.drained s.me → exec i s = .next (Spec.blocked s .exitDrain))

/-- R12, R31, R36, R72, R225: when the last thread of an active job ends, with an empty pool and no record dispatched, the job ends. A move in
transit towards it goes on to idle, and one from it as planned; every other tile of its territory goes to idle with no upcall, scrubbed at
once if no operation of the job is in flight. The completion word, 0x01 and GTS[47:0], is written at DONECTR where the job may write it, and
the vector of its queue is raised. Of the model's own in it: log entries 81, 82, 84. -/
def Sys2Proof.Spec.JobsEnd : Prop :=
  ∀ (i : Instr) (s : State) (tag : Nat) (j : Job), (i = .exit ∨ i = .upret ∧ s.me.upcall ≠ .none) → s.Waited [] [] 0 →
    s.me.inHandler = false → Spec.drained s.me → Spec.quiet s → tag = s.me.job → s.liveJob? tag = some j → j.status = .active →
    j.pool = [] → s.hub.notices = [] → s.hub.held = [] → s.fab.migrating = [] → (∀ d ∈ s.dies, d.2.sweep = none) → s.ms.poison = [] →
    Spec.rising s.threads → (∀ e ∈ s.threads, e.2.job = tag → e.1 = s.cur) →
    (∀ e ∈ s.cores, s.owner (e.1 / 8) = tag → e.2.dispatched = none) → (∀ m ∈ s.moves, m.upcall ≠ some s.cur) → s.fab.poolReqs = [] →
    s.fab.watches = [] → s.lan.slots = [] → s.tilesOf tag ≠ [] → (∀ x ∈ s.tilesOf tag, x < 8192) → Memory.wf s.ms.mem = true →
    ∃ t, exec i s = .next t ∧ (∀ e ∈ t.threads, e.2.job ≠ tag) ∧ (t.job tag).status = .ended ∧
      (∀ m ∈ s.moves, (if m.gainer = tag then { m with gainer := tag / 512 * 512, toIdle := true } else m) ∈ t.moves) ∧
      (∀ x ∈ s.tilesOf tag, (∀ m ∈ s.moves, m.tile ≠ x) → ∃ m ∈ t.moves, m.tile = x ∧ m.donor = tag ∧ m.gainer = tag / 512 * 512 ∧
        m.stopped = true ∧ m.toIdle = true ∧ m.locked = false ∧ m.upcall = none ∧ (m.evacuated = true ↔ ∀ e ∈ t.ops, e.2.job ≠ tag)) ∧
      (∀ owner pa e w, s.xlatNow tag j.doneCtr 8 ⟨false, true, true, true⟩ = .ok owner pa e w → s.ms.seals = [] →
        Spec.number t (ownerKey owner pa) 8 = 1 + (s.clockAt s.issueAt).gts.toNat % 2 ^ 48 * 65536) ∧
      ∀ q, mapGet? s.hub.queues j.queue = some q → t.hub.out = .msix q.regs.fn
        (((s.hub.queues.filter fun e => e.2.bound && decide (e.2.regs.fn = q.regs.fn)).map (·.1)).idxOf j.queue) :: s.hub.out

/-- R44, R426: YIELD makes its thread READY when another thread of its core and of the core's owner is, and does nothing else. -/
def Sys2Proof.Spec.YieldGivesWay : Prop :=
  ∀ (s : State), s.Waited [] [] 0 →
    ((s.me.upcall ≠ .none ∨
        ∀ e ∈ s.threads, e.2.pcn = s.me.pcn → e.2.job = s.owner (s.me.pcn / 8) → e.2.status = .ready → e.1 = s.cur) →
      s.me.status = .running → exec .yield s = .next (s.wrote 4 [])) ∧
    (s.me.upcall = .none →
      (∃ e ∈ s.threads, e.1 ≠ s.cur ∧ e.2.pcn = s.me.pcn ∧ e.2.job = s.owner (s.me.pcn / 8) ∧ e.2.status = .ready) →
      exec .yield s = .next ((s.wrote 4 []).modMe fun t => { t with status := .ready, readySince := s.issueAt }))

/-- The core that a MIG names (R70, R97, R101). -/
abbrev Sys2Proof.Spec.migratesTo (s : State) (a : Word) (q : Pcn) : Prop :=
  (∃ off cw, winOf s.me.pcn a = .bank q off cw) ∧ s.owner (q / 8) = s.me.job ∧ (s.core q).status ≠ .dark

/-- The thread on its way to core `q`: it leaves its slot, its race regions close, and to another tile its message travels as a signal
packet (R70, R145, R214). -/
def Sys2Proof.Spec.departed (s : State) (q : Pcn) (load : Option MgLoad) : State :=
  let far := q / 8 ≠ s.me.pcn / 8
  { s.clockAt s.issueAt with
    nextId := if far then s.nextId + 1 else s.nextId
    fab := if far then { s.fab with
        mesh := s.fab.mesh ++ [⟨s.nextId, s.nextId, 1, s.me.pcn / 8, [q / 8], s.me.pcn / 8, .mig s.cur⟩] } else s.fab
    threads := mapSet s.threads s.cur { s.issued with
      slot := none, status := .migrating q .mig, mgLoad := load }
    cores := mapSet s.cores s.me.pcn { s.myCore with
      regions := s.myCore.regions.set s.me.party (s.myCore.regions[s.me.party] + if s.me.slot.isSome then 2 else 1)
      nextIssue := max s.myCore.nextIssue (s.issueAt + 1) } }

/-- R70, R71, R379: MIG of an ordinary thread outside a handler departs for another core of its territory once its counters have
drained, stays on its own, waits while they have not, and traps ADDR for any other address. -/
def Sys2Proof.Spec.Migration : Prop :=
  ∀ (a : GReg) (s : State) (q : Pcn), s.Waited [.g a] [] 0 → s.me.upcall = .none → s.me.inHandler = false →
    (Spec.migratesTo s (s.regG a) q →
      (¬Spec.drained s.me → exec (.mig a) s = .next (Spec.blocked s (.migDrain q))) ∧
      (Spec.drained s.me → Spec.quiet s → s.me.mgLoad = none →
        (q ≠ s.me.pcn → exec (.mig a) s = .next (Spec.departed s q none)) ∧
        (q = s.me.pcn → s.me.status = .running → exec (.mig a) s = .next (s.wrote 4 []).closeRegion))) ∧
    ((∀ q, ¬Spec.migratesTo s (s.regG a) q) → Spec.canTrap s →
      exec (.mig a) s = .next (Spec.trapped s 0x05 (s.regG a) 0 0 0))

/-- R70, R367, R368: LDX.MG acts as MIG, and takes its load with it; on its own core it issues the load of the bank's byte. -/
def Sys2Proof.Spec.MigratingLoads : Prop :=
  ∀ (t b : GReg) (st : Strm) (m : Sel) (k : Tok) (w : Width) (x : Bool) (s : State) (q off : Nat) (cw : Bool)
    (r : Sys2Proof.Spec.Issue), s.Waited [.g b] [] 0 → s.me.upcall = .none → s.me.inHandler = false →
    winOf s.me.pcn (Spec.based s b) = .bank q off cw → s.owner (q / 8) = s.me.job → (s.core q).status ≠ .dark →
    (Spec.based s b).toNat % (Spec.bits w / 8) = 0 →
    r = { Spec.memOp [.g b] [.g t] k st m (fun _ => true)
      (fun _ => .load (BitVec.ofNat 64 off) (Spec.bits w / 8) (.g t) x .plain) true with extra := fun _ t => { t with mgLoad := none } } →
    (¬Spec.drained s.me → exec (.ldxMg t b st m k w x) s = .next ((Spec.blocked s (.migDrain q)).modMe fun th =>
      { th with mgLoad := some ⟨Spec.based s b, t, k, st, r.maskIn s, w, x⟩ })) ∧
    (Spec.drained s.me → Spec.quiet s →
      (q ≠ s.me.pcn → exec (.ldxMg t b st m k w x) s =
        .next (Spec.departed s q (some ⟨Spec.based s b, t, k, st, r.maskIn s, w, x⟩))) ∧
      (q = s.me.pcn → s.me.status = .running → exec (.ldxMg t b st m k w x) s = .next (r.issued s)))

/-- R29, R71, R196, R340, R409: instructions that are ILLEGAL where they stand trap with their word. -/
def Sys2Proof.Spec.IllegalPlaces : Prop :=
  ∀ (i : Instr) (s : State), Spec.canTrap s → s.me.pfx = none →
    (i = .tret ∨ (i = .upret ∧ s.me.upcall = .none) ∨
      ((∃ a, i = .mig a) ∨ (∃ t b st m k w x, i = .ldxMg t b st m k w x) ∨ ∃ a b k st m, i = .spawn a b k st m) ∧ s.me.upcall ≠ .none) →
    exec i s = .next (Spec.trapped s 0x01 (BitVec.ofNat 64 ((encode i).2 % 2 ^ 32)) 0 0 0)

/-! ## Operations at their homes -/

/-- The bank of a core grants an access (R24, R104, R203): the core serves the operation's job, and its page the rights. -/
abbrev Sys2Proof.Spec.grants (s : State) (tag c off n : Nat) (rd wr : Bool) : Prop :=
  (s.core c).status = .live ∧ s.owner (c / 8) = tag ∧ (rd = true → s.lmpuOk c off n false = true) ∧
  (wr = true → s.lmpuOk c off n true = true)

/-- The operation is at its home, or at the owner of its page. -/
abbrev Sys2Proof.Spec.present (o : Op) : Prop := o.phase = .arrived ∨ ∃ d, o.phase = .atOwner d

/-- A stream's DONE counts an operation once, in the bank it was issued in, while its thread lives (R129, R130). -/
def Sys2Proof.Spec.counted (s : State) (o : Op) : State :=
  match o.strm with
  | none => s
  | some k =>
    if o.counted = true ∨ mapGet? s.threads o.uid = none then s
    else
      let t := s.thread o.uid
      let up (b : TokenBank) : TokenBank := { b with streams := b.streams.set k { b.streams[k] with done := b.streams[k].done + 1 } }
      { s with threads := mapSet s.threads o.uid (if o.inShadow then { t with shadow := up t.shadow } else { t with live := up t.live }) }

/-- An operation performs: its stream counts it, its journal entry is free, and of one with a token the result goes back to its core as a
response (R84, R130, R197, R214; `Spec.ResponsesTravel` says how it travels). -/
def Sys2Proof.Spec.performs (s : State) (id : OpId) (o : Op) (bytes : List Byte) : State :=
  let t := Spec.counted s o
  let r : State := { t with
    cores := match o.jidx with
      | some j => mapSet t.cores o.pcn { t.core o.pcn with journal := mapErase (t.core o.pcn).journal j }
      | none => t.cores }
  match o.tok with
  | none => { r with ops := mapErase s.ops id }
  | some _ => State.respond { r with ops := mapSet s.ops id { o with counted := true, result := bytes, jidx := none } } id o .done

/-- An operation fails with a REASON at an address, and its response goes back to its core (R88, R214). -/
def Sys2Proof.Spec.fails (s : State) (id : OpId) (o : Op) (reason : Byte) (a : Word) : State :=
  s.respond id o (.fail ⟨o.pc, a, reason, 0⟩)

/-- Bytes of memory. -/
def Sys2Proof.Spec.bytes (s : State) (key n : Nat) : List Byte := (List.range n).map fun i => memGet s.ms.mem (key + i)

/-- R88, R107, R108, R130, R366, R367: a tokened load at a bank reads its bytes and performs; a wait-qualified one waits until every
granule it touches is full, and LDX.WFC then clears them; memory keeps its bytes. An access is recorded when it performs. (Where bits of its
bank have changed in an earlier step, the loads that wait there look first: `Spec.WaitingLoadsWake`.) -/
def Sys2Proof.Spec.LoadsPerformAtTheirBank : Prop :=
  ∀ (id : OpId) (idx : Nat) (o : Op) (s : State) (a : Word) (n : Nat) (dst : Reg) (sx : Bool) (q : LdQual) (c off : Nat) (cw : Bool)
    (r : State), s.op? id = some o → Spec.present o → o.kind = .load a n dst sx q → winOf o.pcn a = .bank c off cw →
    Spec.grants s o.job c off n true false → r = (s.correct (bankKey c off) n).noteOp o c off n false →
    (q = .plain → s.poisonedIn (bankKey c off) n = none →
      exec (.memoryReadPerform id idx) s = .next (Spec.performs r id o (Spec.bytes s (bankKey c off) n))) ∧
    (q ≠ .plain → s.looks = [] → (∀ g ∈ granules (bankKey c off) n, g ∈ s.ms.full) → s.poisonedIn (bankKey c off) n = none →
      exec (.waitLoadArrival id) s = .next (Spec.performs
        (if q = .wfc then { r with ms := { r.ms with full := (granules (bankKey c off) n).foldl setDel s.ms.full } } else r) id o
        (Spec.bytes s (bankKey c off) n))) ∧
    (q ≠ .plain → s.looks = [] → (∃ g ∈ granules (bankKey c off) n, g ∉ s.ms.full) → (s.waitersAt c).length < 16 →
      exec (.waitLoadArrival id) s = .next { s with
        nextId := s.nextId + 1, ops := mapSet s.ops id { o with phase := .waiting, aux := s.nextId } })

/-- No bits have changed in an earlier bank cycle whose waiting loads have still to look. -/
abbrev Sys2Proof.Spec.looked (s : State) : Prop := s.looks = [] ∨ s.lookAt = s.now

/-- Bits of core `c`'s bank change in this bank cycle, and the loads that wait there look at the end of it (R102, R108). -/
def Sys2Proof.Spec.feChanged (s : State) (c : Nat) : State := { s with looks := setIns s.looks c, lookAt := s.now }

/-- R107, R111, R130, R148, R398: a store at a bank writes its bytes, or one nibble of a byte, and performs; STX.SF sets the full-empty bits of
its granules, and the loads that wait at the bank look at the end of the bank cycle. Every other byte of memory is as before. Of two nibble
stores to one byte the first to arrive performs first. -/
def Sys2Proof.Spec.StoresPerformAtTheirBank : Prop :=
  ∀ (id : OpId) (idx : Nat) (o : Op) (s : State) (a : Word) (n : Nat) (data : List Byte) (q : StQual) (c off : Nat) (cw : Bool),
    s.op? id = some o → Spec.present o → o.kind = .store a n data q → data.length = n → winOf o.pcn a = .bank c off cw →
    Spec.grants s o.job c off n false true → Memory.wf s.ms.mem = true →
    (q = .plain ∨ q = .sf ∧ Spec.looked s → s.poisonedPartly (bankKey c off) n = none →
      ∃ t, exec (.memoryWritePerform id idx) s = .next t ∧
        (∀ k, memGet t.ms.mem k = if bankKey c off ≤ k ∧ k < bankKey c off + n then data.getD (k - bankKey c off) 0
          else memGet s.ms.mem k) ∧
        t.ms = Spec.stored (s.noteOp o c off n true).ms t.ms.mem c off n (decide (q = .sf)) ∧
        { t with ms := s.ms } = Spec.performs (if q = .sf then Spec.feChanged s c else s) id o []) ∧
    (q = .nl ∨ q = .nh → n = 1 → (s.core c).halted = false →
      (∀ e ∈ s.ops, e.1 ≠ id → e.2.phase = .arrived → e.2.aux < o.aux → ∀ b m d w, e.2.kind = .store b m d w → w = .nl ∨ w = .nh →
        ∀ c' off' cw', winOf e.2.pcn b = .bank c' off' cw' → bankKey c' off' ≠ bankKey c off) →
      s.poisonedIn (bankKey c off) 1 = none →
      ∃ t, exec (.nibbleStoreStep id) s = .next t ∧
        (∀ k, memGet t.ms.mem k = if k = bankKey c off
          then (if q = .nl then BitVec.ofNat 8 ((memGet s.ms.mem k).toNat / 16 * 16 + (data.getD 0 0).toNat % 16)
            else BitVec.ofNat 8 ((memGet s.ms.mem k).toNat % 16 + (data.getD 0 0).toNat % 16 * 16))
          else memGet s.ms.mem k) ∧
        t.ms = Spec.stored ((s.correct (bankKey c off) 1).noteOp o c off 1 true).ms t.ms.mem c off 1 false ∧
        { t with ms := s.ms } = { Spec.performs (s.correct (bankKey c off) 1) id o [] with ms := s.ms }) ∧
    (q = .nl ∨ q = .nh → (∃ e ∈ s.ops, e.1 ≠ id ∧ e.2.phase = .arrived ∧ e.2.aux < o.aux ∧ ∃ b m d, (e.2.kind = .store b m d .nl ∨
        e.2.kind = .store b m d .nh) ∧ winOf e.2.pcn b = winOf o.pcn a) → exec (.nibbleStoreStep id) s = .next s)

/-- R102, R107, R108, R109: a load that waits alone at its bank looks at the end of the bank cycle in which bits of the bank changed, that is
before the first step of a later cycle: with all its granules full it performs with the bytes as they then stand, and LDX.WFC empties the
granules again; while a granule is empty it waits on. -/
def Sys2Proof.Spec.WaitingLoadsWake : Prop :=
  ∀ (w : OpId) (ow : Op) (s t : State) (b : Word) (m : Nat) (dst : Reg) (sx : Bool) (q : LdQual) (c off : Nat) (cw : Bool),
    ((s.schedule = [] ∧ s.autoStep = .next t) ∨ ∃ p l, s.schedule = .issue p :: l ∧ p < 65536 ∧ s.stepCore p = .next t) →
    s.looks = [c] → s.lookAt < t.now → s.waitersAt c = [w] → s.op? w = some ow → ow.kind = .load b m dst sx q →
    ow.tok ≠ none → ow.counted = true → ow.jidx = none → winOf ow.pcn b = .bank c off cw →
    ((∃ g ∈ granules (bankKey c off) m, g ∉ s.ms.full) → step s = .next { s with looks := [] }) ∧
    ((∀ g ∈ granules (bankKey c off) m, g ∈ s.ms.full) → (∀ g ∈ granules (bankKey c off) m, g ∉ s.ms.poison) →
      ∃ v, step s = .next v ∧ v.schedule = s.schedule ∧ v.looks = [] ∧ v.ms.mem = s.ms.mem ∧
        v.ms.full = (if q = .wfc then (granules (bankKey c off) m).foldl setDel s.ms.full else s.ms.full) ∧
        ∃ x, v.op? w = some x ∧ x.result = Spec.bytes s (bankKey c off) m ∧ (x.phase = .performed ∨ x.phase = .returning true))

/-- The value that an atomic writes (R310), none when ACAS finds another value than it compares with. -/
def Sys2Proof.Spec.atomic (k : AtomOp) (n old v nv : Nat) : Option Nat :=
  match k with
  | .add => some ((old + v) % 256 ^ n)
  | .and => some (old &&& v)
  | .or => some (old ||| v)
  | .xor => some (old ^^^ v)
  | .min => some (if Int.bmod v (256 ^ n) < Int.bmod old (256 ^ n) then v else old)
  | .max => some (if Int.bmod old (256 ^ n) < Int.bmod v (256 ^ n) then v else old)
  | .minu => some (if v < old then v else old)
  | .maxu => some (if old < v then v else old)
  | .swp => some v
  | .cas => if old = v then some nv else none

/-- R24, R88, R104, R111, R130, R146, R203, R310, R311: an atomic at a bank reads the old value, writes the new one in the same step, and
performs with the old value (an ACAS that writes nothing is recorded as a read); an access of another job's bank, of a DARK core, without the
right, or of a poisoned granule fails with its REASON and changes no memory. -/
def Sys2Proof.Spec.AtomicsPerformAtTheirBank : Prop :=
  ∀ (id : OpId) (o : Op) (s : State) (k : AtomOp) (a : Word) (n : Nat) (v nv : Word) (d : GReg) (c off : Nat) (cw : Bool),
    s.op? id = some o → Spec.present o → o.kind = .atom k a n v nv d → (n = 4 ∨ n = 8) → winOf o.pcn a = .bank c off cw →
    (s.core c).halted = false → v.toNat < 256 ^ n → nv.toNat < 256 ^ n → Memory.wf s.ms.mem = true →
    (Spec.grants s o.job c off n true true → s.poisonedIn (bankKey c off) n = none →
      ∃ t, exec (.atomicStep id) s = .next t ∧
        (∀ x, memGet t.ms.mem x = match Spec.atomic k n (Spec.number s (bankKey c off) n) v.toNat nv.toNat with
          | some w => if bankKey c off ≤ x ∧ x < bankKey c off + n then BitVec.ofNat 8 (w / 256 ^ (x - bankKey c off))
            else memGet s.ms.mem x
          | none => memGet s.ms.mem x) ∧
        t.ms = (if Spec.atomic k n (Spec.number s (bankKey c off) n) v.toNat nv.toNat = none
          then ((s.correct (bankKey c off) n).noteOp o c off n false).ms
          else Spec.stored ((s.correct (bankKey c off) n).noteOp o c off n true).ms t.ms.mem c off n false) ∧
        { t with ms := s.ms } =
          { Spec.performs (s.correct (bankKey c off) n) id o (Spec.bytes s (bankKey c off) n) with ms := s.ms }) ∧
    ((s.core c).status ≠ .scrub → s.owner (c / 8) ≠ o.job → exec (.atomicStep id) s = .next (Spec.fails s id o 0x05 a)) ∧
    (s.owner (c / 8) = o.job → (s.core c).status = .dark → exec (.atomicStep id) s = .next (Spec.fails s id o 0x06 a)) ∧
    (s.owner (c / 8) = o.job → (s.core c).status = .live → (s.lmpuOk c off n false && s.lmpuOk c off n true) = false →
      exec (.atomicStep id) s = .next (Spec.fails s id o 0x02 a)) ∧
    (Spec.grants s o.job c off n true true → ∀ g, s.poisonedIn (bankKey c off) n = some g →
      exec (.atomicStep id) s = .next (Spec.fails s id o 0x09 (a + BitVec.ofNat 64 (g * 16) - BitVec.ofNat 64 (bankKey c off))))

/-- The global accesses of an operation: its address, its bytes, what it asks of its page, and the step that makes it. -/
def Sys2Proof.Spec.globalAsk : OpKind → Option (Word × Nat × Ask × (OpId → Instr))
  | .load a n _ _ .plain => some (a, n, ⟨true, false, false, true⟩, (.memoryReadPerform · 0))
  | .store a n _ .plain => some (a, n, ⟨false, true, false, true⟩, (.memoryWritePerform · 0))
  | .atom _ a n _ _ _ => some (a, n, ⟨true, true, true, true⟩, .atomicStep)
  | .chunk a _ => some (a, 32, ⟨true, true, true, false⟩, .chunkStep)
  | .join a => some (a, 16, ⟨true, true, true, false⟩, .groupJoinStep)
  | .leave a => some (a, 16, ⟨true, true, true, false⟩, .groupLeaveStep)
  | _ => none

/-- A page that no migration holds, whose walk need not wait, and whose leaf at the home of an address is `e`. -/
abbrev Sys2Proof.Spec.leaf (s : State) (tag : Nat) (a : Word) (e : Option Word) : Prop :=
  s.pageMoving tag a = false ∧ s.walkWaits (sliceNo (tag / 512) a) tag (s.job tag).ptRoot a = false ∧
  s.leafAt (sliceNo (tag / 512) a) tag (s.job tag).ptRoot a = e

/-- The owner and the physical address that a leaf gives (R124). -/
def Sys2Proof.Spec.ownerOf (e : Word) : Nat := e.toNat / 2 ^ 9 % 16
def Sys2Proof.Spec.paOf (e a : Word) : Nat := e.toNat / 2 ^ 16 % 2 ^ 36 * 65536 + a.toNat % 65536

/-- The rights at a page (R112, R125, R235, R237, R429 at 3): not both CLEAR and SEALED; a confidential job's page is one of the two and
its window has SEAL = 1; such a page of a die lies in its tagged region; L1 = 1 has no W; the leaf gives the rights; and the entry `w` of
the access tables lets the access pass. -/
abbrev Sys2Proof.Spec.allows (s : State) (tag : Nat) (a : Word) (n : Nat) (q : Ask) (e : Word) (w : AccessEntry) : Prop :=
  ¬ (e.getLsbD 8 = true ∧ e.getLsbD 7 = true) ∧
  ((s.job tag).conf = true → (e.getLsbD 8 = true ∨ e.getLsbD 7 = true) ∧ w.w1.getLsbD 38 = true) ∧
  (Spec.ownerOf e < 8 → e.getLsbD 8 = true ∨ e.getLsbD 7 = true →
    (s.die (Spec.ownerOf e)).tagLo.toNat ≤ Spec.paOf e a ∧ Spec.paOf e a + n ≤ (s.die (Spec.ownerOf e)).tagHi.toNat) ∧
  ¬ (e.getLsbD 5 = true ∧ e.getLsbD 4 = true) ∧ (q.rd = true → e.getLsbD 3 = true) ∧ (q.wr = true → e.getLsbD 4 = true) ∧
  s.jobEntry tag (Spec.ownerOf e) (Spec.paOf e a) n a q.rd q.wr = some w

/-- R115, R121, R125, R126, R234, R235, R237, R429: a global access whose walk finds no page fails with REASON 0x01; one that its page, a
confidential job's rules or the access tables do not allow with 0x02; a slice operation on a page that is not CLEAR with 0x03, and on the
host's, or on another die's that may not be forwarded, with 0x04; none of them changes memory. The home of an address is the fold of its bits,
and a walked leaf enters its slice's TLB. -/
def Sys2Proof.Spec.TranslationChecks : Prop :=
  (∀ (id : OpId) (o : Op) (s : State) (a : Word) (n : Nat) (q : Ask) (step : OpId → Instr), s.op? id = some o → Spec.present o →
    Spec.globalAsk o.kind = some (a, n, q, step) → (∀ b off cw, winOf o.pcn a ≠ .bank b off cw) →
    (Spec.leaf s o.job a none → exec (step id) s = .next (Spec.fails s id o 0x01 a)) ∧
    (∀ e, Spec.leaf s o.job a (some e) → (∀ w, ¬ Spec.allows s o.job a n q e w) →
      exec (step id) s = .next (Spec.fails s id o 0x02 a)) ∧
    (∀ e w, Spec.leaf s o.job a (some e) → Spec.allows s o.job a n q e w → q.sliceOp = true →
      (e.getLsbD 8 = false → exec (step id) s = .next (Spec.fails s id o 0x03 a)) ∧
      (e.getLsbD 8 = true → Spec.ownerOf e = 8 ∨ (Spec.ownerOf e ≠ o.job / 512 ∧ q.fwd = false) →
        exec (step id) s = .next (Spec.fails s id o 0x04 a)))) ∧
  (∀ (a : Word) (i : Nat), i < 6 → ((homeOf a).testBit i =
    ((((((((a.getLsbD (9 + i)).xor (a.getLsbD (15 + i))).xor (a.getLsbD (21 + i))).xor (a.getLsbD (27 + i))).xor (a.getLsbD (33 + i))).xor
      (a.getLsbD (39 + i))).xor (a.getLsbD (45 + i))).xor (decide (i = 0) && a.getLsbD 51)))) ∧
  ∀ (s : State) (sl tag : Nat) (root a e : Word), s.walk (sl / 64) root a = some e → s.tlbHit sl tag a = false →
    (s.fab.tlb.filter fun t => decide (t.slice = sl)).length < 2048 →
    s.tlbFill sl tag root a = { s with fab := { s.fab with tlb := s.fab.tlb ++ [⟨sl, tag, a.toNat / 65536, e⟩] } }

/-- The home serves an access at a key: it is the own die's page at its home, or the request is at the owner; the sectors are present, and
nothing is refused, held or being filled there (R117, R118, R149). -/
abbrev Sys2Proof.Spec.servesLine (s : State) (o : Op) (a : Word) (e : Word) (n : Nat) : Prop :=
  ((o.phase = .arrived ∧ Spec.ownerOf e = o.job / 512) ∨ o.phase = .atOwner (Spec.ownerOf e)) ∧
  (Spec.ownerOf e < 8 → s.isResident (sliceNo (Spec.ownerOf e) a) (ownerKey (Spec.ownerOf e) (Spec.paOf e a)) n = true ∧
    s.fab.refusals = [] ∧ s.hub.held = [] ∧
    ∀ f ∈ s.fab.fills, f.slice ≠ sliceNo (Spec.ownerOf e) a ∨ f.line ≠ ownerKey (Spec.ownerOf e) (Spec.paOf e a) / 512 * 512)

/-- No sector of an object on a CLEAR page holds sealed data; the tags that it holds are GMAC tags (R236). -/
abbrev Sys2Proof.Spec.plain (s : State) (key n : Nat) : Prop :=
  ∀ x ∈ sectors key n, ∀ z, mapGet? s.ms.seals x = some z → z.clear = true

/-- The state once the home has translated an address (R121). -/
def Sys2Proof.Spec.walked (s : State) (tag : Nat) (a : Word) : State :=
  s.tlbFill (sliceNo (tag / 512) a) tag (s.job tag).ptRoot a

/-- R112, R117, R118, R121, R126, R127, R130, R236, R310, R366, R398: what a home does with an access that its page allows. A load reads its
bytes, of an L1 page through the core's L1, which keeps the line it read; a store writes them, and the slice's sectors become dirty; an
atomic on a CLEAR page reads the old value, writes the new one and tags the sector under its window's key. A line that is not present is
filled, and the request refused meanwhile. A page of another die, or of the host, is forwarded to its owner, and the counter that its leaf
names goes up. Of the model's own in it: log entries 2, 9, 11, 18. -/
def Sys2Proof.Spec.SliceAccessesPerform : Prop :=
  ∀ (id : OpId) (o : Op) (s : State) (a : Word) (n : Nat) (q : Ask) (step : OpId → Instr) (e : Word) (w : AccessEntry) (key : Nat),
    s.op? id = some o → Spec.present o → Spec.globalAsk o.kind = some (a, n, q, step) → (∀ b off cw, winOf o.pcn a ≠ .bank b off cw) →
    Spec.leaf s o.job a (some e) → Spec.ownerOf e ≤ 8 → Spec.allows s o.job a n q e w → key = ownerKey (Spec.ownerOf e) (Spec.paOf e a) →
    (∀ dst sx, o.kind = .load a n dst sx .plain → e.getLsbD 5 = false → Spec.servesLine s o a e n → s.poisonedIn key n = none →
      e.getLsbD 7 = false → (∀ x ∈ sectors key n, mapGet? s.ms.seals x = none) →
      exec (step id) s = .next (Spec.performs (Spec.walked s o.job a) id o (Spec.bytes s key n))) ∧
    (∀ dst sx l, o.kind = .load a n dst sx .plain → e.getLsbD 5 = true → (s.core o.pcn).l1fuse = false →
      (s.core o.pcn).l1.find? (fun l => decide (l.job = o.job) && decide (l.addr = a.toNat / 64)) = some l →
      exec (step id) s = .next (Spec.performs { s with cores := mapSet s.cores o.pcn { s.core o.pcn with
        l1 := (s.core o.pcn).l1.erase l ++ [l] } } id o ((l.data.drop (a.toNat % 64)).take n))) ∧
    (∀ dst sx b k, o.kind = .load a n dst sx .plain → e.getLsbD 5 = true → (s.core o.pcn).l1fuse = false →
      (∀ l ∈ (s.core o.pcn).l1, l.job = o.job → l.addr ≠ a.toNat / 64) → a.toNat % 64 + n ≤ 64 → b = a - BitVec.ofNat 64 (a.toNat % 64) →
      k = key - a.toNat % 64 → Spec.allows s o.job b 64 q e w → Spec.servesLine s o b e 64 → s.poisonedIn k 64 = none →
      e.getLsbD 7 = false → (∀ x ∈ sectors k 64, mapGet? s.ms.seals x = none) →
      ((s.core o.pcn).l1.filter fun l => decide (l.addr % 64 = a.toNat / 64 % 64)).length < 8 →
      exec (step id) s = .next (Spec.performs { Spec.walked s o.job b with cores := mapSet s.cores o.pcn { s.core o.pcn with
        l1 := (s.core o.pcn).l1 ++ [⟨o.job, a.toNat / 64, Spec.bytes s k 64⟩] } } id o (Spec.bytes s key n))) ∧
    (∀ data, o.kind = .store a n data .plain → data.length = n → Spec.servesLine s o a e n → s.ms.poison = [] → e.getLsbD 7 = false →
      e.getLsbD 8 = false → (∀ x ∈ sectors key n, mapGet? s.ms.seals x = none) → s.fab.watches = [] → Memory.wf s.ms.mem = true →
      ∃ t, exec (step id) s = .next t ∧
        (∀ k, memGet t.ms.mem k = if key ≤ k ∧ k < key + n then data.getD (k - key) 0 else memGet s.ms.mem k) ∧
        t = Spec.performs { Spec.walked s o.job a with
          ms := { s.ms with mem := t.ms.mem }
          fab := { (Spec.walked s o.job a).fab with resident := s.fab.resident.map fun l => l.soil key n } } id o []) ∧
    (∀ k v nv d, o.kind = .atom k a n v nv d → (n = 4 ∨ n = 8) → v.toNat < 256 ^ n → nv.toNat < 256 ^ n → e.getLsbD 8 = true →
      Spec.ownerOf e < 8 → Spec.servesLine s o a e n → s.ms.poison = [] → Spec.rising s.ms.seals →
      Spec.plain s key n → s.fab.watches = [] → Memory.wf s.ms.mem = true →
      (Spec.atomic k n (Spec.number s key n) v.toNat nv.toNat = none →
        exec (step id) s = .next (Spec.performs (Spec.walked s o.job a) id o (Spec.bytes s key n))) ∧
      (∀ new, Spec.atomic k n (Spec.number s key n) v.toNat nv.toNat = some new →
        ∃ t, exec (step id) s = .next t ∧
          (∀ x, memGet t.ms.mem x = if key ≤ x ∧ x < key + n then BitVec.ofNat 8 (new / 256 ^ (x - key)) else memGet s.ms.mem x) ∧
          (∀ x, mapGet? t.ms.seals x =
            if x ∈ sectors key n then some ⟨true, s.winInst w, 0, false⟩ else mapGet? s.ms.seals x) ∧
          t = Spec.performs { Spec.walked s o.job a with
            ms := { s.ms with mem := t.ms.mem, seals := t.ms.seals }
            fab := { (Spec.walked s o.job a).fab with resident := s.fab.resident.map fun l => l.soil key n } } id o
              (Spec.bytes s key n))) ∧
    (e.getLsbD 5 = false ∨ q.wr = true → o.phase = .arrived → Spec.ownerOf e = o.job / 512 → q.sliceOp = false → n < 64 →
      s.isResident (sliceNo (o.job / 512) a) key n = false → s.fab.refusals = [] → s.hub.held = [] →
      (∀ f ∈ s.fab.fills, f.slice ≠ sliceNo (o.job / 512) a ∨ f.line ≠ key / 512 * 512) →
      ∃ t x h, exec (step id) s = .next t ∧ t.ms = s.ms ∧ t.threads = s.threads ∧
        t.fab.fills = s.fab.fills ++ [⟨s.nextId, sliceNo (o.job / 512) a, ⟨e.getLsbD 8, s.winInst w, o.job⟩, none, 0, e, key / 512 * 512,
          none, []⟩] ∧
        t.fab.refusals = [⟨sliceNo (o.job / 512) a, key / 512 * 512, id, s.now + max h 1 * 4⟩] ∧
        t.op? id = some { o with phase := x } ∧ (x = .returning false ∨ ∃ c, x = .refused c)) ∧
    (e.getLsbD 5 = false ∨ q.wr = true → o.phase = .arrived → Spec.ownerOf e ≠ o.job / 512 → q.fwd = true →
      (q.sliceOp = true → e.getLsbD 8 = true ∧ Spec.ownerOf e < 8) → ∀ b,
      b = (match o.kind with | .store _ n _ _ => n | .atom _ _ n _ _ _ => 2 * n | _ => 0) → b ≤ 96 →
      ∃ t, exec (step id) s = .next t ∧ t.ms = s.ms ∧ t.threads = s.threads ∧
        t.op? id = some { o with phase := .onRing, sent := true } ∧
        (Spec.ownerOf e = 8 → t.fab.hubLink = s.fab.hubLink ++ [⟨s.nextId, o.job / 512, false, .req id⟩]) ∧
        (Spec.ownerOf e < 8 → t.fab.ring = s.fab.ring ++ [⟨s.nextId, s.now, o.job / 512, Spec.ownerOf e, o.job / 512, 1 + (b + 31) / 32,
          false, .vc0, .req id⟩]) ∧
        ∀ k, mapGet? (t.die (o.job / 512)).counters k =
          if o.sent = false ∧ e.toNat / 2 ^ 52 ≠ 0 ∧ k = homeOf a * 4096 + e.toNat / 2 ^ 52
          then some (let c := (mapGet? (s.die (o.job / 512)).counters k).getD 0; if c = 0xFFFFFFFF then c else c + 1)
          else mapGet? (s.die (o.job / 512)).counters k)

/-- R27, R102, R107, R352, R408: FESET and FECLR set or clear the full-empty bits of their run, whatever holds them, in one bank cycle, at whose
end the loads that wait at the bank look; TSHAPE writes the
territory's bitmap and performs with the tile count and epoch. -/
def Sys2Proof.Spec.FullEmptyAndShapeSteps : Prop :=
  ∀ (id : OpId) (idx : Nat) (o : Op) (s : State) (a : Word) (c off : Nat) (cw : Bool), s.op? id = some o → Spec.present o →
    winOf o.pcn a = .bank c off cw → Memory.wf s.ms.mem = true →
    (∀ m set, o.kind = .fe a m set → Spec.grants s o.job c off (16 * m) false true → Spec.looked s →
      exec (.memoryWritePerform id idx) s = .next (Spec.feChanged { Spec.performs s id o [] with ms := { s.ms with
        full := (granules (bankKey c off) (16 * m)).foldl (if set then setIns else setDel) s.ms.full } } c)) ∧
    (∀ d, o.kind = .tshape a d → o.tok ≠ none → Spec.grants s o.job c off 128 false true →
      ∃ t r, exec (.memoryWritePerform id idx) s = .next t ∧
        (∀ i, i < 1024 → ((memGet t.ms.mem (bankKey c off + i / 8)).getLsbD (i % 8) = true ↔
          ∃ x ∈ s.tilesOf o.job, x % 1024 = i)) ∧
        (∀ k, (k < bankKey c off ∨ bankKey c off + 128 ≤ k) → memGet t.ms.mem k = memGet s.ms.mem k) ∧
        t.ms = Spec.stored (s.noteOp o c off 128 true).ms t.ms.mem c off 128 false ∧
        leNat (r.take 2) = (s.tilesOf o.job).length % 65536 ∧ leNat ((r.drop 4).take 4) = (s.job o.job).epoch.toNat ∧
        { t with ms := s.ms } = Spec.performs s id o r)

/-- No access of agent `who` is on its way over the mesh, and the numbers of those that are have been given out. -/
abbrev Sys2Proof.Spec.noTrip (s : State) (who : Nat) : Prop := ∀ x ∈ s.fab.trips, x.who ≠ who ∧ x.id ≠ who ∧ x.id < s.nextId

/-- The one access of its agent on its way over the mesh. -/
abbrev Sys2Proof.Spec.onlyTrip (s : State) (x : Trip) : Prop := x ∈ s.fab.trips ∧ ∀ y ∈ s.fab.trips, y.who = x.who ∨ y.id = x.id → y = x

/-- An access of agent `who` sets out over the mesh: its request is a packet of a class from tile to tile (R214). -/
def Sys2Proof.Spec.setsOut (s : State) (who cls src dst : Nat) (a : Word) (n : Nat) (wr : Bool) : State :=
  { s with
    nextId := s.nextId + 2
    fab := { s.fab with
      trips := s.fab.trips ++ [⟨s.nextId, who, cls, src, dst, a, n, wr, .out⟩]
      mesh := s.fab.mesh ++ [⟨s.nextId + 1, s.nextId + 1, cls, src, [dst], src, .trip s.nextId⟩] } }

/-- The response of an access is on its way back to its agent (R214). -/
abbrev Sys2Proof.Spec.comesBack (t : State) (x : Trip) (cls : Nat) (r : TripRes) : Prop :=
  { x with stage := .back r } ∈ t.fab.trips ∧ ∃ i, ⟨i, i, cls, x.dst, [x.src], x.dst, .tripBack x.id⟩ ∈ t.fab.mesh

/-- The access of an agent is over. -/
def Sys2Proof.Spec.over (s : State) (x : Trip) : State :=
  { s with fab := { s.fab with trips := s.fab.trips.filter fun y => decide (y.id ≠ x.id) } }

/-- An access whose request has come to its home: within its agent's tile at once, from another as the only one of its agent. -/
abbrev Sys2Proof.Spec.atItsHome (s : State) (x : Trip) : Prop :=
  x.stage = .there ∧ ((x.src = x.dst ∧ x.id = x.who ∧ Spec.noTrip s x.who) ∨ (x.src ≠ x.dst ∧ Spec.onlyTrip s x))

/-- An access that was refused waits to be sent again after max(hint, 1) × 4 cycles (R118). -/
abbrev Sys2Proof.Spec.asksLater (t : State) (x : Trip) (i now h : Nat) : Prop :=
  { x with id := i, stage := .again (now + max h 1 * 4) } ∈ t.fab.trips

/-- A global object that its home serves: at `key`, under a leaf of a CLEAR page and a window of key instance `win`, with no bad sector,
and no thread watching it. `r` is the state after the translation and the look at its line. -/
abbrev Sys2Proof.Spec.servedAt (s : State) (id : OpId) (o : Op) (a : Word) (n : Nat) (q : Ask) (r : State) (key : Nat) (pte : Word)
    (win : Nat) : Prop :=
  (∀ b off cw, winOf o.pcn a ≠ .bank b off cw) ∧ s.serve id o a n q = .here r key pte win ∧
  r.sliceBad o.job a pte key n = none ∧ pteSealed pte = false ∧ pteClear pte = true ∧ key + n ≤ 2 ^ 57 ∧ Spec.rising s.ms.seals ∧
  Spec.plain s key n ∧ ∀ w ∈ s.fab.watches, key + n ≤ w.key ∨ w.key + w.n ≤ key

/-- A word of `n` bytes written at a key of a CLEAR page: its sectors take the tag of the window's key instance (R236), and those of a
line that a slice holds become dirty (R117). -/
def Sys2Proof.Spec.put (s : State) (win key n v : Nat) : State :=
  { s with
    ms := { s.ms with
      mem := memWrite s.ms.mem key (leBytes n v)
      seals := (sectors key n).foldl (fun z x => mapSet z x ⟨true, win, 0, false⟩) s.ms.seals }
    fab := { s.fab with resident := s.fab.resident.map fun l => l.soil key n } }

/-- R62, R64, R326, R359: CHUNK hands out the next range of its loop; JOIN adds a member to a group; LEAVE takes one off, and releases
the generation when every member left has arrived. -/
def Sys2Proof.Spec.LoopAndGroupSteps : Prop :=
  ∀ (id : OpId) (o : Op) (s r : State) (a : Word) (n key : Nat) (pte : Word) (win : Nat) (wd : Nat → Nat), s.op? id = some o →
    Spec.present o → Spec.servedAt s id o a n ⟨true, true, true, false⟩ r key pte win → wd = (fun i => Spec.number s (key + 4 * i) 4) →
    (∀ d next stop mn dv, o.kind = .chunk a d → n = 32 → next = Spec.number s key 8 → stop = Spec.number s (key + 8) 8 →
      mn = Spec.number s (key + 16) 8 → dv = Spec.number s (key + 24) 8 → dv ≠ 0 → ∀ count,
      count = min (stop - next) (max (max mn 1) ((stop - next) / dv)) →
      exec (.chunkStep id) s = .next (Spec.performs (Spec.put r win key 8 (next + count)) id o (leBytes 8 next ++ leBytes 8 count))) ∧
    (o.kind = .join a → n = 16 → wd 0 ≠ 2 ^ 32 - 1 →
      exec (.groupJoinStep id) s = .next (Spec.performs (Spec.put r win key 4 (wd 0 + 1)) id o [])) ∧
    (o.kind = .leave a → n = 16 → wd 0 ≠ 0 → (wd 1 = 0 ∨ wd 1 < wd 0 - 1) →
      exec (.groupLeaveStep id) s = .next (Spec.performs (Spec.put r win key 4 (wd 0 - 1)) id o [])) ∧
    (o.kind = .leave a → n = 16 → wd 0 ≠ 0 → wd 1 ≠ 0 → wd 0 - 1 ≤ wd 1 →
      exec (.groupLeaveStep id) s = .next (Spec.performs (Spec.put (Spec.put (Spec.put r win key 4 (wd 0 - 1)) win (key + 4) 4 0) win (key + 8) 4
        ((wd 2 + 1) % 2 ^ 32)) id o []))

/-- The address key, the leaf and the state in which a GBAR's home serves it; `who` is the number under which it asks there. -/
abbrev Sys2Proof.Spec.groupAt (s : State) (u : Uid) (who : Nat) (a : Word) (key : Nat) (pte : Word) (r : State) : Prop :=
  (∃ pa e owner, s.xlat (s.thread u).job a 16 ⟨true, true, true, false⟩ = .ok owner pa pte e ∧ key = ownerKey owner pa ∧
    (s.tlbFill (sliceNo (tagDie (s.thread u).job) a) (s.thread u).job (s.job (s.thread u).job).ptRoot a).lineGate
      (sliceNo (tagDie (s.thread u).job) a) key 16 who pte (s.winInst e) (masterJob (s.thread u).job) false = .serve r) ∧
  r.sliceBad (s.thread u).job a pte key 16 = none ∧ pteSealed pte = false ∧ pteClear pte = true ∧ Spec.plain s key 16

/-- An instruction of thread `u` that is blocked at address `a` traps ASYNC: TVAL is the address, and FPC and FADDR name its own failure (R62,
R195). -/
abbrev Sys2Proof.Spec.trapsAsync (s t : State) (u : Uid) (a : Word) (reason : Nat) : Prop :=
  (t.thread u).cause = 0x0A ∧ (t.thread u).tval = a ∧ (t.thread u).pc = (s.job (s.thread u).job).trapVec ∧
  (t.thread u).fPc = BitVec.ofNat 64 (reason * 2 ^ 52 + (s.thread u).trapPoint.toNat % 2 ^ 52) ∧ (t.thread u).fAddr = a ∧
  (t.thread u).inHandler = true ∧ (t.thread u).status = .ready ∧ t.ms = s.ms

/-- R62, R63, R214, R357: a GBAR's request goes to its group's home once every earlier operation of its thread has performed, and its response
comes back. There the last member to arrive releases the group: ARRIVED is 0, GEN advances, and it goes on with every member that is parked
on the old generation; an earlier one parks and gives up its slot; one too many traps ASYNC with REASON 0x08. -/
def Sys2Proof.Spec.BarrierSteps : Prop :=
  ∀ (u : Uid) (s : State) (a : Word) (T H : Nat), (s.thread u).status = .waiting (.gbar a) → T = (s.thread u).pcn / 8 →
    H = homeTile (s.thread u).pcn a → s.jobFlushed (s.thread u).job = false →
    ((∃ e ∈ s.ops, e.2.uid = u ∧ e.2.counted = false) → exec (.gbarArrival u) s = .next s) ∧
    ((∀ e ∈ s.ops, e.2.uid = u → e.2.counted = true) →
      (T ≠ H → Spec.noTrip s u → exec (.gbarArrival u) s = .next (Spec.setsOut s u 0 T H a 16 true)) ∧
      (∀ x, Spec.onlyTrip s x → x = ⟨x.id, u, 0, T, H, a, 16, true, x.stage⟩ →
        (x.stage = .out ∨ (∃ r, x.stage = .back r) → exec (.gbarArrival u) s = .next s) ∧
        (∀ d, x.stage = .done (.ok d) → exec (.gbarArrival u) s = .next ((Spec.over s x).modThread u fun t =>
          { t with pc := t.pc + 4, pfx := none, status := .ready, readySince := s.now })) ∧
        (∀ b k, x.stage = .done (.fail b k) → (s.job (s.thread u).job).trapVec ≠ 0 → (s.thread u).inHandler = false →
          ∃ t, exec (.gbarArrival u) s = .next t ∧ Spec.trapsAsync s t u a b.toNat)) ∧
      ∀ (who : Nat) (x : Trip) (r : State) (key : Nat) (pte : Word) (wd : Nat → Nat), x = ⟨who, u, 0, T, H, a, 16, true, .there⟩ →
        Spec.atItsHome s x → Spec.groupAt s u who a key pte r →
        Memory.wf s.ms.mem = true → wd = (fun i => Spec.number s (key + 4 * i) 4) → (∀ w ∈ s.fab.watches, w.uid ≠ u) →
        (wd 0 = wd 1 + 1 →
          ∃ t, exec (.gbarArrival u) s = .next t ∧ Spec.number t (key + 4) 4 = 0 ∧ Spec.number t (key + 8) 4 = (wd 2 + 1) % 2 ^ 32 ∧
            (∀ x, (x < key + 4 ∨ key + 12 ≤ x) → memGet t.ms.mem x = memGet s.ms.mem x) ∧
            (T = H → (t.thread u).status = .ready ∧ (t.thread u).pc = (s.thread u).pc + 4 ∧ (t.thread u).g = (s.thread u).g) ∧
            (T ≠ H → t.thread u = s.thread u ∧ Spec.comesBack t x 2 (.ok [])) ∧
            ∀ w ∈ s.fab.watches, w.key = key + 8 → w.n = 4 → w.cond = none → w.value = BitVec.ofNat 64 (wd 2) →
              ((s.thread w.uid).status = .parked → (t.thread w.uid).status = .ready) ∧
              ∀ q, (s.thread w.uid).status = .migrating q .parked → (t.thread w.uid).status = .migrating q .ready) ∧
        (wd 1 + 1 < wd 0 → r.watchCount (sliceNo (tagDie (s.thread u).job) a) < 256 →
          (∀ w ∈ s.fab.watches, key + 16 ≤ w.key ∨ w.key + w.n ≤ key ∨ (w.key = key + 8 ∧ w.cond = none ∧ w.n = 4)) →
          ∃ t, exec (.gbarArrival u) s = .next t ∧ Spec.number t (key + 4) 4 = wd 1 + 1 ∧
            (∀ x, (x < key + 4 ∨ key + 8 ≤ x) → memGet t.ms.mem x = memGet s.ms.mem x) ∧
            (t.thread u).status = .parked ∧ (t.thread u).slot = none ∧ (t.thread u).pc = (s.thread u).pc + 4 ∧
            (∀ x ∈ t.fab.trips, x.who ≠ u) ∧ t.fab.watches = s.fab.watches ++
              [⟨sliceNo (tagDie (s.thread u).job) a, key + 8, 4, none, BitVec.ofNat 64 (wd 2), u, none⟩]) ∧
        (wd 0 ≤ wd 1 →
          (T ≠ H → ∃ t, exec (.gbarArrival u) s = .next t ∧ t.ms = s.ms ∧ t.thread u = s.thread u ∧
            Spec.comesBack t x 2 (.fail 0x08 a)) ∧
          (T = H → (s.job (s.thread u).job).trapVec ≠ 0 → (s.thread u).inHandler = false →
            ∃ t, exec (.gbarArrival u) s = .next t ∧ Spec.trapsAsync s t u a 0x08)))

/-- WATCH's test (R65). -/
def Sys2Proof.Spec.watchHolds (c : WCond) (n x v : Nat) : Bool :=
  match c with
  | .eq => decide (x = v) | .ne => decide (x ≠ v) | .ltu => decide (x < v) | .geu => decide (v ≤ x)
  | .lt => decide (Int.bmod x (256 ^ n) < Int.bmod v (256 ^ n)) | .ge => decide (Int.bmod v (256 ^ n) ≤ Int.bmod x (256 ^ n))

/-- R65, R66, R424: a WATCH whose test holds on arrival performs and its thread goes on; otherwise the thread parks in a watch entry of
the slice and gives up its slot. -/
def Sys2Proof.Spec.WatchArrivals : Prop :=
  ∀ (id : OpId) (o : Op) (s r : State) (a : Word) (n key : Nat) (c : WCond) (v pte : Word), s.op? id = some o → Spec.present o →
    o.kind = .watch a n c v → (n = 4 ∨ n = 8) → v.toNat < 256 ^ n → o.tok = none → o.jidx = none →
    (∃ win, s.serve id o a n ⟨true, false, true, false⟩ = .here r key pte win) → r.sliceBad o.job a pte key n = none →
    Spec.plain s key n →
    (Spec.watchHolds c n (Spec.number s key n) v.toNat = true →
      exec (.watchArrival id) s = .next ((Spec.performs r id o []).modThread o.uid fun t =>
        { t with pc := t.pc + 4, pfx := none, status := .ready, readySince := s.now })) ∧
    (Spec.watchHolds c n (Spec.number s key n) v.toNat = false → r.watchCount (sliceNo (tagDie o.job) a) < 256 →
      ∃ t, exec (.watchArrival id) s = .next t ∧ t.op? id = some { o with phase := .waiting } ∧
        (t.thread o.uid).status = .parked ∧ (t.thread o.uid).slot = none ∧ (t.thread o.uid).pc = (s.thread o.uid).pc + 4 ∧
        (t.thread o.uid).g = (s.thread o.uid).g ∧ t.ms = s.ms ∧
        t.fab.watches = s.fab.watches ++ [⟨sliceNo (tagDie o.job) a, key, n, some c, v, o.uid, some id⟩])

/-! ## Requests, fills and the ring -/

/-- At a router, no request and no packet waits that was sent earlier in the same class from the same tile to the same one (R214). -/
abbrev Sys2Proof.Spec.nothingAhead (s : State) (at_ cls src seq dst : Nat) : Prop :=
  (∀ q ∈ s.fab.mesh, q.seq < seq → q.at_ = at_ → q.cls = cls → q.src = src → dst ∉ q.dsts) ∧
  ∀ e ∈ s.ops, ∀ d x y, e.2.phase = .travel d x y → e.2.aux < seq → d * 1024 + y * 32 + x = at_ → e.2.packetClass = cls →
    e.2.pcn / 8 = src → e.2.goal ≠ dst

/-- The next router from one tile to another of its die: along x and then along y (R214). -/
def Sys2Proof.Spec.towards (at_ dst : Nat) : Nat :=
  if at_ % 32 < dst % 32 then at_ + 1 else if dst % 32 < at_ % 32 then at_ - 1 else if at_ < dst then at_ + 32 else at_ - 32

/-- R135, R214, R118: an operation leaves the ordering queue when every earlier operation on its stream, or on one that its mask names,
has been counted; its packet goes along x and then along y, in order; a refused request goes again when its hint has passed. -/
def Sys2Proof.Spec.RequestsTravelToTheirHomes : Prop :=
  ∀ (id : OpId) (o : Op) (s : State) (gx gy : Nat), s.op? id = some o → gx = o.goal % 32 → gy = o.goal / 32 % 32 →
    (o.phase = .queued → o.strm ≠ none → o.kind.isEngine = false → s.jobFlushed o.job = false →
      ((∀ e ∈ s.ops, e.1 < id → e.2.uid = o.uid → e.2.inShadow = o.inShadow → e.2.counted = false → ∀ k, e.2.strm = some k →
          some k ≠ o.strm ∧ o.mask.getLsbD k.val = false) →
        exec (.orderingQueueRelease id) s = .next { s with
          nextId := s.nextId + 1
          ops := mapSet s.ops id { o with
            aux := s.nextId
            phase := if o.goal = o.pcn / 8 then .arrived else .travel (o.pcn / 8192) (o.pcn / 8 % 32) (o.pcn / 256 % 32) } }) ∧
      ((∃ e ∈ s.ops, e.1 < id ∧ e.2.uid = o.uid ∧ e.2.inShadow = o.inShadow ∧ e.2.counted = false ∧ ∃ k, e.2.strm = some k ∧
          (some k = o.strm ∨ o.mask.getLsbD k.val = true)) →
        exec (.orderingQueueRelease id) s = .next s)) ∧
    (∀ x y n, o.phase = .travel (o.goal / 1024) x y → x < 32 → y < 32 → (x, y) ≠ (gx, gy) →
      Spec.nothingAhead s (o.goal / 1024 * 1024 + y * 32 + x) o.packetClass (o.pcn / 8) o.aux o.goal →
      n = Spec.towards (o.goal / 1024 * 1024 + y * 32 + x) o.goal →
      exec (.meshPacketHop id) s = .next (if n = o.goal
        then { s with nextId := s.nextId + 1, ops := mapSet s.ops id { o with phase := .arrived, aux := s.nextId } }
        else { s with ops := mapSet s.ops id { o with phase := .travel (o.goal / 1024) (n % 32) (n / 32 % 32) } })) ∧
    (∀ t, o.phase = .refused t → exec (.waitHintRetry id) s = .next (if t ≤ s.now then { s with
          nextId := s.nextId + 1
          ops := mapSet s.ops id { o with
            aux := s.nextId
            phase := if o.goal = o.pcn / 8 then .arrived else .travel (o.pcn / 8192) (o.pcn / 8 % 32) (o.pcn / 256 % 32) } } else s))

/-- What a response makes of its operation at the core that issued it (R88, R118). -/
def Sys2Proof.Spec.backPhase (now : Nat) : Back → Phase
  | .done => .performed
  | .fail r => .failed r
  | .retry h => .refused (now + max h 1 * 4)

/-- R118, R126, R214, R215, R218: the response of an operation that has performed, failed or been refused at its home is there at once within
its core's tile, and else travels: over the mesh in the response class (a DARK core's in the signal class), from another die's home over
the ring, a line of 512 bytes as eight packets of a sector, and from the host over the hub link. -/
def Sys2Proof.Spec.ResponsesTravel : Prop :=
  ∀ (s : State) (id : OpId) (o : Op) (b : Back), s.op? id = some o →
    (o.phase = .arrived →
      (o.goal = o.pcn / 8 → s.respond id o b = { s with ops := mapSet s.ops id { o with phase := Spec.backPhase s.now b } }) ∧
      (o.goal ≠ o.pcn / 8 → s.respond id o b = { s with
        nextId := s.nextId + 1
        ops := mapSet s.ops id { o with phase := .returning (b == .done) }
        fab := { s.fab with mesh := s.fab.mesh ++ [⟨s.nextId, s.nextId,
          (match b with | .fail r => if r.reason = 0x06 then 1 else 2 | _ => 2), o.goal, [o.pcn / 8], o.goal, .back id b⟩] } })) ∧
    (∀ d, o.phase = .atOwner d → d < 8 →
      (∀ a n dst sx q, o.kind = .load a n dst sx q → b = .done → ∃ t, s.respond id o b = t ∧
        t.op? id = some { o with phase := .returning true } ∧ ∃ l, t.fab.ring = s.fab.ring ++ l ∧ l.length = 8 ∧
        ∀ x ∈ l, x.flits = 3 ∧ x.src = d ∧ x.at_ = d ∧ x.dst = o.pcn / 8192 ∧ x.since = s.now ∧ x.msg = .back id b) ∧
      (b ≠ .done → s.respond id o b = { s with
        nextId := s.nextId + 1
        ops := mapSet s.ops id { o with phase := .returning false }
        fab := { s.fab with ring := s.fab.ring ++ [⟨s.nextId, s.now, d, o.pcn / 8192, d, 1, false, .vc0, .back id b⟩] } })) ∧
    (o.phase = .atOwner 8 → s.respond id o b = { s with
        nextId := s.nextId + 1
        ops := mapSet s.ops id { o with phase := .returning (b == .done) }
        fab := { s.fab with hubLink := s.fab.hubLink ++ [⟨s.nextId, o.pcn / 8192, true, .back id b⟩] } })

/-- What a packet does at the router of its destination: a response takes effect at its operation, or at the agent that is no operation; an
access has come to its home; a migrating thread that was refused asks again when its hint has passed, or is READY at its MIG (R70, R88, R118,
R214, R379). A migrating thread itself and a sector only are there. -/
def Sys2Proof.Spec.delivered (s : State) (m : Msg) : State :=
  match m with
  | .back id b =>
    match s.op? id with
    | some o => { s with ops := mapSet s.ops id { o with phase := Spec.backPhase s.now b } }
    | none => s
  | .trip id => { s with fab := { s.fab with trips := s.fab.trips.map fun t => if t.id = id then { t with stage := .there } else t } }
  | .tripBack id => { s with fab := { s.fab with trips := s.fab.trips.map fun t =>
      if t.id = id then (match t.stage with | .back r => { t with stage := .done r } | _ => t) else t } }
  | .migBack u h =>
    match mapGet? s.threads u, h with
    | none, _ => s
    | some t, some h => { s with threads := mapSet s.threads u { t with asks := true, notBefore := s.now + max h 1 * 4 } }
    | some t, none => { s with threads := mapSet s.threads u { t with
        status := .ready, readySince := s.now, pc := t.trapPoint, pfx := none, mgLoad := none } }
  | _ => s

/-- A packet sets out over the mesh, or is delivered at once within its tile. -/
def Sys2Proof.Spec.sends (s : State) (cls src dst : Nat) (m : Msg) : State :=
  if src = dst then Spec.delivered s m
  else { s with nextId := s.nextId + 1, fab := { s.fab with mesh := s.fab.mesh ++ [⟨s.nextId, s.nextId, cls, src, [dst], src, m⟩] } }

/-- R70, R188, R214, R298: a packet of the mesh makes one hop of its XY route behind no earlier one of its class, source and destination, and
takes effect at its end. A multicast packet is copied towards each branch of the route that has named tiles: a copy carries the tiles of its
branch that it has still to come to, and keeps its place among the packets sent. -/
def Sys2Proof.Spec.PacketsMove : Prop :=
  ∀ (s : State) (n : Nat) (p : MeshPkt), s.op? n = none → (∀ q ∈ s.fab.hubLink, q.id ≠ n) →
    s.fab.mesh.find? (fun q => decide (q.id = n)) = some p → (∀ D ∈ p.dsts, p.at_ / 1024 = D / 1024 ∧ p.at_ ≠ D) →
    ((∃ D ∈ p.dsts, ¬Spec.nothingAhead s p.at_ p.cls p.src p.seq D) → exec (.meshPacketHop n) s = .next s) ∧
    ((∀ D ∈ p.dsts, Spec.nothingAhead s p.at_ p.cls p.src p.seq D) →
      (∀ D, p.dsts = [D] → exec (.meshPacketHop n) s = .next (if Spec.towards p.at_ D = D
        then Spec.delivered { s with fab := { s.fab with mesh := s.fab.mesh.filter fun q => decide (q.id ≠ n) } } p.msg
        else { s with fab := { s.fab with
          mesh := (s.fab.mesh.filter fun q => decide (q.id ≠ n)) ++ [{ p with at_ := Spec.towards p.at_ D }] } })) ∧
      ((∃ d i, p.msg = .sector d i) →
        ∃ t l, exec (.meshPacketHop n) s = .next t ∧ t.fab.mesh = (s.fab.mesh.filter fun q => decide (q.id ≠ n)) ++ l ∧
          { t with fab := { t.fab with mesh := s.fab.mesh }, nextId := s.nextId } = s ∧ (l.map (·.at_)).Nodup ∧
          (∀ q ∈ l, q = { p with id := q.id, dsts := q.dsts, at_ := q.at_ } ∧ (q.id = n ∨ s.nextId ≤ q.id ∧ q.id < t.nextId) ∧
            q.dsts ≠ [] ∧ q.dsts = p.dsts.filter fun D => decide (Spec.towards p.at_ D = q.at_) && decide (D ≠ q.at_)) ∧
          ∀ D ∈ p.dsts, Spec.towards p.at_ D ≠ D → ∃ q ∈ l, D ∈ q.dsts))

/-- R118, R214: an access of an engine, a fetch, a redirected access, a GBAR or a pool's record at a home on another tile (`act` is what it does
there) sets out as a packet; it acts at its home when that has come; what it comes to there goes back as a packet of the response class, a
DARK core's in the signal class; within one tile it acts at once. A refused one is sent again when its hint has passed. -/
def Sys2Proof.Spec.AccessesOverTheMesh : Prop :=
  ∀ (s : State) (who cls src dst : Nat) (a : Word) (n : Nat) (wr : Bool) (act : Trip → State → AtHome),
    (src ≠ dst → Spec.noTrip s who → s.trip who cls src dst a n wr act = .wait (Spec.setsOut s who cls src dst a n wr)) ∧
    (src = dst → Spec.noTrip s who →
      (∀ t d, act ⟨who, who, cls, src, dst, a, n, wr, .there⟩ s = .ok t d → t.fab.trips = s.fab.trips →
        s.trip who cls src dst a n wr act = .ok t d) ∧
      (∀ t h, act ⟨who, who, cls, src, dst, a, n, wr, .there⟩ s = .retry t h →
        ∃ v, s.trip who cls src dst a n wr act = .wait v ∧ v.ms = t.ms ∧ v.threads = t.threads ∧
          Spec.asksLater v ⟨who, who, cls, src, dst, a, n, wr, .there⟩ t.nextId t.now h)) ∧
    ∀ x, Spec.onlyTrip s x → x = ⟨x.id, who, cls, src, dst, a, n, wr, x.stage⟩ → x.id ≠ who →
      (x.stage = .out ∨ (∃ r, x.stage = .back r) → s.trip who cls src dst a n wr act = .wait s) ∧
      (∀ m, x.stage = .again m →
        (s.now < m → s.trip who cls src dst a n wr act = .wait s) ∧
        (m ≤ s.now → src ≠ dst → s.trip who cls src dst a n wr act = .wait { s with
          nextId := s.nextId + 1
          fab := { s.fab with
            trips := (s.fab.trips.filter fun y => decide (y.id ≠ x.id)) ++ [{ x with stage := .out }]
            mesh := s.fab.mesh ++ [⟨s.nextId, s.nextId, cls, src, [dst], src, .trip x.id⟩] } })) ∧
      (∀ d, x.stage = .done (.ok d) → s.trip who cls src dst a n wr act = .ok (Spec.over s x) d) ∧
      (∀ b k, x.stage = .done (.fail b k) → s.trip who cls src dst a n wr act = .fail (Spec.over s x) b k) ∧
      (∀ h, x.stage = .done (.retry h) → ∃ v, s.trip who cls src dst a n wr act = .wait v ∧ v.ms = s.ms ∧ v.threads = s.threads ∧
        Spec.asksLater v x x.id s.now h) ∧
      (x.stage = .there → src ≠ dst →
        (∀ t d, act x s = .ok t d → ∃ v, s.trip who cls src dst a n wr act = .wait v ∧ v.ms = t.ms ∧ v.threads = t.threads ∧
          Spec.comesBack v x 2 (.ok d)) ∧
        (∀ t b k, act x s = .fail t b k → ∃ v, s.trip who cls src dst a n wr act = .wait v ∧ v.ms = t.ms ∧ v.threads = t.threads ∧
          Spec.comesBack v x (if b = 0x06 then 1 else 2) (.fail b k)) ∧
        (∀ t h, act x s = .retry t h → ∃ v, s.trip who cls src dst a n wr act = .wait v ∧ v.ms = t.ms ∧ v.threads = t.threads ∧
          Spec.comesBack v x 2 (.retry h)))

/-- R117, R236, R238, R239: a fill brings the sectors of its line that are not present, and poisons and logs those under a CLEAR page whose
tags are not their window's; the rest stands. It waits while the key sweep holds its line. -/
def Sys2Proof.Spec.FillsBringLines : Prop :=
  ∀ (n : Nat) (f : Fill) (s : State), s.fab.fills.find? (fun g => decide (g.id = n)) = some f → f.mcrd = none →
    (∀ r ∈ s.fab.resident, r.slice = f.slice → r.line = f.line → r.present ≠ 0) →
    (s.lineSwept f.line = false →
      ∃ t, exec (.lineFillArrival n) s = .next t ∧ t.presentAt f.slice f.line = 0xFF ∧
        t.fab.fills = s.fab.fills.filter (fun g => decide (g.id ≠ n)) ∧
        (∀ r ∈ s.fab.resident, r.slice ≠ f.slice ∨ r.line / 512 % 128 ≠ f.line / 512 % 128 → r ∈ t.fab.resident) ∧
        (∀ k, f.check.clear = true → k < 8 → (s.presentAt f.slice f.line).getLsbD k = false → f.line % 512 = 0 →
          ∀ z, mapGet? s.ms.seals (f.line / 64 + k) = some z → z.bad = true ∨ z.clear = false ∨ z.key ≠ f.check.inst →
          (f.line / 64 + k, f.check.master) ∈ t.lan.tagLog ∧ ∀ g, 4 * (f.line / 64 + k) ≤ g → g < 4 * (f.line / 64 + k) + 4 →
            g ∈ t.ms.poison) ∧
        (f.check.clear = false ∨ s.ms.seals = [] →
          t = { s with fab := { s.fab with resident := t.fab.resident, fills := t.fab.fills } })) ∧
    (s.lineSwept f.line = true → exec (.lineFillArrival n) s = .next s)

/-- R215, R216, R217, R126: a packet alone at its stop, come over the link whole, moves on in an adaptive slot while one is free, else in an
escape slot, where it stays; it changes to the second class when it passes from stop 7 to stop 0; with no slot, or while the link carries
flits of an earlier packet, it waits. Its last flit is at the next stop as many cycles later as it has flits. At its destination a request
leaves the ring for the ejection buffer. -/
def Sys2Proof.Spec.RingPacketsMove : Prop :=
  ∀ (n : Nat) (p : RingPkt) (s : State) (b : Bool) (left : List (Nat × Nat × RingClass × Nat)) (go : RingClass → State),
    s.fab.ring.find? (fun q => decide (q.id = n)) = some p → b = (p.crossed || decide (p.at_ = 7)) →
    left = (if p.at_ = p.src then s.fab.ringLeft
      else (s.now, p.at_, p.cls, p.flits) :: s.fab.ringLeft.filter fun x => decide (x.1 = s.now)) →
    go = (fun c => { s with fab := { s.fab with
      ringLeft := left
      ring := s.fab.ring.map fun q =>
        if q.id = n then { q with at_ := (p.at_ + 1) % 8, crossed := b, cls := c, since := s.now + p.flits } else q } }) →
    (p.at_ ≠ p.dst → (∀ q ∈ s.fab.ring, q.at_ = p.at_ → q = p) → p.at_ = p.src ∨ p.since ≤ s.now → s.linkBusy p.at_ = false →
      (p.at_ = p.src ∨ p.cls = .vc0 ∨ p.cls = .vc1 →
        (p.flits ≤ s.ringFree ((p.at_ + 1) % 8) .vc0 → exec (.ringHop n) s = .next (go (if b then .vc1 else .vc0))) ∧
        (s.ringFree ((p.at_ + 1) % 8) .vc0 < p.flits → p.flits ≤ s.ringFree ((p.at_ + 1) % 8) (if b then .e1 else .e0) →
          exec (.ringHop n) s = .next (go (if b then .e1 else .e0)))) ∧
      (p.at_ ≠ p.src → p.cls = .e0 ∨ p.cls = .e1 → p.flits ≤ s.ringFree ((p.at_ + 1) % 8) (if b then .e1 else .e0) →
        exec (.ringHop n) s = .next (go (if b then .e1 else .e0)))) ∧
    (s.ringFree ((p.at_ + 1) % 8) .vc0 < p.flits → s.ringFree ((p.at_ + 1) % 8) (if b then .e1 else .e0) < p.flits →
      exec (.ringHop n) s = .next s) ∧
    (s.linkBusy p.at_ = true → exec (.ringHop n) s = .next s) ∧
    (p.at_ = p.dst → p.at_ = p.src ∨ p.since ≤ s.now → (∀ q ∈ s.fab.ring, q.msg = p.msg → q.id = n) →
      ∀ id o, p.msg = .req id → s.op? id = some o →
        (s.ejected p.dst ≤ Config.ejectSlots → exec (.ringEjection n) s = .next { s with
          fab := { s.fab with ringLeft := left, ring := s.fab.ring.filter fun q => decide (q.id ≠ n) }
          ops := mapSet s.ops id { o with phase := .atOwner p.dst } }) ∧
        (Config.ejectSlots < s.ejected p.dst → exec (.ringEjection n) s = .next s))

/-! ## Results and completion -/

/-- A register of a thread. -/
def Sys2Proof.Spec.putReg (t : Thread) (r : Reg) (v : Nat) : Thread :=
  match r with
  | .g i => { t with g := t.g.set i (BitVec.ofNat 64 v) }
  | .v i => { t with v := t.v.set i (BitVec.ofNat 256 v) }
  | .k i => { t with k := t.k.set i (BitVec.ofNat 32 v) }
  | .fstat => { t with fstat := BitVec.ofNat 5 v }

/-- What an operation writes to registers (R301, R310, R326, R367, R408): a quotient or root; a load's bytes, sign-extended if it
says so; the old value of an atomic; the two doublewords of CHUNK and TSHAPE. -/
def Sys2Proof.Spec.writes (o : Op) : List (Reg × Nat) :=
  match o.kind with
  | .alu d v => [(.g d, v.toNat)]
  | .fpu d v _ _ => [(.g d, v.toNat)]
  | .load _ _ (.g d) true _ => [(.g d, (Int.bmod (leNat o.result) (2 ^ (8 * o.result.length)) % 2 ^ 64).toNat)]
  | .load _ _ r _ _ => [(r, leNat o.result)]
  | .atom _ _ _ _ _ d => [(.g d, leNat o.result)]
  | .chunk _ d | .tshape _ d => [(.g d, leNat (o.result.take 8)), (.g (d + 1), leNat (o.result.drop 8))]
  | _ => []

/-- The thread once a result is in its registers: what fell due before it stands there already (R80), and a poisoned image granule of
a register that is written no longer matters (R111). The write is remembered for its cycle, as that of operation `id`. -/
def Sys2Proof.Spec.withResult (t : Thread) (id : OpId) (now : Nat) (ws : List (Reg × Nat)) (fl : BitVec 5) : Thread :=
  let r := ws.foldl (fun t w => Spec.putReg t w.1 w.2) (t.settle now)
  { r with
    fstat := r.fstat ||| fl
    landed := (t.settle now).landed ++ ws.map fun w => (w.1, now, 2 * id + 1, fullMask w.1)
    coldPoison := t.coldPoison.filter fun x => !(ws.map (·.1)).contains x.1 }

/-- No instruction that issued after operation `id` has written a register that it writes in this cycle (R80). -/
abbrev Sys2Proof.Spec.lastWriter (t : Thread) (id : OpId) (now : Nat) (ws : List (Reg × Nat)) : Prop :=
  ∀ e ∈ (t.settle now).landed, e.1 ∈ ws.map (·.1) → e.2.1 = now → e.2.2.1 ≤ 2 * id + 1

/-- The thread once DONE has counted on a token, with the record that a failing operation leaves: the first stays in the slot, the
others count in MORE; in a handler they set failure bits (R84, R88, R95). The cycle in which it counts is remembered, as an instruction that issues
in that cycle does not see it (R85). -/
def Sys2Proof.Spec.countsDone (s : State) (t : Thread) (shadow : Bool) (k : Tok) (r : Option FaultRec) : Thread :=
  let up (b : TokenBank) : TokenBank := { b with tokens := b.tokens.set k { b.tokens[k] with done := b.tokens[k].done + 1 } }
  let slot (old : Option FaultRec) (r : FaultRec) : FaultRec :=
    match old with
    | none => { r with more := 0 }
    | some x => { x with more := BitVec.ofNat 16 (min (x.more.toNat + 1) 0xFFFF) }
  let t := { t with doneAt := (t.doneAt.filter fun (e : Nat × Bool × Tok) => decide (s.windowStart ≤ e.1)) ++ [(s.now, shadow, k)] }
  match r, shadow with
  | none, false => { t with live := up t.live }
  | none, true => { t with shadow := up t.shadow }
  | some r, false => { t with live := { up t.live with records := t.live.records.set k (some (slot t.live.records[k] r)) } }
  | some r, true => { t with
      shadow := up t.shadow
      shadowFail := t.shadowFail ||| BitVec.ofNat 16 (2 ^ k.val)
      shadowRec := some (slot t.shadowRec r) }

/-- The state in which thread `u` is `t`. -/
def Sys2Proof.Spec.seen (s : State) (u : Uid) (t : Thread) : State := { s with threads := mapSet s.threads u t }

/-- R80, R84, R87, R88, R160, R350, R404: the result of a tokened operation reaches its registers, and DONE counts in the order of the token;
of two writes of a register in one cycle the later-issued one stays; a square root or division with an enabled flag fails with REASON 0x0A
and the enabled flags; a failed operation leaves its record; TPRESS sets BACKLOG. -/
def Sys2Proof.Spec.CompletionInTokenOrder : Prop :=
  ∀ (id : OpId) (o : Op) (s : State) (th : Thread) (k : Tok), s.op? id = some o → mapGet? s.threads o.uid = some th → o.tok = some k →
    o.counted = true ∨ o.strm = none →
    (∀ fl, (o.phase = .performed ∧ fl = 0 ∧ (∀ d v f e, o.kind ≠ .fpu d v f e) ∨
        o.phase = .queued ∧ ((∃ d v, o.kind = .alu d v) ∧ fl = 0 ∨ ∃ d v en, o.kind = .fpu d v fl en ∧ fl &&& en = 0)) →
      Spec.lastWriter th id s.now (Spec.writes o) →
      (∀ r, r = (if o.phase = .performed then o.recd else none) → (o.kind.isEngine = true → r = none) →
        (∀ e ∈ s.ops, e.1 < id → e.2.uid = o.uid → e.2.inShadow = o.inShadow → e.2.tok ≠ o.tok) →
        exec (.operationCompletion id) s = .next { Spec.seen s o.uid
          (Spec.countsDone s (Spec.withResult th id s.now (Spec.writes o) fl) o.inShadow k r) with ops := mapErase s.ops id }) ∧
      ((∃ e ∈ s.ops, e.1 < id ∧ e.2.uid = o.uid ∧ e.2.inShadow = o.inShadow ∧ e.2.tok = o.tok) →
        ∃ bs, exec (.operationCompletion id) s = .next { Spec.seen s o.uid (Spec.withResult th id s.now (Spec.writes o) fl) with
          ops := mapSet s.ops id { o with phase := .finished, result := bs } })) ∧
    (∀ d v place, o.phase = .queued → o.kind = .alu d v →
      (Reg.g d, s.now, place, fullMask (.g d)) ∈ (th.settle s.now).landed → 2 * id + 1 < place →
      ∃ t, exec (.operationCompletion id) s = .next t ∧ (t.thread o.uid).g = (th.settle s.now).g) ∧
    (∀ d v fl en, o.phase = .queued → o.kind = .fpu d v fl en → fl &&& en ≠ 0 → exec (.operationCompletion id) s =
      .next { s with ops := mapSet s.ops id { o with phase := .failed ⟨o.pc, (fl &&& en).setWidth 64, 0x0A, 0⟩ } }) ∧
    (∀ r, o.phase = .failed r → o.jidx = none → o.kind.isEngine = false →
      (∀ e ∈ s.ops, e.1 < id → e.2.uid = o.uid → e.2.inShadow = o.inShadow → e.2.tok ≠ o.tok) →
      exec (.operationCompletion id) s = .next { Spec.seen s o.uid (Spec.countsDone s th o.inShadow k (some r)) with
        ops := mapErase s.ops id }) ∧
    (∀ v, o.phase = .queued → o.kind = .tpress v →
      (∀ e ∈ s.ops, e.1 < id → e.2.uid = o.uid → e.2.inShadow = o.inShadow → e.2.tok ≠ o.tok) →
      exec (.operationCompletion id) s = .next { Spec.seen s o.uid (Spec.countsDone s th o.inShadow k none) with
        ops := mapErase s.ops id
        jobs := mapSet s.jobs o.job { s.job o.job with backlog := min v.toNat (2 ^ 24 - 1) } })

/-- The first held entry of the executing thread that has not been reported (R198). -/
abbrev Sys2Proof.Spec.unreported (s : State) : Option (Nat × JEntry) :=
  (s.myCore.journal.filter fun x => x.2.held && decide (x.2.uid = s.cur)).find? fun x => !x.2.told

/-- The PSTORE trap of an entry: its index, and in the frame the store's record; `State.atPfx`: TRAPPC is that of a PFX (R195, R198). -/
def Sys2Proof.Spec.pstoreTrapped (s : State) (j : Nat) (e : JEntry) : State :=
  (Spec.trappedAt (s.atPfx s.me) s 0x09 (BitVec.ofNat 64 j) 0
    (BitVec.ofNat 64 (e.reason.toNat * 2 ^ 52 + e.pc.toNat % 2 ^ 52)) e.addr).modCore s.me.pcn fun c =>
      { c with journal := mapSet c.journal j { e with told := true } }

/-- R197, R198: a refused posted store counts DONE with no record, and its journal entry is held; before the next instruction of its
thread that is in no handler and in no PFX pair, a PSTORE trap reports the lowest entry. -/
def Sys2Proof.Spec.RefusedStoresAreReported : Prop :=
  ∀ (s : State) (u : Uid) (th : Thread),
    (∀ id o r j e k, s.op? id = some o → o.uid = u → mapGet? s.threads u = some th → o.tok = some k → o.counted = true ∨ o.strm = none →
      o.phase = .failed r → o.jidx = some j → o.resent = false → o.inShadow = false → o.pcn = th.pcn →
      mapGet? (s.core o.pcn).journal j = some e →
      (∀ x ∈ s.ops, x.1 < id → x.2.uid = u → x.2.inShadow = o.inShadow → x.2.tok ≠ o.tok) →
      exec (.postedStoreRefusal id) s = .next ({ Spec.seen s u (Spec.countsDone s th false k none) with ops := mapErase s.ops id }.modCore
        th.pcn fun c => { c with journal := mapSet c.journal j { e with held := true, told := false, reason := r.reason } })) ∧
    (∀ j e, s.cur = u → Spec.canTrap s → s.me.pfx = none → s.myCore.stepping = false → Spec.rising s.myCore.journal →
      Spec.unreported s = some (j, e) → exec (.pstoreDelivery u) s = .next (Spec.pstoreTrapped s j e))

/-! ## Threads -/

/-- R78, R80: the results that are due by the cycle are in their registers, in the order in which they fall due and, within a cycle, of
their issue. -/
def Sys2Proof.Spec.inOrder (t : Thread) (now : Nat) (l : List PendingWrite) : Prop :=
  l.Perm (t.pending.filter fun p => decide (p.due ≤ now)) ∧ l.Pairwise (fun p q => p.due ≤ q.due) ∧
  ∀ n, (l.filter fun p => decide (p.due = n)).Sublist t.pending

/-- R43, R44, R45, R73, R78, R80, R47, R212: results fall due; a blocked WAITT whose condition holds passes, but a record is not delivered while
its core is halted; a quantum ends and the thread is
READY; the drain of an EXIT completes. -/
def Sys2Proof.Spec.ThreadsGoOn : Prop :=
  ∀ (s : State) (u : Uid) (th : Thread), mapGet? s.threads u = some th →
    (∀ l, Spec.inOrder th s.now l → th.pending.Pairwise (fun p q => p.seq ≤ q.seq) →
      (∀ e ∈ th.landed, ∀ p ∈ th.pending, p.reg = e.1 → p.due = e.2.1 → e.2.2.1 ≤ 2 * p.seq) →
      ∃ t, exec (.resultFallsDue u) s = .next { s with threads := mapSet s.threads u t } ∧
      t = { l.foldl (fun t p => t.putRaw p.reg p.value p.mask) th with
        pending := t.pending
        landed := (th.landed ++ l.map fun (p : PendingWrite) => (p.reg, p.due, 2 * p.seq, p.mask)).filter fun e => decide (s.now ≤ e.2.1) } ∧
      t.pending.map (·.due) = (th.pending.map (·.due)).filter (fun d => decide (s.now < d))) ∧
    (∀ k n size, th.status = .waiting (.token k n size) → Spec.outOf th k ≤ n → Spec.hasRecord th k = false →
      exec (.waittWake u) s = .next { s with cur := u, threads := mapSet s.threads u { th with
        pc := th.pc + BitVec.ofNat 64 size, pfx := none, status := .ready, readySince := s.now } }) ∧
    (∀ k n size, th.status = .waiting (.token k n size) → n < Spec.outOf th k → exec (.waittWake u) s = .next s) ∧
    (∀ k n size, th.status = .waiting (.token k n size) → Spec.outOf th k ≤ n → Spec.hasRecord th k = true → (s.core th.pcn).halted = true →
      exec (.waittWake u) s = .next { s with cur := u }) ∧
    (∀ r, th.status = .waiting .exitDrain → Spec.drained th → th.inHandler = false → Spec.quiet { s with cur := u } →
      (∃ e ∈ s.threads, e.1 ≠ u ∧ e.2.job = th.job) → (∀ m ∈ s.moves, m.upcall ≠ some u) → r = s.leaveSlot u →
      ∃ t, exec (.threadEnd u) s = .next t ∧ t.threads = mapErase r.threads u ∧ t.moves = s.moves ∧ t.ms = s.ms ∧ t.jobs = s.jobs)

/-- R29, R44, R45, R47, R339: a thread that will have issued for its quantum (4,096 cycles for each unit of SLICE, and one) when its next
instruction could issue, while another of its core is READY, gives way: it is READY, and the core's other READY thread in a slot runs; the
quantum of that begins when it first issues. One that has not issued since it was chosen has used up none. -/
def Sys2Proof.Spec.QuantaEnd : Prop :=
  ∀ (s : State) (p : Pcn) (u v : Uid) (th tv : Thread) (next : Nat), mapGet? s.threads u = some th → mapGet? s.threads v = some tv →
    u ≠ v → Spec.rising s.threads →
    (s.threads.filter fun e => decide (e.2.pcn = p) && decide (e.2.job = s.owner (p / 8))) = [(u, th), (v, tv)] ∨
      (s.threads.filter fun e => decide (e.2.pcn = p) && decide (e.2.job = s.owner (p / 8))) = [(v, tv), (u, th)] →
    th.status = .running → tv.status = .ready → th.slot = some 0 → tv.slot = some 1 → (s.core p).lastRan = some u →
    th.upcall = .none → tv.upcall = .none → th.pfx = none → th.redirect = none → s.coreUp p = true →
    next = max (max (s.core p).nextIssue th.notBefore) (max s.back s.windowStart) →
    (∀ q, th.quantumAt = some q → q + 4096 * ((s.core p).slice.toNat + 1) ≤ next →
      exec (.quantumExpiry p) s = .next { s with
        threads := mapSet (mapSet s.threads u { th with status := .ready, readySince := s.now, preferred := false }) v
          { tv with status := .running, quantumAt := none }
        cores := mapSet s.cores p { s.core p with
          slice := (s.core p).sliceNext.getD (s.core p).slice, sliceNext := none, lastRan := some v } }) ∧
    ((∀ q, th.quantumAt = some q → next < q + 4096 * ((s.core p).slice.toNat + 1)) → exec (.quantumExpiry p) s = .next s)

/-- R70, R71, R118, R167, R214, R368, R379: a waiting MIG departs when its counters have drained, to another tile as a signal packet; at its
destination the thread takes the lowest free image, keeps its G registers but for a stack pointer that is moved, and is READY after its MIG, with
MODQ 0 and V and K registers that nothing is known of; a core in SCRUB, or without a free image, refuses it with a wait hint, and it is sent
again when that has passed; one that is DARK or not its job's sends it back to its MIG; a halted one lets it wait. Of the model's own in it: log
entries 2, 6, 8, 77. -/
def Obligations.ThreadsMigrate : Prop :=
  ∀ (s : State) (u : Uid) (th : Thread) (q : Pcn), mapGet? s.threads u = some th →
    (th.status = .waiting (.migDrain q) → Spec.drained th → th.inHandler = false → Spec.quiet { s with cur := u } → q ≠ th.pcn →
      ∃ t, exec (.migrationDeparture u) s = .next t ∧ (t.thread u).status = .migrating q .mig ∧ (t.thread u).slot = none ∧
        (t.thread u).g = th.g ∧ (t.thread u).pc = th.pc ∧ t.ms = s.ms ∧ t.ops = s.ops ∧
        t.fab.mesh = (if q / 8 = th.pcn / 8 then s.fab.mesh
          else s.fab.mesh ++ [⟨s.nextId, s.nextId, 1, th.pcn / 8, [q / 8], th.pcn / 8, .mig u⟩])) ∧
    (th.status = .migrating q .mig → th.mgLoad = none →
      ((∃ x ∈ s.fab.mesh, x.msg = .mig u ∨ ∃ h, x.msg = .migBack u h) ∨ (th.asks = true ∧ s.now < th.notBefore) →
        exec (.migrationArrival u) s = .next s) ∧
      ((∀ x ∈ s.fab.mesh, x.msg ≠ .mig u ∧ ∀ h, x.msg ≠ .migBack u h) →
        (th.asks = true → th.notBefore ≤ s.now → exec (.migrationArrival u) s =
          .next (Spec.sends { s with threads := mapSet s.threads u { th with asks := false } } 1 (th.pcn / 8) (q / 8) (.mig u))) ∧
        (th.asks = false → (s.core q).halted = true → exec (.migrationArrival u) s = .next s) ∧
        (th.asks = false → (s.core q).halted = false →
          (s.owner (q / 8) = th.job → (s.core q).status = .live → ∀ k, s.freeImage q = some k →
            ∃ t, exec (.migrationArrival u) s = .next t ∧ (t.thread u).status = .ready ∧ (t.thread u).pcn = q ∧
              (t.thread u).image = some k ∧ (t.thread u).slot = none ∧ (t.thread u).pc = th.pc + 4 ∧ (t.thread u).modq = 0 ∧
              (∀ r : GReg, r ≠ 14 → (t.thread u).g[r] = (th.settle s.now).g[r]) ∧ (t.thread u).live = th.live ∧ t.ms = s.ms ∧
              t.ops = s.ops ∧ ∀ v, v ≠ u → mapGet? t.threads v = mapGet? s.threads v) ∧
          ((s.core q).status = .scrub ∨ (s.owner (q / 8) = th.job ∧ (s.core q).status = .live ∧ s.freeImage q = none) →
            exec (.migrationArrival u) s = .next (Spec.sends { s with fresh := s.fresh + 1 } 2 (q / 8) (th.pcn / 8)
              (.migBack u (some (Config.waitHint s.fresh).toNat)))) ∧
          ((s.core q).status ≠ .scrub → s.owner (q / 8) ≠ th.job ∨ (s.core q).status = .dark →
            exec (.migrationArrival u) s = .next (Spec.sends s 1 (q / 8) (th.pcn / 8) (.migBack u none))))))

/-! ## Fetch, redirected stack accesses, errors -/

/-- The executing thread asks the fabric for nothing any more: its refusals and its forwarded accesses are forgotten (R73). -/
def Sys2Proof.Spec.quits (s : State) : State :=
  { s with fab := { s.fab with
      refusals := s.fab.refusals.filter fun r => decide (r.who ≠ s.cur)
      fwds := s.fab.fwds.filter fun f => decide (f.who ≠ s.cur) } }

/-- A line of text in the instruction cache of a core that has room for it. -/
def Sys2Proof.Spec.cached (s : State) (p : Pcn) (va : Word) (bytes : List Byte) : State :=
  s.modCore p fun c => { c with icache := c.icache ++ [⟨s.me.job, va.toNat / 64, bytes⟩] }

/-- The trap of a fetch that fails at `va`: ADDR, or before it the PSTORE of a refused posted store (R194, R198). -/
def Sys2Proof.Spec.fetchTraps (s : State) (r : Host.Outcome State Fault Refusal) (va : Word) : Prop :=
  Spec.canTrap s → s.myCore.stepping = false →
    (s.me.pfx ≠ none ∨ Spec.unreported s = none → r = .next (Spec.trappedAt (s.atPfx s.me) (Spec.quits s) 0x05 va 0 0 0)) ∧
    (s.me.pfx = none → Spec.rising s.myCore.journal → ∀ j e, Spec.unreported s = some (j, e) →
      r = .next (Spec.pstoreTrapped (Spec.quits s) j e))

/-- R82, R118, R193, R194, R198, R214, R268, R275: bits that no instruction has trap ILLEGAL with them in TVAL; a missed line of text is asked of
its home slice, and comes into the core's instruction cache once that has served it; a fetch that the text page does not let pass traps ADDR,
unless a refused posted store is to be reported first. Of the model's own in it: log entry 8. -/
def Sys2Proof.Spec.FetchAndIllegalBits : Prop :=
  ∀ (s : State) (w : BitVec 32) (p : Pcn) (va a : Word) (sl H : Nat),
    (Spec.canTrap s → exec (.illegalEncoding w) s = .next (Spec.trapped s 0x01 (w.setWidth 64) 0 0 0)) ∧
    (s.runningOn p = some (s.cur, s.me) → s.me.pcn = p → s.me.redirect = none → s.mayIssue p s.me = true →
      a = BitVec.ofNat 64 (va.toNat / 64 * 64) → sl = sliceNo (tagDie s.me.job) a → H = homeTile p a →
      (s.fetchFor s.me = .miss va →
        (p / 8 ≠ H → Spec.noTrip s s.cur → exec (.instructionFetchFill p) s = .next (Spec.setsOut s s.cur 0 (p / 8) H a 64 false)) ∧
        (∀ x pa pte e r bs, x = ⟨x.id, s.cur, 0, p / 8, H, a, 64, false, x.stage⟩ → Spec.atItsHome s x →
          s.xlat s.me.job a 64 ⟨true, false, false, true⟩ = .ok (tagDie s.me.job) pa pte e →
          (s.tlbFill sl s.me.job s.myJob.ptRoot a).lineGate sl (ownerKey (tagDie s.me.job) pa) 64 x.id pte (s.winInst e)
            (masterJob s.me.job) false = .serve r →
          r.sliceBad s.me.job a pte (ownerKey (tagDie s.me.job) pa) 64 = none → bs = r.seen pte (ownerKey (tagDie s.me.job) pa) 64 →
          (p / 8 = H → (∀ f ∈ s.fab.fwds, f.who ≠ s.cur) → (s.core p).icache.length < 256 →
            exec (.instructionFetchFill p) s = .next (Spec.cached r p va bs)) ∧
          (p / 8 ≠ H → ∃ t, exec (.instructionFetchFill p) s = .next t ∧ t.ms = s.ms ∧ t.threads = s.threads ∧ t.cores = s.cores ∧
            Spec.comesBack t x 2 (.ok bs))) ∧
        (∀ x pa pte e r, x = ⟨s.cur, s.cur, 0, p / 8, H, a, 64, false, .there⟩ → p / 8 = H → Spec.noTrip s s.cur →
          s.xlat s.me.job a 64 ⟨true, false, false, true⟩ = .ok (tagDie s.me.job) pa pte e →
          (s.tlbFill sl s.me.job s.myJob.ptRoot a).lineGate sl (ownerKey (tagDie s.me.job) pa) 64 s.cur pte (s.winInst e)
            (masterJob s.me.job) false = .refuse r →
          ∃ t h, exec (.instructionFetchFill p) s = .next t ∧ t.ms = s.ms ∧ t.threads = s.threads ∧ t.cores = s.cores ∧
            Spec.asksLater t x r.nextId s.now h) ∧
        (∀ x d, x = ⟨x.id, s.cur, 0, p / 8, H, a, 64, false, .done (.ok d)⟩ → Spec.onlyTrip s x → (∀ f ∈ s.fab.fwds, f.who ≠ s.cur) →
          (s.core p).icache.length < 256 → exec (.instructionFetchFill p) s = .next (Spec.cached (Spec.over s x) p va d)) ∧
        (∀ x b k, x = ⟨x.id, s.cur, 0, p / 8, H, a, 64, false, .done (.fail b k)⟩ → Spec.onlyTrip s x →
          Spec.fetchTraps (Spec.over s x) (exec (.instructionFetchFill p) s) va)) ∧
      (s.fetchFor s.me = .fail va → Spec.noTrip s s.cur → Spec.fetchTraps s (exec (.instructionFetchFill p) s) va))

/-- The hold of a redirected access is over, and the instruction is done: a store leaves the thread's results as they were, a load gives its
register in the cycle that its latency lays down (R68). -/
abbrev Sys2Proof.Spec.redirectEnds (s t : State) (r : Redirect) (bytes : List Byte) : Prop :=
  t.me.redirect = none ∧ t.me.pc = s.me.pc + BitVec.ofNat 64 r.size ∧ t.me.pfx = none ∧ t.me.g = s.me.g ∧ t.ops = s.ops ∧ t.now = s.now ∧
  (r.store ≠ none → t.me.pending = s.me.pending) ∧
  (r.store = none → r.dst ≠ .k 0 → t.me.pending = s.me.pending ++ [⟨r.dst, loadValue r.dst bytes r.sx, fullMask r.dst,
    max s.now (s.me.lastIssue + loadLatency r.dst), false, s.nextId⟩])

/-- A redirected access traps instead (R68, R111, R194). -/
abbrev Sys2Proof.Spec.redirectTraps (s t : State) (cause : Nat) (tval : Word) : Prop :=
  t.me.redirect = none ∧ t.me.cause = BitVec.ofNat 64 cause ∧ t.me.tval = tval ∧
  t.me.trapPc = (s.me.pfx.map fun p => p.pc).getD s.me.pc ∧ t.me.pc = s.myJob.trapVec ∧ t.me.inHandler = true ∧ t.ms = s.ms

/-- R68, R111, R118, R194, R214: a redirected stack access goes to its home slice once its stream edges hold, and performs there when its line
serves it; then the hold ends: a store has written its bytes, a load gives its register. An access that translation refuses traps SPILL, and a
load of a poisoned sector LMUE. -/
def Sys2Proof.Spec.RedirectedAccessesComplete : Prop :=
  ∀ (s : State) (r : Redirect) (n die T H : Nat) (q : Ask), mapGet? s.threads s.cur = some s.me → s.me.redirect = some r →
    s.me.status = .running → s.op? s.cur = none →
    (∀ e ∈ s.ops, e.2.uid = s.cur → e.2.inShadow = s.me.inHandler → e.2.counted = false → ∀ k, e.2.strm = some k →
      k ≠ r.strm ∧ r.mask.getLsbD k.val = false) → n = r.bytes → die = tagDie s.me.job → T = s.me.pcn / 8 → H = homeTile s.me.pcn r.va →
    q = ⟨r.store.isNone, true, false, true⟩ → (∀ bs, r.store = some bs → bs.length = n) →
    (T ≠ H → Spec.noTrip s s.cur →
      exec (.redirectedAccessCompletion s.cur) s = .next (Spec.setsOut s s.cur 0 T H r.va n r.store.isSome)) ∧
    (∀ x pa pte e y key bs, x = ⟨x.id, s.cur, 0, T, H, r.va, n, r.store.isSome, x.stage⟩ → Spec.atItsHome s x →
      s.xlat s.me.job r.va n q = .ok die pa pte e → key = ownerKey die pa →
      (s.tlbFill (sliceNo die r.va) s.me.job s.myJob.ptRoot r.va).lineGate (sliceNo die r.va) key n x.id pte (s.winInst e)
        (masterJob s.me.job) r.store.isSome = .serve y →
      pteSealed pte = false → pteClear pte = false → (∀ b ∈ sectors key n, mapGet? s.ms.seals b = none) → s.fab.watches = [] →
      (r.store = none → y.sliceBad s.me.job r.va pte key n = none) → (r.store ≠ none → y.mergeBad s.me.job r.va pte key n = none) →
      Memory.wf s.ms.mem = true → s.myCore.stepping = false → bs = (if r.store = none then Spec.bytes s key n else []) →
      ∃ t, exec (.redirectedAccessCompletion s.cur) s = .next t ∧
        (∀ w, r.store = some w → ∀ a, memGet t.ms.mem a = if key ≤ a ∧ a < key + n then w.getD (a - key) 0 else memGet s.ms.mem a) ∧
        (r.store = none → t.ms = s.ms) ∧ (T = H → Spec.redirectEnds s t r bs) ∧
        (T ≠ H → t.me = s.me ∧ t.ops = s.ops ∧ Spec.comesBack t x 2 (.ok bs))) ∧
    (∀ pa pte e y b z, T = H → Spec.noTrip s s.cur → s.xlat s.me.job r.va n q = .ok die pa pte e → r.store = none →
      (s.tlbFill (sliceNo die r.va) s.me.job s.myJob.ptRoot r.va).lineGate (sliceNo die r.va) (ownerKey die pa) n s.cur pte (s.winInst e)
        (masterJob s.me.job) false = .serve y →
      y.sliceBad s.me.job r.va pte (ownerKey die pa) n = some (b, z) → s.myJob.trapVec ≠ 0 → s.me.inHandler = false →
      ∃ t, exec (.redirectedAccessCompletion s.cur) s = .next t ∧ Spec.redirectTraps s t 0x0F b) ∧
    (∀ pa pte e y, T = H → Spec.noTrip s s.cur → s.xlat s.me.job r.va n q = .ok die pa pte e →
      (s.tlbFill (sliceNo die r.va) s.me.job s.myJob.ptRoot r.va).lineGate (sliceNo die r.va) (ownerKey die pa) n s.cur pte (s.winInst e)
        (masterJob s.me.job) r.store.isSome = .refuse y →
      ∃ t h, exec (.redirectedAccessCompletion s.cur) s = .next t ∧ t.ms = s.ms ∧ t.threads = s.threads ∧ t.ops = s.ops ∧
        Spec.asksLater t ⟨s.cur, s.cur, 0, T, H, r.va, n, r.store.isSome, .there⟩ y.nextId s.now h) ∧
    (∀ e, T = H → Spec.noTrip s s.cur → s.xlat s.me.job r.va n q = .fail e → e ≠ 0x09 → s.myJob.trapVec ≠ 0 → s.me.inHandler = false →
      ∃ t, exec (.redirectedAccessCompletion s.cur) s = .next t ∧ Spec.redirectTraps s t 0x11 r.va) ∧
    (∀ x d, x = ⟨x.id, s.cur, 0, T, H, r.va, n, r.store.isSome, .done (.ok d)⟩ → Spec.onlyTrip s x → s.myCore.stepping = false →
      ∃ t, exec (.redirectedAccessCompletion s.cur) s = .next t ∧ t.ms = s.ms ∧ Spec.redirectEnds s t r d) ∧
    (∀ x b k, x = ⟨x.id, s.cur, 0, T, H, r.va, n, r.store.isSome, .done (.fail b k)⟩ → Spec.onlyTrip s x → s.myJob.trapVec ≠ 0 →
      s.me.inHandler = false →
      ∃ t, exec (.redirectedAccessCompletion s.cur) s = .next t ∧ if b = 0x09 then Spec.redirectTraps s t 0x0F k
        else Spec.redirectTraps s t 0x11 r.va)

/-- R110, R111: an error that cannot be corrected poisons its granule; in the context image of a thread that is in no slot it poisons the
registers whose bytes lie in it, G0 and G1 at offset 0. -/
def Sys2Proof.Spec.ErrorsPoison : Prop :=
  ∀ (s : State) (p off : Nat), off < 0x30000 →
    ((∀ e ∈ s.threads, e.2.pcn = p → e.2.image = some (off / 0x800) → e.2.slot ≠ none) →
      exec (.uncorrectableError p off) s = .next { s with ms := { s.ms with
        poison := setIns s.ms.poison ((p * 2 ^ 18 + off) / 16), weak := setDel s.ms.weak ((p * 2 ^ 18 + off) / 16) } }) ∧
    (∀ u th, (s.threadsOn p).find? (fun e => decide (e.2.image = some (off / 0x800)) && e.2.slot.isNone) = some (u, th) →
      ∃ t, exec (.uncorrectableError p off) s = .next { s with threads := mapSet s.threads u { s.thread u with coldPoison := t } } ∧
        (∀ r : GReg, 8 * r.val / 16 = off % 0x800 / 16 → (Reg.g r, off / 16 * 16) ∈ t) ∧
        (∀ r : VReg, 64 + 2 * r.val ≤ off % 0x800 / 16 → off % 0x800 / 16 < 66 + 2 * r.val → (Reg.v r, off / 16 * 16) ∈ t))

/-! ## Counters and pools -/

/-- The state after SIGNAL's step at a bank: the count is one less, the payload stands behind the object with its full-empty bits set, and
every other byte is as before (R58). `base`: the state in which the step reads. -/
abbrev Sys2Proof.Spec.signalled (s base t : State) (c off : Nat) (pay : List Byte) : Prop :=
  Spec.number t (bankKey c off) 4 = (Spec.number s (bankKey c off) 4 + 2 ^ 32 - 1) % 2 ^ 32 ∧
  (∀ i, i < pay.length → memGet t.ms.mem (bankKey c off + 16 + i) = pay.getD i 0) ∧
  (∀ x, (x < bankKey c off ∨ bankKey c off + 4 ≤ x) → (x < bankKey c off + 16 ∨ bankKey c off + 16 + pay.length ≤ x) →
    memGet t.ms.mem x = memGet s.ms.mem x) ∧
  t.ms = Spec.stored (if pay = [] then base.ms else Spec.stored base.ms base.ms.mem c (off + 16) pay.length true) t.ms.mem c off 4 false

/-- The state beside memory once SIGNAL's step has read its counter: a payload changes full-empty bits of the bank (R58, R107, R108). -/
def Sys2Proof.Spec.paid (s : State) (c off : Nat) (o : Op) : State :=
  if o.result = [] then s.correct (bankKey c off) 16 else Spec.feChanged (s.correct (bankKey c off) 16) c

/-- R56, R57, R58, R111, R320, R391: BIND writes a counter object with its count, its job's tag and serial and its record, whatever stood
there; SIGNAL takes 1 from the count, and writes its payload behind the object with its full-empty bits set. Where neither fires, it
performs. Here the object lies in a bank. -/
def Sys2Proof.Spec.CountersStep : Prop :=
  ∀ (id : OpId) (o : Op) (s : State) (a : Word) (c off : Nat) (cw : Bool), s.op? id = some o → Spec.present o →
    winOf o.pcn a = .bank c off cw → (s.core c).halted = false → Memory.wf s.ms.mem = true →
    (∀ rcd n, o.kind = .bind a rcd n → n.toNat < 2 ^ 31 → n ≠ 0 ∨ rcd = 0 →
      (rcd = 0 ∨ rcd.toNat % 64 = 0 ∧ 0x1000000 ≤ rcd.toNat ∧ rcd.toNat < 2 ^ 52) → Spec.grants s o.job c off 16 true true →
      ∃ t, exec (.bindStep id) s = .next t ∧ Spec.number t (bankKey c off) 4 = n.toNat ∧
        Spec.number t (bankKey c off + 4) 2 = o.job % 2 ^ 16 ∧ Spec.number t (bankKey c off + 6) 2 = (s.job o.job).serial % 2 ^ 16 ∧
        Spec.number t (bankKey c off + 8) 8 = rcd.toNat ∧
        (∀ x, (x < bankKey c off ∨ bankKey c off + 16 ≤ x) → memGet t.ms.mem x = memGet s.ms.mem x) ∧
        t.ms = Spec.stored (s.noteOp o c off 16 true).ms t.ms.mem c off 16 false ∧
        { t with ms := s.ms } = Spec.performs s id o []) ∧
    (∀ rcd n, o.kind = .bind a rcd n → ¬(n.toNat < 2 ^ 31 ∧
        (rcd = 0 ∨ rcd.toNat % 64 = 0 ∧ 0x1000000 ≤ rcd.toNat ∧ rcd.toNat < 2 ^ 52)) →
      exec (.bindStep id) s = .next (Spec.fails s id o 0x08 a)) ∧
    (∀ p len base, o.kind = .signal a p len → o.hop = true →
      Spec.grants s o.job c off (16 + o.result.length) false true → s.poisonedIn (bankKey c off) 16 = none →
      (o.result = [] ∨ Spec.looked s) → base = (s.correct (bankKey c off) 16).noteOp o c off (16 + o.result.length) true →
      (Spec.number s (bankKey c off) 4 ≠ 1 ∨ Spec.number s (bankKey c off + 8) 8 = 0) →
      ∃ t, exec (.signalStep id) s = .next t ∧ Spec.signalled s base t c off o.result ∧
        { t with ms := s.ms } = { Spec.performs (Spec.paid s c off o) id o [] with ms := s.ms })

/-- R52, R57, R58, R118: a counter that reaches zero fires: the record at RECORD, read as an access of the live job on the die that its JOBTAG and
JOBSER name, leaves for that job's pool from one of the home's 16 buffers, and the SIGNAL counts in its stream, and on its token when the
pool has accepted. With no such job SIGNAL performs, and the record is not read; a record that cannot be pooled leaves a record with
REASON 0x08; while the record cannot be had yet, or with every buffer held, the step is refused, and changes no byte. -/
def Sys2Proof.Spec.CountersFire : Prop :=
  ∀ (id : OpId) (o : Op) (s : State) (base : State → State) (a p len rcd : Word) (c off tag : Nat) (cw : Bool), s.op? id = some o →
    o.phase = .arrived → o.kind = .signal a p len → o.hop = true → winOf o.pcn a = .bank c off cw → (s.core c).halted = false →
    Memory.wf s.ms.mem = true → Spec.grants s o.job c off (16 + o.result.length) false true → s.poisonedIn (bankKey c off) 16 = none →
    (o.result = [] ∨ Spec.looked s) → o.tok ≠ none →
    base = (fun r => (r.correct (bankKey c off) 16).noteOp o c off (16 + o.result.length) true) →
    Spec.number s (bankKey c off) 4 = 1 → rcd = BitVec.ofNat 64 (Spec.number s (bankKey c off + 8) 8) → rcd ≠ 0 →
    tag = Spec.number s (bankKey c off + 4) 2 →
    (∀ j, s.liveJob? tag = some j → tag / 512 = o.pcn / 8192 → j.serial = Spec.number s (bankKey c off + 6) 2 →
      j.status = .active ∨ j.status = .suspended →
      (∀ v r, s.recordOf id tag rcd = .ok v r → v.ms = s.ms ∧ v.threads = s.threads ∧ v.jobs = s.jobs ∧ v.fab.poolReqs = s.fab.poolReqs ∧
        ((s.fab.poolReqs.filter fun x => decide (x.home = some (1024 + c))).length < 16 →
          ∃ t, exec (.signalStep id) s = .next t ∧ Spec.signalled s (base v) t c off o.result ∧
            t.fab.poolReqs = s.fab.poolReqs ++ [⟨v.nextId, tag, j.serial, some (1024 + c), some id, r, c / 8⟩] ∧
            t.op? id = some { o with phase := .pooling (o.pcn / 8192), counted := true } ∧
            t.threads = (Spec.counted s o).threads ∧ t.jobs = s.jobs) ∧
        (16 ≤ (s.fab.poolReqs.filter fun x => decide (x.home = some (1024 + c))).length →
          exec (.signalStep id) s = .next (State.respond { v with fresh := v.fresh + 1 } id o
            (.retry (Config.waitHint v.fresh).toNat)))) ∧
      (∀ v, s.recordOf id tag rcd = .wait v → v.op? id = some o →
        exec (.signalStep id) s = .next (State.respond { v with fresh := v.fresh + 1 } id o (.retry (Config.waitHint v.fresh).toNat))) ∧
      (∀ v e, s.recordOf id tag rcd = .fail v e →
        ∃ t, exec (.signalStep id) s = .next t ∧ Spec.signalled s (base v) t c off o.result ∧
          { t with ms := s.ms } = { Spec.performs (Spec.paid v c off o) id { o with recd := some ⟨o.pc, rcd, 0x08, 0⟩ } [] with
            ms := s.ms })) ∧
    ((∀ j, s.liveJob? tag = some j → tag / 512 ≠ o.pcn / 8192 ∨ j.serial ≠ Spec.number s (bankKey c off + 6) 2 ∨
        (j.status ≠ .active ∧ j.status ≠ .suspended)) →
      ∃ t, exec (.signalStep id) s = .next t ∧ Spec.signalled s (base s) t c off o.result ∧
        { t with ms := s.ms } = { Spec.performs (Spec.paid s c off o) id o [] with ms := s.ms })

/-- The band that a pool serves (R53): the highest with a starvation count of 64, else the highest; each must hold a record. -/
def Sys2Proof.Spec.served (j : Job) (b : Nat) : Prop :=
  let has (x : Nat) : Prop := ∃ r ∈ j.pool, r.task.flags.toNat % 4 = x
  let starves (x : Nat) : Prop := ∃ i : Fin 3, i.val = x ∧ has x ∧ 64 ≤ j.starve[i]
  has b ∧ (starves b ∧ (∀ x, b < x → ¬starves x) ∨ (∀ x, ¬starves x) ∧ ∀ x, b < x → ¬has x)

/-- R44, R51, R52, R53, R54, R118, R214: a record goes to the slice that holds its job's pool, where it stands at the end, and its operation
performs; a full pool refuses it with a wait hint; the record of a job that is gone is discarded. An idle core of the job takes, of the eight
oldest records of the band that is served, the oldest whose hint is near, else the oldest; the starvation counts follow. -/
def Sys2Proof.Spec.PoolsServeCores : Prop :=
  ∀ (s : State) (p : Pcn) (j : Job),
    (∀ r T a, s.fab.poolReqs.find? (fun x => decide (x.id = p)) = some r → T = s.poolTile r.tag →
      a = (fun (f : Fabric) => { f with poolReqs := f.poolReqs.filter fun x => decide (x.id ≠ p) }) →
      (r.src ≠ T → Spec.noTrip s p → exec (.poolAppend p) s = .next (Spec.setsOut s p 0 r.src T 0 64 true)) ∧
      (∀ x d, x = ⟨x.id, p, 0, r.src, T, 0, 64, true, .done (.ok d)⟩ → Spec.onlyTrip s x → r.op = none →
        exec (.poolAppend p) s = .next { s with fab := a (Spec.over s x).fab }) ∧
      (∀ x, x = ⟨x.id, p, 0, r.src, T, 0, 64, true, x.stage⟩ → Spec.atItsHome s x →
        (s.liveJob? r.tag = some j → j.serial = r.ser → j.status = .active ∨ j.status = .suspended →
          (s.poolCount r.tag < 16384 → ∀ v : State, v = { s with jobs := mapSet s.jobs r.tag { j with pool := j.pool ++ [⟨r.task, false⟩] } } →
            (r.src = T → r.op = none → exec (.poolAppend p) s = .next { v with fab := a s.fab }) ∧
            (r.src = T → ∀ id o, r.op = some id → s.op? id = some o →
              exec (.poolAppend p) s = .next (Spec.performs { v with fab := a s.fab } id o [])) ∧
            (r.src ≠ T → ∃ t, exec (.poolAppend p) s = .next t ∧ t.jobs = v.jobs ∧ t.ops = s.ops ∧ t.ms = s.ms ∧
              Spec.comesBack t x 2 (.ok []))) ∧
          (16384 ≤ s.poolCount r.tag → ∃ t h, exec (.poolAppend p) s = .next t ∧ t.jobs = s.jobs ∧ t.ops = s.ops ∧ t.ms = s.ms ∧
            t.fab.poolReqs = s.fab.poolReqs ∧ (r.src = T → Spec.asksLater t x s.nextId s.now h) ∧
            (r.src ≠ T → Spec.comesBack t x 2 (.retry h)))) ∧
        (r.src = T → r.op = none →
          (∀ j, s.liveJob? r.tag = some j → j.serial ≠ r.ser ∨ (j.status ≠ .active ∧ j.status ≠ .suspended)) →
          exec (.poolAppend p) s = .next { s with fab := a s.fab }))) ∧
    (∀ tag b l r, tag = s.owner (p / 8) → s.coreUp p = true → (s.core p).halted = false → (s.core p).dispatched = none →
      (∀ e ∈ s.threads, e.2.pcn = p → e.2.job = tag → e.2.status ≠ .running ∧ e.2.status ≠ .ready) → s.freeImage p ≠ none →
      Spec.served (s.job tag) b → l = ((s.job tag).pool.filter fun x => decide (x.task.flags.toNat % 4 = b)).take 8 →
      r = ((l.find? fun x => nearHint p x.task.hint0 || nearHint p x.task.hint1).or l.head?) →
      ∃ x v, r = some x ∧ exec (.taskDispatch p) s = .next { s with
        jobs := mapSet s.jobs tag { s.job tag with pool := (s.job tag).pool.erase x, starve := v }
        cores := mapSet s.cores p { s.core p with dispatched := some x.task } } ∧
        ∀ i : Fin 3, v[i] = if i.val = b ∨ ¬(∃ y ∈ (s.job tag).pool.erase x, y.task.flags.toNat % 4 = i.val) then 0
          else if i.val < b then (s.job tag).starve[i] + 1 else (s.job tag).starve[i])

/-! ## Borders -/

/-- Two tiles of a die are 4-adjacent; one lies in the 3×3 window of the other (R18, R19). -/
def Sys2Proof.Spec.beside (t u : Nat) : Prop :=
  t / 1024 = u / 1024 ∧ (t % 32 = u % 32 ∧ (t + 32 = u ∨ u + 32 = t) ∨ t / 32 = u / 32 ∧ (t + 1 = u ∨ u + 1 = t))
def Sys2Proof.Spec.around (t u : Nat) : Prop :=
  t / 1024 = u / 1024 ∧ t % 32 ≤ u % 32 + 1 ∧ u % 32 ≤ t % 32 + 1 ∧ t / 32 ≤ u / 32 + 1 ∧ u / 32 ≤ t / 32 + 1

/-- R19: tile `t` is simple for job `a`: a 4-neighbour is the job's, and every two that are the job's are joined by a 4-path through the job's
other tiles of its window. -/
def Sys2Proof.Spec.simple (s : State) (t a : Nat) : Prop :=
  (∃ u, Spec.beside t u ∧ s.owner u = a) ∧
  ∀ u v, Spec.beside t u → s.owner u = a → Spec.beside t v → s.owner v = a →
    ∃ path : List Nat, path.head? = some u ∧ path.getLast? = some v ∧ (∀ x ∈ path, Spec.around t x ∧ x ≠ t ∧ s.owner x = a) ∧
      ∀ e ∈ path.zip (path.drop 1), Spec.beside e.1 e.2

/-- R12, R15: W of idle is 0, and that of a job is its weight × min(occupancy + backlog, 0xFF_FFFF). -/
def Sys2Proof.Spec.pressure (s : State) (a : Nat) : Nat :=
  if a % 512 = 0 then 0 else (s.job a).weight * min ((s.job a).pool.length + (s.job a).backlog) (2 ^ 24 - 1)

/-- R12, R14: idle's floor and ceiling are 0 and 1,024. -/
def Sys2Proof.Spec.floor (s : State) (a : Nat) : Nat := if a % 512 = 0 then 0 else (s.job a).floor
def Sys2Proof.Spec.ceiling (s : State) (a : Nat) : Nat := if a % 512 = 0 then 1024 else (s.job a).ceiling

/-- R12, R17, R37: the projected count: the tiles that a job, or idle, holds, those in transit towards it and those in transit away from it; a
move whose gainer has stopped goes towards idle. -/
def Sys2Proof.Spec.projected (s : State) (a : Nat) : Int :=
  (if a % 512 = 0 then 1024 - ((s.tiles.filter fun e => decide (e.1 / 1024 = a / 512) && decide (e.2.job ≠ 0)).length : Int)
    else ((s.tiles.filter fun e => decide (e.1 / 1024 = a / 512) && decide (e.2.job = a % 512)).length : Int)) +
  (s.moves.filter fun m => decide ((if m.toIdle then m.gainer / 512 * 512 else m.gainer) = a)).length -
  (s.moves.filter fun m => decide (m.donor = a)).length

/-- R17: idle, or an active job. -/
def Sys2Proof.Spec.takesPart (s : State) (a : Nat) : Prop := a % 512 = 0 ∨ ∃ j, s.liveJob? a = some j ∧ j.status = .active

/-- No tile of a tile's window holds a transit lock: a tile that its job's end or freeze sends to idle sets none (R18, R21; log entry 82). -/
def Sys2Proof.Spec.unlockedAround (s : State) (t : Nat) : Prop :=
  ∀ u, Spec.around t u → ∀ m ∈ s.moves, m.locked = true → ¬Spec.around m.tile u

/-- R18: tile `t` qualifies to move to job `b`. -/
def Sys2Proof.Spec.qualifies (s : State) (t b : Nat) : Prop :=
  let a := s.owner t
  let (na, nb) := ((Spec.projected s a).toNat, (Spec.projected s b).toNat)
  let (wa, wb) := (Spec.pressure s a, Spec.pressure s b)
  (∃ u, Spec.beside t u ∧ s.owner u = b) ∧ a ≠ b ∧ a % 512 ≠ 0x1FF ∧ b % 512 ≠ 0x1FF ∧ Spec.takesPart s a ∧ Spec.takesPart s b ∧
  (a % 512 ≠ 0 → (s.job a).anchor ≠ t ∧ Spec.simple s t a) ∧ (s.tile t).lock = false ∧
  (∀ u, Spec.beside t u → s.owner u = b → (s.tile u).lock = false) ∧ (Spec.floor s a : Int) < Spec.projected s a ∧
  Spec.projected s b < Spec.ceiling s b ∧ 0 < wb ∧
  (wa = 0 ∨ (16 + (s.die (t / 1024)).hyst.toNat) * wa ^ 2 * nb * (nb + 1) ≤ 16 * wb ^ 2 * na * (na - 1) ∧
    wa ^ 2 * nb * (nb + 1) < wb ^ 2 * na * (na - 1)) ∧ Spec.unlockedAround s t

/-- Tile `t` is the lowest of its owner's that qualifies to move to `b` (R20). -/
def Sys2Proof.Spec.lowestFor (s : State) (t b : Nat) : Prop :=
  Spec.qualifies s t b ∧ ∀ u, u < t → s.owner u = s.owner t → ¬Spec.qualifies s u b

/-- R15, R17, R18, R19, R20: at cycle 0 of a border epoch a die chooses for each ordered pair of jobs the lowest tile that qualifies, unless it is
also that of a pair with a gainer of lower number; the request names the tile and its lowest neighbour that is the gainer's. The requests of
the epoch take the place of any that were left, and stand by rising tile. Before that cycle nothing happens. Of the model's own in it: log
entries 8 and 82 (which tiles on their way to idle set no transit lock). -/
def Obligations.BorderEpochsAskForMoves : Prop :=
  ∀ (die : Nat) (s : State), die < 8 →
    ((s.die die).epochAt ≤ s.now → ∃ l, exec (.borderEpochSnapshot die) s = .next { s with
        dies := mapSet s.dies die { s.die die with epochAt := (s.die die).epochAt + 4096, requests := l } } ∧
      (Spec.rising s.tiles → Spec.rising s.jobs → (∀ e ∈ s.tiles, e.1 < 8192 ∧ e.2.job < 512) → (∀ e ∈ s.jobs, e.1 % 512 ≠ 0) →
        l.Pairwise (fun q r => q.tile < r.tile) ∧
        ∀ r, r ∈ l ↔ r.donor = s.owner r.tile ∧ r.gainer % 512 ≠ 0 ∧ r.gainer / 512 = die ∧ Spec.lowestFor s r.tile r.gainer ∧
          (∀ b, b < r.gainer → b % 512 ≠ 0 → ¬Spec.lowestFor s r.tile b) ∧
          Spec.beside r.tile r.near ∧ s.owner r.near = r.gainer ∧ ∀ u, Spec.beside r.tile u → s.owner u = r.gainer → r.near ≤ u)) ∧
    (s.now < (s.die die).epochAt → exec (.borderEpochSnapshot die) s = .next s)

/-- R17: a die's border epoch begins once its cycle 0 has come, and the next one 4,096 cycles after it. -/
def Sys2Proof.Spec.EpochsBegin : Prop :=
  ∀ (die : Nat) (s : State), die < 8 → (s.die die).epochAt ≤ s.now →
    ∃ t, exec (.borderEpochSnapshot die) s = .next t ∧ (t.die die).epochAt = (s.die die).epochAt + 4096 ∧ t.tiles = s.tiles ∧
      t.jobs = s.jobs ∧ t.moves = s.moves ∧ t.threads = s.threads ∧ t.ms = s.ms

/-- A request passes (R21, R25, R211; log entries 82 and 83). -/
def Sys2Proof.Spec.passes (s : State) (r : Request) : Prop :=
  Spec.beside r.tile r.near ∧ s.owner r.tile = r.donor ∧ s.owner r.near = r.gainer ∧
  (r.donor % 512 ≠ 0 → Spec.simple s r.tile r.donor) ∧ (∀ m ∈ s.moves, m.tile ≠ r.tile) ∧ Spec.unlockedAround s r.tile ∧
  (Spec.floor s r.donor : Int) < Spec.projected s r.donor ∧ Spec.projected s r.gainer < Spec.ceiling s r.gainer ∧
  (∀ e ∈ s.threads, e.2.pcn / 8 = r.tile → e.2.job = r.donor → e.2.upcall = .none) ∧
  (s.tile r.tile).lock = false ∧ (s.tile r.near).lock = false ∧
  (∀ p, p / 8 = r.tile ∨ p / 8 = r.near → (s.core p).status ≠ .scrub) ∧ Spec.takesPart s r.donor ∧ Spec.takesPart s r.gainer ∧
  ∀ x, (x = r.donor ∨ x = r.gainer) → x % 512 ≠ 0 → ∀ e ∈ s.cores, e.2.halted = true → s.owner (e.1 / 8) ≠ x

/-- R21, R25, R29, R30, R31: Lantern takes all the requests of a die in one step, in their order, and no commit falls between two of them.
One that does not pass is dropped; one that does starts the loss sequence, with the loss upcall on the tile's lowest LIVE core and its
event record if the donor has UPVEC; NEWEPOCH and NEWCOUNT are the donor's once its moves in transit have committed. Of the model's own in it:
log entries 78, 82 (which tiles on their way to idle set no transit lock), 83. -/
def Obligations.RequestsStartMoves : Prop :=
  (∀ (die : Nat) (s : State), exec (.transferRequest die) s =
    .next ((s.die die).requests.foldl (fun s r => if s.valid r then s.startLoss r.tile r.donor r.gainer none else s)
      { s with dies := mapSet s.dies die { s.die die with requests := [] } })) ∧
  ∀ (die : Nat) (s r1 : State) (r : Request) (m : Move), (s.die die).requests = [r] →
    r1 = { s with dies := mapSet s.dies die { s.die die with requests := [] } } →
    m = ⟨r.tile, r.donor, r.gainer, s.nextId, none, s.gts, false, false, 0, false, true, none⟩ →
    (¬Spec.passes s r → exec (.transferRequest die) s = .next r1) ∧
    (Spec.passes s r → (r.donor % 512 = 0 ∨ (s.job r.donor).upVec = 0 ∨ ∀ p, p / 8 = r.tile → (s.core p).status ≠ .live) →
      exec (.transferRequest die) s = .next { r1 with nextId := s.nextId + 1, moves := s.moves ++ [m] }) ∧
    (Spec.passes s r → r.donor % 512 ≠ 0 → (s.job r.donor).upVec ≠ 0 → Memory.wf s.ms.mem = true → ∀ p, p / 8 = r.tile →
      (s.core p).status = .live → (∀ q, q / 8 = r.tile → q < p → (s.core q).status ≠ .live) →
      ∃ t u, exec (.transferRequest die) s = .next t ∧
        t.moves = s.moves ++ [{ m with upcall := some u, deadline := s.gts + 7408 }] ∧
        (t.thread u).pcn = p ∧ (t.thread u).job = r.donor ∧ (t.thread u).status = .ready ∧ (t.thread u).upcall = .loss ∧
        (t.thread u).pc = BitVec.ofNat 64 ((s.job r.donor).upVec.toNat / 2 * 2) ∧ (t.thread u).upArg = 0x2FFE0 ∧
        (t.thread u).lcn = 0xFFFFFFFF ∧ (t.thread u).image = some ((s.job r.donor).nimg - 1) ∧ (t.thread u).slot ≠ none ∧
        memGet t.ms.mem (p * 2 ^ 18 + 0x2FFE0) = 1 ∧
        (memGet t.ms.mem (p * 2 ^ 18 + 0x2FFE1)).toNat = r.tile % 32 ∧
        (memGet t.ms.mem (p * 2 ^ 18 + 0x2FFE2)).toNat = r.tile / 32 % 32 ∧
        Spec.number t (p * 2 ^ 18 + 0x2FFE4) 2 = r.gainer % 2 ^ 16 ∧
        (r.donor ≠ r.gainer → Spec.number t (p * 2 ^ 18 + 0x2FFE8) 4 = ((s.job r.donor).epoch.toNat + 1 + (s.moves.filter fun m =>
            decide (m.donor = r.donor) || decide ((if m.toIdle then m.gainer / 512 * 512 else m.gainer) = r.donor)).length) % 2 ^ 32 ∧
          Spec.number t (p * 2 ^ 18 + 0x2FFEC) 2 = (Spec.projected s r.donor - 1).toNat % 2 ^ 16) ∧
        Spec.number t (p * 2 ^ 18 + 0x2FFF0) 8 = (s.gts + 7408).toNat ∧
        (∀ a, (a < p * 2 ^ 18 + 0x2FFE0 ∨ p * 2 ^ 18 + 0x30000 ≤ a) → memGet t.ms.mem a = memGet s.ms.mem a))

/-- Whether no operation in flight reads or writes the banks of a tile, or stands in an engine queue there. -/
abbrev Sys2Proof.Spec.untouched (s : State) (tile : Nat) : Prop :=
  ∀ e ∈ s.ops, e.2.touches tile = false ∧ ∀ p, p / 8 = tile → e.1 ∉ (s.core p).copyQ ∧ e.1 ∉ (s.core p).matQ

/-- R31, R36: what has drained before a tile that has stopped is evacuated: no operation of its owner reads or writes its banks, but for one whose
record is on its way to a pool; none of a thread that stands on it is in flight, but for a load that waits at a bank; no command of its engines;
no thread of the owner there waits at the drain of an EXIT or holds a redirected access; and an ended job has no operation in flight. -/
abbrev Sys2Proof.Spec.settled (s : State) (m : Move) : Prop :=
  (∀ e ∈ s.ops, e.2.job = s.owner m.tile →
    (e.2.touches m.tile = true → ∃ d, e.2.phase = .pooling d) ∧
    (∀ th, mapGet? s.threads e.2.uid = some th → th.place / 8 = m.tile → e.2.phase = .waiting) ∧
    (e.2.kind.isEngine = true → e.2.pcn / 8 ≠ m.tile)) ∧
  (∀ e ∈ s.threads, e.2.job = s.owner m.tile → e.2.pcn / 8 = m.tile → e.2.redirect = none ∧ e.2.status ≠ .waiting .exitDrain) ∧
  ((∃ j, s.liveJob? m.donor = some j ∧ j.status = .ended) → ∀ e ∈ s.ops, e.2.job ≠ m.donor)

/-- R31, R37: the threads of a ceded tile go to a tile that stays the donor's, also when the donor is suspended; a READY one is READY there, before
its instruction or the PFX that governs it, and holds no image on its way. -/
def Sys2Proof.Spec.ThreadsLeaveTheTile : Prop :=
  ∀ (tile v : Nat) (s : State) (m : Move) (j : Job) (u : Uid) (th : Thread), s.moveAt tile = some m → m.stopped = true →
    m.evacuated = false → m.tile = tile → Spec.settled s m → s.liveJob? m.donor = some j → j.status = .active ∨ j.status = .suspended →
    (∀ e ∈ s.jobs, e.2.saved.isSome = true → ∀ k, e.2.saved.map (·.kept) = some k → ∀ x ∈ k, x / 48 / 8 ≠ tile) →
    s.evacTile tile m.donor = some v → mapGet? s.threads u = some th → th.job = m.donor → th.pcn / 8 = tile → th.status = .ready →
    s.owner v = m.donor ∧ v ≠ tile ∧
    ∃ t q, exec (.evacuation tile) s = .next t ∧ q / 8 = v ∧ (t.thread u).status = .migrating q .ready ∧ (t.thread u).image = none ∧
      (t.thread u).slot = none ∧ (t.thread u).pc = (th.pfx.map fun x => x.pc).getD th.pc ∧ (t.thread u).pfx = none

/-- R31, R36, R37, R109: at its deadline a move's tile stops, and its upcall ends; operations of its owner that touch the tile and have written
nothing fail with REASON 0x07. Once what goes on has drained, the threads of an active or suspended donor leave for another of its tiles, and the
scrub of the cores begins: their banks read zero and empty, and every other byte of memory is as before. Here the donor has another thread, or is
not active. Of the model's own in it: log entries 2, 3, 8, 54, 57. -/
def Obligations.LossesStopAndScrub : Prop :=
  Spec.ThreadsLeaveTheTile ∧ ∀ (tile : Nat) (s : State) (m : Move), s.moveAt tile = some m →
    (m.stopped = false → m.deadline.toNat ≤ s.gts.toNat →
      (∃ e ∈ s.threads, e.2.job = m.donor ∧ m.upcall ≠ some e.1) ∨ s.jobActive m.donor = false →
      ∃ t, exec (.borderDeadline tile) s = .next t ∧
      t.moves = s.moves.map (fun x => if x.tile = tile then { x with stopped := true, upcall := none } else x) ∧ t.ms = s.ms ∧
      t.jobs = s.jobs ∧ t.tiles = s.tiles ∧
      (m.upcall = none → t.threads = s.threads ∧
        (Spec.untouched s tile → t = { s with moves := t.moves }) ∧
        (∀ id o, s.op? id = some o → o.job = s.owner tile → o.touches tile = true → o.wrote = false → (∀ a b c, o.kind ≠ .mcrd a b c) →
          o.phase = .arrived ∨ o.phase = .queued →
          t.op? id = some { o with phase := .failed ⟨o.pc, o.kind.addr, 0x07, 0⟩, jidx := none })) ∧
      (∀ u, m.upcall = some u → Spec.untouched s tile → t.threads = mapErase (s.leaveSlot u).threads u)) ∧
    (m.stopped = false → s.gts.toNat < m.deadline.toNat → exec (.borderDeadline tile) s = .next s) ∧
    (m.stopped = true → m.evacuated = false → m.tile = tile → Spec.settled s m →
      (∀ j, s.liveJob? m.donor = some j → j.status = .active ∨ j.status = .suspended → s.evacTile tile m.donor ≠ none) →
      (∀ p, p / 8 = tile → s.waitersAt p = []) → (∀ e ∈ s.jobs, e.2.saved = none) →
      ∃ t, exec (.evacuation tile) s = .next t ∧
        t.moves = s.moves.map (fun x => if x.tile = tile then { x with evacuated := true, scrubAt := s.now } else x) ∧
        (∀ p, p / 8 = tile → (t.core p).status = .scrub ∧ (t.core p).journal = [] ∧ (t.core p).acc = Vector.replicate 4 Acc.reset) ∧
        (∀ k, memGet t.ms.mem k = if k / 2 ^ 21 = tile then 0 else memGet s.ms.mem k) ∧
        (∀ g ∈ t.ms.full, g / 2 ^ 17 ≠ tile) ∧ (∀ g ∈ s.ms.full, g / 2 ^ 17 ≠ tile → g ∈ t.ms.full) ∧ t.ops = s.ops ∧
        ((∀ e ∈ s.threads, e.2.place / 8 ≠ tile) → t.threads = s.threads)) ∧
    (m.stopped = true → m.evacuated = false → m.tile = tile → ¬Spec.settled s m → exec (.evacuation tile) s = .next s)

/-- The right of a page after a launch or a gain (R104), with bit 4 for the context area. -/
def Sys2Proof.Spec.launchPage (j : Job) (page : Nat) : Nat :=
  let cb := j.cbBase.toNat / 4096
  if page < cb then 16
  else if page = cb then 1
  else if (0x2FFE0 - j.spill * 1024) / 4096 ≤ page then 3
  else 3 + (if j.rc = true ∧ page ≤ cb + 8 then 4 else 0) + (if j.lz = true then 8 else 0)

/-- R22, R31, R33, R36, R46, R104: once its scrub has ended, within 12,288 cycles, the commit gives the tile to its gainer, or to idle, advances
the epochs of both jobs and ends the move, in the order of validation. The gainer's cores are LIVE, with the CSRs of its anchor, the rights of
its launch and its constant bank; the rest of their memory stays as the scrub left it. Of the model's own in it: log entries 3, 8, 46. -/
def Obligations.MovesCommit : Prop :=
  ∀ (tile : Nat) (s : State) (m : Move), s.moveAt tile = some m → m.launch = none →
    (m.evacuated = true → m.scrubAt + 12288 ≤ s.now → s.scrubbed m = true) ∧ (m.evacuated = false → s.scrubbed m = false) ∧
    (s.scrubbed m = false ∨ (∃ x ∈ s.moves, x.seq < m.seq ∧ m.donor % 512 ≠ 0 ∧ m.donor % 512 ≠ 0x1FF ∧
        (x.donor = m.donor ∨ x.gainer = m.donor)) → exec (.moveCommit tile) s = .next s) ∧
    (s.scrubbed m = true → (∀ x ∈ s.moves, m.seq ≤ x.seq) → ∀ b, b = (if m.toIdle then m.gainer / 512 * 512 else m.gainer) →
      m.donor ≠ b → (∀ j, s.liveJob? m.donor = some j → j.status = .active) →
      (b % 512 = 0 → ∃ t, exec (.moveCommit tile) s = .next t ∧ t.moves = s.moves.erase m ∧ t.tile tile = ⟨0, false⟩ ∧
        (∀ p, (t.core p) = if p / 8 = tile then { s.core p with status := .live } else s.core p) ∧ t.ms = s.ms ∧
        t.threads = s.threads ∧
        (∀ j, s.liveJob? m.donor = some j → t.liveJob? m.donor = some { j with epoch := j.epoch + 1 })) ∧
      (∀ j, b % 512 ≠ 0 → s.liveJob? b = some j → j.lockReq = false → j.upVec = 0 → j.anchor ≠ tile →
        (∀ e ∈ s.jobs, e.2.saved = none) → j.cbBase.toNat = 0x2000 → Memory.wf s.ms.mem = true → s.ms.weak = [] →
        ∃ t, exec (.moveCommit tile) s = .next t ∧ t.moves = s.moves.erase m ∧
          t.tile tile = ⟨b % 512, (s.tile j.anchor).lock⟩ ∧ (∀ x, x ≠ tile → t.tile x = s.tile x) ∧
          (∀ p, p / 8 = tile → (t.core p).status = .live ∧ (t.core p).splim = (s.core (j.anchor * 8)).splim ∧
            (t.core p).hzchk = (s.core (j.anchor * 8)).hzchk ∧ (t.core p).wrrw = (s.core (j.anchor * 8)).wrrw ∧
            (∀ page, page < 48 → (t.lmpuEntry p page).toNat = Spec.launchPage j page) ∧
            (∀ i, i < 4096 → memGet t.ms.mem (p * 2 ^ 18 + 0x2000 + i) = memGet s.ms.mem (j.anchor * 2 ^ 21 + 0x2000 + i))) ∧
          (∀ k, (k / 2 ^ 21 ≠ tile ∨ k % 2 ^ 18 < 0x2000 ∨ 0x3000 ≤ k % 2 ^ 18) → memGet t.ms.mem k = memGet s.ms.mem k) ∧
          (∀ p, p / 8 ≠ tile → t.core p = s.core p) ∧ t.threads = s.threads ∧
          t.liveJob? b = some { j with epoch := j.epoch + 1 } ∧
          (∀ d, s.liveJob? m.donor = some d → t.liveJob? m.donor = some { d with epoch := d.epoch + 1 })))

/-- R35, R57, R430: the seed commit of a launch makes its job under the die's lowest free index, with the next launch serial, epoch 1, the
seed tile as its anchor and the records of the launch in its pool. Of the model's own in it: log entry 68. -/
def Obligations.SeedsCommit : Prop :=
  ∀ (tile i : Nat) (s : State) (m : Move) (n : Nat) (l : Launch), s.moveAt tile = some m → m.launch = some n →
    s.hub.launches.find? (fun x => decide (x.id = n)) = some l → s.freeIndex (tile / 1024) = some i → s.scrubbed m = true →
    (∀ x ∈ s.moves, m.seq ≤ x.seq) → l.job.lockReq = false → (∀ j, s.liveJob? m.donor = some j → j.status = .active) →
    1 ≤ i ∧ i ≤ 510 ∧ (∀ x, 1 ≤ x → x < i → s.liveJob? (tile / 1024 * 512 + x) ≠ none) ∧
    ∃ t j, exec (.seedCommit tile) s = .next t ∧ t.tile tile = ⟨i, false⟩ ∧ t.moves = s.moves.erase m ∧
      t.liveJob? (tile / 1024 * 512 + i) = some j ∧ j.epoch = 1 ∧ j.anchor = tile ∧ j.status = .active ∧
      j.serial = ((s.die (tile / 1024)).serial + 1) % 65536 ∧ (t.die (tile / 1024)).serial = j.serial ∧
      j.pool = l.tasks.map (fun r => ⟨r, false⟩) ∧ j.cbBase = l.job.cbBase ∧ j.trapVec = l.job.trapVec ∧
      (∀ p, p / 8 = tile → (t.core p).status = .live ∧ (t.core p).splim = BitVec.ofNat 64 (0x2FFE0 - l.job.spill * 1024)) ∧
      t.hub.launches = s.hub.launches.filter (fun x => decide (x.id ≠ n)) ∧ t.threads = s.threads

/-! ## Faults, DARK, the debugger -/

/-- R201: a die fault freezes every job of its die, a device fault every job of the device: their threads and operations are gone, and
what is left of them is frozen. -/
def Sys2Proof.Spec.FaultsFreezeJobs : Prop :=
  ∀ (die tag : Nat) (s : State) (j : Job), s.liveJob? tag = some j → j.status ≠ .frozen → tag % 512 ≠ 0 → s.tilesOf tag ≠ [] →
    (∃ t, exec (.dieFault die) s = .next t ∧ (tag / 512 = die → (∀ e ∈ t.threads, e.2.job ≠ tag) ∧ (∀ e ∈ t.ops, e.2.job ≠ tag) ∧
      ∀ k, t.liveJob? tag = some k → k.status = .frozen ∧ k.pool = [])) ∧
    ∃ t, exec .deviceFault s = .next t ∧ (∀ e ∈ t.threads, e.2.job ≠ tag) ∧ (∀ e ∈ t.ops, e.2.job ≠ tag) ∧
      ∀ k, t.liveJob? tag = some k → k.status = .frozen ∧ k.pool = []

/-- R202, R203: a core that its job asked to be DARK is set so: the threads in its slots and images, and those parked from it, are gone with
their operations and the records that those were sending to a pool, its race regions close (R145), its journal and queues are empty, and its
dispatched record stands at the head of the pool; a move whose upcall has ended so waits for no upcall. -/
def Sys2Proof.Spec.CoresTurnDark : Prop :=
  ∀ (p tag : Nat) (s : State), tag = s.owner (p / 8) → (s.core p).status = .live →
    ((s.core p).darkAt ≠ none → (∃ e ∈ s.threads, e.2.job = tag ∧ e.2.pcn ≠ p) →
      ∃ t, exec (.darkApply p) s = .next t ∧ (t.core p).status = .dark ∧ (t.core p).darkAt = none ∧ (t.core p).journal = [] ∧
        (∀ k : Fin 4, (t.core p).regions[k] = (s.core p).regions[k] + 1) ∧
        (t.core p).copyQ = [] ∧ (t.core p).matQ = [] ∧ (t.core p).dispatched = none ∧
        t.threads = s.threads.filter (fun e => !(decide (e.2.pcn = p) &&
          (e.2.image.isSome || e.2.slot.isSome || decide (e.2.status = .parked)))) ∧
        (∀ e ∈ s.threads, e ∉ t.threads → ∀ o ∈ t.ops, o.2.uid ≠ e.1) ∧ t.ms = s.ms ∧ t.tiles = s.tiles ∧
        (∀ r ∈ s.fab.poolReqs, r.home = none → ∀ i o e, r.op = some i → (i, o) ∈ s.ops → e ∈ s.threads → e ∉ t.threads → o.uid = e.1 →
          r ∉ t.fab.poolReqs) ∧
        (∀ m ∈ t.moves, ∀ u, m.upcall = some u → ∀ e ∈ s.threads, e.1 = u → e ∈ t.threads) ∧
        (t.job tag).pool = (match (s.core p).dispatched with | some r => [⟨r, true⟩] | none => []) ++ (s.job tag).pool) ∧
    ((s.core p).darkAt = none → exec (.darkApply p) s = .next s)

/-- R210, R211, R212: the debugger's stop halts a core and every member of its halt groups; a core and a group keep the first cause;
resume lets a halted core go on, for one instruction with STEP, and a group that halts no core any more has no cause; attach sets ATT and
ENGFRZ, and without a debugger there is no STEP. -/
def Sys2Proof.Spec.DebuggerControls : Prop :=
  ∀ (p : Nat) (b : Bool) (z : BitVec 4) (s : State),
    (∃ t, exec (.debuggerStop p) s = .next t ∧ (t.core p).halted = true ∧
      (∀ q, q ≠ p → (mapGet? s.cores q).isSome = true → (s.core q).hgmask &&& (s.core p).hgmask ≠ 0 → (t.core q).halted = true) ∧
      (∀ q, q ≠ p → (s.core q).hgmask &&& (s.core p).hgmask = 0 → t.core q = s.core q) ∧
      (∀ q c, (s.core q).stopCause = some c → (t.core q).stopCause = some c) ∧
      (∀ g : Fin 4, t.groups[g] = if (s.core p).hgmask.getLsbD g.val then some (s.groups[g].getD 3) else s.groups[g]) ∧
      t = { s with cores := t.cores, groups := t.groups }) ∧
    ((s.core p).halted = true → ∃ t, exec (.debuggerResume p) s = .next { s with
      groups := t
      cores := mapSet s.cores p { s.core p with
        halted := false, haltGrp := 0, stopCause := none, stepping := (s.core p).step, nextIssue := max (s.core p).nextIssue s.now } } ∧
      ∀ g : Fin 4, (t[g] = none ∨ t[g] = s.groups[g]) ∧
        ((∀ e ∈ s.cores, e.1 ≠ p → e.2.halted = true → e.2.haltGrp.getLsbD g.val = false) → Spec.rising s.cores → t[g] = none)) ∧
    exec (.debuggerAttach p b z) s = .next { s with cores := mapSet s.cores p { s.core p with
      att := b, engfrz := z, step := (s.core p).step && b, stepping := (s.core p).stepping && b } }

/-! ## Suspension -/

/-- R37, R204, R213: a suspension sets LOCK on the job's tiles and stops the threads at an instruction boundary; nothing is discarded. A move
of the job that has not stopped is cancelled: its upcall is gone and the epochs of both jobs advance. One past its stop goes on: the
tile that a suspended donor gives up is none of the suspended territory, and one that would come to the job passes to idle. Here the job has
something left to run, and there is at most one move, whose donor has another thread. -/
def Sys2Proof.Spec.SuspensionHalts : Prop :=
  ∀ (tag : Nat) (s : State), s.jobActive tag = true → (s.job tag).pool ≠ [] ∨ (∃ e ∈ s.threads, e.2.job = tag) →
    ((∀ m ∈ s.moves, m.donor ≠ tag ∧ m.gainer ≠ tag) →
      ∃ t, exec (.territorySuspend tag) s = .next t ∧ (t.job tag).status = .suspended ∧
        (∃ v, (t.job tag).saved = some v ∧ v.tiles = (s.tilesOf tag).filter (fun x => !s.moves.any fun m => decide (m.tile = x)) ∧
          v.haltAt = s.now ∧ v.gts = s.gts ∧ v.flushed = false ∧ v.lock = (s.tile (s.job tag).anchor).lock ∧ v.store = [] ∧
          v.writing = [] ∧ v.restoring = false) ∧
        (∀ x ∈ s.tilesOf tag, (t.tile x).lock = true ∧ (t.tile x).job = (s.tile x).job) ∧
        (∀ x, x ∉ s.tilesOf tag → t.tile x = s.tile x) ∧
        t.threads = s.threads.map (fun e => if e.2.job = tag
          then (e.1, { e.2 with pc := (e.2.pfx.map fun x => x.pc).getD e.2.pc, pfx := none }) else e) ∧
        t.ops = s.ops ∧ t.ms = s.ms ∧ t.cores = s.cores ∧ t.moves = s.moves) ∧
    (∀ m, s.moves = [m] → m.donor = tag ∨ m.gainer = tag → m.donor ≠ m.gainer → m.gainer % 512 ≠ 0 → m.toIdle = false →
      (∃ e ∈ s.threads, e.2.job = m.donor ∧ m.upcall ≠ some e.1) →
      ∃ t v, exec (.territorySuspend tag) s = .next t ∧ (t.job tag).saved = some v ∧ (t.job tag).status = .suspended ∧
        (m.stopped = false → t.moves = [] ∧ v.tiles = s.tilesOf tag ∧
          (∀ a j, (a = m.donor ∨ a = m.gainer) → s.liveJob? a = some j → (t.job a).epoch = j.epoch + 1) ∧
          ∀ u, m.upcall = some u → Spec.rising s.threads → mapGet? t.threads u = none) ∧
        (m.stopped = true → m.donor = tag → t.moves = [m] ∧ v.tiles = (s.tilesOf tag).filter fun x => decide (m.tile ≠ x)) ∧
        (m.stopped = true → m.gainer = tag → t.moves = [{ m with toIdle := true }]))

/-- The cores of a suspended territory, in the order of their slots. -/
def Sys2Proof.Spec.slotCores (v : SaveImage) : List Pcn := v.tiles.flatMap fun x => (List.range 8).map fun c => x * 8 + c

/-- The start of a core's slot in the save area (R208). -/
def Sys2Proof.Spec.slot (j : Job) (v : SaveImage) (p : Pcn) : Word :=
  BitVec.ofNat 64 (j.saveArea.toNat + 0x10000 + (Spec.slotCores v).idxOf p * 0x50000)

/-- `n` bytes from `a` on are on their way to the save area for core `p`: `bs`, and zeros after them. -/
def Sys2Proof.Spec.onTheirWay (l : List Saving) (p : Pcn) (a : Word) (n : Nat) (bs : List Byte) : Prop :=
  (l.map (·.len)).sum = n ∧ (∀ w ∈ l, w.pcn = p ∧ 1 ≤ w.len) ∧
  ∀ i, i < n → ∃ w ∈ l, ∃ k, k < w.len ∧ w.addr + BitVec.ofNat 64 k = a + BitVec.ofNat 64 i ∧ w.data.getD k 0 = bs.getD i 0

/-- R204, R207, R208, R214: what is on its way to a save area is written a sector at a time, as the suspended job's own access to a PIN-mapped
page: to a home on another tile it goes over the mesh, and at its home its bytes are written with zeros after them. A page that is not
PIN-mapped is a job fault. -/
def Sys2Proof.Spec.SavesPerform : Prop :=
  ∀ (tag : Nat) (s : State) (j : Job) (v : SaveImage) (w : Saving) (n T H : Nat) (next : List Saving), s.liveJob? tag = some j →
    j.saved = some v → v.flushed = true → v.writing = [w] → 1 ≤ w.len → n = min w.len (64 - w.addr.toNat % 64) → T = w.pcn / 8 →
    H = homeTile w.pcn w.addr → s.op? v.id = none →
    next = (if w.len ≤ n then [] else [⟨w.pcn, w.addr + BitVec.ofNat 64 n, w.len - n, w.data.drop n⟩]) →
    ∀ mapped : Bool, mapped = ((s.leafAt (sliceNo (tag / 512) w.addr) tag j.ptRoot w.addr).map fun e => e.getLsbD 6).getD false →
    (T ≠ H → Spec.noTrip s v.id → ∃ t, exec (.suspendFlush tag) s = .next t ∧ t.job tag = j ∧
      { t with jobs := s.jobs } = Spec.setsOut s v.id 0 T H w.addr n true) ∧
    (∀ x pa pte e key r, x = ⟨x.id, v.id, 0, T, H, w.addr, n, true, .there⟩ → Spec.atItsHome s x → (T = H → x.id = v.id) →
      s.xlat tag w.addr n ⟨false, true, false, true⟩ = .ok (tag / 512) pa pte e → tag / 512 < 8 → key = ownerKey (tag / 512) pa →
      (s.tlbFill (sliceNo (tag / 512) w.addr) tag j.ptRoot w.addr).lineGate (sliceNo (tag / 512) w.addr) key n x.id pte (s.winInst e)
        (masterJob tag) true = .serve r →
      pte.getLsbD 7 = false → pte.getLsbD 8 = false → s.ms.poison = [] → s.ms.seals = [] → s.fab.watches = [] →
      Memory.wf s.ms.mem = true → mapped = true →
      ∃ t, exec (.suspendFlush tag) s = .next t ∧
        (∀ k, memGet t.ms.mem k = if key ≤ k ∧ k < key + n then w.data.getD (k - key) 0 else memGet s.ms.mem k) ∧
        t.threads = s.threads ∧ t.ops = s.ops ∧
        (T = H → t.job tag = { j with saved := some { v with writing := next } }) ∧
        (T ≠ H → t.job tag = j ∧ Spec.comesBack t x 2 (.ok []))) ∧
    (∀ x, Spec.onlyTrip s x → T ≠ H → x = ⟨x.id, v.id, 0, T, H, w.addr, n, true, x.stage⟩ →
      (∀ d, x.stage = .done (.ok d) → ∃ t, exec (.suspendFlush tag) s = .next t ∧
        t.job tag = { j with saved := some { v with writing := next } } ∧ { t with jobs := s.jobs } = Spec.over s x) ∧
      (∀ b a, x.stage = .done (.fail b a) → j.status ≠ .frozen → ∃ t, exec (.suspendFlush tag) s = .next t ∧
        ∀ k, t.liveJob? tag = some k → k.status = .frozen)) ∧
    (T = H → Spec.noTrip s v.id → mapped = false → j.status ≠ .frozen → ∃ t, exec (.suspendFlush tag) s = .next t ∧
      ∀ k, t.liveJob? tag = some k → k.status = .frozen)

/-- Bytes of an engine record hold AT0 to AT3 with their modes, the queued commands with their values and their progress, and the beats of the
FIFOs (R204, R208; log entry 63 for the layout). -/
def Sys2Proof.Spec.recordHolds (s : State) (r : EngineRec) (bs : List Byte) : Prop :=
  let at_ (off n : Nat) : Nat := leNat ((bs.drop off).take n)
  (∀ i : Fin 4, at_ i.val 1 = (r.core.acc[i]).mode.code ∧
    ∀ e, e < 256 → at_ (0x40 + 0x800 * i.val + 8 * e) 8 = ((r.core.acc[i]).elems.getD e 0).toNat) ∧
  (∀ q off, q = r.core.copyQ ∧ off = 0x2040 ∨ q = r.core.matQ ∧ off = 0x2240 → at_ off 8 = q.length ∧
    ∀ k id o, q[k]? = some id → s.op? id = some o → at_ (off + 8 + 80 * k) 8 = id ∧ at_ (off + 80 + 80 * k) 8 = o.aux ∧
      ∀ i x, o.kind.words[i]? = some x → at_ (off + 16 + 80 * k + 8 * i) 8 = x) ∧
  ∀ i l, i < 4 → mapGet? r.beats (r.pcn / 8 * 4 + i) = some l → at_ (0x2800 + 0x1800 * i) 8 = l.length ∧
    ∀ k b, l[k]? = some b → at_ (0x2808 + 0x1800 * i + 65 * k) 1 = (if b = none then 0 else 1) ∧
      ∀ d, b = some d → (bs.drop (0x2809 + 0x1800 * i + 65 * k)).take 64 = d

/-- An engine record as one stands on a core: two commands in a queue, and one more that a halt put back, each with its operation; beats of one
sector each, in the record of core 0 of the tile. -/
abbrev Sys2Proof.Spec.recordFits (s : State) (r : EngineRec) : Prop :=
  (∀ q, q = r.core.copyQ ∨ q = r.core.matQ → q.length ≤ 4 ∧ ∀ id ∈ q, id < 2 ^ 64 ∧ ∃ o, s.op? id = some o ∧ o.aux < 2 ^ 64 ∧
    ∀ x ∈ o.kind.words, x < 2 ^ 64) ∧
  (∀ i : Fin 4, (r.core.acc[i]).elems.length = 256) ∧ Spec.rising r.beats ∧
  ∀ e ∈ r.beats, e.1 / 4 = r.pcn / 8 ∧ r.pcn % 8 = 0 ∧ e.2.length ≤ 64 ∧ ∀ d, some d ∈ e.2 → d.length = 64

/-- R204, R208: what the flush sends to the save area: the header, zeros in the context part of each slot, and the engine records. -/
def Sys2Proof.Spec.FlushWrites : Prop :=
  (∀ (s : State) (r : EngineRec), Spec.recordFits s r → Spec.recordHolds s r (s.recordBytes r)) ∧
  ∀ (tag : Nat) (s : State) (j : Job) (v : SaveImage), s.liveJob? tag = some j → j.saved = some v → v.tiles.length ≤ 1024 →
    j.saveArea.toNat < 2 ^ 52 →
    ((v.areaHeader tag).take 2 = leBytes 2 tag ∧ ((v.areaHeader tag).drop 8).take 8 = leBytes 8 v.gts.toNat ∧
      leNat (((v.areaHeader tag).drop 16).take 4) = 8 * v.tiles.length % 2 ^ 32 ∧
      (v.areaHeader tag).drop 32 = (Spec.slotCores v).flatMap fun p => leBytes 2 p) ∧
    (j.conf = false → ∃ (x : SaveImage) (head : List Saving) (zero : Pcn → List Saving) (chunk : EngineRec → Nat → List Saving),
      s.flushArea tag v = { s with jobs := mapSet s.jobs tag { j with saved := some x } } ∧
      x = { v with writing := x.writing, store := x.store } ∧
      x.writing = head ++ (Spec.slotCores v).flatMap zero ++ v.engines.flatMap (fun r => (List.range 15).flatMap (chunk r)) ∧
      Spec.onTheirWay head ((Spec.slotCores v).headD 0) j.saveArea 0x10000 (v.areaHeader tag) ∧
      (∀ p ∈ Spec.slotCores v, Spec.onTheirWay (zero p) p (Spec.slot j v p) 0x10000 []) ∧
      (∀ r ∈ v.engines, ∀ k, k < 15 → Spec.onTheirWay (chunk r k) r.pcn (Spec.slot j v r.pcn + BitVec.ofNat 64 (0x10000 + 4096 * k)) 4096
        ((s.recordBytes r).drop (4096 * k))) ∧
      x.store.map (fun c => (c.pcn, c.page)) = v.store.map (fun c => (c.pcn, c.page)) ++
        v.engines.flatMap fun r => (List.range 15).map fun k => (r.pcn, 64 + k))

/-- R40, R204, R206, R207, R208: once the operations of a suspended job have come to rest and its ceded tiles have gone, its threads leave
their slots, and the state of its cores is recorded with the pages that stay in place and their LMPU entries; then the save area is
written. 2,048 cycles after the halt a matrix command or a link-sending copy that a link still holds is put back at the head of its queue.
Of the model's own in it: log entry 63. -/
def Sys2Proof.Spec.SuspensionFlushes : Prop :=
  Spec.SavesPerform ∧ Spec.FlushWrites ∧ ∀ (tag : Nat) (s : State) (v : SaveImage), (s.job tag).saved = some v →
    (v.flushed = false → s.movingOps tag = false → (∀ m ∈ s.moves, m.donor ≠ tag) →
      ∃ (t : State) (w : SaveImage), exec (.suspendFlush tag) s = .next (t.flushArea tag w) ∧ (t.job tag).saved = some w ∧
      w.flushed = true ∧ w.tiles = v.tiles ∧
      (∀ k, k ∈ w.kept ↔ k ∈ s.ms.lmap ∧ k / 48 / 8 ∈ v.tiles ∧ ∀ e ∈ s.jobs, ∀ x, e.2.saved = some x → k ∉ x.kept) ∧
      (∀ e, e ∈ w.lmpu ↔ e ∈ s.ms.lmpu ∧ e.1 / 48 / 8 ∈ v.tiles ∧ ∀ f ∈ s.jobs, ∀ x, f.2.saved = some x → e.1 ∉ x.kept) ∧
      w.engines.map (fun r => (r.pcn, r.core.acc, r.core.copyQ, r.core.matQ)) = (Spec.slotCores v).map (fun p =>
        (p, (s.core p).acc, (s.core p).copyQ, (s.core p).matQ)) ∧
      (∀ u th, mapGet? s.threads u = some th → th.job = tag → (t.thread u).slot = none ∧ (t.thread u).status ≠ .running ∧
        (t.thread u).g = th.g ∧ (t.thread u).pc = th.pc) ∧ t.ms = s.ms ∧ t.ops = s.ops) ∧
    (v.flushed = false → s.movingOps tag = true ∨ (∃ m ∈ s.moves, m.donor = tag) → exec (.suspendFlush tag) s = .next s) ∧
    (∀ id o, s.op? id = some o → o.job = tag → o.phase = .started → v.flushed = false → v.haltAt + 2048 ≤ s.now →
      (∀ a b k r bits, o.kind.product = some (a, b, k, r, bits) → s.inFlight id = true ∨
          (nextBeat o.pieces 0 (beatsOf (o.pcn / 8) a (imageBytes k r bits))) ≠ none →
        ∃ t q, exec (.linkHoldTimeout id) s = .next t ∧ t.op? id = some q ∧ q.phase = .queued ∧ q.kind = o.kind ∧ q.pieces = [] ∧
          (t.core o.pcn).matQ = id :: (s.core o.pcn).matQ ∧ t.ms = s.ms ∧ t.threads = s.threads) ∧
      (o.kind.product = none → o.copyLink ≠ none → s.inFlight id = true →
        ∃ t, exec (.linkHoldTimeout id) s = .next t ∧ t.op? id = some { o with phase := .queued, pieces := [], aux := o.aux - 1 } ∧
          (t.core o.pcn).copyQ = id :: (s.core o.pcn).copyQ ∧ t.ms = s.ms ∧ t.threads = s.threads)) ∧
    (∀ id o, s.op? id = some o → o.job = tag → s.now < v.haltAt + 2048 → exec (.linkHoldTimeout id) s = .next s)

/-- Where a chunk of a core stands in the save area (R208): the context area's pages first, then the engine record, whose chunks are numbered
from 64 on, then the bank's pages. -/
def Sys2Proof.Spec.saveSlot (j : Job) (v : SaveImage) (p page : Nat) : Word :=
  Spec.slot j v p + BitVec.ofNat 64 (if 64 ≤ page then 0x10000 + (page - 64) * 4096
    else if page < j.cbBase.toNat / 4096 then page * 4096 else 0x20000 + page * 4096)

/-- Where the tag of a chunk stands (R208, R209; log entry 63). -/
def Sys2Proof.Spec.tagSlot (j : Job) (v : SaveImage) (p page : Nat) : Word :=
  Spec.slot j v p + BitVec.ofNat 64 (0x1F000 + 16 * (if 64 ≤ page then 16 + (page - 64)
    else if page < j.cbBase.toNat / 4096 then page else 32 + page))

/-- A page of a suspended job has been saved as `data`: it is the next chunk of the image, sealed if the job is confidential, and its bytes are on
their way to its slot (R206 to R209). -/
def Sys2Proof.Spec.isSaved (s t : State) (tag : Nat) (j : Job) (v w : SaveImage) (p page : Nat) (data : List Byte) : Prop :=
  (t.job tag).saved = some w ∧ ∃ c, w = { v with store := v.store ++ [c], writing := w.writing } ∧ c.pcn = p ∧ c.page = page ∧
    c.data = data ∧ (∀ g, g ∈ c.full ↔ g ∈ s.ms.full ∧ g / 256 = p * 64 + page) ∧
    (j.conf = false → c.sealed = none ∧ Spec.onTheirWay w.writing p (Spec.saveSlot j v p page) 4096 data) ∧
    (j.conf = true → ∃ (aad : BitVec 128) (body tg : List Saving), w.writing = body ++ tg ∧
      c.sealed = some (s.slotInst j.keyslot, aad, Config.chunkTag (s.slotInst j.keyslot) aad data) ∧
      (∀ y i a g, v.store.getLast? = some y → y.sealed = some (i, a, g) → aad = g) ∧
      Spec.onTheirWay body p (Spec.saveSlot j v p page) 4096 ((List.range 4096).map (Config.chunkByte (s.slotInst j.keyslot) aad data)) ∧
      Spec.onTheirWay tg p (Spec.tagSlot j v p page) 16
        (leBytes 16 (Config.chunkTag (s.slotInst j.keyslot) aad data).toNat))

/-- R40, R103, R104, R206, R207, R208, R209: after the flush a page with LZ = 0, or of the context area, is saved in the background: a page of
the bank as it stands, one of the context area as its threads' images. A page with LZ = 1 stays in place until the job that holds the core
claims it, and is saved then. Once its bytes are written it is scrubbed and the other job's, which finds its constant bank filled. -/
def Sys2Proof.Spec.PagesAreSavedAndClaimed : Prop :=
  ∀ (s : State) (p page tag : Nat) (v : SaveImage) (j : Job) (bank : List Byte), s.victimOf p page = some (tag, v) → v.restoring = false →
    s.liveJob? tag = some j → j.saved = some v → page < 48 → p < 65536 → v.tiles.length ≤ 1024 → j.saveArea.toNat < 2 ^ 52 →
    Spec.rising s.threads → s.ms.weak = [] → bank = Spec.bytes s (p * 2 ^ 18 + page * 4096) 4096 →
    (v.writing = [] → v.has p page = false → j.cbBase.toNat / 4096 ≤ page → ((mapGet? v.lmpu (p * 48 + page)).getD 0).getLsbD 3 = false →
      ∃ t w, exec (.backgroundPageSave p page) s = .next t ∧ Spec.isSaved s t tag j v w p page bank ∧ t.ms = s.ms ∧
        t.threads = s.threads) ∧
    (v.writing = [] → v.has p page = false → page < j.cbBase.toNat / 4096 →
      ∃ t w data, exec (.backgroundPageSave p page) s = .next t ∧ Spec.isSaved s t tag j v w p page data ∧ t.ms = s.ms ∧
        t.threads = s.threads ∧ data.length = 4096 ∧
        ∀ u th k, mapGet? s.threads u = some th → th.job = tag → th.pcn = p → th.image = some k → k / 2 = page →
          (∀ e ∈ s.threads, e.2.job = tag → e.2.pcn = p → e.2.image = some k → e.1 = u) →
          (∀ i : Fin 16, leNat ((data.drop (k % 2 * 0x800 + 8 * i.val)).take 8) = (th.g[i]).toNat) ∧
          leNat ((data.drop (k % 2 * 0x800 + 0x80)).take 8) = th.pc.toNat) ∧
    (v.writing ≠ [] ∨ v.has p page = true ∨ (j.cbBase.toNat / 4096 ≤ page ∧ v.lazy p page = true) →
      exec (.backgroundPageSave p page) s = .next s) ∧
    ((s.core p).lastRan = none → s.owner (p / 8) ≠ tag → s.owner (p / 8) % 512 ≠ 0 →
      (∀ e ∈ s.jobs, ∀ x, e.2.saved = some x → ∀ k ∈ x.kept, k / 48 = p → page ≤ k % 48) →
      (v.has p page = false → ((mapGet? v.lmpu (p * 48 + page)).getD 0).getLsbD 3 = true → v.writing = [] →
        j.cbBase.toNat / 4096 ≤ page →
        ∃ t w, exec (.pageClaim p page) s = .next t ∧ Spec.isSaved s t tag j v w p page bank ∧ t.ms = s.ms ∧ t.threads = s.threads) ∧
      (v.has p page = true → v.writing ≠ [] → exec (.pageClaim p page) s = .next s) ∧
      (v.has p page = false → v.lazy p page = false → exec (.pageClaim p page) s = .next s) ∧
      (v.has p page = true → v.writing = [] → v.kept.Nodup → Memory.wf s.ms.mem = true → Spec.rising s.jobs →
        ∀ (b : Job) (cb : List Byte), b = s.job (s.owner (p / 8)) → b.cbBase.toNat % 4096 = 0 →
        cb = (b.image.flatMap fun x => leBytes 4 x.toNat) → cb.length ≤ 4096 →
        ∃ t w, exec (.pageClaim p page) s = .next t ∧ (t.job tag).saved = some w ∧ w.store = v.store ∧
          (∀ k, k ∈ w.kept ↔ k ∈ v.kept ∧ k ≠ p * 48 + page) ∧ (∀ g ∈ t.ms.full, g / 256 ≠ p * 64 + page) ∧ t.threads = s.threads ∧
          ∀ a, memGet t.ms.mem a = if a / 4096 = p * 64 + page
            then (if page = b.cbBase.toNat / 4096 then cb.getD (a % 4096) 0 else 0) else memGet s.ms.mem a))

/-- The addresses from which a chunk is read back, in runs of 512 bytes, with its tag if it is sealed and the header for the first one. -/
def Sys2Proof.Spec.chunkReads (j : Job) (v : SaveImage) (x : SavedPage) : List Word :=
  ((List.range 8).map fun i => Spec.saveSlot j v x.pcn x.page + BitVec.ofNat 64 (512 * i)) ++
  if x.sealed = none then [] else Spec.tagSlot j v x.pcn x.page :: if v.opened = 0 then [j.saveArea] else []

/-- What has been read back from an address. -/
def Sys2Proof.Spec.readBack (v : SaveImage) (a : Word) : List Byte := ((v.got.find? fun g => decide (g.1 = a)).map (·.2)).getD []

/-- R205, R206, R209, R214: a territory whose tiles are idle or its own again, and whose save area is written, begins to resume on the same cores.
Its image is read back over the mesh and opened chunk by chunk in save order, a confidential one each under its key, its AAD and its tag;
one that does not open faults the job. -/
def Sys2Proof.Spec.ImagesAreOpened : Prop :=
  ∀ (tag : Nat) (s : State) (v : SaveImage) (j : Job), s.liveJob? tag = some j → j.saved = some v →
    (v.flushed = true → v.restoring = false → v.writing = [] → j.status = .suspended →
      (∀ x ∈ v.tiles, (s.owner x % 512 = 0 ∨ s.owner x = tag) ∧ ∀ m ∈ s.moves, m.tile ≠ x) →
      ∃ t, exec (.territoryResume tag) s = .next t ∧ t = { s with tiles := t.tiles, jobs := t.jobs } ∧
        t.job tag = { j with saved := some { v with restoring := true } } ∧ (∀ x ∈ v.tiles, t.tile x = ⟨tag % 512, true⟩) ∧
        ∀ x, x ∉ v.tiles → t.tile x = s.tile x) ∧
    (v.flushed = false ∨ v.writing ≠ [] ∨ (∃ x ∈ v.tiles, s.owner x % 512 ≠ 0 ∧ s.owner x ≠ tag) →
      exec (.territoryResume tag) s = .next s) ∧
    (∀ x, v.restoring = true → v.store[v.opened]? = some x → v.tiles.length ≤ 1024 → j.saveArea.toNat % 4096 = 0 →
      j.saveArea.toNat < 2 ^ 52 → x.page < 79 → (x.page < 48 ∨ 64 ≤ x.page) →
      (∀ a ∈ Spec.chunkReads j v x, ∃ g ∈ v.got, g.1 = a) → ∀ (opens : Prop) (body : List Byte),
      body = ((List.range 8).flatMap fun i => Spec.readBack v (Spec.saveSlot j v x.pcn x.page + BitVec.ofNat 64 (512 * i))) →
      (opens ↔ ∀ inst aad tg, x.sealed = some (inst, aad, tg) → s.slotInst j.keyslot = inst ∧
        body = (List.range 4096).map (Config.chunkByte inst aad x.data) ∧
        Spec.readBack v (Spec.tagSlot j v x.pcn x.page) = leBytes 16 tg.toNat ∧
        (v.opened = 0 → leNat (Spec.readBack v j.saveArea) = aad.toNat)) →
      (opens → v.opened + 1 < v.store.length →
        exec (.restoreChunkOpen tag) s = .next { s with
          jobs := mapSet s.jobs tag { j with saved := some { v with
            opened := v.opened + 1, got := []
            store := v.store.set v.opened (if x.sealed = none then { x with data := body } else x) } }
          fab := { s.fab with fwds := s.fab.fwds.filter fun f => decide (f.who ≠ v.id) } }) ∧
      (¬opens → j.status ≠ .frozen → tag % 512 ≠ 0 →
        ∃ t, exec (.restoreChunkOpen tag) s = .next t ∧ (∀ e ∈ t.threads, e.2.job ≠ tag) ∧
          ∀ j, t.liveJob? tag = some j → j.status = .frozen)) ∧
    (∀ x i a, v.restoring = true → v.store[v.opened]? = some x → v.tiles.length ≤ 1024 → j.saveArea.toNat % 4096 = 0 →
      j.saveArea.toNat < 2 ^ 52 → x.page < 79 → (x.page < 48 ∨ 64 ≤ x.page) → i < 8 →
      a = Spec.saveSlot j v x.pcn x.page + BitVec.ofNat 64 (512 * i) → (∀ g ∈ v.got, g.1 ≠ a) →
      (∀ b ∈ Spec.chunkReads j v x, b ≠ a → ∃ g ∈ v.got, g.1 = b) → x.pcn / 8 ≠ homeTile x.pcn a → Spec.noTrip s v.id →
      exec (.restoreChunkOpen tag) s = .next (Spec.setsOut s v.id 0 (x.pcn / 8) (homeTile x.pcn a) a 512 false))

/-- R40, R112, R201, R205, R268: with every chunk opened the job runs again: its cores go on as their engine records say with empty caches, its
threads as their images say, and its pages stand where they were. LOCK clears unless the job was launched locked. Here the job has a thread
or a record left. -/
def Sys2Proof.Spec.TerritoriesResume : Prop :=
  Spec.ImagesAreOpened ∧ ∀ (tag : Nat) (s : State) (v : SaveImage) (j : Job), s.liveJob? tag = some j → j.saved = some v → v.restoring = true →
    v.opened = v.store.length → j.pool ≠ [] ∨ (∃ e ∈ s.threads, e.2.job = tag) → v.engines.map (·.pcn) = Spec.slotCores v → v.tiles.Nodup →
    (∀ x ∈ v.store, ∀ y ∈ v.store, x.pcn = y.pcn → x.page = y.page → x = y) →
    ∃ t, exec (.restoreChunkOpen tag) s = .next t ∧ (t.job tag).status = .active ∧ (t.job tag).saved = none ∧
      (∀ x ∈ v.tiles, t.tile x = ⟨tag % 512, v.lock || j.lockReq⟩) ∧
      (∀ r ∈ v.engines, (t.core r.pcn).splim = r.core.splim ∧ (t.core r.pcn).icache = [] ∧ (t.core r.pcn).l1 = [] ∧
        ((∀ q ∈ v.engines, Spec.recordFits s q) →
          (∀ q ∈ v.engines, Spec.recordHolds s q ((v.store.filter fun x => decide (x.pcn = q.pcn) && decide (64 ≤ x.page)).flatMap (·.data))) →
          (t.core r.pcn).acc = r.core.acc ∧ (t.core r.pcn).copyQ = r.core.copyQ ∧ (t.core r.pcn).matQ = r.core.matQ ∧
          ∀ i l, i < 4 → mapGet? r.beats (r.pcn / 8 * 4 + i) = some l → mapGet? t.fab.links (r.pcn / 8 * 4 + i) = some l)) ∧
      (∀ u th, mapGet? s.threads u = some th → th.job ≠ tag → mapGet? t.threads u = some th) ∧
      (∀ u th k x, mapGet? s.threads u = some th → th.job = tag → th.image = some k → x ∈ v.store → x.pcn = th.pcn → x.page = k / 2 →
        k / 2 < j.cbBase.toNat / 4096 → k / 2 < 64 →
        (t.thread u).pc.toNat = leNat ((x.data.drop (k % 2 * 0x800 + 0x80)).take 8) ∧
        ∀ i : Fin 16, ((t.thread u).g[i]).toNat = leNat ((x.data.drop (k % 2 * 0x800 + 8 * i.val)).take 8)) ∧
      (Memory.wf s.ms.mem = true → ∀ x ∈ v.store, x.page < 48 → j.cbBase.toNat / 4096 ≤ x.page →
        (∀ y ∈ v.store, y.data.length = 4096) → (x.pcn * 48 + x.page) ∉ v.kept →
        ∀ i, i < 4096 → memGet t.ms.mem (x.pcn * 2 ^ 18 + x.page * 4096 + i) = x.data.getD i 0) ∧
      ((∀ x ∈ v.store, 64 ≤ x.page ∨ (x.pcn * 48 + x.page) ∈ v.kept ∨ x.page < j.cbBase.toNat / 4096) →
        t.ms.mem = s.ms.mem ∧ t.ms.full = s.ms.full)

/-! ## Engines -/

/-- The pieces of a copy of `n` bytes: each writes at most one sector, and together they cover the destination (R138, R144, R183). -/
def Sys2Proof.Spec.copies (ps : List Piece) (d src : Word) (n : Nat) : Prop :=
  (ps.map (·.len)).sum = n ∧ ∀ i p, ps[i]? = some p → ∀ off, off = BitVec.ofNat 64 ((ps.take i).map (·.len)).sum →
    1 ≤ p.len ∧ (d + off).toNat % 64 + p.len ≤ 64 ∧ p.data = none ∧ p.wr = some (d + off) ∧ p.rd = some (src + off)

/-- Every earlier operation of the thread on an operation's stream, or on one that its mask names, has been counted (R135, R138). -/
abbrev Sys2Proof.Spec.edges (s : State) (id : OpId) (o : Op) : Prop :=
  ∀ e ∈ s.ops, e.1 < id → e.2.uid = o.uid → e.2.inShadow = o.inShadow → e.2.counted = false → ∀ k, e.2.strm = some k →
    some k ≠ o.strm ∧ o.mask.getLsbD k.val = false

/-- R83, R138, R183, R184, R328: the copy engine takes the head of its queue once its edges hold and its probes pass, and cuts it into
sectors; a copy of 0 bytes performs at once, one longer than 2^24 fails with REASON 0x09, one whose probe fails with what it found. One whose
probe is refused waits in the queue, and asks again after max(hint, 1) × 4 cycles (R118). -/
def Sys2Proof.Spec.CopiesStart : Prop :=
  ∀ (s : State) (p : Pcn) (id : OpId) (rest : List OpId) (o : Op) (d src len : Word), (s.core p).copyQ = id :: rest →
    s.op? id = some o → o.kind = .cpy d src len → o.pcn = p → o.phase = .queued → o.wrote = false → (s.core p).copyBusy = none →
      s.enginesRun p = true →
    (∀ x ∈ s.fab.trips, x.who ≠ id) →
    (Spec.edges s id o → 1 ≤ len.toNat → len.toNat ≤ 2 ^ 24 → s.probeRange o true false src len.toNat = .ok →
      s.probeRange o false true d len.toNat = .ok →
      ∃ ps, exec (.copyCommandStart p) s = .next { s with
        cores := mapSet s.cores p { s.core p with copyQ := rest, copyBusy := some id }
        ops := mapSet s.ops id { o with phase := .started, pieces := ps } } ∧ Spec.copies ps d src len.toNat) ∧
    (Spec.edges s id o → ∀ k, o.tok = some k → len = 0 →
      ∃ t, exec (.copyCommandStart p) s = .next t ∧ (t.core p).copyQ = rest ∧ (t.core p).copyBusy = none ∧ t.ms = s.ms ∧
        t.op? id = some { o with phase := .performed, counted := true, result := [], jidx := none }) ∧
    (Spec.edges s id o → ∀ r a, (2 ^ 24 < len.toNat ∧ r = 0x09 ∧ a = 0 ∨
        1 ≤ len.toNat ∧ len.toNat ≤ 2 ^ 24 ∧ (s.probeRange o true false src len.toNat = .fail r a ∨
          s.probeRange o true false src len.toNat = .ok ∧ s.probeRange o false true d len.toNat = .fail r a)) →
      ∃ t, exec (.copyCommandStart p) s = .next t ∧ (t.core p).copyQ = rest ∧ (t.core p).copyBusy = none ∧ t.ms = s.ms ∧
        t.threads = s.threads ∧ t.op? id = some { o with phase := .failed ⟨o.pc, a, r, 0⟩ }) ∧
    (Spec.edges s id o → 1 ≤ len.toNat → len.toNat ≤ 2 ^ 24 → (s.probeRange o true false src len.toNat = .wait ∨
        s.probeRange o true false src len.toNat = .ok ∧ s.probeRange o false true d len.toNat = .wait) →
      ∃ (t : State) (x : Trip) (h : Nat), exec (.copyCommandStart p) s = .next t ∧
        x = ⟨s.nextId, id, 0, p / 8, p / 8, 0, 0, false, .again (s.now + max h 1 * 4)⟩ ∧
        t = { s with fresh := s.fresh + 1, nextId := s.nextId + 1, fab := { s.fab with trips := s.fab.trips ++ [x] } } ∧
        ∀ v : State, v.now < s.now + max h 1 * 4 → x ∈ v.fab.trips → v.op? id = some o → (v.core p).copyQ = id :: rest →
          exec (.copyCommandStart p) v = .next v) ∧
    (¬Spec.edges s id o → exec (.copyCommandStart p) s = .next s)

/-- The bytes of a confidential job that an access moves between two clusters count in the seal unit of the one that they leave, a sector each
(R190, R236). -/
def Sys2Proof.Spec.crossed (s : State) (tag src dst off n : Nat) : State :=
  if src = dst ∨ (s.job tag).conf = false then s
  else { s with fab := { s.fab with
    sealCtr := mapSet s.fab.sealCtr src ((mapGet? s.fab.sealCtr src).getD 0 + BitVec.ofNat 64 ((off + n - 1) / 64 - off / 64 + 1)) } }

/-- R107, R130, R138, R144, R190, R214, R328: a started command reads a piece's bytes and writes them, one sector whole, setting full-empty
bits at a bank. An access of another tile's bank goes there over the mesh, performs there and comes back. Bytes of a confidential job that
cross to another cluster count in its seal unit. A copy whose last piece is written performs and lets go of the engine. Of the model's own
in it: log entry 79. -/
def Sys2Proof.Spec.EnginePiecesMove : Prop :=
  ∀ (id : OpId) (i : Nat) (o : Op) (s : State) (p : Piece) (a b : Word) (got : List Byte) (n c off T H : Nat) (cw : Bool) (party : Fin 4),
    s.op? id = some o → o.phase = .started → o.pieces[i]? = some p → party = (if o.kind.isMatrix then 3 else 2) →
    T = o.pcn / 8 → 1 ≤ n →
    (p.rd = some a → got = p.data.getD [] → got.length < p.len → o.recd = none → o.copyLink = none →
      b = a + BitVec.ofNat 64 got.length → n = min (p.len - got.length) (64 - b.toNat % 64) → winOf o.pcn b = .bank c off cw → H = c / 8 →
      ∀ next : List Byte → Op, next = (fun bs => { o with pieces := o.pieces.set i { p with data := some (got ++ bs) } }) →
      (T ≠ H → Spec.noTrip s id → exec (.memoryReadPerform id i) s = .next (Spec.setsOut s id 0 T H b n false)) ∧
      (∀ x r, x = ⟨x.id, id, 0, T, H, b, n, false, .there⟩ → Spec.atItsHome s x → Spec.grants s o.job c off n true false →
        s.poisonedIn (bankKey c off) n = none →
        r = Spec.crossed ((s.correct (bankKey c off) n).noteAccess o.pcn c off n party false) o.job H T off n →
        (T = H → exec (.memoryReadPerform id i) s = .next { r with ops := mapSet s.ops id (next (Spec.bytes s (bankKey c off) n)) }) ∧
        (T ≠ H → ∃ t, exec (.memoryReadPerform id i) s = .next t ∧ Spec.comesBack t x 2 (.ok (Spec.bytes s (bankKey c off) n)) ∧
          t.ops = s.ops ∧ t.ms = r.ms ∧ t.threads = s.threads ∧ t.fab.sealCtr = r.fab.sealCtr)) ∧
      (∀ x bs, T ≠ H → x = ⟨x.id, id, 0, T, H, b, n, false, .done (.ok bs)⟩ → Spec.onlyTrip s x →
        exec (.memoryReadPerform id i) s = .next { Spec.over s x with ops := mapSet s.ops id (next bs) })) ∧
    (p.wr = some a → p.data = some got → got.length = p.len → n = p.len → winOf o.pcn a = .bank c off cw → H = c / 8 →
      ∀ next : Op, next = { o with pieces := o.pieces.set i ⟨none, none, 0, some []⟩, wrote := true } →
      ∀ ends : State → State → Prop, (∀ t r, ends t r ↔
        ((∀ x y z, o.kind ≠ .cpy x y z) → (∀ x y z, o.kind ≠ .cpy2d x y z) →
          t = { r with ms := t.ms, ops := mapSet s.ops id next }) ∧
        (∀ x y z k, o.kind = .cpy x y z → o.tok = some k → (∀ j q, o.pieces[j]? = some q → j ≠ i → q = ⟨none, none, 0, some []⟩) →
          (s.core o.pcn).copyBusy = some id →
          (t.core o.pcn).copyBusy = none ∧ t.op? id = some { next with phase := .performed, counted := true, result := [], jidx := none })) →
      (T ≠ H → Spec.noTrip s id → exec (.memoryWritePerform id i) s = .next (Spec.setsOut s id 0 T H a n true)) ∧
      (∀ x, x = ⟨x.id, id, 0, T, H, a, n, true, .there⟩ → Spec.atItsHome s x → Spec.grants s o.job c off n false true → Spec.looked s →
        s.poisonedPartly (bankKey c off) n = none → Memory.wf s.ms.mem = true →
        ∃ t, exec (.memoryWritePerform id i) s = .next t ∧
          (∀ k, memGet t.ms.mem k = if bankKey c off ≤ k ∧ k < bankKey c off + n then got.getD (k - bankKey c off) 0
            else memGet s.ms.mem k) ∧
          t.ms = Spec.stored (s.noteAccess o.pcn c off n party true).ms t.ms.mem c off n true ∧ t.looks = (Spec.feChanged s c).looks ∧
          (T = H → ends t (Spec.feChanged s c)) ∧
          (T ≠ H → Spec.comesBack t x 2 (.ok []) ∧ t.ops = mapSet s.ops id { o with wrote := true } ∧
            t.fab.sealCtr = (Spec.crossed s o.job T H off n).fab.sealCtr ∧ t.threads = s.threads ∧ t.cores = s.cores)) ∧
      (∀ x d, T ≠ H → x = ⟨x.id, id, 0, T, H, a, n, true, .done (.ok d)⟩ → Spec.onlyTrip s x →
        ∃ t, exec (.memoryWritePerform id i) s = .next t ∧ t.ms = s.ms ∧ ends t (Spec.over s x)))

/-- A read of `n` bytes at `a` by command `id` gives `bs`: of a bank of its own tile now, or of another tile's, from which it has come back
(R214). -/
def Sys2Proof.Spec.hasRead (s : State) (id : OpId) (o : Op) (a : Word) (n : Nat) (bs : List Byte) : Prop :=
  ∃ c off cw, winOf o.pcn a = .bank c off cw ∧ off + n ≤ 0x30000 ∧
    ((c / 8 = o.pcn / 8 ∧ (∀ x ∈ s.fab.trips, x.who = id → x.a ≠ a ∨ x.n ≠ n) ∧ Spec.grants s o.job c off n true false ∧
        s.poisonedIn (bankKey c off) n = none ∧ bs = Spec.bytes s (bankKey c off) n) ∨
      (c / 8 ≠ o.pcn / 8 ∧ ∃ x ∈ s.fab.trips, x = ⟨x.id, id, 0, o.pcn / 8, c / 8, a, n, false, .done (.ok bs)⟩ ∧
        ∀ y ∈ s.fab.trips, y.id = x.id ∨ (y.who = id ∧ y.a = a ∧ y.n = n) → y = x))

/-- R186, R189, R214, R331: a list walk ends at address 0 or after MAXEL elements; else it reads the next element, once and before its
predicate word, over the mesh if it stands in another tile's bank, and copies what it names or, by its predicate bit, skips it. An element
with a field out of range fails the command with its own address if it is the first, and faults the job if it is a later one; a FIRST in no
window fails it with the header's address. -/
def Sys2Proof.Spec.ListsAreWalked : Prop :=
  ∀ (id : OpId) (o : Op) (s : State) (h e : Word) (c off : Nat) (cw : Bool) (bs : List Byte) (f : Nat → Nat → Nat) (come : List Piece → Op),
    s.op? id = some o → o.phase = .started → o.kind = .cpyl h → (∀ q ∈ o.pieces, q = ⟨none, none, 0, some []⟩) →
    e.toNat = leNat (o.result.take 8) → (∀ x ∈ s.fab.trips, x.who = id → x.n ≠ 0) →
    (∀ k, o.tok = some k → (e = 0 ∨ leNat ((o.result.drop 16).take 4) ≤ o.aux) → ∃ t, exec (.cpylElement id) s = .next t ∧
      t.op? id = some { o with phase := .performed, counted := true, result := [], jidx := none } ∧ t.ms = s.ms) ∧
    (e ≠ 0 → o.aux < leNat ((o.result.drop 16).take 4) → o.aux = 0 → o.wrote = false →
      ∀ a, (e.toNat % 32 ≠ 0 ∧ a = e ∨ e.toNat % 32 = 0 ∧ inWindow o.pcn e = false ∧ a = h) → ∃ t, exec (.cpylElement id) s = .next t ∧
        t.ms = s.ms ∧ t.threads = s.threads ∧ t.op? id = some { o with phase := .failed ⟨o.pc, a, 0x09, 0⟩ }) ∧
    (e ≠ 0 → o.aux < leNat ((o.result.drop 16).take 4) → e.toNat % 32 = 0 → winOf o.pcn e = .bank c off cw → off + 32 ≤ 0x30000 →
      o.result.length ≤ 40 → c / 8 ≠ o.pcn / 8 → Spec.noTrip s id →
      exec (.cpylElement id) s = .next (Spec.setsOut (if o.hop then s else { s with
        ops := mapSet s.ops id { o with hop := true }
        fab := { s.fab with fwds := s.fab.fwds.filter fun x => decide (x.who ≠ id) } }) id 0 (o.pcn / 8) (c / 8) e 32 false)) ∧
    (e ≠ 0 → o.aux < leNat ((o.result.drop 16).take 4) → e.toNat % 32 = 0 → winOf o.pcn e = .bank c off cw → off + 32 ≤ 0x30000 →
      (o.result.length ≤ 40 ∧ Spec.hasRead s id o e 32 bs ∨ o.result.length = 72 ∧ bs = o.result.drop 40) →
      f = (fun i n => leNat ((bs.drop i).take n)) →
      come = (fun ps => { o with
        result := leBytes 8 (f 24 8) ++ (o.result.drop 8).take 24 ++ leBytes 8 e.toNat, aux := o.aux + 1, pieces := ps, hop := false }) →
      (f 16 4 ≤ 2 ^ 24 → f 20 4 < 256 → f 20 4 / 64 % 2 = 0 → f 16 4 ≠ 0 → engRange o.pcn (BitVec.ofNat 64 (f 0 8)) (f 16 4) = true →
        engRange o.pcn (BitVec.ofNat 64 (f 8 8)) (f 16 4) = true →
        s.probeRange o true false (BitVec.ofNat 64 (f 0 8)) (f 16 4) = .ok →
        s.probeRange o false true (BitVec.ofNat 64 (f 8 8)) (f 16 4) = .ok →
        ∃ t ps, exec (.cpylElement id) s = .next t ∧ t.ms.mem = s.ms.mem ∧ t.threads = s.threads ∧
          Spec.copies ps (BitVec.ofNat 64 (f 8 8)) (BitVec.ofNat 64 (f 0 8)) (f 16 4) ∧ t.op? id = some (come ps)) ∧
      (f 16 4 = 0 → f 20 4 < 64 → ∃ t, exec (.cpylElement id) s = .next t ∧ t.ms.mem = s.ms.mem ∧ t.threads = s.threads ∧
        t.op? id = some (come [])) ∧
      (∀ pred, pred = leNat ((o.result.drop 8).take 8) → f 16 4 ≤ 2 ^ 24 → f 20 4 < 256 → f 20 4 / 64 % 2 = 1 → pred ≠ 0 →
        (∀ w, Spec.hasRead s id o (BitVec.ofNat 64 pred) 8 w → leNat w / 2 ^ (f 20 4 % 64) % 2 = f 20 4 / 128 % 2 →
          ∃ t, exec (.cpylElement id) s = .next t ∧ t.ms.mem = s.ms.mem ∧ t.threads = s.threads ∧ t.op? id = some (come [])) ∧
        (∀ pc po pw, winOf o.pcn (BitVec.ofNat 64 pred) = .bank pc po pw → pc / 8 ≠ o.pcn / 8 →
          (∀ x ∈ s.fab.trips, x.who = id → x.n ≠ 8) → ∃ t y i, exec (.cpylElement id) s = .next t ∧ t.ms.mem = s.ms.mem ∧
            t.op? id = some { o with hop := y, result := (o.result ++ List.replicate 8 0).take 40 ++ bs } ∧
            ⟨i, id, 0, o.pcn / 8, pc / 8, BitVec.ofNat 64 pred, 8, false, .out⟩ ∈ t.fab.trips)) ∧
      (2 ^ 24 < f 16 4 ∨ 256 ≤ f 20 4 →
        (o.aux = 0 → o.wrote = false → ∃ t y, exec (.cpylElement id) s = .next t ∧ t.ms.mem = s.ms.mem ∧ t.threads = s.threads ∧
          t.op? id = some { o with hop := y, phase := .failed ⟨o.pc, e, 0x09, 0⟩ }) ∧
        (1 ≤ o.aux → ∃ t, exec (.cpylElement id) s = .next t ∧ ∀ j, t.liveJob? o.job = some j → j.status = .frozen)))

/-- R118, R119, R187, R214: a multicast read whose lines so far are served asks for its next line, over the mesh if its home is on another
tile. There it starts a fill that carries its job and the line's place, joins one that agrees with its own, and at any other, or when the
delivery of the line has begun, is refused, to ask again after max(hint, 1) × 4 cycles. -/
def Sys2Proof.Spec.MulticastAsksForLines : Prop :=
  ∀ (id : OpId) (o q : Op) (s r : State) (off src rcd va pte : Word) (e : AccessEntry) (len lineVa pa sl key i n T H who : Nat) (place : Int)
    (trips : List Trip), s.op? id = some o → o.phase = .started → o.kind = .mcrd off src rcd → len = leNat ((o.result.drop 12).take 4) →
    lineVa = (src.toNat / 512 + i) * 512 → lineVa < src.toNat + len → src.toNat + len ≤ 2 ^ 52 → 1 ≤ len → i < o.pieces.length →
    (∀ p ∈ o.pieces.take i, p.wr = none ∧ p.len ≤ (p.data.getD []).length) → va = BitVec.ofNat 64 (max lineVa src.toNat) →
    n = min (src.toNat + len) (lineVa + 512) - max lineVa src.toNat → T = o.pcn / 8 → H = homeTile o.pcn va →
    (i = o.aux → s.linesOut id < 16 → T ≠ H → Spec.noTrip s id →
      exec (.mcrdLineRequest id) s = .next (Spec.setsOut { s with ops := mapSet s.ops id { o with aux := o.aux + 1 } } id 0 T H va n false)) ∧
    ((i = o.aux ∧ s.linesOut id < 16 ∧ T = H ∧ Spec.noTrip s id ∧ who = id ∧ q = { o with aux := o.aux + 1 } ∧ trips = s.fab.trips ∨
        i < o.aux ∧ (∀ p, o.pieces[i]? = some p → (p.data.getD []).length < p.len) ∧ T ≠ H ∧
          Spec.onlyTrip s ⟨who, id, 0, T, H, va, n, false, .there⟩ ∧ q = o ∧ trips = s.fab.trips.filter fun x => decide (x.id ≠ who)) →
      place = (off.toNat : Int) + lineVa - src.toNat →
      s.xlat o.job va n ⟨true, false, false, true⟩ = .ok (tagDie o.job) pa pte e → tagDie o.job < 8 → sl = sliceNo (tagDie o.job) va →
      key = ownerKey (tagDie o.job) pa / 512 * 512 → r = s.tlbFill sl o.job (s.job o.job).ptRoot va → s.lineHeld key = false →
      (∀ x ∈ s.fab.refusals, ¬(x.slice = sl ∧ x.line = key)) →
      ∀ asked : Op, asked = { q with pieces := o.pieces.set i ⟨none, none, 1, some [0]⟩ } →
      ((∀ d ∈ s.fab.deliveries, d.line ≠ key) → (∀ f ∈ s.fab.fills, ¬(f.slice = sl ∧ f.line = key)) → s.isResident sl key 512 = false →
        ∃ rf, (∀ x ∈ rf, x ∈ s.fab.refusals) ∧ exec (.mcrdLineRequest id) s = .next { r with
          nextId := s.nextId + 1
          fab := { r.fab with
            fills := s.fab.fills ++ [{ id := s.nextId, slice := sl, check := ⟨pte.getLsbD 8, s.winInst e, o.job⟩, owner := none
                                       va := BitVec.ofNat 64 lineVa, pte := pte, line := key, mcrd := some (o.job, place), ops := [id] }]
            refusals := rf, trips := trips }
          ops := mapSet s.ops id asked }) ∧
      (∀ f, (∀ d ∈ s.fab.deliveries, d.line ≠ key) → s.fab.fills.find? (fun f => decide (f.slice = sl) && decide (f.line = key)) = some f →
        f.mcrd = some (o.job, place) →
        ∃ rf, (∀ x ∈ rf, x ∈ s.fab.refusals) ∧ exec (.mcrdLineRequest id) s = .next { r with
          fab := { r.fab with
            fills := s.fab.fills.map fun g => if g.id = f.id then { g with ops := g.ops ++ [id] } else g, refusals := rf, trips := trips }
          ops := mapSet s.ops id asked }) ∧
      ((∃ d ∈ s.fab.deliveries, d.line = key) ∨ (∃ f, s.fab.fills.find? (fun f => decide (f.slice = sl) && decide (f.line = key)) = some f ∧
          f.mcrd ≠ some (o.job, place)) →
        ∀ h x, h = max (Config.waitHint s.fresh).toNat 1 → x = ⟨who, id, 0, T, H, va, n, false, .there⟩ →
        (T = H → exec (.mcrdLineRequest id) s = .next { r with
          fresh := s.fresh + 1
          nextId := s.nextId + 1
          fab := { r.fab with
            refusals := s.fab.refusals ++ [⟨sl, key, id, s.now + h * 4⟩]
            trips := s.fab.trips ++ [{ x with id := s.nextId, stage := .again (s.now + h * 4) }] }
          ops := mapSet s.ops id q }) ∧
        (T ≠ H → ∃ t, exec (.mcrdLineRequest id) s = .next t ∧ t.ops = s.ops ∧ t.fab.fills = s.fab.fills ∧
          t.fab.refusals = s.fab.refusals ++ [⟨sl, key, who, s.now + h * 4⟩] ∧ Spec.comesBack t x 2 (.retry h))))

/-- R104, R107, R188: a multicast sector whose packet has reached the tile of a core of the job is written there with its full-empty bits
set; at a DARK core, one of another owner or one in SCRUB it is dropped, and the command keeps a record of the first. -/
def Sys2Proof.Spec.MulticastDelivers : Prop :=
  ∀ (n : Nat) (d : Delivery) (s : State) (x : DPart) (id : OpId) (o : Op) (off src rcd : Word),
    s.fab.deliveries.find? (fun y => decide (y.id = n)) = some d →
    d.parts.find? (fun y => decide (y.1.sector = x.sector) && decide (y.1.pcn = x.pcn)) = some (x, [id]) → x.data.length = 64 →
    (∀ k ∈ s.fab.mesh, k.msg = .sector d.id x.sector → x.pcn / 8 ∉ k.dsts) → Memory.wf s.ms.mem = true →
    s.op? id = some o → o.phase = .started → o.kind = .mcrd off src rcd → (∃ p ∈ o.pieces, (p.data.getD []).length < p.len) →
    (Spec.grants s d.job x.pcn x.off 64 false true → Spec.looked s →
      ∃ t, exec (.mcrdSectorDelivery n x.sector x.pcn) s = .next t ∧
        (∀ k, memGet t.ms.mem k = if bankKey x.pcn x.off ≤ k ∧ k < bankKey x.pcn x.off + 64 then x.data.getD (k - bankKey x.pcn x.off) 0
          else memGet s.ms.mem k) ∧
        t.ms = Spec.stored s.ms t.ms.mem x.pcn x.off 64 true ∧ t.op? id = some { o with wrote := true } ∧
        t.threads = s.threads) ∧
    (∀ r, (r = 0x07 ∧ (s.core x.pcn).status = .scrub ∨ r = 0x05 ∧ (s.core x.pcn).status ≠ .scrub ∧ s.owner (x.pcn / 8) ≠ d.job ∨
        r = 0x06 ∧ s.owner (x.pcn / 8) = d.job ∧ (s.core x.pcn).status = .dark) →
      ∃ t, exec (.mcrdSectorDelivery n x.sector x.pcn) s = .next t ∧ t.ms = s.ms ∧ t.threads = s.threads ∧
        t.op? id = some { o with recd := some (o.recd.getD ⟨o.pc, BitVec.ofNat 64 (2 ^ 63 + x.pcn * 2 ^ 21 + off.toNat), r, 0⟩) })

/-- The arbiter may grant the head of core `p`'s queue after `g` grants of its turn: the core runs, its weight is not used up, and the edges of the
command hold, or it reads links alone (R139, R175, R381). -/
def Sys2Proof.Spec.mayGrant (s : State) (p g : Nat) : Prop :=
  s.enginesRun p = true ∧ g < (s.core p).wrrw.toNat ∧ ∃ id rest o, (s.core p).matQ = id :: rest ∧ s.op? id = some o ∧
    (Spec.edges s id o ∨ ∃ a b x, o.kind.product = some (a, b, x) ∧ a.toNat / 2 ^ 62 = 2 ∧ b.toNat / 2 ^ 62 = 2)

/-- The arbiter of an idle unit whose place is core `w` with `g` grants comes to core `c` and its grant number `n` (R175): the turn goes on, or
passes over cores that have nothing to be granted. -/
def Sys2Proof.Spec.turnTo (s : State) (cl w g c n : Nat) : Prop :=
  (c = w ∧ n = g + 1 ∧ Spec.mayGrant s (cl * 8 + c) g) ∨
  (n = 1 ∧ Spec.mayGrant s (cl * 8 + c) 0 ∧ ¬Spec.mayGrant s (cl * 8 + w) g ∧ ∃ d, 1 ≤ d ∧ d ≤ 8 ∧ c = (w + d) % 8 ∧
    ∀ i, 1 ≤ i → i < d → ¬Spec.mayGrant s (cl * 8 + (w + i) % 8) 0)

/-- A unit that has become idle after `n` grants of core `c`'s turn: the turn passes when nothing more of the core may be granted in it (R175). -/
def Sys2Proof.Spec.idleAfter (t : State) (cl c n : Nat) : Prop :=
  (n = 0 ∨ Spec.mayGrant t (cl * 8 + c) n → mapGet? t.fab.matrix cl = some ⟨none, c, n⟩) ∧
  (n ≠ 0 → ¬Spec.mayGrant t (cl * 8 + c) n → mapGet? t.fab.matrix cl = some ⟨none, (c + 1) % 8, 0⟩)

/-- Pieces that read `count` rows of `len` bytes, `stride` bytes apart, in their order and a sector at a time (R138, R177). -/
def Sys2Proof.Spec.rowReads (ps : List Piece) (base : Word) (stride count len : Nat) : Prop :=
  (ps.map (·.len)).sum = count * len ∧ ∀ i p off, ps[i]? = some p → off = ((ps.take i).map (·.len)).sum →
    1 ≤ p.len ∧ off % len + p.len ≤ len ∧ p.wr = none ∧ p.data = none ∧
    ∃ a, p.rd = some a ∧ a = base + BitVec.ofNat 64 (off / len * stride + off % len) ∧ a.toNat % 64 + p.len ≤ 64

/-- An element of a tile as it is drained (R181, R377): exact copies of its bits; an integer narrowed by clamping or by its low bits; else
converted under R161 and R163. -/
def Sys2Proof.Spec.drainedAs (m : AccMode) (f : CFmt) (rm : RMode) (rd : Rounding) (sat : Bool) (x : Nat) : Nat :=
  let i : Int := Int.bmod x (2 ^ 32)
  let narrow (w : Nat) : Nat := ((if sat then max (-(2 ^ (w - 1) : Int)) (min i (2 ^ (w - 1) - 1)) else i) % 2 ^ w).toNat
  if m = .mod64 then x
  else if m = .fp32 ∧ f = .f32 ∨ m = .i32 ∧ f = .i32 then x % 2 ^ 32
  else if m = .i32 ∧ f = .i64 then (i % 2 ^ 64).toNat
  else if m = .i32 ∧ f = .i16 then narrow 16
  else if m = .i32 ∧ f = .i8 then narrow 8
  else (CFmt.convertTo f rm rd sat (if m = .i32 then .fin (decide (i < 0)) i.natAbs 1 else Fmt.f32.decode (x % 2 ^ 32))).1

/-- Pieces that write `count` rows of `len` bytes, `stride` bytes apart, a sector at a time; `byte i k` is byte k of row i. -/
def Sys2Proof.Spec.rowWrites (ps : List Piece) (base : Word) (stride count len : Nat) (byte : Nat → Nat → Nat) : Prop :=
  (ps.map (·.len)).sum = count * len ∧
  (∀ p ∈ ps, 1 ≤ p.len ∧ p.rd = none ∧ ∃ a d, p.wr = some a ∧ p.data = some d ∧ d.length = p.len ∧ a.toNat % 64 + p.len ≤ 64) ∧
  ∀ i k, i < count → k < len → ∃ p ∈ ps, ∃ a d j, p.wr = some a ∧ p.data = some d ∧ j < p.len ∧
    a + BitVec.ofNat 64 j = base + BitVec.ofNat 64 (i * stride + k) ∧ (d.getD j 0).toNat = byte i k

/-- R175, R177, R181, R182, R376, R377, R380, R381: the arbiter of an idle unit grants the core whose turn it is, up to its weight, and then
goes to the next in index order that has something to be granted. A granted MZERO starts; an MLOAD starts to read its rows; an MDRAIN starts to
write the rows of its tile, converted, once its probes pass; with a bad mode, format, stride, address or reserved bits each fails with REASON
0x09. A product whose operands lie in memory starts to read its images, or is to fail with REASON 0x09 when a descriptor is bad or its tile
has another mode. -/
def Sys2Proof.Spec.MatrixGrants : Prop :=
  ∀ (s : State) (cl c w g g' : Nat) (id : OpId) (rest : List OpId) (o : Op), mapGet? s.fab.matrix cl = some ⟨none, w, g⟩ → w < 8 →
    Spec.turnTo s cl w g c g' → (s.core (cl * 8 + c)).matQ = id :: rest → s.op? id = some o → o.phase = .queued →
    o.pcn = cl * 8 + c → o.wrote = false → (∀ x ∈ s.fab.trips, x.who ≠ id) →
    ∀ (starts : List Piece → Prop) (fails : Byte → Word → Prop),
    (∀ ps, starts ps ↔ exec (.matrixGrant cl) s = .next { s with
      fab := { s.fab with matrix := mapSet s.fab.matrix cl ⟨some id, c, g'⟩ }
      cores := mapSet s.cores (cl * 8 + c) { s.core (cl * 8 + c) with matQ := rest }
      ops := mapSet s.ops id { o with phase := .started, pieces := ps } }) →
    (∀ r a, fails r a ↔ ∃ t, exec (.matrixGrant cl) s = .next t ∧ Spec.idleAfter t cl c g' ∧ (t.core (cl * 8 + c)).matQ = rest ∧
      t.ms = s.ms ∧ t.threads = s.threads ∧ t.op? id = some { o with phase := .failed ⟨o.pc, a, r, 0⟩ }) →
    ∀ (ctl : Word) (stride : Nat) (plain : Prop), stride = ctl.toNat / 2 ^ 12 % 2 ^ 16 →
      (plain ↔ ctl.toNat / 2 ^ 11 % 2 = 0 ∧ ctl.toNat / 2 ^ 28 = 0) →
    (∀ t, o.kind = .mzero ctl t → (plain ∧ ctl.toNat % 4 ≠ 3 → starts []) ∧ (¬(plain ∧ ctl.toNat % 4 ≠ 3) → fails 0x09 0)) ∧
    (∀ d t n good, o.kind = .mload d ctl t → n = (if ctl.toNat % 4 = 2 then 8 else 16) →
      (good ↔ plain ∧ ctl.toNat % 4 ≠ 3 ∧ stride % 16 = 0 ∧ 64 ≤ stride ∧ d.toNat % 16 = 0 ∧
        ∀ i, i < n → engRange o.pcn (d + BitVec.ofNat 64 (i * stride)) 64 = true) →
      (good → ∃ ps, starts ps ∧ Spec.rowReads ps d stride n 64) ∧ (¬good → fails 0x09 0)) ∧
    (∀ d ob n0 lcn t sig acc n, o.kind = .mdrain d ctl ob n0 lcn t sig → acc = (s.core o.pcn).acc[t] →
      n = (if acc.mode = .mod64 then 8 else 16) →
      (9 ≤ ctl.toNat / 4 % 16 → fails 0x09 0) ∧
      ∀ f bits len good, [CFmt.f32, .bf16, .f16, .i32, .i16, .i8, .i64, .md8, .fp4][ctl.toNat / 4 % 16]? = some f →
        bits = 256 / Spec.elements f → len = n * bits / 8 →
        (good ↔ plain ∧ stride % 16 = 0 ∧ len ≤ stride ∧ d.toNat % min 16 len = 0 ∧ (ctl.getLsbD 10 = true → sig = true) ∧
          (acc.mode = .mod64 → f = .i64) ∧ ∀ i, i < n → engRange o.pcn (d + BitVec.ofNat 64 (i * stride)) len = true) →
        (¬good → fails 0x09 0) ∧
        (good → (∀ i, i < n → s.probeRange o false true (d + BitVec.ofNat 64 (i * stride)) len = .ok) →
          (ctl.getLsbD 10 = true → s.probeObject o ob = .ok) → ∀ (el : Nat → Nat) (rm : RMode), rm = RMode.ofBits (ctl.extractLsb' 8 2) →
          el = (fun i => Spec.drainedAs acc.mode f rm (if ctl.getLsbD 6 = true ∧ f ∉ [CFmt.i32, .i16, .i8, .i64]
            then .stoch (drawElem (s.job o.job).seed lcn n0 i) else .mode rm) (ctl.getLsbD 7) ((acc.elems.getD i 0).toNat)) →
          ∃ ps, starts ps ∧ Spec.rowWrites ps d stride n len fun i k =>
            if bits = 4 then el (n * i + 2 * k) % 16 + 16 * (el (n * i + 2 * k + 1) % 16)
            else el (n * i + k / (bits / 8)) / 256 ^ (k % (bits / 8)) % 256)) ∧
    (∀ a b k r bits sc da db sa sb oa ob good, o.kind.product = some (a, b, k, r, bits) → Operand.ofWord a = .mem oa da sa →
      Operand.ofWord b = .mem ob db sb → sc = (if bits = 4 then 16 * (k / 32) else 0) →
      (good ↔ oa = true ∧ ob = true ∧ (∀ i, i < r → engRange o.pcn (da + BitVec.ofNat 64 (i * sa)) (k * bits / 8) = true) ∧
        (∀ i, i < k → engRange o.pcn (db + BitVec.ofNat 64 (i * sb)) (r * bits / 8) = true) ∧
        (sc ≠ 0 → engRange o.pcn (da + BitVec.ofNat 64 (r * sa)) sc = true ∧ engRange o.pcn (db + BitVec.ofNat 64 (k * sb)) sc = true) ∧
        ((s.core o.pcn).acc[o.kind.acc]).mode = o.kind.productMode) →
      ∃ t q, exec (.matrixGrant cl) s = .next t ∧ mapGet? t.fab.matrix cl = some ⟨some id, c, g'⟩ ∧
        (t.core (cl * 8 + c)).matQ = rest ∧ t.ms = s.ms ∧ t.threads = s.threads ∧ t.op? id = some q ∧ q.phase = .started ∧
        (good → q.recd = o.recd ∧ ∃ pa ea pb eb, q.pieces = pa ++ ea ++ (pb ++ eb) ∧
          Spec.rowReads pa da sa r (k * bits / 8) ∧ Spec.rowReads ea (da + BitVec.ofNat 64 (r * sa)) 0 (if sc = 0 then 0 else 1) sc ∧
          Spec.rowReads pb db sb k (r * bits / 8) ∧ Spec.rowReads eb (db + BitVec.ofNat 64 (k * sb)) 0 (if sc = 0 then 0 else 1) sc) ∧
        (¬good → q.recd = some ⟨o.pc, 0, 0x09, 0⟩ ∧ q.pieces = []))

/-- A byte of an image as a signed number. -/
def Sys2Proof.Spec.sbyte (l : List Byte) (i : Nat) : Int := Int.bmod (l.getD i 0).toNat 256

/-- A number of `n` bytes of an image. -/
def Sys2Proof.Spec.inImage (l : List Byte) (n i : Nat) : Nat := leNat ((l.drop (n * i)).take n)

/-- The exact sum of values, rounded once to FP32 (R154, R165): a NaN, or infinities of both signs, give the canonical NaN, and a sum of 0 is
−0 only of zeros of that sign. -/
def Sys2Proof.Spec.sums (l : List FVal) (v : Nat) : Prop :=
  let infs (n : Bool) : Prop := FVal.inf n ∈ l
  ((∃ x ∈ l, x.isNan = true) ∨ (infs true ∧ infs false) → v = 0x7FC00000) ∧
  ((∀ x ∈ l, x.isNan = false) → (infs false ∧ ¬infs true → v = 0x7F800000) ∧ (infs true ∧ ¬infs false → v = 0xFF800000) ∧
    (¬infs true → ¬infs false → ∃ (n : Int) (d : Nat), 0 < d ∧
      (n / d : ℚ) = (l.map fun x => match x with
        | .fin neg a b => (if neg then -1 else 1) * (a / b : ℚ)
        | _ => 0).sum ∧
      v = (Fmt.f32.round (.mode .rne) false ⟨if n = 0 then l.all fun x => match x with
          | .fin neg _ _ => neg
          | _ => false
        else decide (n < 0), n.natAbs, d, false⟩).1))

/-- A product of two elements: 0 × ∞ is invalid. -/
abbrev Sys2Proof.Spec.times (a b : FVal) : FVal := (FVal.mul a b).getD (.nan false)

/-- An E8M0 scale (R156). -/
def Sys2Proof.Spec.scale (e : Nat) : FVal := if e = 255 then .nan false else if e < 127 then .fin false 1 (2 ^ (127 - e)) else .fin false (2 ^ (e - 127)) 1

/-- Four-bit elements of an image: two in a byte, the even one low (R156). -/
def Sys2Proof.Spec.nibble (l : List Byte) (i : Nat) : FVal := fp4Decode ((l.getD (i / 2) 0).toNat / 16 ^ (i % 2) % 16)

/-- Where B's image begins behind A's of `n` bytes: the beats of a LINK operand are whole (R177, R178). -/
def Sys2Proof.Spec.imageB (a : Word) (n : Nat) : Nat := if a.toNat / 2 ^ 62 = 2 then (n + 63) / 64 * 64 else n

/-- R154, R156, R157, R165, R173, R180, R181, R376, R380: a matrix command whose reads are done updates its tile in one step, performs and frees
the unit: MZERO and MLOAD set it, INT8 adds pairs of products, modulo 2^32 or clamping with SAT, MMOD modulo its modulus; BF16 and FP16 go in steps
of one product, MD8 of two and FP4 of four under their scales, each sum exact and rounded once to FP32. An MDRAIN whose writes are done, and that
closes with no SIGNAL, performs and leaves its tile. Of the model's own in it: log entries 60, 62. -/
def Obligations.MatrixResults : Prop :=
  ∀ (s : State) (id : OpId) (o : Op) (k : Tok) (x : AccIx) (bytes : List Byte) (old : Nat → Nat), s.op? id = some o →
    o.phase = .started → o.tok = some k → o.recd = none → s.inFlight id = false → (∀ p ∈ o.pieces, p.wr = none ∧ p.len ≤ (p.data.getD []).length) →
    bytes = o.pieces.flatMap (fun p => p.data.getD []) → old = (fun e => (((s.core o.pcn).acc[x]).elems.getD e 0).toNat) →
    ∀ (ends : Acc → State → Prop), (∀ new t, ends new t ↔ exec (.matrixCompletion id) s = .next t ∧
      (t.core o.pcn).acc = (s.core o.pcn).acc.set x new ∧ t.ms = s.ms ∧ (∀ q, q ≠ o.pcn → (t.core q).acc = (s.core q).acc) ∧
      t.op? id = some { o with phase := .performed, counted := true, result := [], jidx := none } ∧
      (∀ cl m, cl ≠ o.pcn / 8 → m.busy ≠ some id → mapGet? s.fab.matrix cl = some m → mapGet? t.fab.matrix cl = some m) ∧
      ∀ m, mapGet? s.fab.matrix (o.pcn / 8) = some m → m.busy = some id → Spec.idleAfter t (o.pcn / 8) m.turn m.grants) →
    (∀ new,
      ((∃ ctl, o.kind = .mzero ctl x ∧ (ctl.toNat % 4 = 0 ∧ new = ⟨.fp32, List.replicate 256 0⟩ ∨
          ctl.toNat % 4 = 1 ∧ new = ⟨.i32, List.replicate 256 0⟩ ∨ ctl.toNat % 4 = 2 ∧ new = ⟨.mod64, List.replicate 64 0⟩)) ∨
        (∃ d ctl, o.kind = .mload d ctl x ∧
          (ctl.toNat % 4 = 0 ∧ new = ⟨.fp32, (List.range 256).map fun e => BitVec.ofNat 64 (Spec.inImage bytes 4 e)⟩ ∨
          ctl.toNat % 4 = 1 ∧ new = ⟨.i32, (List.range 256).map fun e => BitVec.ofNat 64 (Spec.inImage bytes 4 e)⟩ ∨
          ctl.toNat % 4 = 2 ∧ new = ⟨.mod64, (List.range 64).map fun e => BitVec.ofNat 64 (Spec.inImage bytes 8 e)⟩)) ∨
        (∃ d ctl ob n0 lcn sig, o.kind = .mdrain d ctl ob n0 lcn x sig ∧ ctl.getLsbD 10 = false ∧ new = (s.core o.pcn).acc[x]) ∨
        (∃ a b n q, o.kind = .mmod a b n x q ∧ (a.toNat / 2 ^ 62 = 2 → (neighbour (o.pcn / 8) (a.toNat % 4)).isSome) ∧
          new = { (s.core o.pcn).acc[x] with elems := (List.range 64).map fun e => BitVec.ofNat 64 ((old e + ((List.range n).map fun i =>
            Spec.inImage bytes 8 (e / 8 * n + i) *
              Spec.inImage (bytes.drop (Spec.imageB a (n * 64))) 8 (i * 8 + e % 8)).sum) % q.toNat) })) →
      ∃ t, ends new t) ∧
    (∀ a b n f sat B, o.kind = .mma a b n x f sat → (a.toNat / 2 ^ 62 = 2 → (neighbour (o.pcn / 8) (a.toNat % 4)).isSome) →
      B = (fun z => bytes.drop (Spec.imageB a z)) →
      (f = .int8 → n % 2 = 0 → ∀ p : Nat → Nat → Int, p = (fun e i => Spec.sbyte bytes (e / 16 * n + i) * Spec.sbyte (B (n * 16)) (i * 16 + e % 16)) →
        ∃ t, ends { (s.core o.pcn).acc[x] with elems := (List.range 256).map fun e => BitVec.ofNat 64 (
          (if sat then (List.range (n / 2)).foldl (fun v i => max (-2 ^ 31) (min (v + p e (2 * i) + p e (2 * i + 1)) (2 ^ 31 - 1))) (Int.bmod (old e) (2 ^ 32))
           else (old e : Int) + ((List.range n).map (p e)).sum) % 2 ^ 32).toNat } t) ∧
      (∀ (fm : Fmt), f = .bf16 ∧ fm = Fmt.bf16 ∨ f = .fp16 ∧ fm = Fmt.f16 →
        ∃ t, ends { (s.core o.pcn).acc[x] with elems := (List.range 256).map fun e => BitVec.ofNat 64 ((List.range n).foldl (fun v i =>
          (Fmt.fma .f32 .rne (fm.decode (Spec.inImage bytes 2 (e / 16 * n + i)))
            (fm.decode (Spec.inImage (B (n * 32)) 2 (i * 16 + e % 16))) (Fmt.f32.decode v)).1) (old e)) } t) ∧
      (∀ (m : Nat) (step : Nat → Nat → List FVal),
        (f = .md8 ∧ m = n / 2 ∧ step = (fun e i => [2 * i, 2 * i + 1].map fun j =>
            Spec.times (md8Decode (bytes.getD (e / 16 * n + j) 0).toNat) (md8Decode ((B (n * 16)).getD (j * 16 + e % 16) 0).toNat)) ∨
          f = .fp4 ∧ n % 32 = 0 ∧ m = n / 4 ∧ step = (fun e i => [4 * i, 4 * i + 1, 4 * i + 2, 4 * i + 3].map fun j =>
            Spec.times
              (Spec.times (Spec.scale (bytes.getD (8 * n + e / 16 * (n / 32) + i / 8) 0).toNat)
                (Spec.scale ((B (8 * n + 16 * (n / 32))).getD (8 * n + i / 8 * 16 + e % 16) 0).toNat))
              (Spec.times (Spec.nibble bytes (e / 16 * n + j)) (Spec.nibble (B (8 * n + 16 * (n / 32))) (j * 16 + e % 16))))) →
        ∃ t els, ends { (s.core o.pcn).acc[x] with elems := els } t ∧ els.length = 256 ∧ ∀ e, e < 256 → ∃ v : Nat → Nat, v 0 = old e ∧
          (∀ i, i < m → Spec.sums (Fmt.f32.decode (v i) :: step e i) (v (i + 1))) ∧ els.getD e 0 = BitVec.ofNat 64 (v m)))

/-- R180, R381: a matrix command that is to fail changes no tile, and fails with its record once its link beats are taken. -/
def Sys2Proof.Spec.FailedProductsChangeNothing : Prop :=
  ∀ (s : State) (id : OpId) (o : Op) (r : FaultRec), s.op? id = some o → o.phase = .started → o.kind.isMatrix = true →
    o.recd = some r → s.inFlight id = false →
    ((∀ p ∈ o.pieces, p.rd = none → p.wr = none ∧ p.len ≤ (p.data.getD []).length) →
      ∃ t, exec (.matrixCompletion id) s = .next t ∧ t.op? id = some { o with phase := .failed ⟨o.pc, r.addr, r.reason, 0⟩ } ∧
        (∀ q, (t.core q).acc = (s.core q).acc) ∧ t.ms = s.ms ∧ t.threads = s.threads ∧
        ∀ m, mapGet? s.fab.matrix (o.pcn / 8) = some m → m.busy = some id → Spec.idleAfter t (o.pcn / 8) m.turn m.grants) ∧
    ((∃ p ∈ o.pieces, p.rd = none ∧ (p.data.getD []).length < p.len) → exec (.matrixCompletion id) s = .next s)

/-- R178, R190, R236: beats on their way to a FIFO enter it in order, at most four at a time, opened by the seal unit of the receiving
tile: one sealed under another key than that of the tile's job does not open; here no command waits for them. -/
def Sys2Proof.Spec.BeatsEnterFifos : Prop :=
  ∀ (s : State) (i : Nat) (b : LinkBeat) (q : List (Option (List Byte))) (j : Job), s.fab.flight[i]? = some b →
    q = (mapGet? s.fab.links b.fifo).getD [] → j = s.job (s.owner (b.fifo / 4)) →
    (q.length < 4 → (∀ x ∈ s.fab.flight.take i, x.fifo ≠ b.fifo) → s.op? b.op = none →
      ((mapGet? s.fab.matrix (b.fifo / 4)).getD MatrixUnit.reset).busy = none →
      exec (.linkBeatArrival i) s = .next { s with fab := { s.fab with
        flight := s.fab.flight.eraseIdx i
        links := mapSet s.fab.links b.fifo (q ++ [if b.key.map (·.1) = (if j.conf then some (s.slotInst j.keyslot) else none)
          then some b.data else none]) } }) ∧
    (4 ≤ q.length ∨ (∃ x ∈ s.fab.flight.take i, x.fifo = b.fifo) → exec (.linkBeatArrival i) s = .next s)

/-- The access tables let a master through to `n` bytes of a die whose home slices are those of the addresses from `home` on: in every line that it
touches at its slice, and at the HBM controller when the line must come from there (R232, R234). -/
abbrev Sys2Proof.Spec.pathOpen (s : State) (master die : Nat) (home : Word) (pa n : Nat) (rd wr : Bool) : Prop :=
  pa + n ≤ hbmBytes ∧ ∀ line lo m sl, pa / 512 ≤ line → line * 512 < pa + n → lo = max pa (line * 512) → lo + m = min (pa + n) (line * 512 + 512) →
    sl = sliceNo die (home + BitVec.ofNat 64 (lo - pa)) → s.tableEntry sl master die lo m rd wr ≠ none ∧
    (s.isResident sl (2 ^ 56 + die * 2 ^ 52 + lo) m = true ∨ s.tableEntry (512 + die) master die lo m rd wr ≠ none)

/-- R116, R124, R127, R128, R149, R232, R239: the migration of a page begins when nothing of it is being filled or forwarded, and from then on
its accesses are refused in every job that shares it; it copies the page's bytes to its new place, rewrites its leaves and nothing else there,
drops the page from slices, TLBs and L1 caches, and ends the refusal; a PIN or CLEAR page stays, and so does one that the command processor of the
job's queue may not move. It waits for a line that a key sweep holds. Of the model's own in it: log entries 8, 65, 93. -/
def Sys2Proof.Spec.PagesMigrate : Prop :=
  ∀ (s : State) (tag die pa old new : Nat) (va pte page : Word) (j : Job) (sharer : Nat → Word → Prop) (leaf : Nat → Nat) (i : Instr),
    s.liveJob? tag = some j → s.walk (tagDie tag) j.ptRoot va = some pte → page = va &&& ~~~0xFFFF →
    (∀ u, leaf u = 2 ^ 56 + u / 512 * 2 ^ 52 + s.leafPa (u / 512) (s.job u).ptRoot va) → s.hub.notices = [] → i = .pageMigration tag va die pa →
    (∀ m ∈ s.fab.migrating, m.1 = tag → m.2.1 = va.toNat / 65536 → m.2.2 = old) →
    old = 2 ^ 56 + pte.toNat / 512 % 16 * 2 ^ 52 + pte.toNat / 65536 % 2 ^ 36 * 65536 → new = 2 ^ 56 + die * 2 ^ 52 + pa →
    (∀ u e, sharer u e ↔ (∃ x ∈ s.jobs, x.1 = u) ∧ s.walk (u / 512) (s.job u).ptRoot va = some e ∧
      2 ^ 56 + e.toNat / 512 % 16 * 2 ^ 52 + e.toNat / 65536 % 2 ^ 36 * 65536 = old) →
    ∀ (may : Prop), (may ↔ pte.toNat / 64 % 2 = 0 ∧ pte.toNat / 256 % 2 = 0 ∧ die < 8 ∧ pa % 65536 = 0 ∧ pa + 65536 ≤ hbmBytes ∧ old ≠ new ∧
      Spec.pathOpen s (0x8000 + j.queue % 8) (pte.toNat / 512 % 16) page (pte.toNat / 65536 % 2 ^ 36 * 65536) 65536 true false ∧
      Spec.pathOpen s (0x8000 + j.queue % 8) die page pa 65536 false true ∧
      ∀ u e, sharer u e → Spec.pathOpen s (0x8000 + j.queue % 8) (u / 512) (BitVec.ofNat 64 (leaf u % 2 ^ 52)) (leaf u % 2 ^ 52) 8 true true) →
    (pte.toNat / 512 % 16 < 8 → ¬may → (∀ m ∈ s.fab.migrating, m.1 ≠ tag ∨ m.2.1 ≠ va.toNat / 65536) → exec i s = .next s) ∧
    (pte.toNat / 512 % 16 < 8 → may → s.hub.held = [] →
      ((∃ d n, (s.die d).sweep = some n ∧ d < 8 ∧ ∃ k, k < 128 ∧ old + k * 512 = 2 ^ 56 + d * 2 ^ 52 + n * 512) → exec i s = .next s) ∧
      ((∀ d, (s.die d).sweep = none) →
        ((∀ m ∈ s.fab.migrating, m.2.2 ≠ old) → (∀ f ∈ s.fab.fills, f.line < old ∨ old + 65536 ≤ f.line) →
          (∀ f ∈ s.fab.fwds, f.key < old ∨ old + 65536 ≤ f.key) →
          ∃ t, exec i s = .next t ∧ t = { s with fab := { s.fab with migrating := s.fab.migrating ++ [(tag, va.toNat / 65536, old)] } } ∧
            (∀ a n q, a.toNat / 65536 = va.toNat / 65536 → t.xlat tag a n q = .wait) ∧
            ∀ u a n q e, s.leafAt (sliceNo (u / 512) a) u (s.job u).ptRoot a = some e →
              2 ^ 56 + e.toNat / 512 % 16 * 2 ^ 52 + e.toNat / 65536 % 2 ^ 36 * 65536 = old → t.xlat u a n q = .wait) ∧
        ((∀ m ∈ s.fab.migrating, m.2.2 ≠ old) → (∃ f ∈ s.fab.fills, old ≤ f.line ∧ f.line < old + 65536) ∨
            (∃ f ∈ s.fab.fwds, old ≤ f.key ∧ f.key < old + 65536) → exec i s = .next s) ∧
        ((∃ m ∈ s.fab.migrating, m.2.2 = old) → (∀ u e, sharer u e → leaf u % 8 = 0 ∧ leaf u % 2 ^ 52 + 8 ≤ 2 ^ 52 ∧ u / 512 < 8) →
          (∀ u v e f, sharer u e → sharer v f → (leaf u = leaf v ∨ leaf u + 8 ≤ leaf v ∨ leaf v + 8 ≤ leaf u) ∧
            ∀ x ∈ (s.walkReads (v / 512) (s.job v).ptRoot va).dropLast, ∀ y, y = 2 ^ 56 + v / 512 * 2 ^ 52 + x → y + 8 ≤ leaf u ∨ leaf u + 8 ≤ y) →
          (∀ v f, sharer v f → ∀ x ∈ s.walkReads (v / 512) (s.job v).ptRoot va, ∀ y, y = 2 ^ 56 + v / 512 * 2 ^ 52 + x →
            y + 8 ≤ new ∨ new + 65536 ≤ y) → Memory.wf s.ms.mem = true → s.ms.seals = [] →
          ∃ t, exec i s = .next t ∧
            (∀ k, k < 65536 → memGet t.ms.mem (new + k) = memGet s.ms.mem (old + k)) ∧
            (∀ a, (a < new ∨ new + 65536 ≤ a) → (∀ u e, sharer u e → a < leaf u ∨ leaf u + 8 ≤ a) → memGet t.ms.mem a = memGet s.ms.mem a) ∧
            (∀ u e, sharer u e → Spec.number t (leaf u) 8 / 2 ^ 16 % 2 ^ 36 = pa / 65536 ∧ Spec.number t (leaf u) 8 / 2 ^ 9 % 2 ^ 4 = die ∧
              Spec.number t (leaf u) 8 % 2 ^ 9 = e.toNat % 2 ^ 9 ∧ Spec.number t (leaf u) 8 / 2 ^ 52 = e.toNat / 2 ^ 52 ∧
              (∀ x ∈ t.fab.tlb, x.tag = u → x.vpage ≠ va.toNat / 65536) ∧
              ∀ c ∈ t.cores, ∀ l ∈ c.2.l1, l.job = u → l.addr / 1024 ≠ va.toNat / 65536) ∧
            (∀ r ∈ t.fab.resident, (r.line < old ∨ old + 65536 ≤ r.line) ∧ (r.line < new ∨ new + 65536 ≤ r.line)) ∧
            (∀ m, m ∈ t.fab.migrating ↔ m ∈ s.fab.migrating ∧ m.2.2 ≠ old) ∧ t.ops = s.ops ∧ t.threads = s.threads)))

/-! ## The host port, the command processors and Lantern -/

/-- A master's access by physical address passes in every line that it touches: at the line's slice, and at the die's HBM controller when the
line must come from there (R232, R234, and log entry 40). -/
abbrev Sys2Proof.Spec.atSlice (s : State) (master die pa n : Nat) (rd wr : Bool) : Prop :=
  pa + n ≤ hbmBytes ∧ ∀ line lo m, pa / 512 ≤ line → line * 512 < pa + n → lo = max pa (line * 512) → lo + m = min (pa + n) (line * 512 + 512) →
    s.tableEntry (sliceNo die (BitVec.ofNat 64 lo)) master die lo m rd wr ≠ none ∧
    (s.isResident (sliceNo die (BitVec.ofNat 64 lo)) (2 ^ 56 + die * 2 ^ 52 + lo) m = true ∨
      s.tableEntry (512 + die) master die lo m rd wr ≠ none)

/-- The entry of a function's window that lets an access through at the host interface or the hub copy engine (`target`), where it passes
at its slice as well (R232, R234). -/
abbrev Sys2Proof.Spec.window (s : State) (target fn die pa n : Nat) (rd wr : Bool) (e : AccessEntry) : Prop :=
  s.tableEntry target (0x4000 + fn) die pa n rd wr = some e ∧ Spec.atSlice s (0x4000 + fn) die pa n rd wr

/-- A window with SEAL = 1 lets a function through: it is a VF in RUN, over its IDE stream, under its own key slot, and no page there is
CLEAR (R235; log entry 9). -/
abbrev Sys2Proof.Spec.opens (s : State) (e : AccessEntry) (fn die pa n : Nat) (ide : Bool) (inst : Nat) : Prop :=
  0 < fn ∧ ide = true ∧ mapGet? s.lan.tdisp fn = some .run ∧ e.w1.toNat / 2 ^ 54 ≠ 0 ∧
  (∀ z ∈ s.ms.seals, z.2.clear = true → z.1 / 1024 ≠ (2 ^ 56 + die * 2 ^ 52 + pa) / 65536 ∧
    z.1 / 1024 ≠ (2 ^ 56 + die * 2 ^ 52 + pa + n - 1) / 65536) ∧
  ∃ k, mapGet? s.lan.slots (e.w1.toNat / 2 ^ 54) = some k ∧ k.vf = fn ∧ k.inst = inst

/-- No key sweep runs and no page is being migrated (R128, R239). -/
abbrev Sys2Proof.Spec.unswept (s : State) : Prop := (∀ d, (s.die d).sweep = none) ∧ s.fab.migrating = []

/-- Nor is a host write held: no line of memory is busy (R149). -/
abbrev Sys2Proof.Spec.quietMemory (s : State) : Prop := s.hub.held = [] ∧ Spec.unswept s

/-- R149, R225, R239: what waits for a line that is busy no longer goes on: the writes to a queue's control block and its bind, and the
completion words. Here nothing waits, or one completion word that finds no page to be written to, whose vector is raised all the same. -/
def Sys2Proof.Spec.WhatWaitedGoesOn : Prop :=
  ∀ (s : State), (∀ e ∈ s.hub.queues, ∀ x, mapGet? s.hub.queues e.1 = some x → x.wants = [] ∧ x.due = false) →
    (s.hub.notices = [] → s.runHub = s) ∧
    ∀ x, s.hub.notices = [x] → x.tag / 512 < 8 → s.fab.migrating = [] → (∀ d, (s.die d).sweep = none) → s.hub.held = [] →
      (∀ owner pa e w, (x.view s).xlatNow x.tag x.job.doneCtr 8 ⟨false, true, true, true⟩ ≠ .ok owner pa e w) →
      s.runHub = { s with hub := { s.hub with
        notices := []
        out := .msix ((mapGet? s.hub.queues x.job.queue).map (·.regs.fn) |>.getD 0)
          ((s.queuesOf ((mapGet? s.hub.queues x.job.queue).map (·.regs.fn) |>.getD 0)).idxOf x.job.queue) :: s.hub.out } }

/-- A place outside its die's tagged region (R237). -/
abbrev Sys2Proof.Spec.untagged (s : State) (die pa : Nat) : Prop :=
  ¬((s.die die).tagLo.toNat ≤ pa ∧ pa < (s.die die).tagHi.toNat)

/-- The state with one more thing that the host observes. -/
abbrev Sys2Proof.Spec.says (s : State) (o : Out) : State := { s with hub := { s.hub with out := o :: s.hub.out } }

/-- Memory in its canonical form, without a sealed or tagged sector and without a watch. -/
abbrev Sys2Proof.Spec.plainMemory (s : State) : Prop := s.ms.seals = [] ∧ s.fab.watches = [] ∧ Memory.wf s.ms.mem = true

/-- `t` is `s` with bytes at a key, no poison that `s` has not, and the same sectors in the slices, which may be dirty now. -/
def Sys2Proof.Spec.wrote (s t : State) (key : Nat) (bs : List Byte) : Prop :=
  (∀ k, memGet t.ms.mem k = if key ≤ k ∧ k < key + bs.length then bs.getD (k - key) 0 else memGet s.ms.mem k) ∧
  (∀ g ∈ t.ms.poison, g ∈ s.ms.poison) ∧
  t.fab.resident.map (fun r => (r.slice, r.line, r.present)) = s.fab.resident.map (fun r => (r.slice, r.line, r.present)) ∧
  t = { s with
    ms := { s.ms with mem := t.ms.mem, poison := t.ms.poison }
    fab := { s.fab with resident := t.fab.resident } }

/-- What the host interface takes: bytes of BAR0 within its size, SR-IOV resources from the PF, and bytes of device memory that a window
lets through, which is plain or opens (R219, R220, R234, R235). -/
def Sys2Proof.Spec.takes (s : State) (fn : Nat) (a : HostAddr) (n : Nat) (wr ide : Bool) : Prop :=
  match a with
  | .mem die pa => ∃ e, Spec.window s 521 fn die.val pa n (!wr) wr e ∧
      (e.w1.getLsbD 38 = true → ∃ i, Spec.opens s e fn die.val pa n ide i)
  | .bar off => off + n ≤ if fn = 0 then 2 ^ 26 else 2 ^ 18
  | .sriov vf => fn = 0 ∧ 1 ≤ vf ∧ vf ≤ 64 ∧ n ≤ 8

/-- R149, R219, R234, R235: a posted write completes. Without Relaxed Ordering it takes the next number, and is held unless nothing takes it;
one that nothing takes is answered with Unsupported Request; one with Relaxed Ordering performs on arrival, as soon as no key sweep and no
migration holds a line of it, and what waited for a line goes on (`Spec.WhatWaitedGoesOn`). -/
def Sys2Proof.Spec.PostedWritesComplete : Prop :=
  ∀ (fn : Nat) (a : HostAddr) (data : List Byte) (ide : Bool) (s : State), fn ≤ 64 → 1 ≤ data.length → data.length ≤ 512 →
    (Spec.takes s fn a data.length true ide →
      exec (.hostPostedWrite fn a data false ide) s = .next { s with hub := { s.hub with
        seqNo := s.hub.seqNo + 1, held := s.hub.held ++ [⟨s.hub.seqNo + 1, fn, a, data, ide⟩] } } ∧
      (Spec.unswept s → exec (.hostPostedWrite fn a data true ide) s = .next (s.hostPerform fn a data ide).runHub)) ∧
    (∀ relaxed, ¬Spec.takes s fn a data.length true ide →
      exec (.hostPostedWrite fn a data relaxed ide) s = .next { s with hub := { s.hub with
        seqNo := if relaxed then s.hub.seqNo else s.hub.seqNo + 1, out := .unsupported fn :: s.hub.out } })

/-- R149, R239: a horizon that moves forward completes: the held writes that it passes perform, as a write with Relaxed Ordering does, in the
order of their numbers, unless a key sweep or a migration holds a line of one, and what waited for their lines goes on; a horizon that does
not move, or that passes the last number given, changes nothing. -/
def Sys2Proof.Spec.HorizonsComplete : Prop :=
  Spec.WhatWaitedGoesOn ∧ ∀ (n : Nat) (s : State),
    (s.hub.horizon < n → n ≤ s.hub.seqNo → Spec.unswept s →
      exec (.horizonBroadcast n) s = .next ((s.hub.held.filter fun (w : HeldWrite) => decide (w.num ≤ n)).foldl
        (fun (t : State) (w : HeldWrite) => t.hostPerform w.fn w.addr w.data w.ide)
        { s with hub := { s.hub with horizon := n, held := s.hub.held.filter fun (w : HeldWrite) => decide (n < w.num) } }).runHub) ∧
    (n ≤ s.hub.horizon ∨ s.hub.seqNo < n → exec (.horizonBroadcast n) s = .next s)

/-- R219, R220, R223, R234, R241: what a host write does where it performs: in a plain window its bytes are written; at the PF's template
table its bytes stand there; at a doorbell one of at most 8 bytes asks the processor of the function's i-th queue, once the device is READY,
unless the queue is faulted; the SR-IOV resources of a VF whose configuration is frozen stay, and the write is logged. -/
def Sys2Proof.Spec.HostWritesPerform : Prop :=
  ∀ (fn : Nat) (data : List Byte) (ide : Bool) (s : State), 1 ≤ data.length → data.length ≤ 512 →
    (∀ (die : Fin 8) pa e, Spec.window s 521 fn die.val pa data.length false true e → e.w1.getLsbD 38 = false → Spec.plainMemory s →
      s.ms.poison = [] → (∀ off m, 1 ≤ m → off + m ≤ data.length →
        s.tableEntry 521 (0x4000 + fn) die.val (pa + off) m false true = some e ∧ Spec.untagged s die.val (pa + off)) →
          Spec.wrote s (s.hostPerform fn (.mem die pa) data ide) (2 ^ 56 + die.val * 2 ^ 52 + pa) data) ∧
    (∀ off t, 0x30000 ≤ off → off + data.length ≤ 0x32000 → fn = 0 → t = s.hostPerform fn (.bar off) data ide →
      t = { s with hub := { s.hub with templates := t.hub.templates } } ∧
      ∀ k, (mapGet? t.hub.templates k).getD 0 = if off ≤ 0x30000 + k ∧ 0x30000 + k < off + data.length then
        data.getD (0x30000 + k - off) 0 else (mapGet? s.hub.templates k).getD 0) ∧
    (∀ i q x, i < (if fn = 0 then 1024 else 16) → data.length ≤ 8 →
      ((s.hub.queues.filter fun e => e.2.bound && decide (e.2.regs.fn = fn)).map (·.1))[i]? = some q → mapGet? s.hub.queues q = some x →
      x.bound = true →
      s.hostPerform fn (.bar (0x10000 + 8 * i)) data ide = (if s.hub.ready = true ∧ x.fault = false then
        { s with hub := { s.hub with queues := mapSet s.hub.queues q { x with asked := true } } } else s)) ∧
    (∀ vf m, m = (mapGet? s.lan.tdisp vf).getD .unlocked → s.hostPerform 0 (.sriov vf) data ide =
      if m = .locked ∨ m = .run then { s with lan := { s.lan with
        dropLog := ((vf * 8, vf, BitVec.ofNat 64 (s.gts.toNat % 2 ^ 48)) :: s.lan.dropLog).take 8 } }
      else { s with hub := { s.hub with sriov := mapSet s.hub.sriov vf (BitVec.ofNat 64 (leNat data)) } })

/-- R149, R219, R220, R234, R235, R238: a host read returns the bytes of a plain window, or Unsupported Request; a window with SEAL = 1 is read
only by a VF in RUN over its IDE stream, under its own key slot, and a sector that does not match there is logged. A held write keeps a read
of its line waiting. In BAR0 doorbells and undefined offsets read 0. -/
def Sys2Proof.Spec.HostReads : Prop :=
  ∀ (fn len : Nat) (ide : Bool) (s : State), fn ≤ 64 → 1 ≤ len → len ≤ 4096 →
    (∀ (die : Fin 8) pa, (Spec.quietMemory s →
        (¬Spec.takes s fn (.mem die pa) len false ide →
          exec (.hostRead fn (.mem die pa) len ide) s = .next (Spec.says s (.unsupported fn))) ∧
        (∀ e, Spec.window s 521 fn die.val pa len true false e → s.ms.poison = [] →
          (e.w1.getLsbD 38 = false → s.ms.seals = [] → exec (.hostRead fn (.mem die pa) len ide) s =
            .next (Spec.says s (.readData fn (Spec.bytes s (2 ^ 56 + die.val * 2 ^ 52 + pa) len)))) ∧
          (∀ inst, e.w1.getLsbD 38 = true → Spec.opens s e fn die.val pa len ide inst →
            ((∀ i, i < len → ∃ z, mapGet? s.ms.seals ((2 ^ 56 + die.val * 2 ^ 52 + pa + i) / 64) = some z ∧ z.bad = false ∧
                z.clear = false ∧ z.key = inst) → exec (.hostRead fn (.mem die pa) len ide) s =
              .next (Spec.says s (.readData fn (Spec.bytes s (2 ^ 56 + die.val * 2 ^ 52 + pa) len)))) ∧
            ((∀ z, mapGet? s.ms.seals ((2 ^ 56 + die.val * 2 ^ 52 + pa) / 64) = some z → z.bad = true ∨ z.key ≠ inst) →
              exec (.hostRead fn (.mem die pa) len ide) s = .next (Spec.says { s with lan := { s.lan with
                tagLog := ((2 ^ 56 + die.val * 2 ^ 52 + pa) / 64, 0x4000 + fn) :: s.lan.tagLog } } (.unsupported fn)))))) ∧
      (∀ w ∈ s.hub.held, w.addr = .mem die pa → 1 ≤ w.data.length →
        exec (.hostRead fn (.mem die pa) len ide) s = .next s)) ∧
    (∀ off, off + len ≤ (if fn = 0 then 2 ^ 26 else 2 ^ 18) →
      ∃ bs, exec (.hostRead fn (.bar off) len ide) s = .next (Spec.says s (.readData fn bs)) ∧ bs.length = len ∧ ∀ i, i < len →
      ((fn ≠ 0 ∨ (16 ≤ off + i ∧ off + i < 0x30000) ∨ (0x32200 ≤ off + i ∧ off + i < 0x40000) ∨ 0x48000 ≤ off + i) →
        bs.getD i 0 = 0) ∧
      (fn = 0 → 0x30000 ≤ off + i → off + i < 0x32000 → bs.getD i 0 = (mapGet? s.hub.templates (off + i - 0x30000)).getD 0) ∧
      (fn = 0 → ∀ c x, off + i = 0x32000 + 8 * c → c < 64 → mapGet? s.hub.channels c = some x →
        (bs.getD i 0).toNat = (if x.overrun then 1 else 0) + (if x.error then 2 else 0))) ∧
    (∀ off, (if fn = 0 then 2 ^ 26 else 2 ^ 18) < off + len →
      exec (.hostRead fn (.bar off) len ide) s = .next (Spec.says s (.unsupported fn))) ∧
    (∀ vf, (Spec.takes s fn (.sriov vf) len false ide → exec (.hostRead fn (.sriov vf) len ide) s =
        .next (Spec.says s (.readData fn (leBytes len ((mapGet? s.hub.sriov vf).getD 0).toNat)))) ∧
      (¬Spec.takes s fn (.sriov vf) len false ide →
        exec (.hostRead fn (.sriov vf) len ide) s = .next (Spec.says s (.unsupported fn))))

/-- Template `k` of the hub copy engine. -/
def Sys2Proof.Spec.template (s : State) (k : Nat) : Template :=
  let byte (i : Nat) : Nat := ((mapGet? s.hub.templates (32 * k + i)).getD 0).toNat
  let number (o n : Nat) : Nat := (List.range n).foldl (fun v i => v + byte (o + i) * 256 ^ i) 0
  ⟨BitVec.ofNat 64 (number 0 8), BitVec.ofNat 64 (number 8 8), number 16 4, number 20 2⟩

/-- What the aperture asks for may be done (R226): address bits above the die are 0, and every sector lies in a window of the storing
function that is not sealed (log entries 40 and 41). -/
def Sys2Proof.Spec.mayCopy (s : State) (fn : Nat) (a : Word) (len : Nat) (rd wr : Bool) : Prop :=
  a.toNat < 2 ^ 55 ∧ ∀ i, i < len / 64 →
    ∃ e, Spec.window s 520 fn (a.toNat / 2 ^ 52) (a.toNat % 2 ^ 52 + 64 * i) 64 rd wr e ∧ e.w1.getLsbD 38 = false

/-- R226, R228: an aperture store puts a start into its channel, or sets OVERRUN or ERROR and copies nothing; the start copies its sectors
within the device, or sends them over the live planes and is over when they are acknowledged; a sector from another device is written and
acknowledged. Of the model's own in it: log entries 2, 8, 40, 41, 42, 69. -/
def Obligations.HubCopies : Prop :=
  ∀ (s : State), Spec.quietMemory s →
    (∀ (fn c : Nat) (data : Word) (x : Channel) (t : Template) (r : State), fn ≤ 64 → c < 64 →
      x = (mapGet? s.hub.channels c).getD Channel.reset → t = Spec.template s (data.toNat % 256) →
      r = { s with hub := { s.hub with seqNo := s.hub.seqNo + 1, horizon := s.hub.seqNo + 1 } } →
      ∃ y, exec (.hubCopyStart fn c data) s = .next { r with hub := { r.hub with channels := mapSet s.hub.channels c y } } ∧
        (4 ≤ x.starts.length → y = { x with overrun := true }) ∧
        (x.starts.length < 4 → data.toNat < 256 → 64 ≤ t.len → t.len ≤ 2 ^ 24 → t.len % 64 = 0 → (t.dev < 512 ∨ t.dev = 0xFFFF) →
          (∀ i, 22 ≤ i → i < 32 → (mapGet? s.hub.templates (32 * (data.toNat % 256) + i)).getD 0 = 0) →
          Spec.mayCopy s fn t.src t.len true false → (t.dev = 0xFFFF → Spec.mayCopy s fn t.dst t.len false true) →
          y = { x with starts := x.starts ++ [(fn, t)] }) ∧
        (x.starts.length < 4 → 256 ≤ data.toNat ∨ t.len < 64 ∨ 2 ^ 24 < t.len ∨ t.len % 64 ≠ 0 ∨ (512 ≤ t.dev ∧ t.dev ≠ 0xFFFF) ∨
          (∃ i, 22 ≤ i ∧ i < 32 ∧ (mapGet? s.hub.templates (32 * (data.toNat % 256) + i)).getD 0 ≠ 0) ∨
          ¬Spec.mayCopy s fn t.src t.len true false ∨ (t.dev = 0xFFFF ∧ ¬Spec.mayCopy s fn t.dst t.len false true) →
          y = { x with error := true })) ∧
    (∀ (fn c src dst : Nat) (x : Channel) (t : Template) (rest : List (Nat × Template)), mapGet? s.hub.channels c = some x →
      x.starts = (fn, t) :: rest → t.len % 64 = 0 → s.ms.poison = [] → Spec.plainMemory s →
      src = 2 ^ 56 + t.src.toNat % 2 ^ 55 → dst = 2 ^ 56 + t.dst.toNat % 2 ^ 55 →
      t.src.toNat % 2 ^ 52 + t.len ≤ 2 ^ 52 → t.dst.toNat % 2 ^ 52 + t.len ≤ 2 ^ 52 →
      (t.dev = 0xFFFF → x.sent = false → (src + t.len ≤ dst ∨ dst + t.len ≤ src) →
        (s.die (t.dst.toNat / 2 ^ 52 % 8)).tagLo = (s.die (t.dst.toNat / 2 ^ 52 % 8)).tagHi →
        ∃ r, exec (.hubCopyCompletion c) s = .next r ∧ Spec.wrote { s with hub := { s.hub with
          channels := mapSet s.hub.channels c { x with starts := rest } } } r dst (Spec.bytes s src t.len)) ∧
      (∀ live, t.dev ≠ 0xFFFF → x.sent = false → live = (List.range 32).filter (fun p => s.hub.planes.getLsbD p) → live ≠ [] →
        exec (.hubCopyCompletion c) s = .next { s with hub := { s.hub with
          channels := mapSet s.hub.channels c { x with sent := true }
          out := ((List.range (t.len / 64)).map fun i => Out.scaleSector
            (live.getD ((t.dst + BitVec.ofNat 64 (64 * i)).toNat / 2 ^ 9 % 32 % live.length) 0) t.dev (t.dst + BitVec.ofNat 64 (64 * i))
            (Spec.bytes s (src + 64 * i) 64)).reverse ++ s.hub.out } }) ∧
      (x.sent = true → exec (.hubCopyCompletion c) s = .next { s with hub := { s.hub with
          channels := mapSet s.hub.channels c { x with starts := rest, sent := false } } }) ∧
      (t.dev ≠ 0xFFFF → x.sent = false → s.hub.planes = 0 → exec (.hubCopyCompletion c) s = .next s)) ∧
    (∀ (plane die pa : Nat) (data : List Byte) (e : AccessEntry), plane < 32 → s.hub.planes.getLsbD plane = true → die < 8 →
      pa % 64 = 0 → data.length = 64 → Spec.window s 520 0 die pa 64 false true e → e.w1.getLsbD 38 = false → Spec.plainMemory s →
      Spec.untagged s die pa →
      ∃ t, exec (.scaleUpSectorArrival plane die pa data) s = .next t ∧
        Spec.wrote (Spec.says s (.ack plane)) t (2 ^ 56 + die * 2 ^ 52 + pa) data) ∧
    (∀ (plane : Fin 32) (live : Bool), ∃ v, exec (.livePlaneChange plane live) s = .next { s with hub := { s.hub with planes := v } } ∧
      ∀ p, p < 32 → v.getLsbD p = if p = plane.val then live else s.hub.planes.getLsbD p)

/-- R229, R243: a step of the clock is 100 MHz, never below 1.4 GHz nor above 2.7 GHz, and GTS keeps its value; bring-up leaves GTS at 0,
every core LIVE and the PF's READY register set; its fifth step sets every core LIVE, and its sixth READY. Of the model's own in it: log
entry 44. -/
def Sys2Proof.Spec.ClockAndBringUp : Prop :=
  ∀ (s : State), (∀ (lim : Bool), ∃ ph, exec (.powerClockStep lim) s = .next { s with
      clockMHz := (if lim then (if s.clockMHz < 1500 then 1400 else s.clockMHz - 100) else if 2600 < s.clockMHz then 2700 else s.clockMHz + 100)
      gtsPhase := ph } ∧
      ∀ mhz, mhz = (if lim then (if s.clockMHz < 1500 then 1400 else s.clockMHz - 100) else if 2600 < s.clockMHz then 2700 else s.clockMHz + 100) →
        (0 < s.clockMHz → s.gtsPhase < s.clockMHz → ph < mhz ∧ ph * s.clockMHz ≤ s.gtsPhase * mhz ∧ s.gtsPhase * mhz < (ph + 1) * s.clockMHz)) ∧
    (∃ t, exec .hubReset s = .next t ∧ t.gts = 0 ∧ t.hub.ready = true ∧ t.hub.bringUp = 6 ∧ t.hub.horizon = 0 ∧ t.hub.seqNo = 0 ∧
      t.threads = [] ∧ t.jobs = [] ∧ t.ops = [] ∧ t.ms.mem = [] ∧ (∀ p, (t.core p).status = .live) ∧ (∀ x, t.tile x = ⟨0, false⟩) ∧
      t.lan.fwDigest = BitVec.ofNat 256 (leNat (Config.measurement 3)) ∧ t.schedule = s.schedule) ∧
    (s.schedule = [] → s.looks = [] → s.hub.bringUp = 4 → ∃ t, step s = .next t ∧ t.hub.bringUp = 5 ∧ t.hub.ready = s.hub.ready ∧
      ∀ p, (t.core p).status = .live) ∧
    (s.schedule = [] → s.looks = [] → s.hub.bringUp = 5 → step s = .next { s with hub := { s.hub with bringUp := 6, ready := true } })

/-! ### Queues -/

/-- A field of a queue's control block (R221). -/
abbrev Sys2Proof.Spec.qcb (s : State) (b : Binding) (off n : Nat) : Nat :=
  Spec.number s (2 ^ 56 + b.qcbDie * 2 ^ 52 + b.qcbPa + off) n

/-- The access tables let the processor of a queue, which is number q mod 8, read and write `n` bytes through one window (R221, R232; log
entry 67). -/
abbrev Sys2Proof.Spec.served8 (s : State) (q die pa n : Nat) : Prop :=
  pa + n ≤ hbmBytes ∧ ∃ e, ∀ off m rd wr, 1 ≤ m → off + m ≤ n →
    s.tableEntry (sliceNo die (BitVec.ofNat 64 (pa + off))) (0x8000 + q % 8) die (pa + off) m rd wr = some e ∧
    s.tableEntry (512 + die) (0x8000 + q % 8) die (pa + off) m rd wr ≠ none

/-- A queue fault (R225): QFAULT, QFIELD, QREC, the vector of the queue's function, and the queue stands still. The sectors written are tagged
as CLEAR ones (R236). -/
def Sys2Proof.Spec.qfault (s t : State) (q code field idx : Nat) : Prop :=
  let x := (mapGet? s.hub.queues q).getD Queue.reset
  let key := 2 ^ 56 + x.regs.qcbDie * 2 ^ 52 + x.regs.qcbPa
  Spec.qcb t x.regs 0x80 1 = code ∧ Spec.qcb t x.regs 0x81 1 = field ∧ Spec.qcb t x.regs 0x84 4 = idx ∧
  (∀ k, (k < key + 0x80 ∨ key + 0x88 ≤ k ∨ k = key + 0x82 ∨ k = key + 0x83) → memGet t.ms.mem k = memGet s.ms.mem k) ∧
  (∀ z ∈ t.ms.seals, z ∈ s.ms.seals ∨ (z.1 = (key + 0x80) / 64 ∧ z.2.clear = true)) ∧
  ∃ v, t = { s with
    ms := { s.ms with mem := t.ms.mem, poison := t.ms.poison, seals := t.ms.seals }
    fab := { s.fab with resident := t.fab.resident }
    hub := { s.hub with
      queues := mapSet s.hub.queues q { x with fault := true, asked := false, tail := none, waiting := false }
      out := .msix x.regs.fn v :: s.hub.out } }

/-- The binding registers' values (R221). -/
abbrev Sys2Proof.Spec.binds (b : Binding) : Prop :=
  b.fn ≤ 64 ∧ b.vf = b.fn ∧ b.qcbDie < 8 ∧ b.qcbPa % 256 = 0 ∧ b.qcbPa + 256 ≤ hbmBytes ∧ b.die < 8 ∧ 1 ≤ b.prio ∧ b.prio ≤ 15 ∧
  1 ≤ b.quota ∧ b.quota ≤ 510 ∧ b.keyslot < 1024

/-- R221 to R223, R225, R227, R241: a binding caches the fields of the control block; the first that differs from the binding registers is a
queue fault 0x03; a frozen binding is dropped and logged. A doorbell makes the processor read TAIL and take the capability for the ring: 0x07
or 0x06 if a field is out of range. Of the model's own in it: log entries 43, 67, 84. -/
def Obligations.QueuesBindAndRing : Prop :=
  ∀ (q : Nat) (s : State), Spec.plainMemory s → Spec.quietMemory s → s.ms.poison = [] →
    (∀ (b : Binding) (x : Queue), x = (mapGet? s.hub.queues q).getD Queue.reset → q < 1024 → Spec.binds b → x.bound = false → x.fault = false →
      x.wants = [] →
      Spec.served8 s q b.qcbDie b.qcbPa 256 →
      (b.fn = 0 ∨ (s.hub.queues.filter fun e => e.2.bound && decide (e.2.regs.fn = b.fn)).length < 16) →
      ((∀ m, mapGet? s.lan.tdisp b.fn = some m → m = .unlocked ∨ m = .error) →
        ∀ (f : Nat → Nat → Nat) (l : List (Nat × Nat × Nat)), f = Spec.qcb s b →
        l = [(0x40, 1, b.die), (0x41, 1, b.prio), (0x42, 2, b.vf), (0x44, 2, b.quota), (0x46, 2, b.keyslot)] →
        ((∀ y ∈ l, f y.1 y.2.1 = y.2.2) →
          exec (.queueBind q b) s = .next { s with hub := { s.hub with
            queues := mapSet s.hub.queues q { x with
              bound := true, regs := b, cached := b, asked := false, tail := none, waiting := false, due := false } } }) ∧
        (∀ l1 y l2, l = l1 ++ y :: l2 → (∀ z ∈ l1, f z.1 z.2.1 = z.2.2) → f y.1 y.2.1 ≠ y.2.2 →
          ∃ t c, exec (.queueBind q b) s = .next t ∧ Spec.qfault { s with hub := { s.hub with
            queues := mapSet s.hub.queues q { x with
              bound := true, regs := b, cached := c, asked := false, tail := none, waiting := false, due := false } } } t q 3 y.1
                (f 0x0C 4))) ∧
      ((mapGet? s.lan.tdisp b.fn = some .locked ∨ mapGet? s.lan.tdisp b.fn = some .run) →
        exec (.queueBind q b) s = .next { s with lan := { s.lan with
          dropLog := ((0x40000 + q * 32, b.fn, BitVec.ofNat 64 (s.gts.toNat % 2 ^ 48)) :: s.lan.dropLog).take 8 } })) ∧
    (∀ (x : Queue) (f : Nat → Nat → Nat), mapGet? s.hub.queues q = some x → Spec.served8 s q x.regs.qcbDie x.regs.qcbPa 256 →
      x.regs.qcbDie < 8 → x.regs.qcbPa % 64 = 0 → f = Spec.qcb s x.regs → x.bound = true → x.fault = false → x.asked = true →
      x.tail = none → x.waiting = false → x.wants = [] → x.due = false →
      let sizeOk := ∃ i, 4 ≤ i ∧ i ≤ 16 ∧ f 8 4 = 2 ^ i
      (f 0 8 % 128 = 0 → sizeOk → f 0x0C 4 < f 8 4 → f 0x10 4 < f 8 4 →
        exec (.doorbell q) s = .next { s with hub := { s.hub with
          queues := mapSet s.hub.queues q { x with
            asked := false, tail := some (f 0x10 4), head := f 0x0C 4, ring := ⟨f 0 8, 128 * f 8 4⟩ } } }) ∧
      (∀ code field, (f 0 8 % 128 ≠ 0 ∧ code = 7 ∧ field = 0 ∨ f 0 8 % 128 = 0 ∧ ¬sizeOk ∧ code = 7 ∧ field = 8 ∨
          f 0 8 % 128 = 0 ∧ sizeOk ∧ f 8 4 ≤ f 0x0C 4 ∧ code = 7 ∧ field = 0x0C ∨
          f 0 8 % 128 = 0 ∧ sizeOk ∧ f 0x0C 4 < f 8 4 ∧ f 8 4 ≤ f 0x10 4 ∧ code = 6 ∧ field = 0x10) →
        ∃ t, exec (.doorbell q) s = .next t ∧ Spec.qfault s t q code field (f 0x0C 4)))

/-- A field of a queue's record at its processor's place in the ring (R223, R224, R227). -/
def Sys2Proof.Spec.record (s : State) (x : Queue) (off n : Nat) : Nat :=
  Spec.number s (2 ^ 56 + (x.ring.base + 128 * x.head) % 2 ^ 55 + off) n

/-- The capability bounds of a record's job: its seed records and its save area end within the global window (R227; log entry 66). -/
abbrev Sys2Proof.Spec.seedsFit (f : Nat → Nat → Nat) : Prop := f 0x28 8 + 64 * f 0x24 4 ≤ 2 ^ 52
abbrev Sys2Proof.Spec.areaFits (f : Nat → Nat → Nat) : Prop := f 0x38 8 + f 0x40 8 ≤ 2 ^ 52

/-- The fields of a record are in range (R13, R105, R224). -/
def Sys2Proof.Spec.goodRecord (f : Nat → Nat → Nat) : Prop :=
  f 0 1 = 1 ∧ f 1 1 < 32 ∧ (f 2 1 < 32 ∨ f 2 1 = 0xFF) ∧ (f 3 1 < 32 ∨ f 3 1 = 0xFF) ∧ 1 ≤ f 4 2 ∧ f 4 2 ≤ f 6 2 ∧ f 6 2 ≤ 1024 ∧
  nodeOk (BitVec.ofNat 64 (f 0x10 8)) = true ∧ f 0x18 8 % 4 = 0 ∧ f 0x20 2 ≤ 256 ∧ 3 ≤ f 0x22 1 ∧ f 0x22 1 ≤ 32 ∧ f 0x23 1 % 4 = 0 ∧
  f 0x23 1 ≤ 128 ∧ (f 0x23 1 = 0 ∨ (f 0x22 1 * 0x800 + 4095) / 4096 * 4096 + 4096 ≤ 0x2FFE0 - f 0x23 1 * 1024) ∧ 1 ≤ f 0x24 4 ∧
  f 0x24 4 ≤ 64 ∧ f 0x28 8 % 64 = 0 ∧ f 0x30 8 % 8 = 0 ∧ f 0x40 8 % 65536 = 0 ∧ 0x10000 + f 6 2 * 8 * 0x50000 ≤ f 0x40 8 ∧
  ∀ i, i < 56 → f (0x48 + i) 1 = 0

/-- R35, R221, R223 to R225, R227, R430: a command processor takes the record at its place in the ring. One whose fields are out of range, whose
use would pass a capability's bounds, or whose queue has its QUOTA of jobs, is a queue fault; while no job index is free it waits; else its
launch takes a seed tile and HEAD advances; at HEAD = TAIL the processor stops. Of the model's own in it: log entries 41, 66, 67, 68. -/
def Obligations.LaunchRecordsAreTaken : Prop :=
  ∀ (q tail a : Nat) (s : State) (x : Queue) (f : Nat → Nat → Nat), Spec.plainMemory s → Spec.quietMemory s →
    s.ms.poison = [] → mapGet? s.hub.queues q = some x → x.bound = true → x.fault = false → x.wants = [] → x.due = false →
    x.tail = some tail → f = Spec.record s x →
    Spec.served8 s q x.regs.qcbDie x.regs.qcbPa 256 → x.regs.qcbDie < 8 → x.regs.qcbPa % 64 = 0 → a = x.ring.base + 128 * x.head →
    a < 2 ^ 64 → a % 128 = 0 → Spec.served8 s q (a / 2 ^ 52 % 8) (a % 2 ^ 52) 128 → (∃ i, 4 ≤ i ∧ i ≤ 16 ∧ x.ring.len = 128 * 2 ^ i) →
    128 * x.head < x.ring.len → (∀ l ∈ s.hub.launches, l.queue ≠ q) → (∀ e ∈ s.jobs, e.2.saved = none) →
    ∀ i r, (x.waiting = false ∧ i = Instr.launchRecord q ∧ r = s) ∨
        (x.waiting = true ∧ (s.freeIndex x.cached.die).isSome = true ∧ i = Instr.launchIndexWait q ∧
          r = { s with hub := { s.hub with queues := mapSet s.hub.queues q { x with waiting := false } } }) →
      ∀ y z, y = { x with waiting := false, record := ⟨a, 128⟩, seeds := ⟨f 0x28 8, 64 * f 0x24 4⟩, area := ⟨f 0x38 8, f 0x40 8⟩ } →
      z = { r with hub := { r.hub with queues := mapSet r.hub.queues q y } } →
      (x.head = tail →
        exec i s = .next { r with hub := { r.hub with queues := mapSet r.hub.queues q { x with tail := none, waiting := false } } }) ∧
      (x.head ≠ tail → f 0 1 ≠ 1 → ∃ t l, exec i s = .next t ∧
        Spec.qfault { z with lan := { z.lan with tagLog := l } } t q 1 0 x.head) ∧
      (x.head ≠ tail → f 0 1 = 1 → f 1 1 < 32 → f 1 1 / 2 % 2 = 0 → 31 < f 2 1 → f 2 1 ≠ 0xFF →
        ∃ t l, exec i s = .next t ∧ Spec.qfault { z with lan := { z.lan with tagLog := l } } t q 1 2 x.head) ∧
      (x.head ≠ tail → Spec.goodRecord f → f 1 1 / 2 % 2 = 0 → r.indexFor x.cached.die = none →
        (¬Spec.seedsFit f → ∃ t, exec i s = .next t ∧ Spec.qfault z t q 2 0x28 x.head) ∧
        (Spec.seedsFit f → ¬Spec.areaFits f → ∃ t, exec i s = .next t ∧ Spec.qfault z t q 2 0x38 x.head) ∧
        (Spec.seedsFit f → Spec.areaFits f → r.queueJobs q < x.cached.quota →
          exec i s = .next { r with hub := { r.hub with queues := mapSet r.hub.queues q { y with waiting := true } } })) ∧
      (x.head ≠ tail → Spec.goodRecord f → f 1 1 / 2 % 2 = 0 → Spec.seedsFit f → Spec.areaFits f →
        ∀ ix bs j hint im ts o, bs = Spec.bytes s (2 ^ 56 + a % 2 ^ 55) 128 → r.indexFor x.cached.die = some ix →
          j = recordJob q x.cached bs (Config.sha256 (maskedRecord bs ++ im.flatten ++ ts.flatten)) →
          o = r.scratch (x.cached.die * 512 + ix) (recordJob q x.cached bs 0) →
          o.recordImage (x.cached.die * 512 + ix) bs = .ok im → o.recordTasks (x.cached.die * 512 + ix) bs = .ok ts →
          o.memoryFaults (x.cached.die * 512 + ix) (recordJob q x.cached bs 0) (.ok im) (.ok ts) = [] →
          hint = (if f 2 1 < 32 ∧ f 3 1 < 32 then some (x.cached.die * 1024 + f 3 1 * 32 + f 2 1) else none) →
          (x.cached.quota ≤ r.queueJobs q → ∃ t, exec i s = .next t ∧ Spec.qfault z t q 5 0xFF x.head) ∧
          (r.queueJobs q < x.cached.quota →
            (r.seedTile x.cached.die hint = none →
              ∃ t, exec i s = .next t ∧ Spec.qfault { z with nextId := s.nextId + 1 } t q 4 0xFF x.head) ∧
            (∀ tile, r.seedTile x.cached.die hint = some tile →
              ∃ t l m, exec i s = .next t ∧ Spec.qcb t x.regs 0x0C 4 = (x.head + 1) % (x.ring.len / 128) ∧
                t.hub.launches = s.hub.launches ++ [l] ∧ l.id = s.nextId ∧ l.queue = q ∧ l.qrec = x.head ∧ l.job = j ∧
                l.tag = x.cached.die * 512 + ix ∧ l.hint = hint ∧ l.tasks.length = f 0x24 4 ∧ l.image = im.map (fun w => BitVec.ofNat 32 (leNat w)) ∧
                l.image.length = f 0x20 2 ∧ t.moves = s.moves ++ [m] ∧ m.tile = tile ∧
                m.donor = s.owner tile ∧ m.launch = some s.nextId ∧ (m.donor % 512 = 0 → t.jobs = s.jobs ∧ t.threads = s.threads) ∧
                t.tiles = s.tiles ∧
                mapGet? t.hub.queues q = some { y with head := (x.head + 1) % (x.ring.len / 128) })))

/-! ### Lantern -/

/-- An access of a master is on its way (R234). -/
def Sys2Proof.Spec.busy (s : State) (m : Nat) : Prop :=
  (m < 2 ^ 14 ∧ ((∃ e ∈ s.ops, e.2.job = m ∧ e.2.phase ≠ .queued ∧ e.2.phase ≠ .waiting ∧ e.2.phase ≠ .performed ∧ e.2.phase ≠ .finished ∧
      ∀ r, e.2.phase ≠ .failed r) ∨ (∃ f ∈ s.fab.fwds, f.tag = m) ∨ ∃ x ∈ s.fab.trips, (∃ t, mapGet? s.threads x.who = some t ∧ t.job = m) ∨
        ∃ v, (s.job m).saved = some v ∧ v.id = x.who)) ∨
  (m / 2 ^ 14 = 1 ∧ ((∃ w ∈ s.hub.held, 0x4000 + w.fn = m) ∨ ∃ c ∈ s.hub.channels, ∃ x ∈ c.2.starts, 0x4000 + x.1 = m))

/-- R12, R17, R104 to R106, R230 to R234, R237, R239, R241: Lantern carries out a request that keeps the rules, and refuses any other with a
code and changes nothing; a change of what is frozen is dropped, logged and refused. A tagged region is aligned, within the die's memory and set
while no job lives there; an access entry has no reserved bit set, and no access of its master, old or new, is on its way. A key rotation, which
is refused while a sweep of the die runs, sweeps a die line by line, and what waited for a line goes on. Of the model's own in it: log entries
8, 43, 71, 72. -/
def Obligations.LanternRequests : Prop :=
  ∀ (s : State),
    (∀ die x y t, t = die * 1024 + y * 32 + x → die < 8 → x < 32 → y < 32 → (∀ m ∈ s.moves, m.tile ≠ t) →
      exec (.lanternRequest (.fence die x y)) s = .next (if (s.tile t).job = 0 then
        Spec.says { s with tiles := mapSet s.tiles t ⟨0x1FF, false⟩ } (.lantern 0) else Spec.says s (.lantern 1)) ∧
      exec (.lanternRequest (.unfence die x y)) s = .next (if (s.tile t).job = 0x1FF then
        Spec.says { s with tiles := mapSet s.tiles t ⟨0, false⟩ } (.lantern 0) else Spec.says s (.lantern 1))) ∧
    (∀ die h, die < 8 → exec (.lanternRequest (.hyst die h)) s =
      .next (Spec.says { s with dies := mapSet s.dies die { s.die die with hyst := h } } (.lantern 0))) ∧
    (∀ slot k, mapGet? s.lan.slots slot = some k →
      ((mapGet? s.lan.tdisp k.vf = none ∨ mapGet? s.lan.tdisp k.vf = some .unlocked ∨ mapGet? s.lan.tdisp k.vf = some .error) →
        exec (.lanternRequest (.destroySlot slot)) s =
          .next (Spec.says { s with lan := { s.lan with slots := mapErase s.lan.slots slot } } (.lantern 0))) ∧
      ((mapGet? s.lan.tdisp k.vf = some .locked ∨ mapGet? s.lan.tdisp k.vf = some .run) → exec (.lanternRequest (.destroySlot slot)) s =
        .next (Spec.says { s with lan := { s.lan with
          dropLog := ((slot, k.vf, BitVec.ofNat 64 (s.gts.toNat % 2 ^ 48)) :: s.lan.dropLog).take 8 } } (.lantern 1)))) ∧
    (∀ slot, mapGet? s.lan.slots slot = none → exec (.lanternRequest (.destroySlot slot)) s = .next (Spec.says s (.lantern 1))) ∧
    (∀ die lo hi base, die < 8 → lo.toNat % 65536 = 0 → hi.toNat % 65536 = 0 → lo.toNat ≤ hi.toNat → hi.toNat ≤ hbmBytes →
      base.toNat % 32 = 0 → exec (.lanternRequest (.setTagged die lo hi base)) s = .next (
        if (∃ e ∈ s.jobs, e.1 / 512 = die) then Spec.says s (.lantern 1)
        else Spec.says { s with dies := mapSet s.dies die { s.die die with tagLo := lo, tagHi := hi, tagBase := base } } (.lantern 0))) ∧
    (∀ die lo hi base, 8 ≤ die ∨ lo.toNat % 65536 ≠ 0 ∨ hi.toNat % 65536 ≠ 0 ∨ hi.toNat < lo.toNat ∨ hbmBytes < hi.toNat ∨ base.toNat % 32 ≠ 0 →
      exec (.lanternRequest (.setTagged die lo hi base)) s = .next (Spec.says s (.lantern 1))) ∧
    (∀ target index w0 w1 (entry : Word → Prop) (frozen : Nat → Prop),
      s.lan.access.Pairwise (fun a b => a.target < b.target ∨ (a.target = b.target ∧ a.index < b.index)) →
      (∀ z, entry z ↔ z = w0 ∨ ∃ e ∈ s.lan.access, e.target = target ∧ e.index = index ∧ e.w0 = z) →
      (∀ vf, frozen vf ↔ 0 < vf ∧ vf < 2 ^ 14 ∧ (∃ z, entry z ∧ z.toNat / 2 ^ 48 = 0x4000 + vf) ∧
        (mapGet? s.lan.tdisp vf = some .locked ∨ mapGet? s.lan.tdisp vf = some .run)) →
      ((∀ vf, ¬frozen vf) → (∀ z, entry z → ¬Spec.busy s (z.toNat / 2 ^ 48)) → target < 522 → index < 4096 →
        w0.toNat / 2 ^ 36 % 2 ^ 12 = 0 → w1.toNat / 2 ^ 40 % 2 ^ 14 = 0 → w0.toNat / 2 ^ 62 ≠ 3 → w0.toNat / 2 ^ 60 % 4 = 0 →
        ∃ l, exec (.lanternRequest (.setAccess target index w0 w1)) s = .next (Spec.says { s with lan := { s.lan with access := l } } (.lantern 0)) ∧
          l.Pairwise (fun a b => a.target < b.target ∨ (a.target = b.target ∧ a.index < b.index)) ∧ (⟨target, index, w0, w1⟩ : AccessEntry) ∈ l ∧
          ∀ e, (e.target ≠ target ∨ e.index ≠ index) → (e ∈ l ↔ e ∈ s.lan.access)) ∧
      ((∀ vf, ¬frozen vf) → ((∃ z, entry z ∧ Spec.busy s (z.toNat / 2 ^ 48)) ∨ 522 ≤ target ∨ 4096 ≤ index ∨ w0.toNat / 2 ^ 36 % 2 ^ 12 ≠ 0 ∨
          w1.toNat / 2 ^ 40 % 2 ^ 14 ≠ 0 ∨ w0.toNat / 2 ^ 62 = 3 ∨ w0.toNat / 2 ^ 60 % 4 ≠ 0) →
        exec (.lanternRequest (.setAccess target index w0 w1)) s = .next (Spec.says s (.lantern 1))) ∧
      (∀ vf, frozen vf → (∀ u, frozen u → u = vf) → exec (.lanternRequest (.setAccess target index w0 w1)) s = .next (Spec.says { s with
        lan := { s.lan with dropLog := ((target * 65536 + index * 16, vf, BitVec.ofNat 64 (s.gts.toNat % 2 ^ 48)) :: s.lan.dropLog).take 8 } }
        (.lantern 1)))) ∧
    (∀ p v, p < 65536 → v ≠ s.ownerReg p → exec (.lanternRequest (.setOwner p v)) s = .next (Spec.says s (.lantern 1))) ∧
    (∀ p page v j cb, p < 65536 → page < 48 → s.owner (p / 8) % 512 ≠ 0 → s.owner (p / 8) % 512 ≠ 0x1FF → j = s.job (s.owner (p / 8)) →
      cb = j.cbBase.toNat / 4096 → j.saved = none → exec (.lanternRequest (.setLmpu p page v)) s = .next (
        if (if page ≤ cb ∨ j.splim0 / 4096 ≤ page then v = j.lmpuPage page
            else v.toNat < 16 ∧ (v.getLsbD 2 = true →
              (s.ms.lmpu.filter fun e => decide (e.1 / 48 / 8 = p / 8) && decide (e.1 ≠ p * 48 + page) && e.2.getLsbD 2).length < 64))
        then Spec.says { s with ms := { s.ms with lmpu := mapSet s.ms.lmpu (p * 48 + page) v } } (.lantern 0)
        else Spec.says s (.lantern 1))) ∧
    (∀ die d i, die < 8 → d = s.die die → (i = Instr.keyRotationStart die ∨ i = .lanternRequest (.rotateKey die)) →
      exec i s = .next (if d.sweep = none then
        Spec.says { s with dies := mapSet s.dies die { d with sweep := some 0, keyNo := d.keyNo + 1 } } (.lantern 0)
        else Spec.says s (.lantern 1))) ∧
    (∀ die d, die < 8 → d = s.die die →
      (∀ n, d.sweep = some n → exec (.sweepLineCommit die) s = .next (State.runHub { s with
        dies := mapSet s.dies die { d with sweep := if (n + 1) * 512 < hbmBytes then some (n + 1) else none } })) ∧
      (d.sweep = none → exec (.sweepLineCommit die) s = .next s))

/-- R232 to R234: an access passes by the lowest-numbered valid entry of its master that covers every byte it touches and grants the
right; here the die has no tag carve-out. -/
def Sys2Proof.Spec.AccessTablesDecide : Prop :=
  ∀ (s : State) (target master die pa n : Nat) (rd wr : Bool) (good : AccessEntry → Prop), (s.die die).tagLo = (s.die die).tagHi → 1 ≤ n →
    (∀ e, good e ↔ e ∈ s.lan.access ∧ e.target = target ∧ e.w0.toNat / 2 ^ 48 = master ∧ e.w1.getLsbD 39 = true ∧
      (∀ i, i < n → e.w0.toNat % 2 ^ 36 ≤ (pa + i) / 65536 ∧ (pa + i) / 65536 ≤ e.w1.toNat % 2 ^ 36) ∧
      (rd = true → e.w1.getLsbD 36 = true) ∧ (wr = true → e.w1.getLsbD 37 = true)) →
    (s.tableEntry target master die pa n rd wr = none ↔ ∀ e, ¬good e) ∧
    (s.lan.access.Pairwise (fun a b => a.target < b.target ∨ (a.target = b.target ∧ a.index < b.index)) →
      ∀ e, s.tableEntry target master die pa n rd wr = some e ↔ good e ∧ ∀ x, good x → e.index ≤ x.index)

/-- The state after an SPDM response of a function: its head, and a body of its own (log entry 21). -/
def Sys2Proof.Spec.answers (s : State) (fn : Nat) (name : String) (head : List Byte) (t : State) : Prop :=
  ∃ body, t = Spec.says { s with fresh := s.fresh + 1 } (.spdm fn name (head ++ body))

/-- R240, R242: TDISP moves a VF from CONFIG_UNLOCKED to CONFIG_LOCKED to RUN, a stop leads back from every state, what is not allowed is
answered with an error, and an error event leads to ERROR; Lantern answers the SPDM requests of every function, with the certificates of
slot 0 alone. Of the model's own in it: log entries 2, 21, 70. -/
def Obligations.TdispAndSpdm : Prop :=
  ∀ (s : State),
    (∀ vf st, 1 ≤ vf → vf ≤ 64 → st = (mapGet? s.lan.tdisp vf).getD .unlocked →
      exec (.lockInterfaceRequest vf) s = .next (if st = .unlocked then
        Spec.says { s with lan := { s.lan with tdisp := mapSet s.lan.tdisp vf .locked } } (.tdisp vf true) else Spec.says s (.tdisp vf false)) ∧
      exec (.startInterfaceRequest vf) s = .next (if st = .locked then
        Spec.says { s with lan := { s.lan with tdisp := mapSet s.lan.tdisp vf .run } } (.tdisp vf true) else Spec.says s (.tdisp vf false)) ∧
      exec (.stopInterfaceRequest vf) s =
        .next (Spec.says { s with lan := { s.lan with tdisp := mapSet s.lan.tdisp vf .unlocked } } (.tdisp vf true)) ∧
      ∃ t, exec (.tdispError vf) s = .next t ∧ mapGet? t.lan.tdisp vf = some .error ∧
        (∀ u, u ≠ vf → mapGet? t.lan.tdisp u = mapGet? s.lan.tdisp u) ∧
        ((∀ e ∈ s.lan.sessions, e.2.fn ≠ vf) → t = { s with lan := t.lan } ∧ t.lan.slots = s.lan.slots)) ∧
    (∀ fn, fn ≤ 64 →
      (∃ t, exec (.getVersion fn) s = .next t ∧ Spec.answers s fn "VERSION" [] t) ∧
      (∃ t, exec (.getCapabilities fn) s = .next t ∧ Spec.answers s fn "CAPABILITIES" [] t) ∧
      exec (.negotiateAlgorithms fn) s = .next (Spec.says s (.algorithms fn .slhDsaSha2_128s .sha256 .sha256 .secp384r1 .aes256Gcm)) ∧
      (∃ t, exec (.getDigests fn) s = .next t ∧ Spec.answers s fn "DIGESTS" [] t) ∧
      (∃ t, exec (.challenge fn) s = .next t ∧ Spec.answers s fn "CHALLENGE_AUTH" [] t) ∧
      (∃ t, exec (.getCertificate fn 0) s = .next t ∧ Spec.answers s fn "CERTIFICATE" [] t) ∧
      ∀ slot, slot ≠ 0 → exec (.getCertificate fn slot) s = .next (Spec.says s (.spdmError fn)))

/-- R242, R244 to R246: sessions open and are secured, 32 for a function and 256 for the device; a message before the deadline moves it by
twice the heartbeat period, and one at or after it is discarded; keys go to the lowest empty slot, never for a session without a
heartbeat; a session that ends or times out loses its keys, and its jobs freeze. -/
def Sys2Proof.Spec.SessionsAndKeys : Prop :=
  ∀ (s : State),
    (∀ fn period, fn ≤ 64 → 
      (256 ≤ s.lan.sessions.length ∨ 32 ≤ (s.lan.sessions.filter fun e => decide (e.2.fn = fn)).length →
        exec (.keyExchange fn period) s = .next (Spec.says s (.spdmError fn))) ∧
      (s.lan.sessions.length < 256 → (s.lan.sessions.filter fun e => decide (e.2.fn = fn)).length < 32 →
        ∃ id t, exec (.keyExchange fn period) s = .next t ∧ id < 256 ∧ mapGet? s.lan.sessions id = none ∧
          (∀ i, i < id → mapGet? s.lan.sessions i ≠ none) ∧ Spec.answers { s with lan := { s.lan with
            sessions := mapSet s.lan.sessions id ⟨fn, false, period, 0, 0⟩ } } fn "KEY_EXCHANGE_RSP" (leBytes 2 id) t)) ∧
    (∀ id x, mapGet? s.lan.sessions id = some x →
      (x.secured = true → exec (.finish id) s = .next (Spec.says s (.spdmError x.fn))) ∧
      (x.secured = false → ∃ t, exec (.finish id) s = .next t ∧ Spec.answers { s with lan := { s.lan with
        sessions := mapSet s.lan.sessions id { x with secured := true, deadline := s.gts + BitVec.ofNat 64 (2 * x.period * 1000000000) } } } x.fn "FINISH_RSP" [] t) ∧
      (x.secured = true → x.period ≠ 0 → x.deadline.toNat ≤ s.gts.toNat →
        exec (.heartbeat id) s = .next s ∧ exec (.keyUpdate id) s = .next s ∧ exec (.endSession id) s = .next s ∧
        ∀ key, exec (.loadKey id key) s = .next s) ∧
      (∀ y r, x.secured = true → (x.period = 0 ∨ s.gts.toNat < x.deadline.toNat) →
        y = { x with deadline := s.gts + BitVec.ofNat 64 (2 * x.period * 1000000000) } →
        r = { s with lan := { s.lan with sessions := mapSet s.lan.sessions id y } } →
        (∃ t, exec (.heartbeat id) s = .next t ∧ Spec.answers r x.fn "HEARTBEAT_ACK" [] t) ∧
        (∃ t, exec (.keyUpdate id) s = .next t ∧ Spec.answers { r with lan := { r.lan with
          sessions := mapSet r.lan.sessions id { y with keyGen := x.keyGen + 1 } } } x.fn "KEY_UPDATE_ACK" [] t) ∧
        (∀ key, (x.period = 0 ∨ ∀ k, 1 ≤ k → k ≤ 1023 → mapGet? s.lan.slots k ≠ none) →
          exec (.loadKey id key) s = .next (Spec.says r (.spdmError x.fn))) ∧
        (∀ key k, x.period ≠ 0 → 1 ≤ k → k ≤ 1023 → mapGet? s.lan.slots k = none → (∀ i, 1 ≤ i → i < k → mapGet? s.lan.slots i ≠ none) →
          ∃ t, exec (.loadKey id key) s = .next t ∧ Spec.answers { r with nextId := s.nextId + 1, lan := { r.lan with
            slots := mapSet s.lan.slots k ⟨key, id, x.fn, s.nextId⟩ } } x.fn "VENDOR_DEFINED_RESPONSE" (leBytes 2 k) t)) ∧
      (∀ i, ((i = .endSession id ∧ x.secured = true ∧ (x.period = 0 ∨ s.gts.toNat < x.deadline.toNat)) ∨
          (i = .sessionTimeout id ∧ x.secured = true ∧ x.period ≠ 0 ∧ x.deadline.toNat ≤ s.gts.toNat)) →
        s.lan.sessions.Pairwise (fun a b => a.1 < b.1) → s.lan.slots.Pairwise (fun a b => a.1 < b.1) →
        ∃ t, exec i s = .next t ∧ mapGet? t.lan.sessions id = none ∧ id ∈ t.lan.lost ∧ (∀ e ∈ t.lan.slots, e.2.session ≠ id) ∧
          (∀ e ∈ s.lan.slots, e.2.session ≠ id → (∀ f ∈ s.lan.slots, f.2.session = id → f.2.vf = 0) → e ∈ t.lan.slots) ∧
          (∀ tag j k, s.liveJob? tag = some j → j.status ≠ .frozen → mapGet? s.lan.slots j.keyslot = some k → k.session = id → s.hub.launches = [] →
            (∀ e ∈ t.threads, e.2.job ≠ tag) ∧ (∀ e ∈ t.ops, e.2.job ≠ tag) ∧
            ∀ z, t.liveJob? tag = some z → z.status = .frozen)) ∧
      (x.secured = false ∨ x.period = 0 ∨ s.gts.toNat < x.deadline.toNat → exec (.sessionTimeout id) s = .next s))

/-- R243, R247: GET_MEASUREMENTS returns a block of an index, block 5 only while a hand-over is pending, block 0x20 the launches of the
requesting session; the hand-over of firmware stages an image, and its commit changes blocks 3, 5 and 6 in one step. -/
def Sys2Proof.Spec.MeasurementsAndHandover : Prop :=
  ∀ (s : State), let fw := fun (x : Nat × BitVec 256) => leBytes 8 x.1 ++ leBytes 32 x.2.toNat
    (∀ fn id, fn ≤ 64 → mapGet? s.lan.sessions id = none →
      (∃ t, exec (.getMeasurements fn id 3) s = .next t ∧ Spec.answers s fn "MEASUREMENTS" (fw (s.lan.fwVersion, s.lan.fwDigest)) t) ∧
      (∀ x, s.lan.staged = some x → ∃ t, exec (.getMeasurements fn id 5) s = .next t ∧ Spec.answers s fn "MEASUREMENTS" (fw x) t) ∧
      (s.lan.staged = none → exec (.getMeasurements fn id 5) s = .next (Spec.says s (.spdmError fn))) ∧
      (∃ t, exec (.getMeasurements fn id 6) s = .next t ∧ Spec.answers s fn "MEASUREMENTS" [if s.lan.staged = none then 0 else 1] t) ∧
      (∃ t, exec (.getMeasurements fn id 0x20) s = .next t ∧ Spec.answers s fn "MEASUREMENTS" [] t) ∧
      (∀ i, i ∉ [1, 2, 3, 4, 5, 6, 0x20, 0xFF] → exec (.getMeasurements fn id i) s = .next (Spec.says s (.spdmError fn)))) ∧
    (∀ id x tag gts m, mapGet? s.lan.sessions id = some x → x.secured = true → (x.period = 0 ∨ s.gts.toNat < x.deadline.toNat) →
      s.lan.measured.filter (fun e => decide (e.1 = id)) = [(id, tag, gts, m)] →
      ∃ t, exec (.getMeasurements x.fn id 0x20) s = .next t ∧ Spec.answers { s with lan := { s.lan with
          sessions := mapSet s.lan.sessions id { x with deadline := s.gts + BitVec.ofNat 64 (2 * x.period * 1000000000) } } } x.fn "MEASUREMENTS"
        (leBytes 2 tag ++ [0, 0, 0, 0, 0, 0] ++ leBytes 8 gts.toNat ++ leBytes 32 m.toNat) t) ∧
    (∀ v d, exec (.handoverStage v d) s = .next { s with lan := { s.lan with staged := some (v, d) } }) ∧
    (∀ x, s.lan.staged = some x → exec .handoverCommit s = .next { s with lan := { s.lan with
      fwVersion := x.1, fwDigest := x.2, staged := none, mlog := x :: s.lan.mlog } }) ∧
    (s.lan.staged = none → exec .handoverCommit s = .next s)

/-! ## Two rules whole -/

/-- In `t` one more result of the executing thread is on its way: it falls due in Gd `lat` cycles after the issue in `s`, and its bits
are `v` (R78 to R80). -/
abbrev Sys2Proof.Spec.gives (s t : State) (d : GReg) (lat : Nat) (v : Nat → Bool) : Prop :=
  ∃ p, t.me.pending = s.ready.pending ++ [p] ∧ p.reg = .g d ∧ p.due = s.issueAt + lat ∧
    ∀ i, i < 64 → p.mask.getLsbD i = true ∧ p.value.getLsbD i = v i

/-- R315: AND sets Gd to Ga AND Gb, bit by bit, at latency 1; it is ADD's 32-bit map with fn9 = 2, and it has no other form. -/
def Obligations.AndBitByBit : Prop :=
  (∀ (d a b : GReg) (s : State), s.Waited [.g a, .g b] [.g d] 1 → ∃ t, exec (.and d a b) s = .next t ∧
    Spec.gives s t d 1 fun i => (s.regG a).getLsbD i && (s.regG b).getLsbD i) ∧
  (∀ (d a b : GReg) (rest : List Byte),
    decode (leBytes 4 (0x05 + 2 * 2 ^ 8 + b.val * 2 ^ 17 + a.val * 2 ^ 22 + d.val * 2 ^ 27) ++ rest) = .instr (.and d a b) 4) ∧
  decode [0x05, 0x02, 0x86, 0x08] = .instr (.and 1 2 3) 4 ∧
  ∀ (d a b : GReg) (bs : List Byte) (n : Nat), decode bs = .instr (.and d a b) n → n = 4

/-- R335, R327: CLZ and CTZ count the zero bits above the highest and below the lowest 1 bit, 64 of 0, at latency 2; they are ADD's 32-bit
map with fn9 = 18 and 19 and b = 0; any other b is ILLEGAL; they raise no flag. -/
def Obligations.CountsOfZeroBits : Prop :=
  (∀ (d a : GReg) (s : State), s.Waited [.g a] [.g d] 2 → ∃ (c z : Nat) (t u : State),
    exec (.clz d a) s = .next t ∧ Spec.gives s t d 2 (fun i => c.testBit i) ∧ t.me.fstat = s.ready.fstat ∧
    exec (.ctz d a) s = .next u ∧ Spec.gives s u d 2 (fun i => z.testBit i) ∧ u.me.fstat = s.ready.fstat ∧ c ≤ 64 ∧ z ≤ 64 ∧
    (∀ i, 64 ≤ i + c → i < 64 → (s.regG a).getLsbD i = false) ∧ (c < 64 → (s.regG a).getLsbD (63 - c) = true) ∧
    (∀ i, i < z → (s.regG a).getLsbD i = false) ∧ (z < 64 → (s.regG a).getLsbD z = true)) ∧
  (∀ (d a : GReg) (rest : List Byte) (b w : Nat), b < 32 → w = b * 2 ^ 17 + a.val * 2 ^ 22 + d.val * 2 ^ 27 →
    (b = 0 → decode (leBytes 4 (0x05 + 18 * 2 ^ 8 + w) ++ rest) = .instr (.clz d a) 4 ∧
      decode (leBytes 4 (0x05 + 19 * 2 ^ 8 + w) ++ rest) = .instr (.ctz d a) 4) ∧
    (b ≠ 0 → decode (leBytes 4 (0x05 + 18 * 2 ^ 8 + w) ++ rest) = .illegal (BitVec.ofNat 32 (0x05 + 18 * 2 ^ 8 + w)) ∧
      decode (leBytes 4 (0x05 + 19 * 2 ^ 8 + w) ++ rest) = .illegal (BitVec.ofNat 32 (0x05 + 19 * 2 ^ 8 + w)))) ∧
  decode [0x05, 0x12, 0x40, 0x11] = .instr (.clz 2 5) 4 ∧ decode [0x05, 0x13, 0xC0, 0x51] = .instr (.ctz 10 7) 4

/-! ## The machine as a whole -/

/-- Byte `a` and the next, as the core's instruction cache holds them for a job. -/
def Sys2Proof.Spec.text (s : State) (p tag : Nat) (a : Word) (b0 b1 : Byte) : Prop :=
  0x1000000 ≤ a.toNat ∧ a.toNat < 2 ^ 52 ∧
  ∃ l, (s.core p).icache.find? (fun l => decide (l.job = tag) && decide (l.addr = a.toNat / 64)) = some l ∧
    (l.data.drop (a.toNat % 64)).take 2 = [b0, b1]

/-- What a step leaves for the order of those after it (R3, R102): the latest rank at its GTS, the latest cycle, and the bank accesses of it. -/
abbrev Sys2Proof.Spec.marked (t : State) (m : Option (Word × Nat × Nat)) (log : List (Nat × Nat × Nat)) : State :=
  { t with mark := m, front := max t.front t.now, bankLog := log }

/-- The mark that an agent of rank `k` and source number `n` leaves: its own, unless one that ranks after it stands for the same GTS. -/
abbrev Sys2Proof.Spec.marksAs (m : State → Option (Word × Nat × Nat)) (k n : Nat) : Prop :=
  ∀ w, (∀ k' n', w.mark = some (w.gts, k', n') → ¬(k < k' ∨ (k = k' ∧ n < n'))) → m w = some (w.gts, k, n)

/-- A thread has issued, and asks the fabric for nothing any more (R73). -/
def Sys2Proof.Spec.asksNothing (s : State) (u : Uid) : State :=
  let mine (w : Nat) : Bool := decide (w = u) || s.fab.trips.any fun t => decide (t.who = u) && decide (t.id = w)
  { s with fab := { s.fab with
      refusals := s.fab.refusals.filter fun r => !mine r.who
      fwds := s.fab.fwds.filter fun f => !mine f.who
      trips := s.fab.trips.filter fun t => decide (t.who ≠ u) } }

/-- R3, R44, R47, R82, R198, R267: on the turn of a core that is up, its RUNNING thread's bytes at the pc are decoded and that instruction
executes; if it was not held, then, in single step, the core halts. Where a step of a later rank, or a core of higher number, has come before at
this GTS, time passes instead, unless this one sees what that did. The cases in which something else comes before are excluded: a READY
upcall that is preferred, a spent quantum, a refused store to report, a redirected access, a register that the slot has not loaded, an event
that has fallen due, loads that are to look at bits which changed, and an access that comes too late in its cycle. Of the model's own in
it: log entries 1, 47. -/
def Sys2Proof.Spec.InstructionsRun : Prop :=
  ∀ (s x b : State) (p n : Nat) (r : List Turn) (u : Uid) (t : Thread) (bs : List Byte) (i : Instr), s.schedule = .issue p :: r →
    p < 65536 → x = { s with cur := u, schedule := r } → b = { s with cur := u }.begin → s.runningOn p = some (u, t) →
    t.redirect = none → s.coreUp p = true → ((s.core p).halted = true → t.pfx ≠ none) →
    (t.pfx = none → (∀ e ∈ s.threads, e.2.pcn = p → e.2.status = .ready → e.2.preferred = true → e.2.upcall = .none) ∧
      s.quantumSpent p = none ∧ s.pstoreFor u = none) →
    (∀ j b0 b1, bs[2 * j]? = some b0 → bs[2 * j + 1]? = some b1 → Spec.text s p t.job (t.pc + BitVec.ofNat 64 (2 * j)) b0 b1) →
    decode bs = .instr i n → bs.length = n → (∀ x ∈ readsOf i, x ∉ t.cold) → s.looks = [] →
    s.mustRun b.gts.toNat (some (5, p)) = none →
    (b.inOrder (some (5, p)) = true ∨ b.follows (b.issueUses i) = true → b.bankClash (b.issueUses i) = false →
      ∃ (m : State → Option (Word × Nat × Nat)) (log : State → List (Nat × Nat × Nat)), Spec.marksAs m 5 p ∧
        step s = Res.then_ (exec i x) (fun v => if (v.core p).nextIssue = (s.core p).nextIssue then { v with front := max v.front v.now }
          else let w := (Spec.asksNothing v u).afterIssue { s with cur := u } p i; Spec.marked w (m w) (log w)) ∧
        ∀ v, exec i x = .next v → (v.core p).nextIssue ≠ (s.core p).nextIssue → (v.core p).stepping = false →
          (∀ e ∈ v.fab.trips, e.who ≠ u) → (∀ e ∈ v.fab.fwds, e.who ≠ u) → (∀ e ∈ v.fab.refusals, e.who ≠ u) →
          step s = .next (Spec.marked v (m v) (log v))) ∧
    (∀ k n c, b.mark = some (b.gts, k, n) → 5 < k ∨ (k = 5 ∧ p < n) → b.follows (b.issueUses i) = false → c = s.advanceTo s.front →
      0 < s.clockMHz → c.gts.toNat + 2000 < 2 ^ 64 →
      ∃ t, step s = .next t ∧ t.schedule = s.schedule ∧ c.gts.toNat < t.gts.toNat ∧ t.ms = s.ms ∧ t.threads = s.threads ∧ t.jobs = s.jobs)

/-- R42, R82: an instruction that reads a register which its thread's slot has not loaded is held while the line comes: the thread stays
RUNNING in its slot, its register is loaded, and nothing else changes but the cycle from which it may issue. Of the model's own in it: log
entries 2, 86. -/
def Sys2Proof.Spec.RegisterFillsHold : Prop :=
  ∀ (s : State) (p n : Nat) (r : List Turn) (u : Uid) (t : Thread) (bs : List Byte) (i : Instr), s.schedule = .issue p :: r →
    p < 65536 → s.runningOn p = some (u, t) → mapGet? s.threads u = some t → t.redirect = none → s.coreUp p = true →
    ((s.core p).halted = true → t.pfx ≠ none) →
    (t.pfx = none → (∀ e ∈ s.threads, e.2.pcn = p → e.2.status = .ready → e.2.preferred = true → e.2.upcall = .none) ∧
      s.quantumSpent p = none ∧ s.pstoreFor u = none) →
    (∀ j b0 b1, bs[2 * j]? = some b0 → bs[2 * j + 1]? = some b1 → Spec.text s p t.job (t.pc + BitVec.ofNat 64 (2 * j)) b0 b1) →
    decode bs = .instr i n → bs.length = n → (∃ x ∈ readsOf i, x ∈ t.cold) → s.looks = [] →
    step s = .next { s with
      cur := u
      schedule := r
      fresh := s.fresh + 1
      threads := mapSet s.threads u { t with
        cold := t.cold.filter fun x => !(readsOf i).contains x
        notBefore := max s.now (max (s.core p).nextIssue t.notBefore) + Config.fillCycles s.fresh } }

/-- What an event of an agent leaves for the instructions that it may have caused: none issues in an earlier cycle, on its own core for a
core's, on any for one that ranks after the cores or is not ranked (log entry 1). -/
def Sys2Proof.Spec.caused (a : Agent) (t : State) : State :=
  match a with
  | none => { t with back := t.now }
  | some (k, n) =>
    if k = 5 then { t with cores := mapSet t.cores n { t.core n with nextIssue := max (t.core n).nextIssue t.now } }
    else if k < 5 then t else { t with back := t.now }

/-- R3, R38, R102: an event of the schedule happens at its turn, when time has come to the latest cycle of a step before it, unless one that
has fallen due comes first, one of a later rank or source number has happened at the same GTS, in which case time passes, or its bank
access comes too late in its cycle, in which case it waits for the next. Of the model's own in it: log entry 1. -/
def Sys2Proof.Spec.EventsRunInOrder : Prop :=
  ∀ (s c : State) (r : List Turn) (i : Instr) (a : Agent), s.schedule = .event i :: r → schedulable i = true → s.looks = [] →
    c = s.advanceTo s.front → a = c.agentOf i → c.mustRun c.gts.toNat a = none →
    (c.inOrder a = true → c.bankClash (c.eventUses i) = false →
      ∃ (m : State → Option (Word × Nat × Nat)) (log : State → List (Nat × Nat × Nat)),
        step s = Res.then_ (exec i { c with schedule := r }) (fun v => Spec.caused a (Spec.marked v (m v) (log v))) ∧
        (∀ k n, a = some (k, n) → Spec.marksAs m k n) ∧ (a = none → ∀ v, m v = v.mark)) ∧
    (∀ k n k' n', a = some (k, n) → c.mark = some (c.gts, k', n') → k < k' ∨ (k = k' ∧ n < n') → 0 < s.clockMHz →
      c.gts.toNat + 2000 < 2 ^ 64 →
      ∃ t, step s = .next t ∧ t.schedule = s.schedule ∧ c.gts.toNat < t.gts.toNat ∧ t.ms = s.ms ∧ t.threads = s.threads ∧ t.jobs = s.jobs) ∧
    (c.inOrder a = true → (∃ u ∈ c.eventUses i, ∃ g ∈ granules u.key u.n, ∃ e ∈ c.bankLog, e.1 = g ∧
        (c.now < e.2.1 ∨ (c.now = e.2.1 ∧ u.place < e.2.2))) →
      ∃ t, step s = .next t ∧ t.schedule = s.schedule ∧ c.now < t.now ∧ t.ms = s.ms ∧ t.threads = s.threads ∧ t.jobs = s.jobs)

/-- R3, R38, R42, R44, R47, R82, R102, R198, R267: all of its parts. Of the model's own in it: log entries 1, 2, 47, 86. -/
def Obligations.AStepRunsTheDecodedInstruction : Prop :=
  Spec.InstructionsRun ∧ Spec.RegisterFillsHold ∧ Spec.EventsRunInOrder

/-- R269, R274, R275: instructions that the spec writes out, and bits that are ILLEGAL (spec/11 to spec/18, worked examples). -/
def Obligations.WrittenWordsDecode : Prop :=
  decode [0xF9, 0x40, 0x00, 0x83] = .instr (.pfx true 0x06 0x40) 4 ∧
  decode [0x71, 0x70, 0x10, 0x0A] = .instr (.ldx 1 4 1 0 3 .w32 false) 4 ∧
  decode [0x25, 0x01, 0x00, 0x10, 0x00, 0x00, 0x00, 0x3F] = .instr (.litZ 2 0x3F000000) 8 ∧
  decode [0x49, 0xF8, 0x3F, 0x12] = .instr (.bne 1 2 0x1FF8) 4 ∧
  decode [0x1D, 0x30, 0x00, 0x20] = .instr (.movi 4 0 24) 4 ∧
  decode [0x2B, 0x03, 0x80, 0x3F] = .instr (.faddi 3 2 0x3F800) 4 ∧
  decode [0xC1, 0x10, 0x10, 0x89] = .instr (.mma 8 9 1 0 .bf16 2 0) 4 ∧
  decode [0xD1, 0x43, 0x21, 0x43] = .instr (.mcrd 4 3 2 1 2 0) 4 ∧
  decode [0x79, 0x39, 0x80, 0x0A] = .instr (.vldxWf 1 5 0 0 1) 4 ∧
  decode [0x50, 0x26] = .instr (.addShort 6 5) 2 ∧
  decode [0x10, 0x0A] = .illegal 0x0A10 ∧ decode [0x00, 0x00, 0x00, 0x3F] = .illegal 0

/-- R267 to R285: the decoder reads back every well-formed instruction with every operand, whatever follows it. -/
def Sys2Proof.Spec.DecodeReadsEveryInstructionBack : Prop :=
  ∀ (i : Instr) (rest : List Byte), i.isEvent = false → WellFormed i = true →
    decode (encodeBytes i ++ rest) = .instr i i.size ∧ decodeTableWord (encode i).1 (encode i).2 = some i

/-- R267 to R285: no bit is ignored: bytes that decode are the bytes of the well-formed instruction that they decode to. -/
def Sys2Proof.Spec.NoBitIsIgnored : Prop :=
  ∀ (bs : List Byte) (i : Instr) (n : Nat), decode bs = .instr i n →
    n ≤ bs.length ∧ encodeBytes i = bs.take n ∧ n = i.size ∧ WellFormed i = true ∧ i.isEvent = false

/-- The registers that an instruction reads and writes at a fixed latency, and that latency: integer, floating-point, vector and mask
instructions, the pipeline's loads and stores with their bases and data, branches with their conditions, and the read of FSTAT. -/
def Sys2Proof.Spec.operands (i : Instr) : Option (List Reg × List Reg × Nat) :=
  [((Spec.binary i).or ((Spec.unary i).or (Spec.withImmediate i))).map fun r => (r.reads.map Reg.g, [Reg.g r.dest], r.lat),
   ((Spec.fpArithmetic i).or (Spec.fpTests i)).map fun r => (r.reads.map Reg.g, [Reg.g r.dest], r.lat),
   ((Spec.vectorArithmetic i).or ((Spec.vectorMoves i).or (Spec.vectorMasks i))).map fun r => (r.reads, [r.dest], r.lat),
   (Spec.loads i).map fun r => ([.g r.base], [r.reg], if r.bytes = 32 then 4 else 3),
   (Spec.stores i).map fun r => ([.g r.base, r.reg], [], 0),
   (Spec.branch i).map fun r => (r.reads.map Reg.g, if r.link then [.g 15] else [], if r.link then 1 else 0),
   match i with
     | .csrr d c => if c = 0x011 then some ([.fstat], [.g d], 2) else none
     | _ => none].findSome? id

/-- The identifiers of R81. -/
def Sys2Proof.Spec.ident : Reg → Nat
  | .g r => r.val
  | .v r => 0x20 + r.val
  | .k r => 0x40 + r.val
  | .fstat => 0x50

/-- The operations of the executing thread that guard a register (R87), oldest first. -/
def Sys2Proof.Spec.guarding (s : State) (r : Reg) : List (OpId × Op) :=
  s.ops.filter fun e => decide (e.2.uid = s.cur) && e.2.tok.isSome && e.2.kind.dests.contains r

/-- R81, R87, R194: in checked mode, an instruction that reads one register before its producer has fallen due traps HAZARD, and so does one
whose write would fall due no later than an earlier one of its register; one that reads or writes one token-guarded register traps
UNDERWAIT; before anything else happens. Of the model's own in it: log entry 55. -/
def Sys2Proof.Spec.HazardsTrap : Prop :=
  ∀ (i : Instr) (s : State) (reads writes : List Reg) (lat : Nat) (a : Reg), Spec.operands i = some (reads, writes, lat) →
    s.myCore.hzchk = true → Spec.canTrap s →
    (∀ p, a ∈ reads → (s.ready.producers a).getLast? = some p → (∀ b ∈ reads, b ≠ a → s.ready.producers b = []) →
      exec i s = .next (Spec.trapped s 0x06 (BitVec.ofNat 64 (Spec.ident a + (p.due - s.issueAt) * 256)) 0 0 0)) ∧
    (∀ p, (∀ b ∈ reads, s.ready.producers b = []) → writes = [a] → lat ≠ 0 → a ≠ .fstat →
      s.ready.pending.filter (fun p => decide (p.reg = a)) = [p] → s.issueAt + lat ≤ p.due →
      exec i s = .next (Spec.trapped s 0x06 (BitVec.ofNat 64 (Spec.ident a + (p.due - (s.issueAt + lat) + 1) * 256)) 0 0 0)) ∧
    (∀ e k, (∀ b ∈ reads, s.ready.producers b = []) → (∀ p ∈ s.ready.pending, p.reg ∉ writes) → a ∈ reads ++ writes →
      (Spec.guarding s a).getLast? = some e → e.2.tok = some k → (∀ b ∈ reads ++ writes, b ≠ a → Spec.guarding s b = []) →
      exec i s = .next (Spec.trapped s 0x07 (BitVec.ofNat 64 (Spec.ident a + k.val * 256)) 0 0 0))

/-- R79, R80: what an under-waited read of a register may give: its value with the results of some of the producers that have not fallen
due, each whole. -/
abbrev Sys2Proof.Spec.mayRead (s : State) (r : Reg) (v : Vec) : Prop :=
  ∃ l : List PendingWrite, l.Sublist (s.ready.producers r) ∧ v = l.foldl (fun v p => merge v p.value p.mask) (s.ready.raw r)

/-- R79, R87: outside checked mode, an instruction that reads registers before their producers have fallen due does what it does in a state
in which each of them holds a value that such a read may give: as an address base, as store data, as a branch condition, as a mask, or
FSTAT through CSRR. A read of a token-guarded register, here by MOV, gives the value before an operation or an operation's result. Of the
model's own in it: log entry 2. -/
def Sys2Proof.Spec.UncheckedReadsAreOldOrNew : Prop :=
  (∀ (i : Instr) (s : State) (reads writes : List Reg) (lat : Nat), Spec.operands i = some (reads, writes, lat) → reads.Nodup →
    s.myCore.hzchk = false → Spec.canTrap s → (∀ x ∈ s.me.coldPoison, x.1 ∉ reads) → (∀ r ∈ reads, Spec.guarding s r = []) →
    (∀ p ∈ s.me.pending, p.value &&& ~~~(fullMask p.reg) = 0 ∧ p.mask &&& ~~~(fullMask p.reg) = 0) →
    ∃ x t : _, x = { s.ready with g := x.g, v := x.v, k := x.k, fstat := x.fstat, pending := [] } ∧
      (∀ r, r ∉ reads → x.raw r = s.ready.raw r) ∧ (∀ r ∈ reads, Spec.mayRead s r (x.raw r)) ∧
      exec i { s with threads := mapSet s.threads s.cur x } = .next t ∧
      exec i s = .next { t with threads := mapSet t.threads s.cur { t.me with
        g := s.ready.g, v := s.ready.v, k := s.ready.k, fstat := s.ready.fstat, pending := s.ready.pending ++ t.me.pending } }) ∧
  ∀ (d a : GReg) (s : State), s.myCore.hzchk = false → (∀ x ∈ s.me.coldPoison, x.1 ≠ .g a) →
    ∃ v : Vec, (Spec.mayRead s (.g a) v ∨ ∃ e ∈ Spec.guarding s (.g a), e.2.alternative (.g a) = some v) ∧
      exec (.mov d a) s = .next (s.wrote 2 [s.resultG d 1 (v.setWidth 64)])

/-- R79, R80, R81, R87, R194: all of its parts. Of the model's own in it: log entries 2, 55. -/
def Obligations.UnderWaitedReads : Prop := Spec.HazardsTrap ∧ Spec.UncheckedReadsAreOldOrNew

/-- Every step of every kind keeps `State.Inv`. Of the model's own in it: log entries 3, 5. -/
def Obligations.EveryStepKeepsTheInvariant : Prop := ∀ (s t : State), s.Inv → step s = .next t → t.Inv

/-- The tables of the machine have one entry for a number: threads, operations, jobs, tiles, cores and the journals of the cores, in rising
order. -/
abbrev Sys2Proof.Spec.Tables (s : State) : Prop :=
  Spec.rising s.threads ∧ Spec.rising s.ops ∧ Spec.rising s.jobs ∧ Spec.rising s.tiles ∧ Spec.rising s.cores ∧
  (∀ e ∈ s.cores, Spec.rising e.2.journal) ∧ Spec.rising s.fallow.journal

/-- Every step of every kind keeps one entry for a number in the tables of threads, operations, jobs, tiles, cores and journals. -/
def Obligations.EveryStepKeepsItsTables : Prop := ∀ (s t : State), Spec.Tables s → step s = .next t → Spec.Tables t

/-- R10, R12, R45, R149, R229 and the log's reset values: out of reset GTS is 0, every tile is idle, no core is LIVE before bring-up sets it
so, each has the longest quantum, nothing is in progress, and the invariants hold. Of the model's own in it: log entry 85. -/
def Sys2Proof.Spec.ResetState : Prop :=
  State.reset.Inv ∧ Spec.Tables State.reset ∧ State.reset.hub.bringUp = 0 ∧ State.reset.gts = 0 ∧ State.reset.threads = [] ∧ State.reset.jobs = [] ∧
    State.reset.ops = [] ∧
  State.reset.moves = [] ∧ State.reset.hub.ready = false ∧ State.reset.hub.seqNo = 0 ∧ State.reset.hub.horizon = 0 ∧
  (∀ t, State.reset.tile t = ⟨0, false⟩) ∧ (∀ a, memGet State.reset.ms.mem a = 0) ∧
  ∀ p, (State.reset.core p).status = .dark ∧ (State.reset.core p).slice = 15 ∧ (State.reset.core p).halted = false ∧
    (State.reset.core p).hzchk = false ∧ (State.reset.core p).icache = []

/-! ## Statements in several parts -/

/-- R312, R313, R314, R315, R316, R327, R335, R369, R370, R371, R383, R385, R389, R425, R427: all of its parts. Of the model's own in it:
log entry 2. -/
def Obligations.IntegerInstructions : Prop :=
  Spec.IntegerRegisterOperations ∧ Spec.BitCountsExtensionsAndMov ∧ Spec.ImmediateOperationsAndConstants

/-- R341, R342, R343, R345, R346, R353, R354, R355: all of its parts. Of the model's own in it: log entries 2, 87. -/
def Obligations.FloatingPointInstructions : Prop :=
  Spec.FloatingArithmeticCompletes ∧ Spec.FloatingTestsComplete

/-- R104, R111, R160, R164, R193, R194, R344, R348, R365: all of its parts. Of the model's own in it: log entries 2, 55, 87. -/
def Obligations.ConversionsAndConstants : Prop :=
  Spec.ConversionsComplete ∧ Spec.ConstantBankOperands ∧ Spec.ConstantBankTraps

/-- R76, R77, R317, R318, R322, R323, R324, R339, R360: all of its parts. Of the model's own in it: log entry 2. -/
def Obligations.BranchesCallsAndDelays : Prop :=
  Spec.BranchesAndCalls ∧ Spec.DelayChangesNothing

/-- R86, R89, R90, R91, R132, R134, R193, R195, R213, R285, R350, R386, R403, R422: all of its parts. Of the model's own in it: log entries
2, 55. -/
def Obligations.TokensMasksAndPrefixes : Prop :=
  Spec.WaittPassesOrBlocks ∧ Spec.WaittDeliversTheRecord ∧ Spec.TokenAndMaskInstructions ∧ Spec.PrefixGovernsTheNextInstruction

/-- R146, R364, R395, R419: all of its parts. Of the model's own in it: log entry 2. -/
def Obligations.LocalMemory : Prop :=
  Spec.LocalLoadsComplete ∧ Spec.LocalStoresComplete

/-- R68, R99, R104, R111, R146, R194, R203: all of its parts. Of the model's own in it: log entries 16, 48, 55. -/
def Obligations.LocalTrapsAndRedirection : Prop :=
  Spec.LocalAccessTraps ∧ Spec.StackAccessesAreRedirected

/-- R84, R129, R197, R310, R326, R338, R350, R352, R366, R367, R387, R397, R398, R421: all of its parts. Of the model's own in it: log
entries 2, 15. -/
def Obligations.OperationsIssue : Prop :=
  Spec.DivisionsIssue ∧ Spec.LoadsAndStoresIssue ∧ Spec.AtomicsIssue

/-- R82, R83, R84, R99, R100, R129, R169, R194, R203, R320, R328, R329, R330, R331, R352, R359, R373, R375, R376, R380, R391, R393, R402,
R404, R408: all of its parts. Of the model's own in it: log entries 2, 19, 55. -/
def Obligations.CommandsIssueAndHold : Prop :=
  Spec.RequestsIssue ∧ Spec.EngineCommandsIssue ∧ Spec.HeldIssueWaits ∧ Spec.OperationAddressTraps ∧ Spec.OperandTraps

/-- R63, R66, R82, R100, R357, R424: all of its parts. Of the model's own in it: log entry 2. -/
def Obligations.BlockingInstructions : Prop :=
  Spec.WatchIssuesAndBlocks ∧ Spec.GroupBarrierBlocks ∧ Spec.WaitingInstructionsTrap

/-- R171, R172, R411, R416: all of its parts. Of the model's own in it: log entries 2, 14, 55, 87. -/
def Obligations.VectorArithmetic : Prop :=
  Spec.VectorArithmeticCompletes

/-- R162, R164, R166, R171, R172, R362, R412, R415, R416, R417: all of its parts. Of the model's own in it: log entries 2, 13, 14, 55, 87. -/
def Obligations.VectorMovesReductionsAndConversions : Prop :=
  Spec.VectorMovesComplete ∧ Spec.ReductionsAndMasksComplete ∧ Spec.VectorConversionsComplete

/-- R45, R159, R160, R174, R194, R195, R196, R199, R210, R333, R334: all of its parts. Of the model's own in it: log entries 2, 10, 55, 76. -/
def Obligations.CsrWritesAndPrivilege : Prop :=
  Spec.CsrWrites ∧ Spec.CsrPrivilege

/-- R28, R45, R160, R174, R195, R196, R199, R202, R210: all of its parts. Of the model's own in it: log entries 2, 10, 55. -/
def Obligations.CsrWriteParts : Prop :=
  Spec.CoreStateWrites ∧ Spec.CsrWriteSteps

/-- R29, R71, R193, R195, R196, R201, R321, R340, R405, R409: all of its parts. Of the model's own in it: log entries 2, 10, 55, 56, 64. -/
def Obligations.Traps : Prop :=
  Spec.SoftwareTraps ∧ Spec.IllegalPlaces ∧ Spec.UnhandledTrapFaultsTheJob

/-- R12, R31, R34, R36, R44, R70, R71, R72, R89, R97, R101, R198, R225, R340, R367, R368, R379, R409, R426: all of its parts. Of the
model's own in it: log entries 2, 6, 47, 49, 50, 55, 81, 82, 84. -/
def Obligations.ThreadsEndYieldAndMigrate : Prop :=
  Spec.ThreadsEnd ∧ Spec.JobsEnd ∧ Spec.YieldGivesWay ∧ Spec.Migration ∧ Spec.MigratingLoads

/-- R24, R88, R104, R107, R108, R109, R111, R130, R148, R203, R310, R366, R367, R398: all of its parts. Of the model's own in it: log entries
8, 48, 75. -/
def Obligations.BankAccessesPerform : Prop :=
  Spec.LoadsPerformAtTheirBank ∧ Spec.StoresPerformAtTheirBank ∧ Spec.WaitingLoadsWake ∧ Spec.AtomicsPerformAtTheirBank

/-- R112, R115, R117, R118, R121, R124, R125, R126, R127, R130, R234, R235, R236, R237, R310, R366, R398, R429: all of its parts. Of the
model's own in it: log entries 2, 9, 11, 18. -/
def Obligations.GlobalAccessesPerform : Prop :=
  Spec.TranslationChecks ∧ Spec.SliceAccessesPerform

/-- R24, R27, R62, R63, R64, R65, R66, R104, R107, R203, R326, R352, R357, R359, R408, R424: all of its parts. Of the model's own in it:
log entries 8, 51. -/
def Obligations.SynchronisationSteps : Prop :=
  Spec.FullEmptyAndShapeSteps ∧ Spec.LoopAndGroupSteps ∧ Spec.BarrierSteps ∧ Spec.WatchArrivals

/-- R117, R118, R126, R135, R188, R214, R215, R216, R217, R218, R236, R238, R239: all of its parts. Of the model's own in it: log entries 8, 9,
11, 74. -/
def Obligations.OperationsTravel : Prop :=
  Spec.RequestsTravelToTheirHomes ∧ Spec.ResponsesTravel ∧ Spec.PacketsMove ∧ Spec.AccessesOverTheMesh ∧ Spec.FillsBringLines ∧ Spec.RingPacketsMove

/-- R80, R84, R87, R88, R160, R197, R198, R350, R404: all of its parts. Of the model's own in it: log entries 8, 15, 55. -/
def Obligations.OperationsComplete : Prop :=
  Spec.CompletionInTokenOrder ∧ Spec.RefusedStoresAreReported

/-- R29, R43, R44, R45, R47, R73, R78, R80, R89, R198, R339: all of its parts. Of the model's own in it: log entries 8, 47. -/
def Obligations.ThreadsGoOn : Prop :=
  Spec.ThreadsGoOn ∧ Spec.QuantaEnd

/-- R68, R82, R110, R111, R118, R193, R194, R198, R268, R275: all of its parts. Of the model's own in it: log entries 7, 8, 16, 17, 48, 52,
55. -/
def Obligations.FetchesRedirectionsAndErrors : Prop :=
  Spec.FetchAndIllegalBits ∧ Spec.RedirectedAccessesComplete ∧ Spec.ErrorsPoison

/-- R24, R44, R51, R52, R53, R54, R56, R57, R58, R104, R111, R203, R320, R391: all of its parts. Of the model's own in it: log entries 2, 8,
53. -/
def Obligations.CountersAndPools : Prop :=
  Spec.CountersStep ∧ Spec.CountersFire ∧ Spec.PoolsServeCores

/-- R145, R201, R202, R203, R210, R211, R212: all of its parts. Of the model's own in it: log entries 8, 10, 56, 64, 75. -/
def Obligations.FaultsDarkCoresAndDebugger : Prop :=
  Spec.FaultsFreezeJobs ∧ Spec.CoresTurnDark ∧ Spec.DebuggerControls

/-- R37, R40, R204, R206, R207, R208, R213, R214: all of its parts. Of the model's own in it: log entries 8, 63, 100. -/
def Obligations.Suspension : Prop :=
  Spec.SuspensionHalts ∧ Spec.SuspensionFlushes

/-- R40, R103, R104, R112, R201, R205, R206, R207, R208, R209, R214, R268: all of its parts. Of the model's own in it: log entries 2, 8, 31,
63. -/
def Obligations.SavedPagesAndResumption : Prop :=
  Spec.PagesAreSavedAndClaimed ∧ Spec.TerritoriesResume

/-- R24, R83, R104, R107, R118, R130, R135, R138, R144, R183, R184, R186, R189, R190, R203, R214, R328, R331: all of its parts. Of the model's
own in it: log entries 2, 8, 59, 79, 89. -/
def Obligations.CopyEngine : Prop :=
  Spec.CopiesStart ∧ Spec.EnginePiecesMove ∧ Spec.ListsAreWalked

/-- R24, R104, R107, R118, R119, R187, R188, R203, R214: all of its parts. Of the model's own in it: log entries 2, 61. -/
def Obligations.Multicast : Prop :=
  Spec.MulticastAsksForLines ∧ Spec.MulticastDelivers

/-- R135, R138, R175, R177, R180, R181, R182, R376, R377, R380, R381: all of its parts. Of the model's own in it: log entries 8, 60, 62. -/
def Obligations.MatrixGrantsAndFailures : Prop :=
  Spec.MatrixGrants ∧ Spec.FailedProductsChangeNothing

/-- R116, R124, R127, R128, R149, R178, R190, R232, R236, R239: all of its parts. Of the model's own in it: log entries 8, 9, 60, 65, 80, 93.
-/
def Obligations.BeatsAndPageMigration : Prop :=
  Spec.BeatsEnterFifos ∧ Spec.PagesMigrate

/-- R149, R150, R219, R220, R223, R226, R232, R234, R235, R237, R239, R241: all of its parts. Of the model's own in it: log entries 2, 8, 9,
40, 43, 69, 95. -/
def Obligations.HostWrites : Prop :=
  Spec.PostedWritesComplete ∧ Spec.HorizonsComplete ∧ Spec.HostWritesPerform

/-- R149, R219, R220, R232, R233, R234, R235, R238, R239: all of its parts. Of the model's own in it: log entries 8, 9, 40, 43, 69. -/
def Obligations.HostReadsAndAccessTables : Prop :=
  Spec.HostReads ∧ Spec.AccessTablesDecide

/-- R10, R12, R17, R45, R149, R229, R243: all of its parts. Of the model's own in it: log entries 3, 4, 5, 44, 45, 72, 85. -/
def Obligations.ClockBringUpAndReset : Prop :=
  Spec.ClockAndBringUp ∧ Spec.EpochsBegin ∧ Spec.ResetState

/-- R242, R243, R244, R245, R246, R247: all of its parts. Of the model's own in it: log entries 2, 8, 21, 70. -/
def Obligations.SessionsKeysAndMeasurements : Prop :=
  Spec.SessionsAndKeys ∧ Spec.MeasurementsAndHandover

/-- R267, R268, R269, R270, R271, R272, R273, R274, R275, R276, R277, R278, R279, R280, R281, R282, R283, R284, R285: all of its parts. -/
def Obligations.DecodeAndEncodeAgree : Prop :=
  Spec.DecodeReadsEveryInstructionBack ∧ Spec.NoBitIsIgnored
end

