-- ==== Sys2Proof/Laws/Memory.lean ====
section
/-! SUPPORT. Tables and memory: what a read gives after a write, and that every memory operation keeps the canonical form. -/

namespace Sys2Proof.Laws

open Sys2Proof.Machine

variable {α : Type}

/-! ## Tables -/

@[simp] theorem mapGet?_mapSet_self (m : AMap α) (i : Nat) (x : α) : mapGet? (mapSet m i x) i = some x := by
  induction m with
  | nil => simp [mapSet, mapGet?]
  | cons e r ih =>
    obtain ⟨k, v⟩ := e
    simp only [mapSet]
    split
    · simp [mapGet?]
    · split
      · simp [mapGet?]
      · have : k ≠ i := fun h => by simp_all
        simp [mapGet?, this, ih]

theorem mapGet?_mapSet_ne (m : AMap α) {i j : Nat} (x : α) (h : j ≠ i) : mapGet? (mapSet m i x) j = mapGet? m j := by
  induction m with
  | nil => simp [mapSet, mapGet?, h.symm]
  | cons e r ih =>
    obtain ⟨k, v⟩ := e
    simp only [mapSet]
    split
    · simp [mapGet?, h.symm]
    · split
      · rename_i hk
        subst hk
        simp [mapGet?, h.symm]
      · simp only [mapGet?, ih]

theorem mapGet?_mapSet (m : AMap α) (i j : Nat) (x : α) :
    mapGet? (mapSet m i x) j = if j = i then some x else mapGet? m j := by
  split
  · rename_i h; subst h; exact mapGet?_mapSet_self m j x
  · rename_i h; exact mapGet?_mapSet_ne m x h

@[simp] theorem mapSet_mapSet (m : AMap α) (i : Nat) (x y : α) : mapSet (mapSet m i x) i y = mapSet m i y := by
  induction m with
  | nil => simp [mapSet]
  | cons e r ih =>
    obtain ⟨k, v⟩ := e
    simp only [mapSet]
    split
    · simp [mapSet]
    · split
      · simp [mapSet]
      · rename_i h1 h2
        simp [mapSet, h1, h2, ih]

/-- Keys strictly rising. -/
def Rising (m : AMap α) : Prop := (m.map Prod.fst).Pairwise (· < ·)

theorem Rising.tail {e : Nat × α} {r : AMap α} (h : Rising (e :: r)) : Rising r := (List.pairwise_cons.mp h).2

theorem Rising.head {e : Nat × α} {r : AMap α} (h : Rising (e :: r)) : ∀ f ∈ r, e.1 < f.1 := fun f hf =>
  (List.pairwise_cons.mp h).1 f.1 (List.mem_map.mpr ⟨f, hf, rfl⟩)

theorem Rising.cons {e : Nat × α} {r : AMap α} (h : ∀ f ∈ r, e.1 < f.1) (hr : Rising r) : Rising (e :: r) := by
  refine List.pairwise_cons.mpr ⟨?_, hr⟩
  intro k hk
  obtain ⟨f, hf, rfl⟩ := List.mem_map.mp hk
  exact h f hf

theorem mem_mapSet {m : AMap α} {i : Nat} {x : α} {f : Nat × α} (h : f ∈ mapSet m i x) : f = (i, x) ∨ f ∈ m := by
  induction m with
  | nil => simpa [mapSet] using h
  | cons e r ih =>
    obtain ⟨k, v⟩ := e
    simp only [mapSet] at h
    split at h
    · simpa using h
    · split at h
      · rcases List.mem_cons.mp h with h | h
        · exact .inl h
        · exact .inr (List.mem_cons_of_mem _ h)
      · rcases List.mem_cons.mp h with h | h
        · exact .inr (by simp [h])
        · rcases ih h with h | h
          · exact .inl h
          · exact .inr (List.mem_cons_of_mem _ h)

theorem Rising.mapSet {m : AMap α} (h : Rising m) (i : Nat) (x : α) : Rising (mapSet m i x) := by
  induction m with
  | nil => simp [Machine.mapSet, Rising]
  | cons e r ih =>
    obtain ⟨k, v⟩ := e
    simp only [Machine.mapSet]
    split
    · rename_i hi
      refine Rising.cons (fun f hf => ?_) h
      rcases List.mem_cons.mp hf with rfl | hf
      · exact hi
      · exact Nat.lt_trans hi (h.head f hf)
    · split
      · rename_i hk
        subst hk
        exact Rising.cons (fun f hf => h.head f hf) h.tail
      · rename_i h1 h2
        refine Rising.cons (fun f hf => ?_) (ih h.tail)
        rcases mem_mapSet hf with rfl | hf
        · exact Nat.lt_of_le_of_ne (Nat.le_of_not_lt h1) (Ne.symm h2)
        · exact h.head f hf

theorem mem_mapErase {m : AMap α} {i : Nat} {f : Nat × α} (h : f ∈ mapErase m i) : f ∈ m := by
  induction m with
  | nil => simp [mapErase] at h
  | cons e r ih =>
    obtain ⟨k, v⟩ := e
    simp only [mapErase] at h
    split at h
    · exact List.mem_cons_of_mem _ h
    · rcases List.mem_cons.mp h with h | h
      · simp [h]
      · exact List.mem_cons_of_mem _ (ih h)

theorem Rising.mapErase {m : AMap α} (h : Rising m) (i : Nat) : Rising (mapErase m i) := by
  induction m with
  | nil => simp [Machine.mapErase, Rising]
  | cons e r ih =>
    obtain ⟨k, v⟩ := e
    simp only [Machine.mapErase]
    split
    · exact h.tail
    · exact Rising.cons (fun f hf => h.head f (mem_mapErase hf)) (ih h.tail)

theorem Rising.filter {m : AMap α} (h : Rising m) (p : Nat × α → Bool) : Rising (m.filter p) :=
  List.Pairwise.sublist (List.Sublist.map _ List.filter_sublist) h

theorem mapGet?_none_of_lt {m : AMap α} {i : Nat} (h : ∀ f ∈ m, i < f.1) : mapGet? m i = none := by
  induction m with
  | nil => rfl
  | cons e r ih =>
    have : e.1 ≠ i := Nat.ne_of_gt (h e (by simp))
    simp [mapGet?, this, ih fun f hf => h f (List.mem_cons_of_mem _ hf)]

theorem mapGet?_mapErase_self {m : AMap α} (h : Rising m) (i : Nat) : mapGet? (mapErase m i) i = none := by
  induction m with
  | nil => rfl
  | cons e r ih =>
    obtain ⟨k, v⟩ := e
    simp only [mapErase]
    split
    · rename_i hk
      subst hk
      exact mapGet?_none_of_lt h.head
    · rename_i hk
      simp [mapGet?, hk, ih h.tail]

theorem mapGet?_mapErase_ne (m : AMap α) {i j : Nat} (h : j ≠ i) : mapGet? (mapErase m i) j = mapGet? m j := by
  induction m with
  | nil => rfl
  | cons e r ih =>
    obtain ⟨k, v⟩ := e
    simp only [mapErase]
    split
    · rename_i hk
      subst hk
      simp [mapGet?, h.symm]
    · simp only [mapGet?, ih]

/-! ## Memory -/

theorem wf_iff (m : List Host.Cell) : Memory.wf m = true ↔ Rising m ∧ ∀ c ∈ m, c.2 ≠ 0 := by
  induction m with
  | nil => simp [Memory.wf, Rising]
  | cons c r ih =>
    cases r with
    | nil => simp [Memory.wf, Rising]
    | cons d r =>
      have hd : Memory.wf (c :: d :: r) = (c.2 != 0 && decide (c.1 < d.1) && Memory.wf (d :: r)) := rfl
      rw [hd, Bool.and_eq_true, Bool.and_eq_true, ih]
      constructor
      · rintro ⟨⟨h0, h1⟩, h2, h3⟩
        have h1 : c.1 < d.1 := of_decide_eq_true h1
        refine ⟨Rising.cons (fun f hf => ?_) h2, fun x hx => ?_⟩
        · rcases List.mem_cons.mp hf with rfl | hf
          · exact h1
          · exact Nat.lt_trans h1 (h2.head f hf)
        · rcases List.mem_cons.mp hx with rfl | hx
          · simpa using h0
          · exact h3 x hx
      · rintro ⟨h1, h2⟩
        exact ⟨⟨by simpa using h2 c (by simp), decide_eq_true (h1.head d (by simp))⟩, h1.tail,
          fun x hx => h2 x (List.mem_cons_of_mem _ hx)⟩

theorem wf_memPut {m : List Host.Cell} (h : Memory.wf m = true) (a : Nat) (b : Byte) : Memory.wf (memPut m a b) = true := by
  rw [wf_iff] at h ⊢
  unfold memPut
  split
  · exact ⟨h.1.mapErase a, fun c hc => h.2 c (mem_mapErase hc)⟩
  · rename_i hb
    refine ⟨h.1.mapSet a b, fun c hc => ?_⟩
    rcases mem_mapSet hc with rfl | hc
    · exact hb
    · exact h.2 c hc

theorem wf_memWrite (bs : List Byte) : ∀ {m : List Host.Cell} (a : Nat), Memory.wf m = true → Memory.wf (memWrite m a bs) = true := by
  induction bs with
  | nil => intro m a h; exact h
  | cons b r ih => intro m a h; exact ih (a + 1) (wf_memPut h a b)

theorem wf_filter {m : List Host.Cell} (h : Memory.wf m = true) (p : Host.Cell → Bool) : Memory.wf (m.filter p) = true := by
  rw [wf_iff] at h ⊢
  exact ⟨h.1.filter p, fun c hc => h.2 c (List.mem_of_mem_filter hc)⟩

theorem wf_memClear {m : List Host.Cell} (h : Memory.wf m = true) (a n : Nat) : Memory.wf (memClear m a n) = true :=
  wf_filter h _

/-- A read of a byte after a write of a byte. -/
theorem memGet_memPut {m : List Host.Cell} (h : Memory.wf m = true) (a k : Nat) (b : Byte) :
    memGet (memPut m a b) k = if k = a then b else memGet m k := by
  have hr := ((wf_iff m).mp h).1
  unfold memGet memPut
  by_cases hb : b = 0
  · rw [if_pos hb]
    by_cases hk : k = a
    · subst hk; simp [mapGet?_mapErase_self hr, hb]
    · rw [mapGet?_mapErase_ne m hk, if_neg hk]
  · rw [if_neg hb, mapGet?_mapSet]
    by_cases hk : k = a
    · simp [hk]
    · simp [hk]

/-- A read of a byte after a write of several. -/
theorem memGet_memWrite (bs : List Byte) : ∀ {m : List Host.Cell} (a k : Nat), Memory.wf m = true →
    memGet (memWrite m a bs) k = if a ≤ k ∧ k < a + bs.length then bs.getD (k - a) 0 else memGet m k := by
  induction bs with
  | nil =>
    intro m a k _
    have : ¬(a ≤ k ∧ k < a + ([] : List Byte).length) := by simp
    rw [if_neg this]; rfl
  | cons b r ih =>
    intro m a k h
    show memGet (memWrite (memPut m a b) (a + 1) r) k = _
    rw [ih (a + 1) k (wf_memPut h a b), memGet_memPut h]
    have hl : (b :: r).length = r.length + 1 := rfl
    rw [hl]
    by_cases h1 : k = a
    · subst h1
      rw [if_neg (by omega), if_pos rfl, if_pos (by omega)]
      simp
    · by_cases h2 : a + 1 ≤ k ∧ k < a + 1 + r.length
      · rw [if_pos h2, if_pos (by omega)]
        have : k - a = (k - (a + 1)) + 1 := by omega
        simp [this]
      · rw [if_neg h2, if_neg h1, if_neg (by omega)]

@[simp] theorem memRead_length (m : List Host.Cell) (n : Nat) : ∀ a, (memRead m a n).length = n := by
  induction n with
  | zero => intro a; rfl
  | succ n ih => intro a; simp [memRead, ih]

/-- Reading what has just been written. -/
theorem memRead_memWrite_self (bs : List Byte) : ∀ {m : List Host.Cell} (a : Nat), Memory.wf m = true →
    memRead (memWrite m a bs) a bs.length = bs := by
  induction bs with
  | nil => intro m a _; rfl
  | cons b r ih =>
    intro m a h
    have hw := wf_memPut h a b
    show memGet (memWrite (memPut m a b) (a + 1) r) a :: memRead (memWrite (memPut m a b) (a + 1) r) (a + 1) r.length = _
    rw [ih (a + 1) hw, memGet_memWrite r (a + 1) a hw, if_neg (by omega), memGet_memPut h, if_pos rfl]

/-- A write leaves every other byte alone. -/
theorem memGet_memWrite_of_not_mem (bs : List Byte) {m : List Host.Cell} (a k : Nat) (h : Memory.wf m = true)
    (hk : k < a ∨ a + bs.length ≤ k) : memGet (memWrite m a bs) k = memGet m k := by
  rw [memGet_memWrite bs a k h, if_neg (by omega)]

end Sys2Proof.Laws
end

