-- ==== Sys2Proof/Laws/State.lean ====
section
/-! SUPPORT. The updates of the state: every field after every update, what the tables read after one, and the updates that are written in
terms of others. Later proofs cite these and unfold no record update. -/

namespace Sys2Proof.Machine

/-! ## `State.setThread` -/

@[simp] theorem State.setThread_now (s : State) (u : Uid) (t : Thread) : (s.setThread u t).now = s.now := rfl
@[simp] theorem State.setThread_gts (s : State) (u : Uid) (t : Thread) : (s.setThread u t).gts = s.gts := rfl
@[simp] theorem State.setThread_gtsPhase (s : State) (u : Uid) (t : Thread) : (s.setThread u t).gtsPhase = s.gtsPhase := rfl
@[simp] theorem State.setThread_clockMHz (s : State) (u : Uid) (t : Thread) : (s.setThread u t).clockMHz = s.clockMHz := rfl
@[simp] theorem State.setThread_cur (s : State) (u : Uid) (t : Thread) : (s.setThread u t).cur = s.cur := rfl
@[simp] theorem State.setThread_fresh (s : State) (u : Uid) (t : Thread) : (s.setThread u t).fresh = s.fresh := rfl
@[simp] theorem State.setThread_nextId (s : State) (u : Uid) (t : Thread) : (s.setThread u t).nextId = s.nextId := rfl
@[simp] theorem State.setThread_schedule (s : State) (u : Uid) (t : Thread) : (s.setThread u t).schedule = s.schedule := rfl
@[simp] theorem State.setThread_mark (s : State) (u : Uid) (t : Thread) : (s.setThread u t).mark = s.mark := rfl
@[simp] theorem State.setThread_front (s : State) (u : Uid) (t : Thread) : (s.setThread u t).front = s.front := rfl
@[simp] theorem State.setThread_back (s : State) (u : Uid) (t : Thread) : (s.setThread u t).back = s.back := rfl
@[simp] theorem State.setThread_looks (s : State) (u : Uid) (t : Thread) : (s.setThread u t).looks = s.looks := rfl
@[simp] theorem State.setThread_lookAt (s : State) (u : Uid) (t : Thread) : (s.setThread u t).lookAt = s.lookAt := rfl
@[simp] theorem State.setThread_groups (s : State) (u : Uid) (t : Thread) : (s.setThread u t).groups = s.groups := rfl
@[simp] theorem State.setThread_bankLog (s : State) (u : Uid) (t : Thread) : (s.setThread u t).bankLog = s.bankLog := rfl
@[simp] theorem State.setThread_ms (s : State) (u : Uid) (t : Thread) : (s.setThread u t).ms = s.ms := rfl
@[simp] theorem State.setThread_fallow (s : State) (u : Uid) (t : Thread) : (s.setThread u t).fallow = s.fallow := rfl
@[simp] theorem State.setThread_cores (s : State) (u : Uid) (t : Thread) : (s.setThread u t).cores = s.cores := rfl
@[simp] theorem State.setThread_threads (s : State) (u : Uid) (t : Thread) : (s.setThread u t).threads = mapSet s.threads u t := rfl
@[simp] theorem State.setThread_tiles (s : State) (u : Uid) (t : Thread) : (s.setThread u t).tiles = s.tiles := rfl
@[simp] theorem State.setThread_jobs (s : State) (u : Uid) (t : Thread) : (s.setThread u t).jobs = s.jobs := rfl
@[simp] theorem State.setThread_dies (s : State) (u : Uid) (t : Thread) : (s.setThread u t).dies = s.dies := rfl
@[simp] theorem State.setThread_ops (s : State) (u : Uid) (t : Thread) : (s.setThread u t).ops = s.ops := rfl
@[simp] theorem State.setThread_moves (s : State) (u : Uid) (t : Thread) : (s.setThread u t).moves = s.moves := rfl
@[simp] theorem State.setThread_fab (s : State) (u : Uid) (t : Thread) : (s.setThread u t).fab = s.fab := rfl
@[simp] theorem State.setThread_hub (s : State) (u : Uid) (t : Thread) : (s.setThread u t).hub = s.hub := rfl
@[simp] theorem State.setThread_lan (s : State) (u : Uid) (t : Thread) : (s.setThread u t).lan = s.lan := rfl

/-! ## `State.setCore` -/

@[simp] theorem State.setCore_now (s : State) (p : Pcn) (c : Core) : (s.setCore p c).now = s.now := rfl
@[simp] theorem State.setCore_gts (s : State) (p : Pcn) (c : Core) : (s.setCore p c).gts = s.gts := rfl
@[simp] theorem State.setCore_gtsPhase (s : State) (p : Pcn) (c : Core) : (s.setCore p c).gtsPhase = s.gtsPhase := rfl
@[simp] theorem State.setCore_clockMHz (s : State) (p : Pcn) (c : Core) : (s.setCore p c).clockMHz = s.clockMHz := rfl
@[simp] theorem State.setCore_cur (s : State) (p : Pcn) (c : Core) : (s.setCore p c).cur = s.cur := rfl
@[simp] theorem State.setCore_fresh (s : State) (p : Pcn) (c : Core) : (s.setCore p c).fresh = s.fresh := rfl
@[simp] theorem State.setCore_nextId (s : State) (p : Pcn) (c : Core) : (s.setCore p c).nextId = s.nextId := rfl
@[simp] theorem State.setCore_schedule (s : State) (p : Pcn) (c : Core) : (s.setCore p c).schedule = s.schedule := rfl
@[simp] theorem State.setCore_mark (s : State) (p : Pcn) (c : Core) : (s.setCore p c).mark = s.mark := rfl
@[simp] theorem State.setCore_front (s : State) (p : Pcn) (c : Core) : (s.setCore p c).front = s.front := rfl
@[simp] theorem State.setCore_back (s : State) (p : Pcn) (c : Core) : (s.setCore p c).back = s.back := rfl
@[simp] theorem State.setCore_looks (s : State) (p : Pcn) (c : Core) : (s.setCore p c).looks = s.looks := rfl
@[simp] theorem State.setCore_lookAt (s : State) (p : Pcn) (c : Core) : (s.setCore p c).lookAt = s.lookAt := rfl
@[simp] theorem State.setCore_groups (s : State) (p : Pcn) (c : Core) : (s.setCore p c).groups = s.groups := rfl
@[simp] theorem State.setCore_bankLog (s : State) (p : Pcn) (c : Core) : (s.setCore p c).bankLog = s.bankLog := rfl
@[simp] theorem State.setCore_ms (s : State) (p : Pcn) (c : Core) : (s.setCore p c).ms = s.ms := rfl
@[simp] theorem State.setCore_fallow (s : State) (p : Pcn) (c : Core) : (s.setCore p c).fallow = s.fallow := rfl
@[simp] theorem State.setCore_cores (s : State) (p : Pcn) (c : Core) : (s.setCore p c).cores = mapSet s.cores p c := rfl
@[simp] theorem State.setCore_threads (s : State) (p : Pcn) (c : Core) : (s.setCore p c).threads = s.threads := rfl
@[simp] theorem State.setCore_tiles (s : State) (p : Pcn) (c : Core) : (s.setCore p c).tiles = s.tiles := rfl
@[simp] theorem State.setCore_jobs (s : State) (p : Pcn) (c : Core) : (s.setCore p c).jobs = s.jobs := rfl
@[simp] theorem State.setCore_dies (s : State) (p : Pcn) (c : Core) : (s.setCore p c).dies = s.dies := rfl
@[simp] theorem State.setCore_ops (s : State) (p : Pcn) (c : Core) : (s.setCore p c).ops = s.ops := rfl
@[simp] theorem State.setCore_moves (s : State) (p : Pcn) (c : Core) : (s.setCore p c).moves = s.moves := rfl
@[simp] theorem State.setCore_fab (s : State) (p : Pcn) (c : Core) : (s.setCore p c).fab = s.fab := rfl
@[simp] theorem State.setCore_hub (s : State) (p : Pcn) (c : Core) : (s.setCore p c).hub = s.hub := rfl
@[simp] theorem State.setCore_lan (s : State) (p : Pcn) (c : Core) : (s.setCore p c).lan = s.lan := rfl

/-! ## `State.setTile` -/

@[simp] theorem State.setTile_now (s : State) (n : Nat) (x : Tile) : (s.setTile n x).now = s.now := rfl
@[simp] theorem State.setTile_gts (s : State) (n : Nat) (x : Tile) : (s.setTile n x).gts = s.gts := rfl
@[simp] theorem State.setTile_gtsPhase (s : State) (n : Nat) (x : Tile) : (s.setTile n x).gtsPhase = s.gtsPhase := rfl
@[simp] theorem State.setTile_clockMHz (s : State) (n : Nat) (x : Tile) : (s.setTile n x).clockMHz = s.clockMHz := rfl
@[simp] theorem State.setTile_cur (s : State) (n : Nat) (x : Tile) : (s.setTile n x).cur = s.cur := rfl
@[simp] theorem State.setTile_fresh (s : State) (n : Nat) (x : Tile) : (s.setTile n x).fresh = s.fresh := rfl
@[simp] theorem State.setTile_nextId (s : State) (n : Nat) (x : Tile) : (s.setTile n x).nextId = s.nextId := rfl
@[simp] theorem State.setTile_schedule (s : State) (n : Nat) (x : Tile) : (s.setTile n x).schedule = s.schedule := rfl
@[simp] theorem State.setTile_mark (s : State) (n : Nat) (x : Tile) : (s.setTile n x).mark = s.mark := rfl
@[simp] theorem State.setTile_front (s : State) (n : Nat) (x : Tile) : (s.setTile n x).front = s.front := rfl
@[simp] theorem State.setTile_back (s : State) (n : Nat) (x : Tile) : (s.setTile n x).back = s.back := rfl
@[simp] theorem State.setTile_looks (s : State) (n : Nat) (x : Tile) : (s.setTile n x).looks = s.looks := rfl
@[simp] theorem State.setTile_lookAt (s : State) (n : Nat) (x : Tile) : (s.setTile n x).lookAt = s.lookAt := rfl
@[simp] theorem State.setTile_groups (s : State) (n : Nat) (x : Tile) : (s.setTile n x).groups = s.groups := rfl
@[simp] theorem State.setTile_bankLog (s : State) (n : Nat) (x : Tile) : (s.setTile n x).bankLog = s.bankLog := rfl
@[simp] theorem State.setTile_ms (s : State) (n : Nat) (x : Tile) : (s.setTile n x).ms = s.ms := rfl
@[simp] theorem State.setTile_fallow (s : State) (n : Nat) (x : Tile) : (s.setTile n x).fallow = s.fallow := rfl
@[simp] theorem State.setTile_cores (s : State) (n : Nat) (x : Tile) : (s.setTile n x).cores = s.cores := rfl
@[simp] theorem State.setTile_threads (s : State) (n : Nat) (x : Tile) : (s.setTile n x).threads = s.threads := rfl
@[simp] theorem State.setTile_tiles (s : State) (n : Nat) (x : Tile) : (s.setTile n x).tiles = mapSet s.tiles n x := rfl
@[simp] theorem State.setTile_jobs (s : State) (n : Nat) (x : Tile) : (s.setTile n x).jobs = s.jobs := rfl
@[simp] theorem State.setTile_dies (s : State) (n : Nat) (x : Tile) : (s.setTile n x).dies = s.dies := rfl
@[simp] theorem State.setTile_ops (s : State) (n : Nat) (x : Tile) : (s.setTile n x).ops = s.ops := rfl
@[simp] theorem State.setTile_moves (s : State) (n : Nat) (x : Tile) : (s.setTile n x).moves = s.moves := rfl
@[simp] theorem State.setTile_fab (s : State) (n : Nat) (x : Tile) : (s.setTile n x).fab = s.fab := rfl
@[simp] theorem State.setTile_hub (s : State) (n : Nat) (x : Tile) : (s.setTile n x).hub = s.hub := rfl
@[simp] theorem State.setTile_lan (s : State) (n : Nat) (x : Tile) : (s.setTile n x).lan = s.lan := rfl

/-! ## `State.setJob` -/

@[simp] theorem State.setJob_now (s : State) (tag : Nat) (j : Job) : (s.setJob tag j).now = s.now := rfl
@[simp] theorem State.setJob_gts (s : State) (tag : Nat) (j : Job) : (s.setJob tag j).gts = s.gts := rfl
@[simp] theorem State.setJob_gtsPhase (s : State) (tag : Nat) (j : Job) : (s.setJob tag j).gtsPhase = s.gtsPhase := rfl
@[simp] theorem State.setJob_clockMHz (s : State) (tag : Nat) (j : Job) : (s.setJob tag j).clockMHz = s.clockMHz := rfl
@[simp] theorem State.setJob_cur (s : State) (tag : Nat) (j : Job) : (s.setJob tag j).cur = s.cur := rfl
@[simp] theorem State.setJob_fresh (s : State) (tag : Nat) (j : Job) : (s.setJob tag j).fresh = s.fresh := rfl
@[simp] theorem State.setJob_nextId (s : State) (tag : Nat) (j : Job) : (s.setJob tag j).nextId = s.nextId := rfl
@[simp] theorem State.setJob_schedule (s : State) (tag : Nat) (j : Job) : (s.setJob tag j).schedule = s.schedule := rfl
@[simp] theorem State.setJob_mark (s : State) (tag : Nat) (j : Job) : (s.setJob tag j).mark = s.mark := rfl
@[simp] theorem State.setJob_front (s : State) (tag : Nat) (j : Job) : (s.setJob tag j).front = s.front := rfl
@[simp] theorem State.setJob_back (s : State) (tag : Nat) (j : Job) : (s.setJob tag j).back = s.back := rfl
@[simp] theorem State.setJob_looks (s : State) (tag : Nat) (j : Job) : (s.setJob tag j).looks = s.looks := rfl
@[simp] theorem State.setJob_lookAt (s : State) (tag : Nat) (j : Job) : (s.setJob tag j).lookAt = s.lookAt := rfl
@[simp] theorem State.setJob_groups (s : State) (tag : Nat) (j : Job) : (s.setJob tag j).groups = s.groups := rfl
@[simp] theorem State.setJob_bankLog (s : State) (tag : Nat) (j : Job) : (s.setJob tag j).bankLog = s.bankLog := rfl
@[simp] theorem State.setJob_ms (s : State) (tag : Nat) (j : Job) : (s.setJob tag j).ms = s.ms := rfl
@[simp] theorem State.setJob_fallow (s : State) (tag : Nat) (j : Job) : (s.setJob tag j).fallow = s.fallow := rfl
@[simp] theorem State.setJob_cores (s : State) (tag : Nat) (j : Job) : (s.setJob tag j).cores = s.cores := rfl
@[simp] theorem State.setJob_threads (s : State) (tag : Nat) (j : Job) : (s.setJob tag j).threads = s.threads := rfl
@[simp] theorem State.setJob_tiles (s : State) (tag : Nat) (j : Job) : (s.setJob tag j).tiles = s.tiles := rfl
@[simp] theorem State.setJob_jobs (s : State) (tag : Nat) (j : Job) : (s.setJob tag j).jobs = mapSet s.jobs tag j := rfl
@[simp] theorem State.setJob_dies (s : State) (tag : Nat) (j : Job) : (s.setJob tag j).dies = s.dies := rfl
@[simp] theorem State.setJob_ops (s : State) (tag : Nat) (j : Job) : (s.setJob tag j).ops = s.ops := rfl
@[simp] theorem State.setJob_moves (s : State) (tag : Nat) (j : Job) : (s.setJob tag j).moves = s.moves := rfl
@[simp] theorem State.setJob_fab (s : State) (tag : Nat) (j : Job) : (s.setJob tag j).fab = s.fab := rfl
@[simp] theorem State.setJob_hub (s : State) (tag : Nat) (j : Job) : (s.setJob tag j).hub = s.hub := rfl
@[simp] theorem State.setJob_lan (s : State) (tag : Nat) (j : Job) : (s.setJob tag j).lan = s.lan := rfl

/-! ## `State.setDie` -/

@[simp] theorem State.setDie_now (s : State) (d : Nat) (x : Die) : (s.setDie d x).now = s.now := rfl
@[simp] theorem State.setDie_gts (s : State) (d : Nat) (x : Die) : (s.setDie d x).gts = s.gts := rfl
@[simp] theorem State.setDie_gtsPhase (s : State) (d : Nat) (x : Die) : (s.setDie d x).gtsPhase = s.gtsPhase := rfl
@[simp] theorem State.setDie_clockMHz (s : State) (d : Nat) (x : Die) : (s.setDie d x).clockMHz = s.clockMHz := rfl
@[simp] theorem State.setDie_cur (s : State) (d : Nat) (x : Die) : (s.setDie d x).cur = s.cur := rfl
@[simp] theorem State.setDie_fresh (s : State) (d : Nat) (x : Die) : (s.setDie d x).fresh = s.fresh := rfl
@[simp] theorem State.setDie_nextId (s : State) (d : Nat) (x : Die) : (s.setDie d x).nextId = s.nextId := rfl
@[simp] theorem State.setDie_schedule (s : State) (d : Nat) (x : Die) : (s.setDie d x).schedule = s.schedule := rfl
@[simp] theorem State.setDie_mark (s : State) (d : Nat) (x : Die) : (s.setDie d x).mark = s.mark := rfl
@[simp] theorem State.setDie_front (s : State) (d : Nat) (x : Die) : (s.setDie d x).front = s.front := rfl
@[simp] theorem State.setDie_back (s : State) (d : Nat) (x : Die) : (s.setDie d x).back = s.back := rfl
@[simp] theorem State.setDie_looks (s : State) (d : Nat) (x : Die) : (s.setDie d x).looks = s.looks := rfl
@[simp] theorem State.setDie_lookAt (s : State) (d : Nat) (x : Die) : (s.setDie d x).lookAt = s.lookAt := rfl
@[simp] theorem State.setDie_groups (s : State) (d : Nat) (x : Die) : (s.setDie d x).groups = s.groups := rfl
@[simp] theorem State.setDie_bankLog (s : State) (d : Nat) (x : Die) : (s.setDie d x).bankLog = s.bankLog := rfl
@[simp] theorem State.setDie_ms (s : State) (d : Nat) (x : Die) : (s.setDie d x).ms = s.ms := rfl
@[simp] theorem State.setDie_fallow (s : State) (d : Nat) (x : Die) : (s.setDie d x).fallow = s.fallow := rfl
@[simp] theorem State.setDie_cores (s : State) (d : Nat) (x : Die) : (s.setDie d x).cores = s.cores := rfl
@[simp] theorem State.setDie_threads (s : State) (d : Nat) (x : Die) : (s.setDie d x).threads = s.threads := rfl
@[simp] theorem State.setDie_tiles (s : State) (d : Nat) (x : Die) : (s.setDie d x).tiles = s.tiles := rfl
@[simp] theorem State.setDie_jobs (s : State) (d : Nat) (x : Die) : (s.setDie d x).jobs = s.jobs := rfl
@[simp] theorem State.setDie_dies (s : State) (d : Nat) (x : Die) : (s.setDie d x).dies = mapSet s.dies d x := rfl
@[simp] theorem State.setDie_ops (s : State) (d : Nat) (x : Die) : (s.setDie d x).ops = s.ops := rfl
@[simp] theorem State.setDie_moves (s : State) (d : Nat) (x : Die) : (s.setDie d x).moves = s.moves := rfl
@[simp] theorem State.setDie_fab (s : State) (d : Nat) (x : Die) : (s.setDie d x).fab = s.fab := rfl
@[simp] theorem State.setDie_hub (s : State) (d : Nat) (x : Die) : (s.setDie d x).hub = s.hub := rfl
@[simp] theorem State.setDie_lan (s : State) (d : Nat) (x : Die) : (s.setDie d x).lan = s.lan := rfl

/-! ## `State.setOp` -/

@[simp] theorem State.setOp_now (s : State) (i : OpId) (o : Op) : (s.setOp i o).now = s.now := rfl
@[simp] theorem State.setOp_gts (s : State) (i : OpId) (o : Op) : (s.setOp i o).gts = s.gts := rfl
@[simp] theorem State.setOp_gtsPhase (s : State) (i : OpId) (o : Op) : (s.setOp i o).gtsPhase = s.gtsPhase := rfl
@[simp] theorem State.setOp_clockMHz (s : State) (i : OpId) (o : Op) : (s.setOp i o).clockMHz = s.clockMHz := rfl
@[simp] theorem State.setOp_cur (s : State) (i : OpId) (o : Op) : (s.setOp i o).cur = s.cur := rfl
@[simp] theorem State.setOp_fresh (s : State) (i : OpId) (o : Op) : (s.setOp i o).fresh = s.fresh := rfl
@[simp] theorem State.setOp_nextId (s : State) (i : OpId) (o : Op) : (s.setOp i o).nextId = s.nextId := rfl
@[simp] theorem State.setOp_schedule (s : State) (i : OpId) (o : Op) : (s.setOp i o).schedule = s.schedule := rfl
@[simp] theorem State.setOp_mark (s : State) (i : OpId) (o : Op) : (s.setOp i o).mark = s.mark := rfl
@[simp] theorem State.setOp_front (s : State) (i : OpId) (o : Op) : (s.setOp i o).front = s.front := rfl
@[simp] theorem State.setOp_back (s : State) (i : OpId) (o : Op) : (s.setOp i o).back = s.back := rfl
@[simp] theorem State.setOp_looks (s : State) (i : OpId) (o : Op) : (s.setOp i o).looks = s.looks := rfl
@[simp] theorem State.setOp_lookAt (s : State) (i : OpId) (o : Op) : (s.setOp i o).lookAt = s.lookAt := rfl
@[simp] theorem State.setOp_groups (s : State) (i : OpId) (o : Op) : (s.setOp i o).groups = s.groups := rfl
@[simp] theorem State.setOp_bankLog (s : State) (i : OpId) (o : Op) : (s.setOp i o).bankLog = s.bankLog := rfl
@[simp] theorem State.setOp_ms (s : State) (i : OpId) (o : Op) : (s.setOp i o).ms = s.ms := rfl
@[simp] theorem State.setOp_fallow (s : State) (i : OpId) (o : Op) : (s.setOp i o).fallow = s.fallow := rfl
@[simp] theorem State.setOp_cores (s : State) (i : OpId) (o : Op) : (s.setOp i o).cores = s.cores := rfl
@[simp] theorem State.setOp_threads (s : State) (i : OpId) (o : Op) : (s.setOp i o).threads = s.threads := rfl
@[simp] theorem State.setOp_tiles (s : State) (i : OpId) (o : Op) : (s.setOp i o).tiles = s.tiles := rfl
@[simp] theorem State.setOp_jobs (s : State) (i : OpId) (o : Op) : (s.setOp i o).jobs = s.jobs := rfl
@[simp] theorem State.setOp_dies (s : State) (i : OpId) (o : Op) : (s.setOp i o).dies = s.dies := rfl
@[simp] theorem State.setOp_ops (s : State) (i : OpId) (o : Op) : (s.setOp i o).ops = mapSet s.ops i o := rfl
@[simp] theorem State.setOp_moves (s : State) (i : OpId) (o : Op) : (s.setOp i o).moves = s.moves := rfl
@[simp] theorem State.setOp_fab (s : State) (i : OpId) (o : Op) : (s.setOp i o).fab = s.fab := rfl
@[simp] theorem State.setOp_hub (s : State) (i : OpId) (o : Op) : (s.setOp i o).hub = s.hub := rfl
@[simp] theorem State.setOp_lan (s : State) (i : OpId) (o : Op) : (s.setOp i o).lan = s.lan := rfl

/-! ## `State.dropOp` -/

@[simp] theorem State.dropOp_now (s : State) (i : OpId) : (s.dropOp i).now = s.now := rfl
@[simp] theorem State.dropOp_gts (s : State) (i : OpId) : (s.dropOp i).gts = s.gts := rfl
@[simp] theorem State.dropOp_gtsPhase (s : State) (i : OpId) : (s.dropOp i).gtsPhase = s.gtsPhase := rfl
@[simp] theorem State.dropOp_clockMHz (s : State) (i : OpId) : (s.dropOp i).clockMHz = s.clockMHz := rfl
@[simp] theorem State.dropOp_cur (s : State) (i : OpId) : (s.dropOp i).cur = s.cur := rfl
@[simp] theorem State.dropOp_fresh (s : State) (i : OpId) : (s.dropOp i).fresh = s.fresh := rfl
@[simp] theorem State.dropOp_nextId (s : State) (i : OpId) : (s.dropOp i).nextId = s.nextId := rfl
@[simp] theorem State.dropOp_schedule (s : State) (i : OpId) : (s.dropOp i).schedule = s.schedule := rfl
@[simp] theorem State.dropOp_mark (s : State) (i : OpId) : (s.dropOp i).mark = s.mark := rfl
@[simp] theorem State.dropOp_front (s : State) (i : OpId) : (s.dropOp i).front = s.front := rfl
@[simp] theorem State.dropOp_back (s : State) (i : OpId) : (s.dropOp i).back = s.back := rfl
@[simp] theorem State.dropOp_looks (s : State) (i : OpId) : (s.dropOp i).looks = s.looks := rfl
@[simp] theorem State.dropOp_lookAt (s : State) (i : OpId) : (s.dropOp i).lookAt = s.lookAt := rfl
@[simp] theorem State.dropOp_groups (s : State) (i : OpId) : (s.dropOp i).groups = s.groups := rfl
@[simp] theorem State.dropOp_bankLog (s : State) (i : OpId) : (s.dropOp i).bankLog = s.bankLog := rfl
@[simp] theorem State.dropOp_ms (s : State) (i : OpId) : (s.dropOp i).ms = s.ms := rfl
@[simp] theorem State.dropOp_fallow (s : State) (i : OpId) : (s.dropOp i).fallow = s.fallow := rfl
@[simp] theorem State.dropOp_cores (s : State) (i : OpId) : (s.dropOp i).cores = s.cores := rfl
@[simp] theorem State.dropOp_threads (s : State) (i : OpId) : (s.dropOp i).threads = s.threads := rfl
@[simp] theorem State.dropOp_tiles (s : State) (i : OpId) : (s.dropOp i).tiles = s.tiles := rfl
@[simp] theorem State.dropOp_jobs (s : State) (i : OpId) : (s.dropOp i).jobs = s.jobs := rfl
@[simp] theorem State.dropOp_dies (s : State) (i : OpId) : (s.dropOp i).dies = s.dies := rfl
@[simp] theorem State.dropOp_ops (s : State) (i : OpId) : (s.dropOp i).ops = mapErase s.ops i := rfl
@[simp] theorem State.dropOp_moves (s : State) (i : OpId) : (s.dropOp i).moves = s.moves := rfl
@[simp] theorem State.dropOp_fab (s : State) (i : OpId) : (s.dropOp i).fab = s.fab := rfl
@[simp] theorem State.dropOp_hub (s : State) (i : OpId) : (s.dropOp i).hub = s.hub := rfl
@[simp] theorem State.dropOp_lan (s : State) (i : OpId) : (s.dropOp i).lan = s.lan := rfl

/-! ## `State.modMs` -/

@[simp] theorem State.modMs_now (s : State) (f : MemSys → MemSys) : (s.modMs f).now = s.now := rfl
@[simp] theorem State.modMs_gts (s : State) (f : MemSys → MemSys) : (s.modMs f).gts = s.gts := rfl
@[simp] theorem State.modMs_gtsPhase (s : State) (f : MemSys → MemSys) : (s.modMs f).gtsPhase = s.gtsPhase := rfl
@[simp] theorem State.modMs_clockMHz (s : State) (f : MemSys → MemSys) : (s.modMs f).clockMHz = s.clockMHz := rfl
@[simp] theorem State.modMs_cur (s : State) (f : MemSys → MemSys) : (s.modMs f).cur = s.cur := rfl
@[simp] theorem State.modMs_fresh (s : State) (f : MemSys → MemSys) : (s.modMs f).fresh = s.fresh := rfl
@[simp] theorem State.modMs_nextId (s : State) (f : MemSys → MemSys) : (s.modMs f).nextId = s.nextId := rfl
@[simp] theorem State.modMs_schedule (s : State) (f : MemSys → MemSys) : (s.modMs f).schedule = s.schedule := rfl
@[simp] theorem State.modMs_mark (s : State) (f : MemSys → MemSys) : (s.modMs f).mark = s.mark := rfl
@[simp] theorem State.modMs_front (s : State) (f : MemSys → MemSys) : (s.modMs f).front = s.front := rfl
@[simp] theorem State.modMs_back (s : State) (f : MemSys → MemSys) : (s.modMs f).back = s.back := rfl
@[simp] theorem State.modMs_looks (s : State) (f : MemSys → MemSys) : (s.modMs f).looks = s.looks := rfl
@[simp] theorem State.modMs_lookAt (s : State) (f : MemSys → MemSys) : (s.modMs f).lookAt = s.lookAt := rfl
@[simp] theorem State.modMs_groups (s : State) (f : MemSys → MemSys) : (s.modMs f).groups = s.groups := rfl
@[simp] theorem State.modMs_bankLog (s : State) (f : MemSys → MemSys) : (s.modMs f).bankLog = s.bankLog := rfl
@[simp] theorem State.modMs_ms (s : State) (f : MemSys → MemSys) : (s.modMs f).ms = f s.ms := rfl
@[simp] theorem State.modMs_fallow (s : State) (f : MemSys → MemSys) : (s.modMs f).fallow = s.fallow := rfl
@[simp] theorem State.modMs_cores (s : State) (f : MemSys → MemSys) : (s.modMs f).cores = s.cores := rfl
@[simp] theorem State.modMs_threads (s : State) (f : MemSys → MemSys) : (s.modMs f).threads = s.threads := rfl
@[simp] theorem State.modMs_tiles (s : State) (f : MemSys → MemSys) : (s.modMs f).tiles = s.tiles := rfl
@[simp] theorem State.modMs_jobs (s : State) (f : MemSys → MemSys) : (s.modMs f).jobs = s.jobs := rfl
@[simp] theorem State.modMs_dies (s : State) (f : MemSys → MemSys) : (s.modMs f).dies = s.dies := rfl
@[simp] theorem State.modMs_ops (s : State) (f : MemSys → MemSys) : (s.modMs f).ops = s.ops := rfl
@[simp] theorem State.modMs_moves (s : State) (f : MemSys → MemSys) : (s.modMs f).moves = s.moves := rfl
@[simp] theorem State.modMs_fab (s : State) (f : MemSys → MemSys) : (s.modMs f).fab = s.fab := rfl
@[simp] theorem State.modMs_hub (s : State) (f : MemSys → MemSys) : (s.modMs f).hub = s.hub := rfl
@[simp] theorem State.modMs_lan (s : State) (f : MemSys → MemSys) : (s.modMs f).lan = s.lan := rfl

/-! ## `State.modFab` -/

@[simp] theorem State.modFab_now (s : State) (f : Fabric → Fabric) : (s.modFab f).now = s.now := rfl
@[simp] theorem State.modFab_gts (s : State) (f : Fabric → Fabric) : (s.modFab f).gts = s.gts := rfl
@[simp] theorem State.modFab_gtsPhase (s : State) (f : Fabric → Fabric) : (s.modFab f).gtsPhase = s.gtsPhase := rfl
@[simp] theorem State.modFab_clockMHz (s : State) (f : Fabric → Fabric) : (s.modFab f).clockMHz = s.clockMHz := rfl
@[simp] theorem State.modFab_cur (s : State) (f : Fabric → Fabric) : (s.modFab f).cur = s.cur := rfl
@[simp] theorem State.modFab_fresh (s : State) (f : Fabric → Fabric) : (s.modFab f).fresh = s.fresh := rfl
@[simp] theorem State.modFab_nextId (s : State) (f : Fabric → Fabric) : (s.modFab f).nextId = s.nextId := rfl
@[simp] theorem State.modFab_schedule (s : State) (f : Fabric → Fabric) : (s.modFab f).schedule = s.schedule := rfl
@[simp] theorem State.modFab_mark (s : State) (f : Fabric → Fabric) : (s.modFab f).mark = s.mark := rfl
@[simp] theorem State.modFab_front (s : State) (f : Fabric → Fabric) : (s.modFab f).front = s.front := rfl
@[simp] theorem State.modFab_back (s : State) (f : Fabric → Fabric) : (s.modFab f).back = s.back := rfl
@[simp] theorem State.modFab_looks (s : State) (f : Fabric → Fabric) : (s.modFab f).looks = s.looks := rfl
@[simp] theorem State.modFab_lookAt (s : State) (f : Fabric → Fabric) : (s.modFab f).lookAt = s.lookAt := rfl
@[simp] theorem State.modFab_groups (s : State) (f : Fabric → Fabric) : (s.modFab f).groups = s.groups := rfl
@[simp] theorem State.modFab_bankLog (s : State) (f : Fabric → Fabric) : (s.modFab f).bankLog = s.bankLog := rfl
@[simp] theorem State.modFab_ms (s : State) (f : Fabric → Fabric) : (s.modFab f).ms = s.ms := rfl
@[simp] theorem State.modFab_fallow (s : State) (f : Fabric → Fabric) : (s.modFab f).fallow = s.fallow := rfl
@[simp] theorem State.modFab_cores (s : State) (f : Fabric → Fabric) : (s.modFab f).cores = s.cores := rfl
@[simp] theorem State.modFab_threads (s : State) (f : Fabric → Fabric) : (s.modFab f).threads = s.threads := rfl
@[simp] theorem State.modFab_tiles (s : State) (f : Fabric → Fabric) : (s.modFab f).tiles = s.tiles := rfl
@[simp] theorem State.modFab_jobs (s : State) (f : Fabric → Fabric) : (s.modFab f).jobs = s.jobs := rfl
@[simp] theorem State.modFab_dies (s : State) (f : Fabric → Fabric) : (s.modFab f).dies = s.dies := rfl
@[simp] theorem State.modFab_ops (s : State) (f : Fabric → Fabric) : (s.modFab f).ops = s.ops := rfl
@[simp] theorem State.modFab_moves (s : State) (f : Fabric → Fabric) : (s.modFab f).moves = s.moves := rfl
@[simp] theorem State.modFab_fab (s : State) (f : Fabric → Fabric) : (s.modFab f).fab = f s.fab := rfl
@[simp] theorem State.modFab_hub (s : State) (f : Fabric → Fabric) : (s.modFab f).hub = s.hub := rfl
@[simp] theorem State.modFab_lan (s : State) (f : Fabric → Fabric) : (s.modFab f).lan = s.lan := rfl

/-! ## `State.modHub` -/

@[simp] theorem State.modHub_now (s : State) (f : Hub → Hub) : (s.modHub f).now = s.now := rfl
@[simp] theorem State.modHub_gts (s : State) (f : Hub → Hub) : (s.modHub f).gts = s.gts := rfl
@[simp] theorem State.modHub_gtsPhase (s : State) (f : Hub → Hub) : (s.modHub f).gtsPhase = s.gtsPhase := rfl
@[simp] theorem State.modHub_clockMHz (s : State) (f : Hub → Hub) : (s.modHub f).clockMHz = s.clockMHz := rfl
@[simp] theorem State.modHub_cur (s : State) (f : Hub → Hub) : (s.modHub f).cur = s.cur := rfl
@[simp] theorem State.modHub_fresh (s : State) (f : Hub → Hub) : (s.modHub f).fresh = s.fresh := rfl
@[simp] theorem State.modHub_nextId (s : State) (f : Hub → Hub) : (s.modHub f).nextId = s.nextId := rfl
@[simp] theorem State.modHub_schedule (s : State) (f : Hub → Hub) : (s.modHub f).schedule = s.schedule := rfl
@[simp] theorem State.modHub_mark (s : State) (f : Hub → Hub) : (s.modHub f).mark = s.mark := rfl
@[simp] theorem State.modHub_front (s : State) (f : Hub → Hub) : (s.modHub f).front = s.front := rfl
@[simp] theorem State.modHub_back (s : State) (f : Hub → Hub) : (s.modHub f).back = s.back := rfl
@[simp] theorem State.modHub_looks (s : State) (f : Hub → Hub) : (s.modHub f).looks = s.looks := rfl
@[simp] theorem State.modHub_lookAt (s : State) (f : Hub → Hub) : (s.modHub f).lookAt = s.lookAt := rfl
@[simp] theorem State.modHub_groups (s : State) (f : Hub → Hub) : (s.modHub f).groups = s.groups := rfl
@[simp] theorem State.modHub_bankLog (s : State) (f : Hub → Hub) : (s.modHub f).bankLog = s.bankLog := rfl
@[simp] theorem State.modHub_ms (s : State) (f : Hub → Hub) : (s.modHub f).ms = s.ms := rfl
@[simp] theorem State.modHub_fallow (s : State) (f : Hub → Hub) : (s.modHub f).fallow = s.fallow := rfl
@[simp] theorem State.modHub_cores (s : State) (f : Hub → Hub) : (s.modHub f).cores = s.cores := rfl
@[simp] theorem State.modHub_threads (s : State) (f : Hub → Hub) : (s.modHub f).threads = s.threads := rfl
@[simp] theorem State.modHub_tiles (s : State) (f : Hub → Hub) : (s.modHub f).tiles = s.tiles := rfl
@[simp] theorem State.modHub_jobs (s : State) (f : Hub → Hub) : (s.modHub f).jobs = s.jobs := rfl
@[simp] theorem State.modHub_dies (s : State) (f : Hub → Hub) : (s.modHub f).dies = s.dies := rfl
@[simp] theorem State.modHub_ops (s : State) (f : Hub → Hub) : (s.modHub f).ops = s.ops := rfl
@[simp] theorem State.modHub_moves (s : State) (f : Hub → Hub) : (s.modHub f).moves = s.moves := rfl
@[simp] theorem State.modHub_fab (s : State) (f : Hub → Hub) : (s.modHub f).fab = s.fab := rfl
@[simp] theorem State.modHub_hub (s : State) (f : Hub → Hub) : (s.modHub f).hub = f s.hub := rfl
@[simp] theorem State.modHub_lan (s : State) (f : Hub → Hub) : (s.modHub f).lan = s.lan := rfl

/-! ## `State.modLan` -/

@[simp] theorem State.modLan_now (s : State) (f : Lantern → Lantern) : (s.modLan f).now = s.now := rfl
@[simp] theorem State.modLan_gts (s : State) (f : Lantern → Lantern) : (s.modLan f).gts = s.gts := rfl
@[simp] theorem State.modLan_gtsPhase (s : State) (f : Lantern → Lantern) : (s.modLan f).gtsPhase = s.gtsPhase := rfl
@[simp] theorem State.modLan_clockMHz (s : State) (f : Lantern → Lantern) : (s.modLan f).clockMHz = s.clockMHz := rfl
@[simp] theorem State.modLan_cur (s : State) (f : Lantern → Lantern) : (s.modLan f).cur = s.cur := rfl
@[simp] theorem State.modLan_fresh (s : State) (f : Lantern → Lantern) : (s.modLan f).fresh = s.fresh := rfl
@[simp] theorem State.modLan_nextId (s : State) (f : Lantern → Lantern) : (s.modLan f).nextId = s.nextId := rfl
@[simp] theorem State.modLan_schedule (s : State) (f : Lantern → Lantern) : (s.modLan f).schedule = s.schedule := rfl
@[simp] theorem State.modLan_mark (s : State) (f : Lantern → Lantern) : (s.modLan f).mark = s.mark := rfl
@[simp] theorem State.modLan_front (s : State) (f : Lantern → Lantern) : (s.modLan f).front = s.front := rfl
@[simp] theorem State.modLan_back (s : State) (f : Lantern → Lantern) : (s.modLan f).back = s.back := rfl
@[simp] theorem State.modLan_looks (s : State) (f : Lantern → Lantern) : (s.modLan f).looks = s.looks := rfl
@[simp] theorem State.modLan_lookAt (s : State) (f : Lantern → Lantern) : (s.modLan f).lookAt = s.lookAt := rfl
@[simp] theorem State.modLan_groups (s : State) (f : Lantern → Lantern) : (s.modLan f).groups = s.groups := rfl
@[simp] theorem State.modLan_bankLog (s : State) (f : Lantern → Lantern) : (s.modLan f).bankLog = s.bankLog := rfl
@[simp] theorem State.modLan_ms (s : State) (f : Lantern → Lantern) : (s.modLan f).ms = s.ms := rfl
@[simp] theorem State.modLan_fallow (s : State) (f : Lantern → Lantern) : (s.modLan f).fallow = s.fallow := rfl
@[simp] theorem State.modLan_cores (s : State) (f : Lantern → Lantern) : (s.modLan f).cores = s.cores := rfl
@[simp] theorem State.modLan_threads (s : State) (f : Lantern → Lantern) : (s.modLan f).threads = s.threads := rfl
@[simp] theorem State.modLan_tiles (s : State) (f : Lantern → Lantern) : (s.modLan f).tiles = s.tiles := rfl
@[simp] theorem State.modLan_jobs (s : State) (f : Lantern → Lantern) : (s.modLan f).jobs = s.jobs := rfl
@[simp] theorem State.modLan_dies (s : State) (f : Lantern → Lantern) : (s.modLan f).dies = s.dies := rfl
@[simp] theorem State.modLan_ops (s : State) (f : Lantern → Lantern) : (s.modLan f).ops = s.ops := rfl
@[simp] theorem State.modLan_moves (s : State) (f : Lantern → Lantern) : (s.modLan f).moves = s.moves := rfl
@[simp] theorem State.modLan_fab (s : State) (f : Lantern → Lantern) : (s.modLan f).fab = s.fab := rfl
@[simp] theorem State.modLan_hub (s : State) (f : Lantern → Lantern) : (s.modLan f).hub = s.hub := rfl
@[simp] theorem State.modLan_lan (s : State) (f : Lantern → Lantern) : (s.modLan f).lan = f s.lan := rfl

/-! ## `State.say` -/

@[simp] theorem State.say_now (s : State) (o : Out) : (s.say o).now = s.now := rfl
@[simp] theorem State.say_gts (s : State) (o : Out) : (s.say o).gts = s.gts := rfl
@[simp] theorem State.say_gtsPhase (s : State) (o : Out) : (s.say o).gtsPhase = s.gtsPhase := rfl
@[simp] theorem State.say_clockMHz (s : State) (o : Out) : (s.say o).clockMHz = s.clockMHz := rfl
@[simp] theorem State.say_cur (s : State) (o : Out) : (s.say o).cur = s.cur := rfl
@[simp] theorem State.say_fresh (s : State) (o : Out) : (s.say o).fresh = s.fresh := rfl
@[simp] theorem State.say_nextId (s : State) (o : Out) : (s.say o).nextId = s.nextId := rfl
@[simp] theorem State.say_schedule (s : State) (o : Out) : (s.say o).schedule = s.schedule := rfl
@[simp] theorem State.say_mark (s : State) (o : Out) : (s.say o).mark = s.mark := rfl
@[simp] theorem State.say_front (s : State) (o : Out) : (s.say o).front = s.front := rfl
@[simp] theorem State.say_back (s : State) (o : Out) : (s.say o).back = s.back := rfl
@[simp] theorem State.say_looks (s : State) (o : Out) : (s.say o).looks = s.looks := rfl
@[simp] theorem State.say_lookAt (s : State) (o : Out) : (s.say o).lookAt = s.lookAt := rfl
@[simp] theorem State.say_groups (s : State) (o : Out) : (s.say o).groups = s.groups := rfl
@[simp] theorem State.say_bankLog (s : State) (o : Out) : (s.say o).bankLog = s.bankLog := rfl
@[simp] theorem State.say_ms (s : State) (o : Out) : (s.say o).ms = s.ms := rfl
@[simp] theorem State.say_fallow (s : State) (o : Out) : (s.say o).fallow = s.fallow := rfl
@[simp] theorem State.say_cores (s : State) (o : Out) : (s.say o).cores = s.cores := rfl
@[simp] theorem State.say_threads (s : State) (o : Out) : (s.say o).threads = s.threads := rfl
@[simp] theorem State.say_tiles (s : State) (o : Out) : (s.say o).tiles = s.tiles := rfl
@[simp] theorem State.say_jobs (s : State) (o : Out) : (s.say o).jobs = s.jobs := rfl
@[simp] theorem State.say_dies (s : State) (o : Out) : (s.say o).dies = s.dies := rfl
@[simp] theorem State.say_ops (s : State) (o : Out) : (s.say o).ops = s.ops := rfl
@[simp] theorem State.say_moves (s : State) (o : Out) : (s.say o).moves = s.moves := rfl
@[simp] theorem State.say_fab (s : State) (o : Out) : (s.say o).fab = s.fab := rfl
@[simp] theorem State.say_hub (s : State) (o : Out) : (s.say o).hub = { s.hub with out := o :: s.hub.out } := rfl
@[simp] theorem State.say_lan (s : State) (o : Out) : (s.say o).lan = s.lan := rfl

/-! ## `State.moveTo` -/

@[simp] theorem State.moveTo_now (s : State) (c : Nat) : (s.moveTo c).now = c := rfl
@[simp] theorem State.moveTo_gts (s : State) (c : Nat) : (s.moveTo c).gts = s.gts + BitVec.ofNat 64 ((s.gtsPhase + 1000 * c - 1000 * s.now) / s.clockMHz) := rfl
@[simp] theorem State.moveTo_gtsPhase (s : State) (c : Nat) : (s.moveTo c).gtsPhase = (s.gtsPhase + 1000 * c - 1000 * s.now) % s.clockMHz := rfl
@[simp] theorem State.moveTo_clockMHz (s : State) (c : Nat) : (s.moveTo c).clockMHz = s.clockMHz := rfl
@[simp] theorem State.moveTo_cur (s : State) (c : Nat) : (s.moveTo c).cur = s.cur := rfl
@[simp] theorem State.moveTo_fresh (s : State) (c : Nat) : (s.moveTo c).fresh = s.fresh := rfl
@[simp] theorem State.moveTo_nextId (s : State) (c : Nat) : (s.moveTo c).nextId = s.nextId := rfl
@[simp] theorem State.moveTo_schedule (s : State) (c : Nat) : (s.moveTo c).schedule = s.schedule := rfl
@[simp] theorem State.moveTo_mark (s : State) (c : Nat) : (s.moveTo c).mark = s.mark := rfl
@[simp] theorem State.moveTo_front (s : State) (c : Nat) : (s.moveTo c).front = s.front := rfl
@[simp] theorem State.moveTo_back (s : State) (c : Nat) : (s.moveTo c).back = s.back := rfl
@[simp] theorem State.moveTo_looks (s : State) (c : Nat) : (s.moveTo c).looks = s.looks := rfl
@[simp] theorem State.moveTo_lookAt (s : State) (c : Nat) : (s.moveTo c).lookAt = s.lookAt := rfl
@[simp] theorem State.moveTo_groups (s : State) (c : Nat) : (s.moveTo c).groups = s.groups := rfl
@[simp] theorem State.moveTo_bankLog (s : State) (c : Nat) : (s.moveTo c).bankLog = s.bankLog := rfl
@[simp] theorem State.moveTo_ms (s : State) (c : Nat) : (s.moveTo c).ms = s.ms := rfl
@[simp] theorem State.moveTo_fallow (s : State) (c : Nat) : (s.moveTo c).fallow = s.fallow := rfl
@[simp] theorem State.moveTo_cores (s : State) (c : Nat) : (s.moveTo c).cores = s.cores := rfl
@[simp] theorem State.moveTo_threads (s : State) (c : Nat) : (s.moveTo c).threads = s.threads := rfl
@[simp] theorem State.moveTo_tiles (s : State) (c : Nat) : (s.moveTo c).tiles = s.tiles := rfl
@[simp] theorem State.moveTo_jobs (s : State) (c : Nat) : (s.moveTo c).jobs = s.jobs := rfl
@[simp] theorem State.moveTo_dies (s : State) (c : Nat) : (s.moveTo c).dies = s.dies := rfl
@[simp] theorem State.moveTo_ops (s : State) (c : Nat) : (s.moveTo c).ops = s.ops := rfl
@[simp] theorem State.moveTo_moves (s : State) (c : Nat) : (s.moveTo c).moves = s.moves := rfl
@[simp] theorem State.moveTo_fab (s : State) (c : Nat) : (s.moveTo c).fab = s.fab := rfl
@[simp] theorem State.moveTo_hub (s : State) (c : Nat) : (s.moveTo c).hub = s.hub := rfl
@[simp] theorem State.moveTo_lan (s : State) (c : Nat) : (s.moveTo c).lan = s.lan := rfl

/-! ## `State.passCycles` -/

@[simp] theorem State.passCycles_now (s : State) (c : Nat) : (s.passCycles c).now = s.now + c := rfl
@[simp] theorem State.passCycles_gts (s : State) (c : Nat) : (s.passCycles c).gts = s.gts + BitVec.ofNat 64 ((s.gtsPhase + c * 1000) / s.clockMHz) := rfl
@[simp] theorem State.passCycles_gtsPhase (s : State) (c : Nat) : (s.passCycles c).gtsPhase = (s.gtsPhase + c * 1000) % s.clockMHz := rfl
@[simp] theorem State.passCycles_clockMHz (s : State) (c : Nat) : (s.passCycles c).clockMHz = s.clockMHz := rfl
@[simp] theorem State.passCycles_cur (s : State) (c : Nat) : (s.passCycles c).cur = s.cur := rfl
@[simp] theorem State.passCycles_fresh (s : State) (c : Nat) : (s.passCycles c).fresh = s.fresh := rfl
@[simp] theorem State.passCycles_nextId (s : State) (c : Nat) : (s.passCycles c).nextId = s.nextId := rfl
@[simp] theorem State.passCycles_schedule (s : State) (c : Nat) : (s.passCycles c).schedule = s.schedule := rfl
@[simp] theorem State.passCycles_mark (s : State) (c : Nat) : (s.passCycles c).mark = s.mark := rfl
@[simp] theorem State.passCycles_front (s : State) (c : Nat) : (s.passCycles c).front = s.front := rfl
@[simp] theorem State.passCycles_back (s : State) (c : Nat) : (s.passCycles c).back = s.back := rfl
@[simp] theorem State.passCycles_looks (s : State) (c : Nat) : (s.passCycles c).looks = s.looks := rfl
@[simp] theorem State.passCycles_lookAt (s : State) (c : Nat) : (s.passCycles c).lookAt = s.lookAt := rfl
@[simp] theorem State.passCycles_groups (s : State) (c : Nat) : (s.passCycles c).groups = s.groups := rfl
@[simp] theorem State.passCycles_bankLog (s : State) (c : Nat) : (s.passCycles c).bankLog = s.bankLog := rfl
@[simp] theorem State.passCycles_ms (s : State) (c : Nat) : (s.passCycles c).ms = s.ms := rfl
@[simp] theorem State.passCycles_fallow (s : State) (c : Nat) : (s.passCycles c).fallow = s.fallow := rfl
@[simp] theorem State.passCycles_cores (s : State) (c : Nat) : (s.passCycles c).cores = s.cores := rfl
@[simp] theorem State.passCycles_threads (s : State) (c : Nat) : (s.passCycles c).threads = s.threads := rfl
@[simp] theorem State.passCycles_tiles (s : State) (c : Nat) : (s.passCycles c).tiles = s.tiles := rfl
@[simp] theorem State.passCycles_jobs (s : State) (c : Nat) : (s.passCycles c).jobs = s.jobs := rfl
@[simp] theorem State.passCycles_dies (s : State) (c : Nat) : (s.passCycles c).dies = s.dies := rfl
@[simp] theorem State.passCycles_ops (s : State) (c : Nat) : (s.passCycles c).ops = s.ops := rfl
@[simp] theorem State.passCycles_moves (s : State) (c : Nat) : (s.passCycles c).moves = s.moves := rfl
@[simp] theorem State.passCycles_fab (s : State) (c : Nat) : (s.passCycles c).fab = s.fab := rfl
@[simp] theorem State.passCycles_hub (s : State) (c : Nat) : (s.passCycles c).hub = s.hub := rfl
@[simp] theorem State.passCycles_lan (s : State) (c : Nat) : (s.passCycles c).lan = s.lan := rfl

/-! ## Updates in terms of others -/

theorem State.modThread_eq (s : State) (u : Uid) (f : Thread → Thread) : s.modThread u f = s.setThread u (f (s.thread u)) := rfl
theorem State.modCore_eq (s : State) (p : Pcn) (f : Core → Core) : s.modCore p f = s.setCore p (f (s.core p)) := rfl
theorem State.modJob_eq (s : State) (tag : Nat) (f : Job → Job) : s.modJob tag f = s.setJob tag (f (s.job tag)) := rfl
theorem State.modDie_eq (s : State) (d : Nat) (f : Die → Die) : s.modDie d f = s.setDie d (f (s.die d)) := rfl
theorem State.modMe_eq (s : State) (f : Thread → Thread) : s.modMe f = s.setThread s.cur (f s.me) := rfl
theorem State.modMyCore_eq (s : State) (f : Core → Core) : s.modMyCore f = s.setCore s.me.pcn (f s.myCore) := rfl
theorem State.closeParty_eq (s : State) (p : Pcn) (party : Fin 4) : s.closeParty p party =
    s.setCore p { s.core p with regions := (s.core p).regions.set party ((s.core p).regions[party] + 1) } := rfl
theorem State.advanceTo_eq (s : State) (t : Nat) : s.advanceTo t = s.passCycles (t - s.now) := rfl

/-! ## What is read after an update -/

theorem State.thread_setThread (s : State) (i k : Uid) (t : Thread) : (s.setThread i t).thread k = if k = i then t else s.thread k := by
  simp only [State.thread, State.setThread_threads, Laws.mapGet?_mapSet]
  split <;> rfl
@[simp] theorem State.thread_setThread_self (s : State) (i : Uid) (t : Thread) : (s.setThread i t).thread i = t := by simp [State.thread_setThread]
theorem State.thread_setThread_ne (s : State) (i k : Uid) (t : Thread) (h : k ≠ i) : (s.setThread i t).thread k = s.thread k := by
    simp [State.thread_setThread, h]
theorem State.core_setCore (s : State) (i k : Pcn) (c : Core) : (s.setCore i c).core k = if k = i then c else s.core k := by
  simp only [State.core, State.setCore_cores, Laws.mapGet?_mapSet]
  split <;> rfl
@[simp] theorem State.core_setCore_self (s : State) (i : Pcn) (c : Core) : (s.setCore i c).core i = c := by simp [State.core_setCore]
theorem State.core_setCore_ne (s : State) (i k : Pcn) (c : Core) (h : k ≠ i) : (s.setCore i c).core k = s.core k := by simp [State.core_setCore, h]
theorem State.tile_setTile (s : State) (i k : Nat) (x : Tile) : (s.setTile i x).tile k = if k = i then x else s.tile k := by
  simp only [State.tile, State.setTile_tiles, Laws.mapGet?_mapSet]
  split <;> rfl
@[simp] theorem State.tile_setTile_self (s : State) (i : Nat) (x : Tile) : (s.setTile i x).tile i = x := by simp [State.tile_setTile]
theorem State.tile_setTile_ne (s : State) (i k : Nat) (x : Tile) (h : k ≠ i) : (s.setTile i x).tile k = s.tile k := by simp [State.tile_setTile, h]
theorem State.job_setJob (s : State) (i k : Nat) (j : Job) : (s.setJob i j).job k = if k = i then j else s.job k := by
  simp only [State.job, State.setJob_jobs, Laws.mapGet?_mapSet]
  split <;> rfl
@[simp] theorem State.job_setJob_self (s : State) (i : Nat) (j : Job) : (s.setJob i j).job i = j := by simp [State.job_setJob]
theorem State.job_setJob_ne (s : State) (i k : Nat) (j : Job) (h : k ≠ i) : (s.setJob i j).job k = s.job k := by simp [State.job_setJob, h]
theorem State.die_setDie (s : State) (i k : Nat) (x : Die) : (s.setDie i x).die k = if k = i then x else s.die k := by
  simp only [State.die, State.setDie_dies, Laws.mapGet?_mapSet]
  split <;> rfl
@[simp] theorem State.die_setDie_self (s : State) (i : Nat) (x : Die) : (s.setDie i x).die i = x := by simp [State.die_setDie]
theorem State.die_setDie_ne (s : State) (i k : Nat) (x : Die) (h : k ≠ i) : (s.setDie i x).die k = s.die k := by simp [State.die_setDie, h]
theorem State.liveJob?_setJob (s : State) (i k : Nat) (j : Job) :
    (s.setJob i j).liveJob? k = if k = i then some j else s.liveJob? k := Laws.mapGet?_mapSet ..
theorem State.op?_setOp (s : State) (i k : OpId) (o : Op) : (s.setOp i o).op? k = if k = i then some o else s.op? k := Laws.mapGet?_mapSet ..
@[simp] theorem State.op?_setOp_self (s : State) (i : OpId) (o : Op) : (s.setOp i o).op? i = some o := Laws.mapGet?_mapSet_self ..
theorem State.op?_dropOp_ne (s : State) (i k : OpId) (h : k ≠ i) : (s.dropOp i).op? k = s.op? k := Laws.mapGet?_mapErase_ne _ h
theorem State.op?_dropOp_self (s : State) (i : OpId) (h : Laws.Rising s.ops) : (s.dropOp i).op? i = none := Laws.mapGet?_mapErase_self h i

@[simp] theorem State.core_setThread (s : State) (u : Uid) (t : Thread) (k : Pcn) : (s.setThread u t).core k = s.core k := rfl
@[simp] theorem State.tile_setThread (s : State) (u : Uid) (t : Thread) (k : Nat) : (s.setThread u t).tile k = s.tile k := rfl
@[simp] theorem State.job_setThread (s : State) (u : Uid) (t : Thread) (k : Nat) : (s.setThread u t).job k = s.job k := rfl
@[simp] theorem State.die_setThread (s : State) (u : Uid) (t : Thread) (k : Nat) : (s.setThread u t).die k = s.die k := rfl
@[simp] theorem State.op?_setThread (s : State) (u : Uid) (t : Thread) (k : OpId) : (s.setThread u t).op? k = s.op? k := rfl
@[simp] theorem State.liveJob?_setThread (s : State) (u : Uid) (t : Thread) (k : Nat) : (s.setThread u t).liveJob? k = s.liveJob? k := rfl
@[simp] theorem State.owner_setThread (s : State) (u : Uid) (t : Thread) (k : Nat) : (s.setThread u t).owner k = s.owner k := rfl
@[simp] theorem State.thread_setCore (s : State) (p : Pcn) (c : Core) (k : Uid) : (s.setCore p c).thread k = s.thread k := rfl
@[simp] theorem State.tile_setCore (s : State) (p : Pcn) (c : Core) (k : Nat) : (s.setCore p c).tile k = s.tile k := rfl
@[simp] theorem State.job_setCore (s : State) (p : Pcn) (c : Core) (k : Nat) : (s.setCore p c).job k = s.job k := rfl
@[simp] theorem State.die_setCore (s : State) (p : Pcn) (c : Core) (k : Nat) : (s.setCore p c).die k = s.die k := rfl
@[simp] theorem State.op?_setCore (s : State) (p : Pcn) (c : Core) (k : OpId) : (s.setCore p c).op? k = s.op? k := rfl
@[simp] theorem State.liveJob?_setCore (s : State) (p : Pcn) (c : Core) (k : Nat) : (s.setCore p c).liveJob? k = s.liveJob? k := rfl
@[simp] theorem State.owner_setCore (s : State) (p : Pcn) (c : Core) (k : Nat) : (s.setCore p c).owner k = s.owner k := rfl
@[simp] theorem State.thread_setTile (s : State) (n : Nat) (x : Tile) (k : Uid) : (s.setTile n x).thread k = s.thread k := rfl
@[simp] theorem State.core_setTile (s : State) (n : Nat) (x : Tile) (k : Pcn) : (s.setTile n x).core k = s.core k := rfl
@[simp] theorem State.job_setTile (s : State) (n : Nat) (x : Tile) (k : Nat) : (s.setTile n x).job k = s.job k := rfl
@[simp] theorem State.die_setTile (s : State) (n : Nat) (x : Tile) (k : Nat) : (s.setTile n x).die k = s.die k := rfl
@[simp] theorem State.op?_setTile (s : State) (n : Nat) (x : Tile) (k : OpId) : (s.setTile n x).op? k = s.op? k := rfl
@[simp] theorem State.liveJob?_setTile (s : State) (n : Nat) (x : Tile) (k : Nat) : (s.setTile n x).liveJob? k = s.liveJob? k := rfl
@[simp] theorem State.thread_setJob (s : State) (tag : Nat) (j : Job) (k : Uid) : (s.setJob tag j).thread k = s.thread k := rfl
@[simp] theorem State.core_setJob (s : State) (tag : Nat) (j : Job) (k : Pcn) : (s.setJob tag j).core k = s.core k := rfl
@[simp] theorem State.tile_setJob (s : State) (tag : Nat) (j : Job) (k : Nat) : (s.setJob tag j).tile k = s.tile k := rfl
@[simp] theorem State.die_setJob (s : State) (tag : Nat) (j : Job) (k : Nat) : (s.setJob tag j).die k = s.die k := rfl
@[simp] theorem State.op?_setJob (s : State) (tag : Nat) (j : Job) (k : OpId) : (s.setJob tag j).op? k = s.op? k := rfl
@[simp] theorem State.owner_setJob (s : State) (tag : Nat) (j : Job) (k : Nat) : (s.setJob tag j).owner k = s.owner k := rfl
@[simp] theorem State.thread_setDie (s : State) (d : Nat) (x : Die) (k : Uid) : (s.setDie d x).thread k = s.thread k := rfl
@[simp] theorem State.core_setDie (s : State) (d : Nat) (x : Die) (k : Pcn) : (s.setDie d x).core k = s.core k := rfl
@[simp] theorem State.tile_setDie (s : State) (d : Nat) (x : Die) (k : Nat) : (s.setDie d x).tile k = s.tile k := rfl
@[simp] theorem State.job_setDie (s : State) (d : Nat) (x : Die) (k : Nat) : (s.setDie d x).job k = s.job k := rfl
@[simp] theorem State.op?_setDie (s : State) (d : Nat) (x : Die) (k : OpId) : (s.setDie d x).op? k = s.op? k := rfl
@[simp] theorem State.liveJob?_setDie (s : State) (d : Nat) (x : Die) (k : Nat) : (s.setDie d x).liveJob? k = s.liveJob? k := rfl
@[simp] theorem State.owner_setDie (s : State) (d : Nat) (x : Die) (k : Nat) : (s.setDie d x).owner k = s.owner k := rfl
@[simp] theorem State.thread_setOp (s : State) (i : OpId) (o : Op) (k : Uid) : (s.setOp i o).thread k = s.thread k := rfl
@[simp] theorem State.core_setOp (s : State) (i : OpId) (o : Op) (k : Pcn) : (s.setOp i o).core k = s.core k := rfl
@[simp] theorem State.tile_setOp (s : State) (i : OpId) (o : Op) (k : Nat) : (s.setOp i o).tile k = s.tile k := rfl
@[simp] theorem State.job_setOp (s : State) (i : OpId) (o : Op) (k : Nat) : (s.setOp i o).job k = s.job k := rfl
@[simp] theorem State.die_setOp (s : State) (i : OpId) (o : Op) (k : Nat) : (s.setOp i o).die k = s.die k := rfl
@[simp] theorem State.liveJob?_setOp (s : State) (i : OpId) (o : Op) (k : Nat) : (s.setOp i o).liveJob? k = s.liveJob? k := rfl
@[simp] theorem State.owner_setOp (s : State) (i : OpId) (o : Op) (k : Nat) : (s.setOp i o).owner k = s.owner k := rfl
@[simp] theorem State.thread_dropOp (s : State) (i : OpId) (k : Uid) : (s.dropOp i).thread k = s.thread k := rfl
@[simp] theorem State.core_dropOp (s : State) (i : OpId) (k : Pcn) : (s.dropOp i).core k = s.core k := rfl
@[simp] theorem State.tile_dropOp (s : State) (i : OpId) (k : Nat) : (s.dropOp i).tile k = s.tile k := rfl
@[simp] theorem State.job_dropOp (s : State) (i : OpId) (k : Nat) : (s.dropOp i).job k = s.job k := rfl
@[simp] theorem State.die_dropOp (s : State) (i : OpId) (k : Nat) : (s.dropOp i).die k = s.die k := rfl
@[simp] theorem State.liveJob?_dropOp (s : State) (i : OpId) (k : Nat) : (s.dropOp i).liveJob? k = s.liveJob? k := rfl
@[simp] theorem State.owner_dropOp (s : State) (i : OpId) (k : Nat) : (s.dropOp i).owner k = s.owner k := rfl
@[simp] theorem State.thread_modMs (s : State) (f : MemSys → MemSys) (k : Uid) : (s.modMs f).thread k = s.thread k := rfl
@[simp] theorem State.core_modMs (s : State) (f : MemSys → MemSys) (k : Pcn) : (s.modMs f).core k = s.core k := rfl
@[simp] theorem State.tile_modMs (s : State) (f : MemSys → MemSys) (k : Nat) : (s.modMs f).tile k = s.tile k := rfl
@[simp] theorem State.job_modMs (s : State) (f : MemSys → MemSys) (k : Nat) : (s.modMs f).job k = s.job k := rfl
@[simp] theorem State.die_modMs (s : State) (f : MemSys → MemSys) (k : Nat) : (s.modMs f).die k = s.die k := rfl
@[simp] theorem State.op?_modMs (s : State) (f : MemSys → MemSys) (k : OpId) : (s.modMs f).op? k = s.op? k := rfl
@[simp] theorem State.liveJob?_modMs (s : State) (f : MemSys → MemSys) (k : Nat) : (s.modMs f).liveJob? k = s.liveJob? k := rfl
@[simp] theorem State.owner_modMs (s : State) (f : MemSys → MemSys) (k : Nat) : (s.modMs f).owner k = s.owner k := rfl
@[simp] theorem State.thread_modFab (s : State) (f : Fabric → Fabric) (k : Uid) : (s.modFab f).thread k = s.thread k := rfl
@[simp] theorem State.core_modFab (s : State) (f : Fabric → Fabric) (k : Pcn) : (s.modFab f).core k = s.core k := rfl
@[simp] theorem State.tile_modFab (s : State) (f : Fabric → Fabric) (k : Nat) : (s.modFab f).tile k = s.tile k := rfl
@[simp] theorem State.job_modFab (s : State) (f : Fabric → Fabric) (k : Nat) : (s.modFab f).job k = s.job k := rfl
@[simp] theorem State.die_modFab (s : State) (f : Fabric → Fabric) (k : Nat) : (s.modFab f).die k = s.die k := rfl
@[simp] theorem State.op?_modFab (s : State) (f : Fabric → Fabric) (k : OpId) : (s.modFab f).op? k = s.op? k := rfl
@[simp] theorem State.liveJob?_modFab (s : State) (f : Fabric → Fabric) (k : Nat) : (s.modFab f).liveJob? k = s.liveJob? k := rfl
@[simp] theorem State.owner_modFab (s : State) (f : Fabric → Fabric) (k : Nat) : (s.modFab f).owner k = s.owner k := rfl
@[simp] theorem State.thread_modHub (s : State) (f : Hub → Hub) (k : Uid) : (s.modHub f).thread k = s.thread k := rfl
@[simp] theorem State.core_modHub (s : State) (f : Hub → Hub) (k : Pcn) : (s.modHub f).core k = s.core k := rfl
@[simp] theorem State.tile_modHub (s : State) (f : Hub → Hub) (k : Nat) : (s.modHub f).tile k = s.tile k := rfl
@[simp] theorem State.job_modHub (s : State) (f : Hub → Hub) (k : Nat) : (s.modHub f).job k = s.job k := rfl
@[simp] theorem State.die_modHub (s : State) (f : Hub → Hub) (k : Nat) : (s.modHub f).die k = s.die k := rfl
@[simp] theorem State.op?_modHub (s : State) (f : Hub → Hub) (k : OpId) : (s.modHub f).op? k = s.op? k := rfl
@[simp] theorem State.liveJob?_modHub (s : State) (f : Hub → Hub) (k : Nat) : (s.modHub f).liveJob? k = s.liveJob? k := rfl
@[simp] theorem State.owner_modHub (s : State) (f : Hub → Hub) (k : Nat) : (s.modHub f).owner k = s.owner k := rfl
@[simp] theorem State.thread_modLan (s : State) (f : Lantern → Lantern) (k : Uid) : (s.modLan f).thread k = s.thread k := rfl
@[simp] theorem State.core_modLan (s : State) (f : Lantern → Lantern) (k : Pcn) : (s.modLan f).core k = s.core k := rfl
@[simp] theorem State.tile_modLan (s : State) (f : Lantern → Lantern) (k : Nat) : (s.modLan f).tile k = s.tile k := rfl
@[simp] theorem State.job_modLan (s : State) (f : Lantern → Lantern) (k : Nat) : (s.modLan f).job k = s.job k := rfl
@[simp] theorem State.die_modLan (s : State) (f : Lantern → Lantern) (k : Nat) : (s.modLan f).die k = s.die k := rfl
@[simp] theorem State.op?_modLan (s : State) (f : Lantern → Lantern) (k : OpId) : (s.modLan f).op? k = s.op? k := rfl
@[simp] theorem State.liveJob?_modLan (s : State) (f : Lantern → Lantern) (k : Nat) : (s.modLan f).liveJob? k = s.liveJob? k := rfl
@[simp] theorem State.owner_modLan (s : State) (f : Lantern → Lantern) (k : Nat) : (s.modLan f).owner k = s.owner k := rfl
@[simp] theorem State.thread_say (s : State) (o : Out) (k : Uid) : (s.say o).thread k = s.thread k := rfl
@[simp] theorem State.core_say (s : State) (o : Out) (k : Pcn) : (s.say o).core k = s.core k := rfl
@[simp] theorem State.tile_say (s : State) (o : Out) (k : Nat) : (s.say o).tile k = s.tile k := rfl
@[simp] theorem State.job_say (s : State) (o : Out) (k : Nat) : (s.say o).job k = s.job k := rfl
@[simp] theorem State.die_say (s : State) (o : Out) (k : Nat) : (s.say o).die k = s.die k := rfl
@[simp] theorem State.op?_say (s : State) (o : Out) (k : OpId) : (s.say o).op? k = s.op? k := rfl
@[simp] theorem State.liveJob?_say (s : State) (o : Out) (k : Nat) : (s.say o).liveJob? k = s.liveJob? k := rfl
@[simp] theorem State.owner_say (s : State) (o : Out) (k : Nat) : (s.say o).owner k = s.owner k := rfl
@[simp] theorem State.thread_moveTo (s : State) (c : Nat) (k : Uid) : (s.moveTo c).thread k = s.thread k := rfl
@[simp] theorem State.core_moveTo (s : State) (c : Nat) (k : Pcn) : (s.moveTo c).core k = s.core k := rfl
@[simp] theorem State.tile_moveTo (s : State) (c : Nat) (k : Nat) : (s.moveTo c).tile k = s.tile k := rfl
@[simp] theorem State.job_moveTo (s : State) (c : Nat) (k : Nat) : (s.moveTo c).job k = s.job k := rfl
@[simp] theorem State.die_moveTo (s : State) (c : Nat) (k : Nat) : (s.moveTo c).die k = s.die k := rfl
@[simp] theorem State.op?_moveTo (s : State) (c : Nat) (k : OpId) : (s.moveTo c).op? k = s.op? k := rfl
@[simp] theorem State.liveJob?_moveTo (s : State) (c : Nat) (k : Nat) : (s.moveTo c).liveJob? k = s.liveJob? k := rfl
@[simp] theorem State.owner_moveTo (s : State) (c : Nat) (k : Nat) : (s.moveTo c).owner k = s.owner k := rfl
@[simp] theorem State.thread_passCycles (s : State) (c : Nat) (k : Uid) : (s.passCycles c).thread k = s.thread k := rfl
@[simp] theorem State.core_passCycles (s : State) (c : Nat) (k : Pcn) : (s.passCycles c).core k = s.core k := rfl
@[simp] theorem State.tile_passCycles (s : State) (c : Nat) (k : Nat) : (s.passCycles c).tile k = s.tile k := rfl
@[simp] theorem State.job_passCycles (s : State) (c : Nat) (k : Nat) : (s.passCycles c).job k = s.job k := rfl
@[simp] theorem State.die_passCycles (s : State) (c : Nat) (k : Nat) : (s.passCycles c).die k = s.die k := rfl
@[simp] theorem State.op?_passCycles (s : State) (c : Nat) (k : OpId) : (s.passCycles c).op? k = s.op? k := rfl
@[simp] theorem State.liveJob?_passCycles (s : State) (c : Nat) (k : Nat) : (s.passCycles c).liveJob? k = s.liveJob? k := rfl
@[simp] theorem State.owner_passCycles (s : State) (c : Nat) (k : Nat) : (s.passCycles c).owner k = s.owner k := rfl

end Sys2Proof.Machine
end

