-- ==== Sys2Proof/Laws/Issue.lean ====
section
/-! SUPPORT. What beginning and ending an instruction do, each said once: `State.begin`, `State.issue` of a program that has waited,
`State.retire`, `State.finish` and `State.jumpTo`. -/

namespace Sys2Proof.Machine

/-! ## The executing thread and its core -/

@[simp] theorem State.setThread_setThread (s : State) (u : Uid) (t t' : Thread) :
    (s.setThread u t).setThread u t' = s.setThread u t' := by
  simp [State.setThread]

@[simp] theorem State.setCore_setCore (s : State) (p : Pcn) (c c' : Core) :
    (s.setCore p c).setCore p c' = s.setCore p c' := by
  simp [State.setCore]

@[simp] theorem State.me_setThread (s : State) (t : Thread) : (s.setThread s.cur t).me = t := by simp [State.me]

theorem State.modMe_setThread (s : State) (t : Thread) (f : Thread → Thread) :
    (s.setThread s.cur t).modMe f = s.setThread s.cur (f t) := by
  unfold State.modMe State.setMe
  simp

theorem State.modMyCore_setThread (s : State) (t : Thread) (f : Core → Core) :
    (s.setThread s.cur t).modMyCore f = (s.setThread s.cur t).setCore t.pcn (f (s.core t.pcn)) := by
  unfold State.modMyCore State.modCore
  rw [State.me_setThread, State.core_setThread]

/-! ## Results that fall due -/

theorem stillPending_due {n : Nat} : ∀ {l : List PendingWrite} {p : PendingWrite}, p ∈ stillPending n l →
    ∃ q ∈ l, q.reg = p.reg ∧ q.due = p.due ∧ n < p.due
  | [], p, h => by simp [stillPending] at h
  | q :: r, p, h => by
    unfold stillPending at h
    split at h
    · obtain ⟨x, hx, e⟩ := stillPending_due h
      exact ⟨x, List.mem_cons_of_mem _ hx, e⟩
    · rename_i hq
      rcases List.mem_cons.mp h with rfl | h
      · exact ⟨q, List.mem_cons_self .., rfl, rfl, by simpa using hq⟩
      · obtain ⟨x, hx, e⟩ := stillPending_due h
        exact ⟨x, List.mem_cons_of_mem _ hx, e⟩

theorem putRaw_frame (t : Thread) (r : Reg) (v m : Vec) :
    (t.putRaw r v m).pc = t.pc ∧ (t.putRaw r v m).pcn = t.pcn ∧ (t.putRaw r v m).job = t.job ∧
    (t.putRaw r v m).pfx = t.pfx ∧ (t.putRaw r v m).coldPoison = t.coldPoison ∧ (t.putRaw r v m).inHandler = t.inHandler ∧
    (t.putRaw r v m).fmode = t.fmode ∧ (t.putRaw r v m).status = t.status ∧ (t.putRaw r v m).live = t.live ∧
    (t.putRaw r v m).shadow = t.shadow ∧ (t.putRaw r v m).image = t.image ∧ (t.putRaw r v m).slot = t.slot ∧
    (t.putRaw r v m).lcn = t.lcn ∧ (t.putRaw r v m).srctr = t.srctr ∧ (t.putRaw r v m).notBefore = t.notBefore ∧
    (t.putRaw r v m).upcall = t.upcall ∧ (t.putRaw r v m).modq = t.modq ∧ (t.putRaw r v m).trapPc = t.trapPc ∧
    (t.putRaw r v m).shadowFail = t.shadowFail ∧ (t.putRaw r v m).tid = t.tid ∧ (t.putRaw r v m).cause = t.cause ∧
    (t.putRaw r v m).tval = t.tval ∧ (t.putRaw r v m).tframe = t.tframe ∧ (t.putRaw r v m).upArg = t.upArg ∧
    (t.putRaw r v m).coreName = t.coreName ∧ (t.putRaw r v m).shadowRec = t.shadowRec ∧
    (t.putRaw r v m).redirect = t.redirect ∧ (t.putRaw r v m).mgLoad = t.mgLoad ∧ (t.putRaw r v m).pending = t.pending := by
  unfold Thread.putRaw
  cases r <;> simp

theorem foldl_land_keeps {β : Type} (f : Thread → β) (hf : ∀ t r v m, f (Thread.putRaw t r v m) = f t)
    (hl : ∀ t l, f { t with landed := l } = f t) :
    ∀ (l : List PendingWrite) (t : Thread), f (l.foldl (fun t p => t.land p.reg p.value p.mask p.due p.place) t) = f t
  | [], _ => rfl
  | p :: l, t => by
    simp only [List.foldl_cons]
    rw [foldl_land_keeps f hf hl l, Thread.land, hl, hf]

theorem settle_keeps {β : Type} (f : Thread → β) (hf : ∀ t r v m, f (Thread.putRaw t r v m) = f t)
    (hp : ∀ t l k, f { t with pending := l, landed := k } = f t) (t : Thread) (n : Nat) : f (t.settle n) = f t := by
  unfold Thread.settle
  rw [hp, foldl_land_keeps f hf fun t l => hp t t.pending l]

@[simp] theorem settle_pc (t : Thread) (n : Nat) : (t.settle n).pc = t.pc :=
  settle_keeps (·.pc) (fun t r v m => (putRaw_frame t r v m).1) (fun _ _ _ => rfl) t n
@[simp] theorem settle_pcn (t : Thread) (n : Nat) : (t.settle n).pcn = t.pcn :=
  settle_keeps (·.pcn) (fun t r v m => (putRaw_frame t r v m).2.1) (fun _ _ _ => rfl) t n
@[simp] theorem settle_job (t : Thread) (n : Nat) : (t.settle n).job = t.job :=
  settle_keeps (·.job) (fun t r v m => by simp [putRaw_frame]) (fun _ _ _ => rfl) t n
@[simp] theorem settle_pfx (t : Thread) (n : Nat) : (t.settle n).pfx = t.pfx :=
  settle_keeps (·.pfx) (fun t r v m => by simp [putRaw_frame]) (fun _ _ _ => rfl) t n
@[simp] theorem settle_coldPoison (t : Thread) (n : Nat) : (t.settle n).coldPoison = t.coldPoison :=
  settle_keeps (·.coldPoison) (fun t r v m => by simp [putRaw_frame]) (fun _ _ _ => rfl) t n
@[simp] theorem settle_inHandler (t : Thread) (n : Nat) : (t.settle n).inHandler = t.inHandler :=
  settle_keeps (·.inHandler) (fun t r v m => by simp [putRaw_frame]) (fun _ _ _ => rfl) t n
@[simp] theorem settle_fmode (t : Thread) (n : Nat) : (t.settle n).fmode = t.fmode :=
  settle_keeps (·.fmode) (fun t r v m => by simp [putRaw_frame]) (fun _ _ _ => rfl) t n
@[simp] theorem settle_status (t : Thread) (n : Nat) : (t.settle n).status = t.status :=
  settle_keeps (·.status) (fun t r v m => by simp [putRaw_frame]) (fun _ _ _ => rfl) t n
@[simp] theorem settle_live (t : Thread) (n : Nat) : (t.settle n).live = t.live :=
  settle_keeps (·.live) (fun t r v m => by simp [putRaw_frame]) (fun _ _ _ => rfl) t n
@[simp] theorem settle_shadow (t : Thread) (n : Nat) : (t.settle n).shadow = t.shadow :=
  settle_keeps (·.shadow) (fun t r v m => by simp [putRaw_frame]) (fun _ _ _ => rfl) t n
@[simp] theorem settle_image (t : Thread) (n : Nat) : (t.settle n).image = t.image :=
  settle_keeps (·.image) (fun t r v m => by simp [putRaw_frame]) (fun _ _ _ => rfl) t n
@[simp] theorem settle_slot (t : Thread) (n : Nat) : (t.settle n).slot = t.slot :=
  settle_keeps (·.slot) (fun t r v m => by simp [putRaw_frame]) (fun _ _ _ => rfl) t n
@[simp] theorem settle_lcn (t : Thread) (n : Nat) : (t.settle n).lcn = t.lcn :=
  settle_keeps (·.lcn) (fun t r v m => by simp [putRaw_frame]) (fun _ _ _ => rfl) t n
@[simp] theorem settle_srctr (t : Thread) (n : Nat) : (t.settle n).srctr = t.srctr :=
  settle_keeps (·.srctr) (fun t r v m => by simp [putRaw_frame]) (fun _ _ _ => rfl) t n
@[simp] theorem settle_upcall (t : Thread) (n : Nat) : (t.settle n).upcall = t.upcall :=
  settle_keeps (·.upcall) (fun t r v m => by simp [putRaw_frame]) (fun _ _ _ => rfl) t n
@[simp] theorem settle_modq (t : Thread) (n : Nat) : (t.settle n).modq = t.modq :=
  settle_keeps (·.modq) (fun t r v m => by simp [putRaw_frame]) (fun _ _ _ => rfl) t n
@[simp] theorem settle_trapPc (t : Thread) (n : Nat) : (t.settle n).trapPc = t.trapPc :=
  settle_keeps (·.trapPc) (fun t r v m => by simp [putRaw_frame]) (fun _ _ _ => rfl) t n
@[simp] theorem settle_shadowFail (t : Thread) (n : Nat) : (t.settle n).shadowFail = t.shadowFail :=
  settle_keeps (·.shadowFail) (fun t r v m => by simp [putRaw_frame]) (fun _ _ _ => rfl) t n
@[simp] theorem settle_quantumAt (t : Thread) (n : Nat) : (t.settle n).quantumAt = t.quantumAt :=
  settle_keeps (·.quantumAt) (fun t r v m => by cases r <;> simp [Thread.putRaw]) (fun _ _ _ => rfl) t n
@[simp] theorem settle_pending (t : Thread) (n : Nat) : (t.settle n).pending = stillPending n t.pending := rfl

/-! ## Beginning an instruction -/

theorem State.clockAt_eq (s : State) (t : Nat) : s.moveTo t = s.clockAt t := rfl

theorem State.turnAt_eq (s : State) : s.turnAt s.myCore s.me = s.issueAt := rfl

/-- Beginning an instruction: the clock stands at the issue cycle, and the thread has what fell due. -/
theorem State.begin_eq (s : State) :
    s.begin = (s.clockAt s.issueAt).setThread s.cur s.issued := by
  have e : s.begin = (s.clockAt s.issueAt).modMe fun t =>
      { t.settle s.issueAt with lastIssue := s.issueAt, quantumAt := t.quantumAt.or (some s.issueAt) } := rfl
  rw [e]
  simp [State.modMe, State.setMe, State.me, State.clockAt, State.ready, State.issued, State.thread, State.setThread]

@[simp] theorem State.begin_now (s : State) : s.begin.now = s.issueAt := by
  simp [State.begin_eq, State.setThread, State.clockAt]
@[simp] theorem State.begin_cur (s : State) : s.begin.cur = s.cur := by simp [State.begin_eq, State.setThread, State.clockAt]
@[simp] theorem State.begin_me (s : State) : s.begin.me = s.issued := by
  simp [State.me]; rw [State.begin_eq]; simp
@[simp] theorem State.begin_cores (s : State) : s.begin.cores = s.cores := by simp [State.begin_eq, State.setThread, State.clockAt]
@[simp] theorem State.begin_ops (s : State) : s.begin.ops = s.ops := by simp [State.begin_eq, State.setThread, State.clockAt]
@[simp] theorem State.begin_jobs (s : State) : s.begin.jobs = s.jobs := by simp [State.begin_eq, State.setThread, State.clockAt]
@[simp] theorem State.begin_tiles (s : State) : s.begin.tiles = s.tiles := by simp [State.begin_eq, State.setThread, State.clockAt]
@[simp] theorem State.begin_ms (s : State) : s.begin.ms = s.ms := by simp [State.begin_eq, State.setThread, State.clockAt]
@[simp] theorem State.begin_fab (s : State) : s.begin.fab = s.fab := by simp [State.begin_eq, State.setThread, State.clockAt]
@[simp] theorem State.begin_lan (s : State) : s.begin.lan = s.lan := by simp [State.begin_eq, State.setThread, State.clockAt]
@[simp] theorem State.begin_dies (s : State) : s.begin.dies = s.dies := by simp [State.begin_eq, State.setThread, State.clockAt]
@[simp] theorem State.begin_fresh (s : State) : s.begin.fresh = s.fresh := by simp [State.begin_eq, State.setThread, State.clockAt]
@[simp] theorem State.begin_moves (s : State) : s.begin.moves = s.moves := by simp [State.begin_eq, State.setThread, State.clockAt]
@[simp] theorem State.begin_nextId (s : State) : s.begin.nextId = s.nextId := by simp [State.begin_eq, State.setThread, State.clockAt]
@[simp] theorem State.begin_fallow (s : State) : s.begin.fallow = s.fallow := by simp [State.begin_eq, State.setThread, State.clockAt]
@[simp] theorem State.begin_core (s : State) (p : Pcn) : s.begin.core p = s.core p := by simp [State.core]
@[simp] theorem State.begin_myCore (s : State) : s.begin.myCore = s.myCore := by
  simp [State.myCore, State.issued, State.ready]
@[simp] theorem State.begin_job (s : State) (tag : Nat) : s.begin.job tag = s.job tag := by simp [State.job]
@[simp] theorem State.begin_myJob (s : State) : s.begin.myJob = s.myJob := by
  simp [State.myJob, State.issued, State.ready]
@[simp] theorem State.begin_owner (s : State) (t : Nat) : s.begin.owner t = s.owner t := by simp [State.owner, State.tile]

/-! ## A program that has waited -/

theorem State.Waited.producers {s : State} {reads writes : List Reg} {lat : Nat} (h : s.Waited reads writes lat) {r : Reg}
    (hr : r ∈ reads) : s.begin.me.producers r = [] := by
  simp only [Thread.producers, State.begin_me, State.issued, State.ready, settle_pending, List.filter_eq_nil_iff]
  intro p hp
  obtain ⟨q, hq, e1, e2, e3⟩ := stillPending_due hp
  have := h.1 q hq
  simp only [Bool.and_eq_true, decide_eq_true_eq, not_and]
  intro e
  have := this (e1 ▸ e ▸ hr)
  omega

theorem State.Waited.guards {s : State} {reads writes : List Reg} {lat : Nat} (h : s.Waited reads writes lat) {r : Reg}
    (hr : r ∈ reads) : s.begin.guards s.begin.cur r = [] := by
  simp only [State.guards, State.begin_cur, State.begin_ops, List.filter_eq_nil_iff]
  intro e he
  simp only [Bool.and_eq_true, decide_eq_true_eq, List.contains_iff_mem, not_and, and_imp]
  intro hu ht hd
  exact (h.2.1 e he hu (by intro hn; simp [hn] at ht) r hd).1 hr

theorem State.Waited.readReg {s : State} {reads writes : List Reg} {lat : Nat} (h : s.Waited reads writes lat) {r : Reg}
    (hr : r ∈ reads) (i : Nat) : s.begin.readReg i r = s.begin.me.raw r := by
  simp only [State.readReg, h.producers hr, h.guards hr, List.zipIdx_nil, List.foldl_nil]

theorem State.Waited.readG {s : State} {reads writes : List Reg} {lat : Nat} (h : s.Waited reads writes lat) {r : GReg}
    (hr : Reg.g r ∈ reads) (i : Nat) : s.begin.readG i r = s.regG r := by
  unfold State.readG
  rw [h.readReg hr]
  simp [Thread.raw, State.issued, State.regG]

theorem State.Waited.readV {s : State} {reads writes : List Reg} {lat : Nat} (h : s.Waited reads writes lat) {r : VReg}
    (hr : Reg.v r ∈ reads) (i : Nat) : s.begin.readV i r = s.regV r := by
  unfold State.readV
  rw [h.readReg hr]
  simp [Thread.raw, State.issued, State.regV]

theorem State.Waited.readK {s : State} {reads writes : List Reg} {lat : Nat} (h : s.Waited reads writes lat) {r : KReg}
    (hr : r = 0 ∨ Reg.k r ∈ reads) (i : Nat) : s.begin.readK i r = s.regK r := by
  unfold State.readK State.regK
  split
  · rfl
  · rename_i h0
    rw [h.readReg (hr.resolve_left h0)]
    simp [Thread.raw, State.issued]

theorem foldl_max_zero {l : List PendingWrite} (n : Nat) (h : ∀ p ∈ l, False) : l.foldl (fun m p => max m p.due) n = n := by
  cases l with
  | nil => rfl
  | cons p r => exact (h p (List.mem_cons_self ..)).elim

/-- No register fill stops a program that has waited. -/
theorem State.Waited.coldTrap {s : State} {reads writes : List Reg} {lat : Nat} (h : s.Waited reads writes lat) :
    s.begin.coldTrap reads = none := by
  simp only [State.coldTrap, State.begin_me, State.issued, State.ready, settle_coldPoison, Option.map_eq_none_iff, List.find?_eq_none,
    List.contains_iff_mem]
  exact fun x hx => h.2.2.1 x hx

/-- Checked mode stops no program that has waited. -/
theorem State.Waited.hazard {s : State} {reads writes : List Reg} {lat : Nat} (h : s.Waited reads writes lat) :
    s.begin.hazard reads writes lat = none := by
  unfold State.hazard
  rw [State.begin_myCore]
  by_cases hz : s.myCore.hzchk = true
  swap
  · simp [hz]
  simp only [hz, Bool.not_true, Bool.false_eq_true, if_false, Option.or_eq_none_iff]
  refine ⟨⟨?_, ?_⟩, ?_⟩
  · rw [List.findSome?_eq_none_iff]
    intro r hr
    simp only [State.readHazard]
    rw [h.producers hr]
    rfl
  · split
    · rfl
    · rename_i hl
      rw [List.findSome?_eq_none_iff]
      intro r hr
      simp only [State.writeHazard]
      by_cases hf : r = .fstat
      · simp [hf]
      · have : ((s.begin.me.pending.filter fun p => decide (p.reg = r) && decide (s.begin.now + lat ≤ p.due)).foldl
            (fun m p => max m p.due) 0) = 0 := by
          apply foldl_max_zero
          intro p hp
          simp only [List.mem_filter, Bool.and_eq_true, decide_eq_true_eq, State.begin_now, State.begin_me, State.issued, State.ready,
            settle_pending] at hp
          obtain ⟨q, hq, e1, e2, e3⟩ := stillPending_due hp.1
          have := h.2.2.2 hz hl q hq (e1 ▸ hp.2.1 ▸ hr) (by rw [e1, hp.2.1]; exact hf)
          omega
        rw [this]
        simp
  · rw [List.findSome?_eq_none_iff]
    intro r hr
    simp only [State.guardHazard]
    have : s.begin.guards s.begin.cur r = [] := by
      rcases List.mem_append.mp hr with hr | hr
      · exact h.guards hr
      · simp only [State.guards, State.begin_cur, State.begin_ops, List.filter_eq_nil_iff]
        intro e he
        simp only [Bool.and_eq_true, decide_eq_true_eq, List.contains_iff_mem, not_and, and_imp]
        intro hu ht hd
        exact (h.2.1 e he hu (by intro hn; simp [hn] at ht) r hd).2 hz hr
    rw [this]
    rfl

/-- An instruction of a program that has waited begins and does its body. -/
theorem State.issue_of_waited {s : State} {reads writes : List Reg} {lat : Nat} (h : s.Waited reads writes lat)
    (body : State → State) : s.issue reads writes lat body = .next (body s.begin) := by
  unfold State.issue State.afterChecks
  simp only [h.hazard, h.coldTrap]

/-! ## Ending an instruction -/

theorem State.finish_setThread (s : State) (t : Thread) (size cost : Nat) :
    (s.setThread s.cur t).finish size cost =
      { (s.setThread s.cur { t with pc := t.pc + BitVec.ofNat 64 size, pfx := none }).setCore t.pcn
          { s.core t.pcn with nextIssue := s.now + cost } with fresh := s.fresh + operandSlots } := by
  unfold State.finish
  simp only [State.modMe_setThread, State.modMyCore_setThread]
  rfl

theorem State.jumpTo_setThread (s : State) (t : Thread) (target : Word) :
    (s.setThread s.cur t).jumpTo target =
      { (s.setThread s.cur { t with pc := target, pfx := none }).setCore t.pcn
          { s.core t.pcn with nextIssue := s.now + 3 } with fresh := s.fresh + operandSlots } := by
  unfold State.jumpTo
  simp only [State.modMe_setThread, State.modMyCore_setThread]
  rfl

theorem State.retire_setThread (s : State) (t : Thread) (r : Reg) (lat : Nat) (v m : Vec) (h : r ≠ .k 0) :
    (s.setThread s.cur t).retire r lat v m = s.setThread s.cur { t with
      pending := t.pending ++ [⟨r, v, m, s.now + lat, false, s.nextId⟩]
      coldPoison := t.coldPoison.filter fun x => decide (x.1 ≠ r) } := by
  unfold State.retire
  simp only [h, if_false, State.modMe_setThread]
  rfl

theorem State.ready_pcn (s : State) : s.ready.pcn = s.me.pcn := by simp [State.ready]
theorem State.ready_pc (s : State) : s.ready.pc = s.me.pc := by simp [State.ready]
theorem State.ready_coldPoison (s : State) : s.ready.coldPoison = s.me.coldPoison := by simp [State.ready]
theorem State.issued_pcn (s : State) : s.issued.pcn = s.me.pcn := s.ready_pcn
theorem State.issued_pc (s : State) : s.issued.pc = s.me.pc := s.ready_pc
theorem State.issued_coldPoison (s : State) : s.issued.coldPoison = s.me.coldPoison := s.ready_coldPoison
theorem State.issued_pending (s : State) : s.issued.pending = s.ready.pending := rfl

theorem State.clockAt_now (s : State) : (s.clockAt s.issueAt).now = s.issueAt := rfl

theorem State.completes_eq (s : State) (target : Word) (cost : Nat) (ws : List PendingWrite) (t : Thread) (p : Pcn)
    (hp : p = s.me.pcn) (h : { s.issued with
      pc := target, pfx := none, pending := s.ready.pending ++ ws
      coldPoison := s.me.coldPoison.filter fun x => !(ws.map (·.reg)).contains x.1 } = t) :
    { ((s.clockAt s.issueAt).setThread s.cur t).setCore p { s.core p with nextIssue := s.issueAt + cost } with
      fresh := s.fresh + operandSlots } = s.completes target cost ws := by
  subst h hp
  rfl

/-- `State.finish` and `State.jumpTo` of an instruction that has changed nothing but its thread. -/
theorem State.finish_thread (s : State) (t : Thread) (size cost : Nat) :
    ((s.clockAt s.issueAt).setThread s.cur t).finish size cost =
      { ((s.clockAt s.issueAt).setThread s.cur { t with pc := t.pc + BitVec.ofNat 64 size, pfx := none }).setCore t.pcn
          { s.core t.pcn with nextIssue := s.issueAt + cost } with fresh := s.fresh + operandSlots } := by
  have := State.finish_setThread (s.clockAt s.issueAt) t size cost
  rw [State.clockAt_now] at this
  exact this

theorem State.jumpTo_thread (s : State) (t : Thread) (target : Word) :
    ((s.clockAt s.issueAt).setThread s.cur t).jumpTo target =
      { ((s.clockAt s.issueAt).setThread s.cur { t with pc := target, pfx := none }).setCore t.pcn
          { s.core t.pcn with nextIssue := s.issueAt + 3 } with fresh := s.fresh + operandSlots } := by
  have := State.jumpTo_setThread (s.clockAt s.issueAt) t target
  rw [State.clockAt_now] at this
  exact this

/-- A result of the executing instruction. -/
theorem State.retire_thread (s : State) (t : Thread) (r : Reg) (lat : Nat) (v m : Vec) (h : r ≠ .k 0) :
    ((s.clockAt s.issueAt).setThread s.cur t).retire r lat v m = (s.clockAt s.issueAt).setThread s.cur { t with
      pending := t.pending ++ [s.result r lat v m]
      coldPoison := t.coldPoison.filter fun x => decide (x.1 ≠ r) } := by
  have := State.retire_setThread (s.clockAt s.issueAt) t r lat v m h
  rw [State.clockAt_now] at this
  exact this

theorem filter_one (l : List (Reg × Nat)) (r : Reg) :
    (l.filter fun x => decide (x.1 ≠ r)) = l.filter fun x => !([r] : List Reg).contains x.1 := by
  apply List.filter_congr
  intro x _
  by_cases h : x.1 = r <;> simp [h]

/-- An instruction that writes nothing. -/
theorem State.finish_begin (s : State) (size cost : Nat) :
    s.begin.finish size cost = s.completes (s.me.pc + BitVec.ofNat 64 size) cost [] := by
  rw [State.begin_eq, State.finish_thread]
  refine State.completes_eq s _ _ _ _ _ s.issued_pcn ?_
  simp [State.issued_pc, State.issued_coldPoison, State.issued_pending]

theorem State.jumpTo_begin (s : State) (target : Word) : s.begin.jumpTo target = s.completes target 3 [] := by
  rw [State.begin_eq, State.jumpTo_thread]
  refine State.completes_eq s _ _ _ _ _ s.issued_pcn ?_
  simp [State.issued_coldPoison, State.issued_pending]

/-- An instruction that writes one result. -/
theorem State.retire_finish (s : State) (r : Reg) (lat : Nat) (v m : Vec) (size cost : Nat) (h : r ≠ .k 0) :
    (s.begin.retire r lat v m).finish size cost =
      s.completes (s.me.pc + BitVec.ofNat 64 size) cost [s.result r lat v m] := by
  rw [State.begin_eq, State.retire_thread _ _ _ _ _ _ h, State.finish_thread]
  refine State.completes_eq s _ _ _ _ _ s.issued_pcn ?_
  simp [State.issued_pc, State.issued_coldPoison, State.issued_pending, State.result]

theorem State.retire_jumpTo (s : State) (r : Reg) (lat : Nat) (v m : Vec) (target : Word) (h : r ≠ .k 0) :
    (s.begin.retire r lat v m).jumpTo target = s.completes target 3 [s.result r lat v m] := by
  rw [State.begin_eq, State.retire_thread _ _ _ _ _ _ h, State.jumpTo_thread]
  refine State.completes_eq s _ _ _ _ _ s.issued_pcn ?_
  simp [State.issued_coldPoison, State.issued_pending, State.result]

/-- A G result. -/
theorem State.retireG_finish (s : State) (d : GReg) (lat : Nat) (v : Word) (size : Nat) :
    (s.begin.retireG d lat v).finish size 1 = s.wrote size [s.resultG d lat v] :=
  s.retire_finish (.g d) lat _ _ size 1 (by simp)

end Sys2Proof.Machine
end

