-- ==== Sys2Proof/Laws/Invariant.lean ====
section
/-! SUPPORT. What taking an exception does, said once, and `State.Inv` after the updates of the state and the shared operations. -/

namespace Sys2Proof.Machine

/-! ## Taking an exception -/

/-- The thread at `entry` of a handler, and its core: the region of its slot closes, and the next issue is three cycles on. -/
def State.entered (s : State) (t : Thread) (tr : Trap) : State :=
  (s.setThread s.cur { t.enter (s.job t.job).trapVec ((s.core t.pcn).heldFor s.cur).length tr with lastIssue := s.now }).setCore t.pcn
    { s.core t.pcn with
      regions := (s.core t.pcn).regions.set t.party ((s.core t.pcn).regions[t.party] + 1), nextIssue := s.now + 3 }

theorem State.takeTrap_setThread (s : State) (t : Thread) (tr : Trap) (hv : (s.job t.job).trapVec ≠ 0) (hh : t.inHandler = false)
    (hs : t.status = .running) : (s.setThread s.cur t).takeTrap tr = s.entered t tr := by
  have hj : ((s.setThread s.cur t).job t.job).trapVec ≠ 0 := hv
  unfold State.takeTrap
  simp only [State.me_setThread, hh, hs, hj, decide_false, Bool.or_false, Bool.false_eq_true, if_false, if_true]
  have hc : (s.setThread s.cur t).closeRegion = (s.setThread s.cur t).setCore t.pcn { s.core t.pcn with
      regions := (s.core t.pcn).regions.set t.party ((s.core t.pcn).regions[t.party] + 1) } := by
    unfold State.closeRegion
    rw [State.closeParty_eq, State.me_setThread]
    rfl
  have hm : ∀ c, ((s.setThread s.cur t).setCore t.pcn c).me = t := fun c => State.me_setThread s t
  have hy : (s.setThread s.cur t).myCore = s.core t.pcn := by
    unfold State.myCore; rw [State.me_setThread]; rfl
  rw [hc, hy, State.modMe_eq, hm, State.modMyCore_setThread]
  simp only [State.entered, Thread.enter, State.setCore, State.setThread, State.core, Laws.mapSet_mapSet,
    Laws.mapGet?_mapSet_self, Option.getD_some]
  rfl

/-- The same at the start of an instruction. -/
theorem State.takeTrap_begin (s : State) (tr : Trap) (hv : s.myJob.trapVec ≠ 0) (hh : s.me.inHandler = false) (hs : s.me.status = .running) :
    s.begin.takeTrap tr = (s.clockAt s.issueAt).entered s.issued tr := by
  rw [State.begin_eq]
  refine State.takeTrap_setThread (s.clockAt s.issueAt) _ tr ?_ ?_ ?_
  · show (s.job s.ready.job).trapVec ≠ 0
    rw [show s.ready.job = s.me.job from settle_job _ _]
    exact hv
  · show s.ready.inHandler = false
    rw [show s.ready.inHandler = s.me.inHandler from settle_inHandler _ _]
    exact hh
  · show s.ready.status = .running
    rw [show s.ready.status = s.me.status from settle_status _ _]
    exact hs

/-- In a handler, or without one, an exception is a job fault. -/
theorem State.takeTrap_fault (s : State) (tr : Trap) (h : (s.job s.me.job).trapVec = 0 ∨ s.me.inHandler = true) :
    s.takeTrap tr = s.freezeJob s.me.job 0x02 tr.code := by
  unfold State.takeTrap
  rcases h with h | h <;> simp [h]

/-! ## The invariant -/

/-- The invariant looks at memory, the clock and the log of dropped writes alone. -/
theorem State.Inv.of_same {s t : State} (h : s.Inv) (hm : t.ms.mem = s.ms.mem) (hc : t.clockMHz = s.clockMHz) (hp : t.gtsPhase = s.gtsPhase)
    (hd : t.lan.dropLog = s.lan.dropLog) : t.Inv := by
  unfold State.Inv at h ⊢
  rw [hm, hc, hp, hd]
  exact h

theorem State.reset_inv : State.reset.Inv := by unfold State.Inv; decide

theorem State.Inv.setThread {s : State} (h : s.Inv) (u : Uid) (t : Thread) : (s.setThread u t).Inv := h
theorem State.Inv.setCore {s : State} (h : s.Inv) (p : Pcn) (c : Core) : (s.setCore p c).Inv := h
theorem State.Inv.setTile {s : State} (h : s.Inv) (n : Nat) (x : Tile) : (s.setTile n x).Inv := h
theorem State.Inv.setJob {s : State} (h : s.Inv) (tag : Nat) (j : Job) : (s.setJob tag j).Inv := h
theorem State.Inv.setDie {s : State} (h : s.Inv) (d : Nat) (x : Die) : (s.setDie d x).Inv := h
theorem State.Inv.setOp {s : State} (h : s.Inv) (i : OpId) (o : Op) : (s.setOp i o).Inv := h
theorem State.Inv.dropOp {s : State} (h : s.Inv) (i : OpId) : (s.dropOp i).Inv := h
theorem State.Inv.modFab {s : State} (h : s.Inv) (f : Fabric → Fabric) : (s.modFab f).Inv := h
theorem State.Inv.modHub {s : State} (h : s.Inv) (f : Hub → Hub) : (s.modHub f).Inv := h
theorem State.Inv.say {s : State} (h : s.Inv) (o : Out) : (s.say o).Inv := h
theorem State.Inv.modMe {s : State} (h : s.Inv) (f : Thread → Thread) : (s.modMe f).Inv := h
theorem State.Inv.modThread {s : State} (h : s.Inv) (u : Uid) (f : Thread → Thread) : (s.modThread u f).Inv := h
theorem State.Inv.modCore {s : State} (h : s.Inv) (p : Pcn) (f : Core → Core) : (s.modCore p f).Inv := h
theorem State.Inv.modMyCore {s : State} (h : s.Inv) (f : Core → Core) : (s.modMyCore f).Inv := h
theorem State.Inv.modJob {s : State} (h : s.Inv) (tag : Nat) (f : Job → Job) : (s.modJob tag f).Inv := h
theorem State.Inv.modDie {s : State} (h : s.Inv) (d : Nat) (f : Die → Die) : (s.modDie d f).Inv := h
theorem State.Inv.modMs {s : State} (h : s.Inv) (f : MemSys → MemSys) (hf : Memory.wf (f s.ms).mem = true) : (s.modMs f).Inv := ⟨hf, h.2⟩
theorem State.Inv.modLan {s : State} (h : s.Inv) (f : Lantern → Lantern) (hf : (f s.lan).dropLog.length ≤ 8) : (s.modLan f).Inv :=
  ⟨h.1, h.2.1, h.2.2.1, h.2.2.2.1, hf⟩

/-- Time may pass. -/
theorem State.Inv.passCycles {s : State} (h : s.Inv) (c : Nat) : (s.passCycles c).Inv :=
  ⟨h.1, h.2.1, h.2.2.1, Nat.mod_lt _ (by have := h.2.1; show 0 < s.clockMHz; omega), h.2.2.2.2⟩
theorem State.Inv.moveTo {s : State} (h : s.Inv) (c : Nat) : (s.moveTo c).Inv :=
  ⟨h.1, h.2.1, h.2.2.1, Nat.mod_lt _ (by have := h.2.1; show 0 < s.clockMHz; omega), h.2.2.2.2⟩
theorem State.Inv.advanceTo {s : State} (h : s.Inv) (t : Nat) : (s.advanceTo t).Inv := h.passCycles _

/-! ### The shared operations -/

theorem State.Inv.begin {s : State} (h : s.Inv) : s.begin.Inv := (h.moveTo _).modMe _
theorem State.Inv.closeParty {s : State} (h : s.Inv) (p : Pcn) (k : Fin 4) : (s.closeParty p k).Inv := h.modCore _ _
theorem State.Inv.closeRegion {s : State} (h : s.Inv) : s.closeRegion.Inv := h.closeParty _ _
theorem State.Inv.retire {s : State} (h : s.Inv) (r : Reg) (lat : Nat) (v m : Vec) : (s.retire r lat v m).Inv := by
  unfold State.retire
  split
  · exact h
  · exact h.modMe _
theorem State.Inv.retireG {s : State} (h : s.Inv) (r : GReg) (lat : Nat) (v : Word) : (s.retireG r lat v).Inv := h.retire ..
theorem State.Inv.finish {s : State} (h : s.Inv) (size cost : Nat) : (s.finish size cost).Inv := h
theorem State.Inv.jumpTo {s : State} (h : s.Inv) (target : Word) : (s.jumpTo target).Inv := h
theorem State.Inv.hold {s : State} (h : s.Inv) : s.hold.Inv := h.passCycles 1
theorem State.Inv.unblock {s : State} (h : s.Inv) (u : Uid) (size : Nat) : (s.unblock u size).Inv := h.modThread _ _
theorem State.Inv.block {s : State} (h : s.Inv) (w : Wait) : (s.block w).Inv := h

/-- An exception keeps it if a job fault does. -/
theorem State.Inv.takeTrap {s : State} (h : s.Inv) (hf : ∀ tag status cause, (s.freezeJob tag status cause).Inv) (tr : Trap) :
    (s.takeTrap tr).Inv := by
  unfold State.takeTrap
  dsimp only
  split
  · exact hf ..
  · split
    · exact h
    · exact h

end Sys2Proof.Machine
end

