-- ==== Sys2Proof/Tests/Slice0.lean ====
section
/-! SUPPORT. Tests: ill-formed instructions, the decoding of words written out from spec/, for every clause of every statement a state
and operands that meet its hypotheses, and worked values that spec/ prints. -/

namespace Sys2Proof.Tests
open Sys2Proof.Machine

set_option Elab.async false

set_option synthInstance.maxHeartbeats 400000
set_option synthInstance.maxSize 2000
/-! ## Ill-formed instructions, one for each check, and words that R286 makes ILLEGAL -/

/-- Widths and formats that the encoding does not have (R277, R278, R280). -/
theorem test_ill_formed_widths :
    ([.sext 1 2 .d64, .zext 1 2 .d64, .fcvt 1 2 .f32 .toF32, .fcvt 1 2 .f64 .toF64, .ld 1 2 0 0 .d64 true 0,
      .ldx 1 2 0 0 0 .d64 true, .ldxWf 1 2 0 0 0 .d64 true, .ldxWfc 1 2 0 0 0 .d64 true,
      .ldxMg 1 2 0 0 0 .d64 true].map WellFormed).all (! ·) = true := by decide

/-- Counts of 0, selectors that STMSK may not write, and odd register pairs (R77, R132, R280, R284). -/
theorem test_ill_formed_counts :
    ([.dly 0, .stmsk 0 1, .stmsk 7 1, .stmsk 8 1, .feclr 1 0 0 0, .feset 1 0 0 0, .acas 3 1 0 0 0 .w32,
      .chunk 15 1 0 0 0, .tshape 1 2 0].map WellFormed).all (! ·) = true := by decide

/-- Types that a vector or matrix instruction does not take (R273, R281). -/
theorem test_ill_formed_types :
    ([.vfma 1 2 3 0 .i32, .vshl 1 2 3 0 .f32, .vshr 1 2 3 0 .bf16, .vsar 1 2 3 0 .f16, .vcvt 1 2 0 .f32 .f32 false,
      .vcvt 1 2 0 .md8 .bf16 false, .vcvt 1 2 0 .fp4 .i8 false, .vext 1 2 8 .f32, .vext 1 2 4 .i64,
      .vexp2 1 2 0 .i8, .vrcp 1 2 0 .i16, .vrsqrt 1 2 0 .i64, .mma 1 2 0 0 .fp4 0 0].map WellFormed).all (! ·) = true := by
  decide

/-- The same instructions with a value the encoding admits. -/
theorem test_well_formed :
    ([.sext 1 2 .w32, .fcvt 1 2 .f32 .toF64, .ld 1 2 0 0 .d64 false 0, .ldx 1 2 0 0 0 .w32 true, .dly 1, .stmsk 1 1,
      .stmsk 6 1, .feclr 1 0 0 1, .acas 2 1 0 0 0 .w32, .chunk 14 1 0 0 0, .tshape 0 2 0, .vfma 1 2 3 0 .bf16,
      .vshl 1 2 3 0 .i8, .vcvt 1 2 0 .fp4 .f32 false, .vext 1 2 7 .f32, .vrcp 1 2 0 .f16,
      .mma 1 2 1 0 .fp4 0 0].map WellFormed).all id = true := by decide

/-- Zero fields that are not zero, unassigned codes, and a G register above 15 (R269, R271, R276 to R285). -/
theorem test_illegal_words :
    [0x80000005, 0x00001805, 0x00021205, 0x00300019, 0x00004019, 0x00400125, 0x0001802D, 0x0000102D, 0x0000012D,
     0x00000431, 0x01C00049, 0x0000024D, 0x00010051, 0x00000451, 0x00004065,
     0x00000475, 0x00000079, 0x00001A7D, 0x00001481, 0x00000185, 0x00018089, 0x0800018D, 0x000038A1, 0x000024A9,
     0x000601AD, 0x000006B1, 0x0000C0B5, 0x000280C1, 0x000080C5, 0x000003C9, 0x001002D1, 0x001000E1, 0x000003E5,
     0x000003E9, 0x000003ED, 0x000003F1, 0x000003F5, 0x000001FD, 0x00000001].map (decodeTableWord 32) =
    List.replicate 39 none := by decide

/-- The same for the 16-bit forms; op4 0 with n = 0 is ILLEGAL (R269). -/
theorem test_illegal_halfwords :
    [0x0000, 0x0102, 0x1002, 0x2008, 0x3004, 0x5002, 0x6002, 0x700E, 0x8002, 0xA002, 0xB002, 0xC002, 0xD002, 0xE002,
     0xF004].map (decodeTableWord 16) = List.replicate 15 none := by decide

/-! ## Decoding: one word per instruction written out from the layouts of R269 to R285 -/

/-- Words of the short layouts. -/
theorem test_decode_short_1 :
    [0x0F00, 0x0100, 0x1D20, 0x2650, 0x3310,
     0x4980, 0x57FC, 0x61E0, 0x7B40, 0x8C90,
     0x92FA, 0xAF44].map (decodeTableWord 16) =
    [some (.dly 15), some (.dly 1), some (.mov 13 2),
     some (.addShort 6 5), some (.subShort 3 1), some (.addiShort 9 0x40),
     some (.shliShort 7 63), some (.ldShort 1 14), some (.stShort 11 4),
     some (.waittShort 12 9), some (.bnzShort 2 0x7D), some (.vaddShort 30 17)] := by decide

/-- Words of the short layouts. -/
theorem test_decode_short_2 :
    [0xB804, 0xC2FC, 0xD460, 0xEED0, 0xF9B8].map (decodeTableWord 16) =
    [some (.vmulShort 16 1), some (.vmaxShort 5 31), some (.vmovShort 8 24),
     some (.vldShort 29 10), some (.vstShort 19 7)] := by decide

/-- Words of the fform layouts. -/
theorem test_decode_fform_1 :
    [0x3F8005A3, 0xC0490E07, 0x8000116B, 0x4049093F].map (decodeTableWord 32) =
    [some (.ffmai 5 10 0x3F800), some (.fmovi 14 0xC0490), some (.faddi 1 6 0x80001),
     some (.fmuli 9 3 0x40490)] := by decide

/-- Words of the alu layouts. -/
theorem test_decode_alu_1 :
    [0x088E0005, 0x11580105, 0x1A020205, 0x22CC0305, 0x2B960405,
     0x30400505, 0x390A0605, 0x41D40705, 0x4A9E0805, 0x53480905,
     0x58120A05, 0x60DC0B05].map (decodeTableWord 32) =
    [some (.add 1 2 7), some (.sub 2 5 12), some (.and 3 8 1),
     some (.or 4 11 6), some (.xor 5 14 11), some (.shl 6 1 0),
     some (.shr 7 4 5), some (.sar 8 7 10), some (.min 9 10 15),
     some (.minu 10 13 4), some (.max 11 0 9), some (.maxu 12 3 14)] := by decide

/-- Words of the alu layouts. -/
theorem test_decode_alu_2 :
    [0x69860C05, 0x72500D05, 0x7B1A0E05, 0x03C40F05, 0x088E1005,
     0x11581105, 0x40401205, 0x48801305, 0x50C01405, 0x61C01505,
     0x61C21505, 0x61C41505].map (decodeTableWord 32) =
    [some (.slt 13 6 3), some (.sltu 14 9 8), some (.seq 15 12 13),
     some (.mul 0 15 2), some (.mulh 1 2 7), some (.mulhu 2 5 12),
     some (.clz 8 1), some (.ctz 9 2), some (.popc 10 3),
     some (.sext 12 7 .b8), some (.sext 12 7 .h16), some (.sext 12 7 .w32)] := by decide

/-- Words of the alu layouts. -/
theorem test_decode_alu_3 :
    [0x61C01605, 0x61C21605, 0x61C41605, 0x43C81705].map (decodeTableWord 32) =
    [some (.zext 12 7 .b8), some (.zext 12 7 .h16), some (.zext 12 7 .w32),
     some (.sel 8 15 4)] := by decide

/-- Words of the imm layouts. -/
theorem test_decode_imm_1 :
    [0x3AE00109, 0x431FFE0D, 0x4B7FFF11, 0x538A5A15, 0x1B002119,
     0x1B102219, 0x1B202319, 0x3500021D, 0x4EFFFD1D, 0x7C000121].map (decodeTableWord 32) =
    [some (.addi 7 11 0x2001), some (.andi 8 12 0x1FFE), some (.ori 9 13 0x3FFF),
     some (.xori 10 14 0xA5A), some (.shli 3 12 33), some (.shri 3 12 34),
     some (.sari 3 12 35), some (.movi 6 2 0x8001), some (.movk 9 3 0x7FFE),
     some (.addpc 15 0x40001)] := by decide

/-- Words of the literal layouts. -/
theorem test_decode_literal_1 :
    [0x8000000120000025, 0x3F00000000000125, 0x0000000068000225, 0x123456781AC00035, 0xFFFFFFFF61400135,
     0x000000213A000235].map (decodeTableWord 64) =
    [some (.lit 4 0x80000001), some (.litZ 0 0x3F000000), some (.litH 13 0),
     some (.faddl 3 11 0x12345678), some (.fmull 12 5 0xFFFFFFFF), some (.ffmal 7 8 0x00000021)] := by decide

/-- Words of the divide layouts. -/
theorem test_decode_divide_1 :
    [0x1A03E029, 0x2245C129, 0x2A87A229, 0x32C98329].map (decodeTableWord 32) =
    [some (.div 3 8 1 15), some (.divu 4 9 2 14), some (.rem 5 10 3 13),
     some (.remu 6 11 4 12)] := by decide

/-- Words of the fpu layouts. -/
theorem test_decode_fpu_1 :
    [0x1142002D, 0x1984282D, 0x21C6402D, 0x2A08682D, 0x324A802D,
     0x3A8CA82D, 0x42CEC02D, 0x4B10E82D, 0x5353002D, 0x50C1282D,
     0x225D402D, 0x225D492D].map (decodeTableWord 32) =
    [some (.fadd 2 5 1 .f32), some (.fsub 3 6 2 .f64), some (.fmul 4 7 3 .f32),
     some (.ffma 5 8 4 .f64), some (.fmin 6 9 5 .f32), some (.fmax 7 10 6 .f64),
     some (.feq 8 11 7 .f32), some (.flt 9 12 8 .f64), some (.fle 10 13 9 .f32),
     some (.fclass 10 3 .f64), some (.fsgn 4 9 14 .f32), some (.fsgnn 4 9 14 .f64)] := by decide

/-- Words of the fpu layouts. -/
theorem test_decode_fpu_2 :
    [0x225D422D].map (decodeTableWord 32) =
    [some (.fsgnx 4 9 14 .f32)] := by decide

/-- Words of the fcvt layouts. -/
theorem test_decode_fcvt_1 :
    [0x1341682D, 0x1341612D, 0x1341622D, 0x13416B2D, 0x13416C2D,
     0x1341652D, 0x1341662D, 0x13416F2D].map (decodeTableWord 32) =
    [some (.fcvt 2 13 .f64 .toF32), some (.fcvt 2 13 .f32 .toF64), some (.fcvt 2 13 .f32 .toI32),
     some (.fcvt 2 13 .f64 .toI64), some (.fcvt 2 13 .f64 .ofI32), some (.fcvt 2 13 .f32 .ofI64),
     some (.fcvt 2 13 .f32 .toBF16), some (.fcvt 2 13 .f64 .toF16)] := by decide

/-- Words of the fpk layouts. -/
theorem test_decode_fpk_1 :
    [0x3A320031, 0x3A324131, 0x3A328231, 0x28204331, 0x08868039,
     0x41052139, 0x79816239, 0x33C0A339].map (decodeTableWord 32) =
    [some (.faddk 7 8 200), some (.fmulk 7 8 201), some (.ffmak 7 8 202),
     some (.ldk 5 129), some (.fdiv 1 2 3 4 .f32), some (.fdiv 8 4 2 9 .f64),
     some (.fsqrt 15 6 11 .f32), some (.fsqrt 6 15 5 .f64)] := by decide

/-- Words of the branch layouts. -/
theorem test_decode_branch_1 :
    [0x80000141, 0x7FFFFE45, 0x49100049, 0x5A300149, 0x6B500249,
     0x7C700349, 0x8D900449, 0x9EB00549, 0xB0CFFF49, 0xC0FFF049,
     0x03C0004D, 0x01C0014D].map (decodeTableWord 32) =
    [some (.br 0x800001), some (.call 0x7FFFFE), some (.beq 4 9 0x1000),
     some (.bne 5 10 0x1001), some (.blt 6 11 0x1002), some (.bge 7 12 0x1003),
     some (.bltu 8 13 0x1004), some (.bgeu 9 14 0x1005), some (.bz 11 0x0FFF),
     some (.bnz 12 0x1FF0), some (.jr 15), some (.callr 7)] := by decide

/-- Words of the branch layouts. -/
theorem test_decode_branch_2 :
    [0x03C0004D].map (decodeTableWord 32) =
    [some (.jr 15)] := by decide

/-- Words of the token layouts. -/
theorem test_decode_token_1 :
    [0x9A500051, 0x300C0151, 0xE0000251, 0x18100351, 0x61800351].map (decodeTableWord 32) =
    [some (.waitt 9 0xA5), some (.tkrd 3 12), some (.tkclr 14),
     some (.stmsk 1 0x81), some (.stmsk 6 0x18)] := by decide

/-- Words of the plain layouts. -/
theorem test_decode_plain_1 :
    [0x4B562161, 0x34A81E65, 0x4B56E161, 0x34A89E65, 0x4B572161,
     0x34A91E65, 0x4B57A161, 0x34A99E65, 0xCE9D0169, 0xB1E2FE6D].map (decodeTableWord 32) =
    [some (.ld 9 6 5 3 .b8 false 0x21), some (.st 6 9 2 4 .b8 0x1E), some (.ld 9 6 5 3 .h16 true 0x21),
     some (.st 6 9 2 4 .h16 0x1E), some (.ld 9 6 5 3 .w32 false 0x21), some (.st 6 9 2 4 .w32 0x1E),
     some (.ld 9 6 5 3 .d64 false 0x21), some (.st 6 9 2 4 .d64 0x1E), some (.vld 25 13 1 6 0x101),
     some (.vst 22 3 6 1 0x0FE)] := by decide

/-- Words of the mx layouts. -/
theorem test_decode_mx_1 :
    [0x5A3D2071, 0x5A3D2D71, 0x5A3D3271, 0x5A3D3B71, 0x25E75875,
     0x25E75175, 0x6294E275, 0x6294E375, 0xDCCBD879, 0xDCCBD979,
     0xDCCBDA79, 0xA472787D].map (decodeTableWord 32) =
    [some (.ldx 11 4 3 6 9 .b8 false), some (.ldxWf 11 4 3 6 9 .h16 true), some (.ldxWfc 11 4 3 6 9 .w32 false),
     some (.ldxMg 11 4 3 6 9 .d64 false), some (.stx 4 11 6 3 10 .d64), some (.stxSf 4 11 6 3 10 .w32),
     some (.stxNl 12 5 1 2 7), some (.stxNh 12 5 1 2 7), some (.vldx 27 9 4 5 14),
     some (.vldxWf 27 9 4 5 14), some (.vldxWfc 27 9 4 5 14), some (.vstx 20 8 7 1 3)] := by decide

/-- Words of the mx layouts. -/
theorem test_decode_mx_2 :
    [0xA472797D].map (decodeTableWord 32) =
    [some (.vstxSf 20 8 7 1 3)] := by decide

/-- Words of the atom layouts. -/
theorem test_decode_atom_1 :
    [0x16AA8081, 0x26AAA381, 0x36AAC481, 0x46AAE781, 0x56AB0881,
     0x66AB2B81, 0x76AB4C81, 0x06AB6F81, 0x16AB9081, 0x26ABB381,
     0x71E32085, 0x2D380089].map (decodeTableWord 32) =
    [some (.aadd 2 13 2 5 4 .w32), some (.aand 4 13 2 5 5 .d64), some (.aor 6 13 2 5 6 .w32),
     some (.axor 8 13 2 5 7 .d64), some (.amin 10 13 2 5 8 .w32), some (.amax 12 13 2 5 9 .d64),
     some (.aminu 14 13 2 5 10 .w32), some (.amaxu 0 13 2 5 11 .d64), some (.aswp 2 13 2 5 12 .w32),
     some (.acas 4 13 2 5 13 .d64), some (.chunk 14 3 6 1 9), some (.watch 5 10 3 4 .eq .w32)] := by decide

/-- Words of the atom layouts. -/
theorem test_decode_atom_2 :
    [0x2D386089, 0x2D388089, 0x2D38E089, 0x2D390089, 0x2D396089,
     0x0655FF8D, 0x81AB008D].map (decodeTableWord 32) =
    [some (.watch 5 10 3 4 .ne .d64), some (.watch 5 10 3 4 .lt .w32), some (.watch 5 10 3 4 .ge .d64),
     some (.watch 5 10 3 4 .ltu .w32), some (.watch 5 10 3 4 .geu .d64), some (.feclr 12 5 2 511),
     some (.feset 3 2 5 256)] := by decide

/-- Words of the vector layouts. -/
theorem test_decode_vector_1 :
    [0xA24200A1, 0xAA8449A1, 0xB2C692A1, 0xBB08D3A1, 0xC34B24A1,
     0xCB8D6DA1, 0xF44196A1, 0x8F8177A1, 0x54B3C0A5, 0x5CF591A5,
     0x65374AA5, 0x6D791BA5].map (decodeTableWord 32) =
    [some (.vadd 20 9 1 0 .f32), some (.vsub 21 10 2 1 .bf16), some (.vmul 22 11 3 2 .f16),
     some (.vfma 23 12 4 3 .f16), some (.vmin 24 13 5 4 .i16), some (.vmax 25 14 6 5 .i8),
     some (.vabs 30 17 6 .f16), some (.vneg 17 30 5 .i64), some (.vand 10 18 25 7 .f32),
     some (.vor 11 19 26 6 .f16), some (.vxor 12 20 27 5 .bf16), some (.vshl 13 21 28 4 .i32)] := by decide

/-- Words of the vector layouts. -/
theorem test_decode_vector_2 :
    [0x75BAE4A5, 0x7DFCADA5, 0xFC00CEA5, 0x08B927A5].map (decodeTableWord 32) =
    [some (.vshr 14 22 29 3 .i16), some (.vsar 15 23 30 2 .i8), some (.vmov 31 16 3 .bf16),
     some (.vsel 1 2 28 4 .i16)] := by decide

/-- Words of the vector2 layouts. -/
theorem test_decode_vector2_1 :
    [0x1BAAB0A9, 0x23ECF1A9, 0x2C2F32A9, 0x347173A9, 0x4E2340AD,
     0x4E0148AD, 0x4E3150AD, 0x4E0F58AD, 0x4E0B70AD, 0xA98E78AD,
     0xA99078AD, 0x24C199AD].map (decodeTableWord 32) =
    [some (.vmodadd 3 14 21 2), some (.vmodsub 4 15 22 3), some (.vmodmul 5 16 23 4),
     some (.vntt 6 17 24 5), some (.vcvt 9 24 5 .f32 .bf16 true), some (.vcvt 9 24 5 .bf16 .f32 false),
     some (.vcvt 9 24 5 .f16 .fp4 true), some (.vcvt 9 24 5 .i32 .md8 false), some (.vcvt 9 24 5 .i64 .i8 false),
     some (.vcvt 21 6 1 .md8 .f32 false), some (.vcvt 21 6 1 .fp4 .f32 false), some (.vred 4 19 .sum 6 .i32)] := by decide

/-- Words of the vector2 layouts. -/
theorem test_decode_vector2_2 :
    [0x24C3A1AD, 0x24C5A9AD, 0x91FAAAAD, 0xD340D3AD, 0x5DBE2CAD,
     0x170634AD, 0x6D4045AD, 0x75808EAD, 0x7DC0D7AD, 0x0C4880B1,
     0x148AC9B1, 0x1CCD12B1].map (decodeTableWord 32) =
    [some (.vred 4 19 .min 6 .i16), some (.vred 4 19 .max 6 .i8), some (.vperm 18 7 29 2 .i8),
     some (.vbcast 26 13 3 .f16), some (.vext 11 22 31 .i8), some (.vext 2 28 3 .i64),
     some (.vexp2 13 21 1 .f32), some (.vrcp 14 22 2 .bf16), some (.vrsqrt 15 23 3 .f16),
     some (.vcmp 1 17 4 2 .f32 .eq), some (.vcmp 2 18 5 3 .bf16 .ne), some (.vcmp 3 19 6 4 .f16 .lt)] := by decide

/-- Words of the vector2 layouts. -/
theorem test_decode_vector2_3 :
    [0x250F5BB1, 0x2D51A4B1, 0x3593EDB1, 0x090A00B5, 0x114C01B5,
     0x198E02B5, 0x38C003B5].map (decodeTableWord 32) =
    [some (.vcmp 4 20 7 5 .i32 .le), some (.vcmp 5 21 8 6 .i16 .gt), some (.vcmp 6 22 9 7 .i8 .ge),
     some (.kand 1 4 5), some (.kor 2 5 6), some (.kxor 3 6 7),
     some (.knot 7 3)] := by decide

/-- Words of the engine layouts. -/
theorem test_decode_engine_1 :
    [0x491032C1, 0x4934BBC1, 0x495944C1, 0x497DCDC1, 0x499256C1,
     0xC3F84CC5, 0x5AD800C9, 0xA56731C9, 0x3C95E2C9, 0x294B78D1,
     0x3A5C95D1, 0x5C7ECFD1].map (decodeTableWord 32) =
    [some (.mma 4 9 1 0 .bf16 6 2), some (.mma 4 9 3 1 .fp16 7 3), some (.mma 4 9 5 2 .md8 8 4),
     some (.mma 4 9 7 3 .int8 9 5), some (.mma 4 9 9 0 .fp4 10 6), some (.mmod 12 3 15 2 9 4),
     some (.mzero 5 10 3 6), some (.mload 10 5 1 9 6 3), some (.mdrain 3 12 2 5 3 6),
     some (.cpy 2 9 4 11 3 6), some (.cpy2d 3 10 5 12 4 5), some (.mcrd 5 12 7 14 6 3)] := by decide

/-- Words of the engine layouts. -/
theorem test_decode_engine_2 :
    [0x900656D1].map (decodeTableWord 32) =
    [some (.cpyl 9 6 2 5)] := by decide

/-- Words of the system layouts. -/
theorem test_decode_system_1 :
    [0x690388E1, 0x900CC5E1, 0x3C5A3AE1, 0xC3A5C7E1, 0x700E74E5,
     0xE007ADE5, 0xB00002E5, 0x514180E9, 0x014141E9, 0x000002E9,
     0x000000ED, 0x000001ED].map (decodeTableWord 32) =
    [some (.spawn 6 9 3 4 2), some (.taskq 9 12 6 1), some (.bind 3 12 5 10 1 6),
     some (.signal 12 3 10 5 6 1), some (.join 7 14 3 5), some (.leave 14 7 5 3),
     some (.gbar 11), some (.tshape 10 5 12), some (.tpress 5 10),
     some .upret, some .exit, some .yield] := by decide

/-- Words of the system layouts. -/
theorem test_decode_system_2 :
    [0x034002ED, 0x302004F1, 0x02429DF1, 0x1B3FFEF1, 0x800100F5,
     0x000001F5, 0x000002F5, 0xC0C001F9, 0x3F3FFEF9].map (decodeTableWord 32) =
    [some (.mig 13), some (.csrr 6 0x801), some (.csrw 9 0x0A7),
     some (.csrx 3 12 0xFFF), some (.trap 0x8001), some .tret,
     some .bkpt, some (.pfx true 0x81 0x4001), some (.pfx false 0x7E 0x3FFE)] := by decide

/-! ## Decoding: the words that the reference entries and the example programs of spec/ print -/

/-- Printed words. -/
theorem test_decode_printed_32_1 :
    [0x2C105871, 0x3F80032B, 0x830040F9, 0x0A107071, 0x123FF849,
     0x2000301D, 0x55805471, 0x4B806081, 0x123020D1, 0x40810061,
     0x48810161, 0x21010065].map (decodeTableWord 32) =
    [some (.ldx 5 8 1 0 2 .d64 false), some (.faddi 3 2 0x3F800), some (.pfx true 6 0x40),
     some (.ldx 1 4 1 0 3 .w32 false), some (.bne 1 2 0x1FF8), some (.movi 4 0 24),
     some (.ldx 10 11 0 0 2 .w32 true), some (.aadd 9 7 0 0 3 .w32), some (.cpy 1 2 3 0 1 0),
     some (.ld 8 1 0 0 .w32 false 0), some (.ld 9 1 0 0 .w32 false 1), some (.st 4 2 0 0 .w32 0)] := by decide

/-- Printed words. -/
theorem test_decode_printed_32_2 :
    [0x30FF9949, 0x400008F1, 0x432143D1, 0x524223D1, 0xDA0220E1,
     0x0A803979, 0x000230A1, 0x400034AD, 0x5204001D, 0x8BC143E1,
     0x2C900089, 0x53105871].map (decodeTableWord 32) =
    [some (.bnz 3 0x1F99), some (.csrr 8 2), some (.mcrd 4 3 2 1 2 0),
     some (.mcrd 5 2 4 2 1 0), some (.spawn 13 10 2 1 0), some (.vldxWf 1 5 0 0 1),
     some (.vadd 0 0 1 0 .i64), some (.vext 8 0 0 .i64), some (.movi 10 1 0x200),
     some (.signal 8 11 12 1 2 0), some (.watch 5 9 1 0 .eq .w32), some (.ldx 10 6 1 0 2 .d64 false)] := by decide

/-- Printed words. -/
theorem test_decode_printed_32_3 :
    [0x12408009, 0x69107875, 0x003000F9, 0x2B101975, 0x0241C1F1,
     0x2D003A71, 0x891010C1, 0x7A0882C9, 0x10800081, 0x23165381,
     0x18440005, 0x08BFFB09].map (decodeTableWord 32) =
    [some (.addi 2 9 0x80), some (.stx 13 2 1 0 3 .d64), some (.pfx false 0 0x3000),
     some (.stxSf 5 6 1 0 0 .d64), some (.csrw 9 0x070), some (.ldxWfc 5 10 0 0 1 .d64 false),
     some (.mma 8 9 1 0 .bf16 2 0), some (.mdrain 7 10 0 2 1 0), some (.aadd 2 1 0 0 0 .w32),
     some (.acas 4 6 1 3 2 .d64), some (.add 3 1 2), some (.addi 1 2 0x3FFB)] := by decide

/-- Printed words. -/
theorem test_decode_printed_32_4 :
    [0x20004021, 0x08860205, 0x4A40FF0D, 0x50000C49, 0x409FFD49,
     0x456102E1, 0x000002F5, 0xFFFFEC41, 0x00010045, 0x0140014D,
     0x13002085, 0x11401205].map (decodeTableWord 32) =
    [some (.addpc 4 0x40), some (.and 1 2 3), some (.andi 9 9 0xFF),
     some (.beq 5 0 12), some (.bltu 4 0 0x1FFD), some (.bind 4 5 6 1 0 0),
     some .bkpt, some (.br 0xFFFFEC), some (.call 0x100),
     some (.callr 5), some (.chunk 2 6 0 0 1), some (.clz 2 5)] := by decide

/-- Printed words. -/
theorem test_decode_printed_32_5 :
    [0x123420D1, 0x567045D1, 0x300522D1, 0x190042F1, 0x51C01305,
     0x1844A029, 0x1844A129, 0x000000ED, 0x1888002D, 0x1002402D,
     0x298E682D, 0x4000020F].map (decodeTableWord 32) =
    [some (.cpy 1 2 3 4 1 0), some (.cpy2d 5 6 7 0 2 1), some (.cpyl 3 5 1 0),
     some (.csrx 3 4 0x010), some (.ctz 10 7), some (.div 3 1 2 5),
     some (.divu 3 1 2 5), some .exit, some (.fadd 3 2 4 .f32),
     some (.fmul 2 0 1 .f32), some (.ffma 5 6 7 .f64), some (.fmuli 2 0 0x40000)] := by decide

/-- Printed words. -/
theorem test_decode_printed_32_6 :
    [0x3F000483, 0x3DCCCC07, 0x08814031, 0x10C1202D, 0x1901622D,
     0x1844C039, 0x29800339, 0x8210208D, 0x0200018D, 0x0886E02D,
     0x0886A82D, 0x2109422D].map (decodeTableWord 32) =
    [some (.ffmai 4 8 0x3F000), some (.fmovi 12 0x3DCCC), some (.faddk 1 2 5),
     some (.fclass 2 3 .f32), some (.fcvt 3 4 .f32 .toI32), some (.fdiv 3 1 2 6 .f32),
     some (.fsqrt 5 6 0 .f64), some (.feset 4 1 0 32), some (.feclr 4 0 0 1),
     some (.flt 1 2 3 .f32), some (.fmax 1 2 3 .f64), some (.fsgnx 4 4 4 .f32)] := by decide

/-- Printed words. -/
theorem test_decode_printed_32_7 :
    [0x800002E5, 0x800220E5, 0x800221E5, 0x0140004D, 0x03C0004D,
     0x088600B5, 0x108402B5, 0x214003B5, 0x38819061, 0x11814061,
     0x0B001B71, 0x7A0800C9].map (decodeTableWord 32) =
    [some (.gbar 8), some (.join 8 2 1 0), some (.leave 8 2 1 0),
     some (.jr 5), some (.jr 15), some (.kand 1 2 3),
     some (.kxor 2 2 2), some (.knot 4 5), some (.ld 7 1 0 0 .d64 false 16),
     some (.ld 2 3 0 0 .w32 true 0), some (.ldxMg 1 6 0 0 0 .d64 false), some (.mzero 7 10 0 2)] := by decide

/-- Printed words. -/
theorem test_decode_printed_32_8 :
    [0x568481C9, 0x018002ED, 0x45341AC5, 0x23000011, 0x0860001D,
     0x4700011D, 0x0880FF11, 0x000001F9, 0x4A800011, 0x800000F9,
     0x1844A229, 0x1844A329].map (decodeTableWord 32) =
    [some (.mload 5 6 2 1 1 0), some (.mig 6), some (.mmod 4 5 3 1 3 2),
     some (.ori 4 12 0), some (.movi 1 0 0x3000), some (.movk 8 3 0x8000),
     some (.ori 1 2 0xFF), some (.pfx false 0 1), some (.ori 9 10 0),
     some (.pfx true 0 0), some (.rem 3 1 2 5), some (.remu 3 1 2 5)] := by decide

/-- Printed words. -/
theorem test_decode_printed_32_9 :
    [0x42100D19, 0x08A03F19, 0x08800419, 0x1A000565, 0x11802275,
     0x100021E1, 0x50030151, 0x50000251, 0x010081E9, 0x000100F5,
     0x000000F5, 0x000001F5].map (decodeTableWord 32) =
    [some (.shri 8 8 13), some (.sari 1 2 63), some (.shli 1 2 4),
     some (.st 3 4 0 0 .b8 5), some (.stxNl 2 3 0 0 1), some (.taskq 1 0 1 0),
     some (.tkrd 5 3), some (.tkclr 5), some (.tpress 4 4),
     some (.trap 1), some (.trap 0), some .tret] := by decide

/-- Printed words. -/
theorem test_decode_printed_32_10 :
    [0x5040A0E9, 0x000002E9, 0x088680A1, 0x214C0BA1, 0x00001AA5,
     0x08871FA5, 0x088632A9, 0x104633A9, 0x088602B1, 0x0B800269,
     0x04A0787D, 0x32800051].map (decodeTableWord 32) =
    [some (.tshape 10 1 5), some .upret, some (.vadd 1 2 3 2 .f32),
     some (.vfma 4 5 6 0 .bf16), some (.vxor 0 0 0 0 .i32), some (.vsel 1 2 3 4 .i32),
     some (.vmodmul 1 2 3 0), some (.vntt 2 1 3 0), some (.vcmp 1 2 3 0 .f32 .lt),
     some (.vld 1 7 0 0 2), some (.vstx 0 9 2 0 3), some (.waitt 3 40)] := by decide

/-- Printed words. -/
theorem test_decode_printed_32_11 :
    [0x2B014089, 0x08860405, 0x08BFFF15, 0x000001ED, 0x08841605,
     0x08860105, 0x08860305, 0x08860505, 0x08860605, 0x08860705,
     0x08860805, 0x08860905].map (decodeTableWord 32) =
    [some (.watch 5 6 0 0 .geu .w32), some (.xor 1 2 3), some (.xori 1 2 0x3FFF),
     some .yield, some (.zext 1 2 .w32), some (.sub 1 2 3),
     some (.or 1 2 3), some (.shl 1 2 3), some (.shr 1 2 3),
     some (.sar 1 2 3), some (.min 1 2 3), some (.minu 1 2 3)] := by decide

/-- Printed words. -/
theorem test_decode_printed_32_12 :
    [0x08860A05, 0x08860B05, 0x08860C05, 0x08860D05, 0x08860E05,
     0x08860F05, 0x30200351, 0x60000331, 0x22004231, 0x380008F1,
     0x200010F1].map (decodeTableWord 32) =
    [some (.max 1 2 3), some (.maxu 1 2 3), some (.slt 1 2 3),
     some (.sltu 1 2 3), some (.seq 1 2 3), some (.mul 1 2 3),
     some (.stmsk 3 2), some (.ldk 12 0), some (.ffmak 4 8 1),
     some (.csrr 7 2), some (.csrr 4 4)] := by decide

/-- Printed words. -/
theorem test_decode_printed_16_1 :
    [0x0200, 0x0300, 0x0100, 0x2650, 0x2630,
     0x8200, 0x29A0, 0x4B08, 0x43FE, 0x93F4,
     0x14C0, 0x5888].map (decodeTableWord 16) =
    [some (.dly 2), some (.dly 3), some (.dly 1),
     some (.addShort 6 5), some (.addShort 6 3), some (.waittShort 2 0),
     some (.addShort 9 10), some (.addiShort 11 4), some (.addiShort 3 0x7F),
     some (.bnzShort 3 0x7A), some (.mov 4 12), some (.shliShort 8 34)] := by decide

/-- Printed words. -/
theorem test_decode_printed_16_2 :
    [0x96F2, 0x7120, 0x4102, 0x4210, 0x93F8,
     0x2DA0, 0x6350, 0x3310, 0xD088, 0xE0B8,
     0xF118].map (decodeTableWord 16) =
    [some (.bnzShort 6 0x79), some (.stShort 1 2), some (.addiShort 1 1),
     some (.addiShort 2 8), some (.bnzShort 3 0x7C), some (.addShort 13 10),
     some (.ldShort 3 5), some (.subShort 3 1), some (.vmovShort 1 2),
     some (.vldShort 1 7), some (.vstShort 2 3)] := by decide

/-- Printed words. -/
theorem test_decode_printed_64_1 :
    [0x3F00000010000125, 0x3FC0000008800035, 0x3DCCCCCD60000125, 0x4120000022000235].map (decodeTableWord 64) =
    [some (.litZ 2 0x3F000000), some (.faddl 1 2 0x3FC00000), some (.litZ 12 0x3DCCCCCD),
     some (.ffmal 4 8 0x41200000)] := by decide

/-! ## States in which the hypotheses of the statements hold

Every theorem `witness_…` below gives, for a statement or one of its clauses, a state and operands that meet its hypotheses together. -/
/-- A job of one tile with a handler, and its first thread running on core 0. -/
def s0 : State :=
  let s := State.reset.bootThread
  let s := s.setJob 1 { s.job 1 with trapVec := 0x1000400 }
  s.modMs fun m => { m with lmpu := (2, 1) :: (List.range 45).map fun i => (i + 3, 3) }
/-- Its registers: addresses in the own bank, of the global space, of the window of core 1, and floating-point numbers. -/
def s1 : State := s0.modMe fun t => { t with
  g := #v[0x3000, 0x3040, 0x1000000, 0x8000000000203000, 0x7F800000, 0xFF800000, 3, 1, 0x40490FDB, 0, 96, 0x10000, 5, 0, 0x2F000, 0x3001] }
/-- The same in checked mode, with results that have fallen due and one on its way to G13. -/
def s2 : State := (s1.modMe fun t => { t with
  pending := [⟨.g 1, 7, fullMask (.g 1), 2, false, 1⟩, ⟨.v 3, 9, fullMask (.v 3), 4, false, 1⟩, ⟨.g 13, 9, fullMask (.g 13), 12, false, 1⟩]
  coldPoison := [(.g 12, 32)] }).modMyCore fun c => { c with hzchk := true, nextIssue := 4 }
/-- Every flag enabled. -/
def sFpx : State := s1.modMe fun t => { t with fmode := 0x1F0 }
/-- A PFX in force. -/
def sPfx : State := s1.modMe fun t => { t with pfx := some ⟨false, 0, 0x7FFF, 0x1000000⟩, pc := 0x1000004 }
/-- Inside the handler. -/
def sHan : State := s1.modMe fun t => { t with inHandler := true, trapPc := 0x1000010 }
/-! ### Scalar instructions -/
theorem witness_IntegerRegisterOperations : ∃ r ∈ Spec.binary (.sel 3 1 2), s2.Waited (r.reads.map Reg.g) [Reg.g r.dest] r.lat := by decide +kernel
theorem witness_BitCountsExtensionsAndMov : ∃ r ∈ Spec.unary (.clz 0 15), s1.Waited (r.reads.map Reg.g) [Reg.g r.dest] r.lat := by decide +kernel
theorem witness_ImmediateOperationsAndConstants :
    ∃ r ∈ Spec.withImmediate (.addi 3 1 0x2000), sPfx.Waited (r.reads.map Reg.g) [Reg.g r.dest] r.lat := by decide +kernel
/-! ### Floating point -/
theorem witness_FloatingArithmeticCompletes : ∃ r ∈ Spec.fpArithmetic (.fmul 2 8 8 .f32),
    s1.Waited (r.reads.map Reg.g) [Reg.g r.dest] r.lat ∧ (r.value s1).2 &&& Spec.enables s1 = 0 := by decide +kernel
theorem witness_FloatingArithmeticCompletes_enabled : ∃ r ∈ Spec.fpArithmetic (.fmovi 2 1),
    sFpx.Waited (r.reads.map Reg.g) [Reg.g r.dest] r.lat ∧ (r.value sFpx).2 &&& Spec.enables sFpx = 0 := by decide +kernel
theorem witness_FloatingTestsComplete : ∃ r ∈ Spec.fpTests (.flt 2 4 5 .f32),
    s1.Waited (r.reads.map Reg.g) [Reg.g r.dest] r.lat ∧ (r.value s1).2 &&& Spec.enables s1 = 0 := by decide +kernel
theorem witness_EnabledFlagTrapsBeforeAnyWrite : ∃ r ∈ Spec.fpArithmetic (.fadd 2 4 5 .f32),
    sFpx.Waited (r.reads.map Reg.g) [Reg.g r.dest] r.lat ∧ Spec.canTrap sFpx ∧ (r.value sFpx).2 &&& Spec.enables sFpx ≠ 0 := by decide +kernel
theorem witness_RepresentableResultIsExact : Fmt.f32 ∈ [Fmt.f64, Fmt.f32, Fmt.f16, Fmt.bf16] ∧ 0 < 1 ∧ 1 < Fmt.f32.infBits ∧
    Fmt.f32.decode 1 = .fin false 1 (2 ^ 149) ∧ 0 < 2 ^ 150 ∧ 2 * 2 ^ 149 = 1 * 2 ^ 150 := by decide +kernel
theorem witness_ConversionsComplete : s1.Waited [Reg.g 8] [Reg.g 2] 3 ∧ (Spec.fcvtValue s1 8 .f32 .toI32).2 &&& Spec.enables s1 = 0 := by
    decide +kernel
theorem witness_ConversionsComplete_stochastic :
    let s := s1.modMe fun t => { t with fmode := 4 }
    s.Waited [Reg.g 8] [Reg.g 2] 3 ∧ Spec.fcvtDraws s .f32 .toBF16 = true ∧ Spec.enables s = 0 := by decide +kernel
theorem witness_ConversionsComplete_trap : sFpx.Waited [Reg.g 4] [Reg.g 2] 3 ∧
    (Spec.fcvtValue sFpx 4 .f32 .toI64).2 &&& Spec.enables sFpx ≠ 0 ∧ Spec.canTrap sFpx := by decide +kernel
theorem witness_ConstantBankOperands : ∃ r ∈ Spec.withConstant (.ffmak 2 8 255),
    s1.myJob.cbBase.toNat % 2 ^ 18 + 4 * r.word.toNat = 0x23FC ∧ s1.Waited (r.reads.map Reg.g) [Reg.g r.dest] r.lat ∧
    s1.lmpuOk s1.me.pcn 0x23FC 4 false = true ∧ s1.poisonedIn (bankKey s1.me.pcn 0x23FC) 4 = none ∧
    (r.value s1 (Spec.number s1 (bankKey s1.me.pcn 0x23FC) 4)).2 &&& Spec.enables s1 = 0 := by decide +kernel
theorem witness_ConstantBankTraps_lmpu :
    let s := s1.modMs fun m => { m with lmpu := [(2, 2)] }
    ∃ r ∈ Spec.withConstant (.ldk 2 0), s.myJob.cbBase.toNat % 2 ^ 18 + 4 * r.word.toNat = 0x2000 ∧
      s.Waited (r.reads.map Reg.g) [Reg.g r.dest] r.lat ∧ Spec.canTrap s ∧ s.lmpuOk s.me.pcn 0x2000 4 false = false := by decide +kernel
theorem witness_ConstantBankTraps_poison :
    let s := s1.modMs fun m => { m with poison := [0x200] }
    ∃ r ∈ Spec.withConstant (.faddk 2 8 3), s.myJob.cbBase.toNat % 2 ^ 18 + 4 * r.word.toNat = 0x200C ∧
      s.Waited (r.reads.map Reg.g) [Reg.g r.dest] r.lat ∧ Spec.canTrap s ∧ s.lmpuOk s.me.pcn 0x200C 4 false = true ∧
      s.poisonedIn (bankKey s.me.pcn 0x200C) 4 = some 0x200 := by decide +kernel
theorem witness_ConstantBankTraps_flag :
    let s := sFpx.modMs fun m => { m with mem := [(0x2002, 0x80), (0x2003, 0xFF)] }
    ∃ r ∈ Spec.withConstant (.faddk 2 4 0), s.myJob.cbBase.toNat % 2 ^ 18 + 4 * r.word.toNat = 0x2000 ∧
      s.Waited (r.reads.map Reg.g) [Reg.g r.dest] r.lat ∧ Spec.canTrap s ∧ s.lmpuOk s.me.pcn 0x2000 4 false = true ∧
      s.poisonedIn (bankKey s.me.pcn 0x2000) 4 = none ∧
      (r.value s (Spec.number s (bankKey s.me.pcn 0x2000) 4)).2 &&& Spec.enables s ≠ 0 := by decide +kernel
/-! ### Control flow, delays, tokens -/
theorem witness_BranchesAndCalls : ∃ r ∈ Spec.branch (.call 0x800000), r.link = true ∧
    s2.Waited (r.reads.map Reg.g) [Reg.g 15] 1 := by decide +kernel
theorem witness_BranchesAndCalls_taken : ∃ r ∈ Spec.branch (.beq 9 13 12), r.taken s1 = true ∧ s1.Waited (r.reads.map Reg.g) [] 0 := by decide +kernel
theorem witness_BranchesAndCalls_not_taken : ∃ r ∈ Spec.branch (.bnzShort 9 12), r.taken s1 = false ∧
    s1.Waited (r.reads.map Reg.g) [] 0 := by decide +kernel
theorem witness_DelayChangesNothing : 1 ≤ (1 : BitVec 4).toNat ∧ s1.Waited [] [] 0 := by decide +kernel
/-- Token 3 at OUT = 1, token 5 at OUT = 0 with a record, token 6 at OUT = 255, stream 2 at OUT = 63. -/
def sTok : State := s1.modMe fun t => { t with live := { t.live with
  tokens := (t.live.tokens.set 3 ⟨0, 0xFFFF⟩).set 6 ⟨255, 0⟩
  streams := t.live.streams.set 2 ⟨1, 2⟩
  records := (t.live.records.set 5 (some ⟨0x1000000, 5, 6, 2⟩)).set 4 (some ⟨0x1000000, 0xFFF, 0x0A, 20⟩) } }
theorem witness_WaittPassesOrBlocks_pass : Spec.outSeen sTok 3 ≤ 1 ∧ Spec.hasRecord sTok.me 3 = false ∧ sTok.Waited [] [] 0 := by decide +kernel
theorem witness_WaittPassesOrBlocks_block : 0 < Spec.outSeen sTok 3 ∧ sTok.Waited [] [] 0 := by decide +kernel
theorem witness_WaittDeliversTheRecord : sTok.Waited [] [] 0 ∧ Spec.canTrap sTok ∧
    sTok.me.live.records[(5 : Tok)] = some ⟨0x1000000, 5, 6, 2⟩ ∧ Spec.outSeen sTok 5 ≤ 0 := by decide +kernel
theorem witness_WaittDeliversTheRecord_fpx : sTok.Waited [] [] 0 ∧ Spec.canTrap sTok ∧
    sTok.me.live.records[(4 : Tok)] = some ⟨0x1000000, 0xFFF, 0x0A, 20⟩ ∧ Spec.outSeen sTok 4 ≤ 255 := by decide +kernel
theorem witness_TokenAndMaskInstructions_clear : sTok.Waited [] [] 0 ∧ Spec.outSeen sTok 0 = 0 ∧ Spec.hasRecord sTok.me 0 = false := by decide +kernel
theorem witness_TokenAndMaskInstructions_handler : sHan.Waited [] [Reg.g 1] 2 ∧ Spec.outSeen sHan 15 = 0 ∧
    Spec.hasRecord sHan.me 15 = false := by decide +kernel
theorem witness_TokenAndMaskInstructions_trap : sTok.Waited [] [] 0 ∧ Spec.canTrap sTok ∧ Spec.outSeen sTok 3 ≠ 0 := by decide +kernel
theorem witness_TokenAndMaskInstructions_masks : 1 ≤ (1 : BitVec 4).toNat ∧ (1 : BitVec 4).toNat ≤ 6 ∧ 1 ≤ (6 : BitVec 4).toNat ∧
    (6 : BitVec 4).toNat ≤ 6 := by decide +kernel
/-- Text of the job of `s1` in the cache of core 0, from its pc on. -/
def sText (bs : List Byte) : State := s1.placeText 0 1 0x1000000 bs
theorem witness_PrefixGovernsTheNextInstruction :
    let s := sText [0xF9, 0xFF, 0x7F, 0x00, 0x09, 0xFE, 0xBF, 0x08]
    s.Waited [] [] 0 ∧ s.fetchInstr s.me.pcn s.me.job (s.me.pc + 4) = .instr (.addi 1 2 0x3FFE) 4 ∧
    Instr.pfxUse (.addi 1 2 0x3FFE) = .plain := by decide +kernel
theorem witness_PrefixGovernsTheNextInstruction_masked :
    let s := sText [0xF9, 0x40, 0x00, 0x83, 0x71, 0x70, 0x10, 0x0A]
    s.Waited [] [] 0 ∧ s.fetchInstr s.me.pcn s.me.job (s.me.pc + 4) = .instr (.ldx 1 4 1 0 3 .w32 false) 4 ∧
    Instr.pfxUse (.ldx 1 4 1 0 3 .w32 false) = .masked 0 := by decide +kernel
/-! ### Local memory -/
theorem witness_LocalLoadsComplete : ∃ r ∈ Spec.loads (.ld 2 0 0 0 .h16 true 0x3F),
    s1.Waited [Reg.g r.base] [r.reg] 3 ∧ r.at s1 0 0x2FFE ∧ (s1.core 0).status ≠ .dark ∧ (r.addr s1).toNat % r.bytes = 0 ∧
    s1.lmpuOk 0 0x2FFE r.bytes false = true ∧ Spec.raceFree s1 0 0x2FFE false ∧ s1.poisonedIn (bankKey 0 0x2FFE) r.bytes = none := by decide +kernel
theorem witness_LocalLoadsComplete_vector : ∃ r ∈ Spec.loads (.vldShort 31 1),
    s1.Waited [Reg.g r.base] [r.reg] 4 ∧ r.at s1 0 0x3040 ∧ (s1.core 0).status ≠ .dark ∧ (r.addr s1).toNat % r.bytes = 0 ∧
    s1.lmpuOk 0 0x3040 r.bytes false = true ∧ Spec.raceFree s1 0 0x3040 false ∧ s1.poisonedIn (bankKey 0 0x3040) r.bytes = none := by decide +kernel
theorem witness_LocalStoresComplete : ∃ r ∈ Spec.stores (.stShort 2 0),
    s1.Waited [Reg.g r.base, r.reg] [] 0 ∧ r.at s1 0 0x3000 ∧ (s1.core 0).status ≠ .dark ∧ (r.addr s1).toNat % r.bytes = 0 ∧
    s1.lmpuOk 0 0x3000 r.bytes true = true ∧ Spec.raceFree s1 0 0x3000 true ∧ s1.poisonedIn (bankKey 0 0x3000) r.bytes = none := by decide +kernel
theorem witness_LocalStoresComplete_vector : ∃ r ∈ Spec.stores (.vst 2 1 0 0 0x1FF), r.bytes = 32 ∧
    s1.Waited [Reg.g r.base, r.reg] [] 0 ∧ r.at s1 0 0x3020 ∧ (s1.core 0).status ≠ .dark ∧ (r.addr s1).toNat % r.bytes = 0 ∧
    s1.lmpuOk 0 0x3020 r.bytes true = true ∧ Spec.raceFree s1 0 0x3020 true := by decide +kernel
/-- An address outside every core's bank and its window. -/
theorem not_bank {w : Win} {q off : Nat} (h : (match w with | .bank _ _ false => true | _ => false) = false) : w ≠ .bank q off false := by
  rintro rfl; simp at h
theorem witness_LocalAccessTraps_window : ∃ r, Spec.loads (.ldShort 2 2) = some r ∧ s1.Waited [Reg.g r.base] [r.reg] 3 ∧
    Spec.canTrap s1 ∧ ∀ q off, winOf s1.me.pcn (r.addr s1) ≠ .bank q off false :=
  ⟨_, rfl, by decide +kernel, by decide +kernel, fun _ _ => not_bank (by decide +kernel)⟩
theorem witness_LocalAccessTraps_dark : ∃ r ∈ Spec.loads (.ldShort 2 0),
    let s := s1.modCore 0 fun c => { c with status := .dark }
    s.Waited [Reg.g r.base] [r.reg] 3 ∧ Spec.canTrap s ∧ r.at s 0 0x3000 ∧ (s.core 0).status = .dark := by decide +kernel
theorem witness_LocalAccessTraps_align : ∃ r ∈ Spec.stores (.stShort 2 15), s1.Waited [Reg.g r.base, r.reg] [] 0 ∧
    Spec.canTrap s1 ∧ r.at s1 0 0x3001 ∧ (s1.core 0).status ≠ .dark ∧ (r.addr s1).toNat % r.bytes ≠ 0 := by decide +kernel
theorem witness_LocalAccessTraps_lmpu : ∃ r ∈ Spec.stores (.st 2 0 0 0 .w32 0x3F), s1.Waited [Reg.g r.base, r.reg] [] 0 ∧
    Spec.canTrap s1 ∧ r.at s1 0 0x2FFC ∧ (s1.core 0).status ≠ .dark ∧ (r.addr s1).toNat % r.bytes = 0 ∧
    s1.lmpuOk 0 0x2FFC r.bytes true = false := by decide +kernel
/-- An RC page that another party has written, and a poisoned granule. -/
def sRace : State := s1.modMs fun m => { m with lmpu := [(3, 7)], race := [(0x3000 / 64, ⟨some (9, 0), []⟩)], poison := [0x304] }
theorem witness_LocalAccessTraps_race : ∃ r ∈ Spec.loads (.ldShort 2 0), sRace.Waited [Reg.g r.base] [r.reg] 3 ∧
    Spec.canTrap sRace ∧ r.at sRace 0 0x3000 ∧ sRace.lmpuOk 0 0x3000 r.bytes false = true ∧ sRace.isRc 0 0x3000 = true ∧
    sRace.raceConflict (bankKey 0 0x3000) (partyOf sRace.me.pcn sRace.me.party) false = some (9, true) := by decide +kernel
theorem witness_LocalAccessTraps_poison : ∃ r ∈ Spec.loads (.ldShort 2 1), sRace.Waited [Reg.g r.base] [r.reg] 3 ∧
    Spec.canTrap sRace ∧ r.at sRace 0 0x3040 ∧ (r.addr sRace).toNat % r.bytes = 0 ∧ sRace.lmpuOk 0 0x3040 r.bytes false = true ∧
    Spec.raceFree sRace 0 0x3040 false ∧ sRace.poisonedIn (bankKey 0 0x3040) r.bytes = some 0x304 := by decide +kernel
/-! ### Redirected stack accesses -/
/-- A page of die 0 for an address of job 1: CLEAR, readable and writable, as its home slice holds it, at 64 KiB × `page`. -/
def leaf (page : Nat) : Word := BitVec.ofNat 64 (page * 65536 + 256 + 16 + 8 + 1)
/-- An entry of an access table for job 1, for pages 0 to 0xFFFF (R233). -/
def entry (target : Nat) : AccessEntry := ⟨target, 0, 0x0001000000000000, 0x000000B00000FFFF⟩
/-- The pages of VA 0x1000000 and 0x10F0000 are mapped, at every slice, and their first lines are resident. -/
def sMap : State :=
  let s := s1.modFab fun f => { f with
    tlb := (List.range 64).flatMap fun i => [⟨i, 1, 0x100, leaf 2⟩, ⟨i, 1, 0x10F, leaf 3⟩]
    resident := [⟨8, lineOf (ownerKey 0 0x20000), 0xFF, 0⟩, ⟨0, lineOf (ownerKey 0 0x21000), 0xFF, 0⟩, ⟨47, lineOf (ownerKey 0 0x3F020), 0xFF, 0⟩] }
  let s := s.modDie 0 fun d => { d with tagLo := 0x10000, tagHi := 0x100000, tagBase := 0x1000000 }
  (s.modLan fun l => { l with access := (List.range 64).map entry ++ [entry 512] }).modMyCore fun c => { c with ovfptr := 0x1000000 }
theorem witness_StackAccessesAreRedirected_align : ∃ r ∈ Spec.loads (.ld 2 14 0 0 .w32 false 1),
    let s := s1.modMe fun t => { t with g := t.g.set 14 0x2F002 }
    s.Waited [Reg.g r.base] [r.reg] 3 ∧ winOf s.me.pcn (r.addr s) = .bank 0 0x2F006 false ∧ r.base = 14 ∧
    (r.addr s).toNat < s.myStackBase.toNat ∧ (r.addr s).toNat % r.bytes ≠ 0 ∧ Spec.canTrap s := by decide +kernel
theorem witness_StackAccessesAreRedirected_spill : ∃ r ∈ Spec.stores (.vstShort 2 14),
    s1.Waited [Reg.g r.base, r.reg] [] 0 ∧ winOf s1.me.pcn (r.addr s1) = .bank 0 0x2F000 false ∧ r.base = 14 ∧
    (r.addr s1).toNat < s1.myStackBase.toNat ∧ (r.addr s1).toNat % r.bytes = 0 ∧ s1.myCore.ovfptr.toNat < 0x1000000 ∧
      Spec.canTrap s1 := by decide +kernel
theorem witness_StackAccessesAreRedirected_unmapped : ∃ r ∈ Spec.loads (.ldShort 2 14),
    let s := sMap.modMyCore fun c => { c with ovfptr := 0x2000000 }
    s.Waited [Reg.g r.base] [r.reg] 3 ∧ winOf s.me.pcn (r.addr s) = .bank 0 0x2F000 false ∧
    (r.addr s).toNat < s.myStackBase.toNat ∧ (r.addr s).toNat % r.bytes = 0 ∧ s.xlat s.me.job 0x20FF020 8 ⟨true, true, false, true⟩ = .fail 1 ∧
    Spec.canTrap s := by decide +kernel
theorem witness_StackAccessesAreRedirected_held : ∃ r ∈ Spec.loads (.ldShort 2 14),
    sMap.Waited [Reg.g r.base] [r.reg] 3 ∧ winOf sMap.me.pcn (r.addr sMap) = .bank 0 0x2F000 false ∧ r.base = 14 ∧
    (r.addr sMap).toNat < sMap.myStackBase.toNat ∧ (r.addr sMap).toNat % r.bytes = 0 ∧
    sMap.myStackBase.toNat - (r.addr sMap).toNat ≤ 0x100000 ∧ 0x1000000 ≤ sMap.myCore.ovfptr.toNat ∧ sMap.myCore.ovfptr.toNat % 65536 = 0 ∧
    (0x10FF020 : Word) = BitVec.ofInt 64 (sMap.myCore.ovfptr.toInt + ((sMap.me.image.getD 0 : Nat) + 1) * 0x100000 -
      (sMap.myStackBase.toNat - (r.addr sMap).toNat : Nat)) ∧
    sMap.xlat sMap.me.job 0x10FF020 8 ⟨true, true, false, true⟩ = .ok 0 0x3F020 (leaf 3) (entry 47) := by decide +kernel
/-! ### Operations -/
theorem witness_DivisionsIssue : ∃ r ∈ Spec.divisions (.div 2 0 6 3), sTok.Waited (r.reads sTok) r.writes 0 ∧ r.free sTok ∧
    r.ok sTok = true := by decide +kernel
theorem witness_LoadsAndStoresIssue : ∃ r ∈ Spec.transfers (.stx 2 2 1 7 3 .d64), s1.Waited (r.reads s1) r.writes 0 ∧
    r.posted s1 = true ∧ r.free s1 ∧ r.ok s1 = true := by decide +kernel
theorem witness_LoadsAndStoresIssue_local : ∃ r ∈ Spec.transfers (.vldxWfc 31 3 1 0 15), s1.Waited (r.reads s1) r.writes 0 ∧
    r.free s1 ∧ r.ok s1 = true := by decide +kernel
theorem witness_AtomicsIssue : ∃ r ∈ Spec.atomics (.acas 6 2 0 1 2 .w32), s1.Waited (r.reads s1) r.writes 0 ∧
    r.free s1 ∧ r.ok s1 = true := by decide +kernel
theorem witness_AtomicsIssue_feset : ∃ r ∈ Spec.atomics (.feset 0 0 1 511), s1.Waited (r.reads s1) r.writes 0 ∧
    r.free s1 ∧ r.ok s1 = true := by decide +kernel
theorem witness_RequestsIssue : ∃ r ∈ Spec.requests (.spawn 2 3 0 0 0), s1.Waited (r.reads s1) r.writes 0 ∧
    r.free s1 ∧ r.ok s1 = true := by decide +kernel
theorem witness_RequestsIssue_signal : ∃ r ∈ Spec.requests (.signal 2 1 10 0 0 0), s1.Waited (r.reads s1) r.writes 0 ∧
    r.free s1 ∧ r.ok s1 = true := by decide +kernel
theorem witness_EngineCommandsIssue : ∃ r ∈ Spec.commands (.cpy 0 2 10 1 2 7), s1.Waited (r.reads s1) r.writes 0 ∧
    r.free s1 ∧ r.ok s1 = true := by decide +kernel
theorem witness_EngineCommandsIssue_mdrain : ∃ r ∈ Spec.commands (.mdrain 0 11 3 1 2 7), s1.Waited (r.reads s1) r.writes 0 ∧
    r.free s1 ∧ r.ok s1 = true := by decide +kernel
theorem witness_HeldIssueWaits : ∃ r ∈ Spec.divisions (.div 2 0 6 6), sTok.Waited (r.reads sTok) r.writes 0 ∧ ¬r.free sTok := by decide +kernel
theorem witness_HeldIssueWaits_stream : ∃ r ∈ Spec.transfers (.ldx 2 2 2 0 0 .b8 true), sTok.Waited (r.reads sTok) r.writes 0 ∧
    ¬r.free sTok := by decide +kernel
theorem witness_HeldIssueWaits_queue : ∃ r ∈ Spec.commands (.cpyl 0 1 2 7),
    let s := s1.modMyCore fun c => { c with copyQ := [7, 8] }
    s.Waited (r.reads s) r.writes 0 ∧ ¬r.free s := by decide +kernel
theorem witness_WatchIssuesAndBlocks :
    let r : Spec.Issue := { Spec.memOp [.g 2, .g 7] [] 0 3 1 (fun s => Spec.global s 2 8)
      (fun s => .watch (Spec.based s 2) 8 .lt (BitVec.ofNat 64 ((s.regG 7).toNat % 256 ^ 8))) true with tok := none }
    s1.Waited (r.reads s1) r.writes 0 ∧ r.free s1 ∧ r.ok s1 = true := by decide +kernel
theorem witness_OperationAddressTraps_window : ∃ r ∈ Spec.transfers (.ldx 2 4 1 0 0 .d64 false),
    ∃ x ∈ Spec.checked (.ldx 2 4 1 0 0 .d64 false),
    let s := s1.modMe fun t => { t with g := t.g.set 4 0x8000000000030000 }
    s.Waited (r.reads s) r.writes 0 ∧ r.free s ∧ Spec.canTrap s ∧ x.2.2 s (Spec.based s x.1) = false := by decide +kernel
theorem witness_OperationAddressTraps_align : ∃ r ∈ Spec.requests (.join 15 1 0 0), ∃ x ∈ Spec.checked (.join 15 1 0 0),
    let s := s1.modMe fun t => { t with g := t.g.set 15 0x1000008 }
    s.Waited (r.reads s) r.writes 0 ∧ r.free s ∧ Spec.canTrap s ∧ x.2.2 s (Spec.based s x.1) = true ∧
      (Spec.based s x.1).toNat % x.2.1 ≠ 0 := by decide +kernel
/-- The hypotheses of `OperandTraps` for an instruction. -/
abbrev traps (s : State) (i : Instr) (r : Option Spec.Issue) (code : Nat) (v : Word) : Prop :=
  ∃ x ∈ r, (Spec.faults s i).find? (·.1) = some (true, code, v) ∧ s.me.upcall = .none ∧ s.Waited (x.reads s) x.writes 0 ∧ x.free s ∧
    Spec.canTrap s
theorem witness_OperandTraps_spawn : traps s1 (.spawn 0 2 3 0 0) (Spec.requests (.spawn 0 2 3 0 0)) 5 0x1000000 := by decide +kernel
theorem witness_OperandTraps_signal : traps s1 (.signal 15 1 10 0 0 0) (Spec.requests (.signal 15 1 10 0 0 0)) 3 0x3001 := by decide +kernel
theorem witness_OperandTraps_signal_range :
    let s := s1.modMe fun t => { t with g := t.g.set 1 0x2FFC0 }
    traps s (.signal 2 1 10 0 0 0) (Spec.requests (.signal 2 1 10 0 0 0)) 5 0x2FFC0 := by decide +kernel
theorem witness_OperandTraps_tshape : traps s1 (.tshape 4 15 1) (Spec.requests (.tshape 4 15 1)) 3 0x3001 := by decide +kernel
theorem witness_OperandTraps_cpy : traps s1 (.cpy 2 14 11 1 0 0) (Spec.commands (.cpy 2 14 11 1 0 0)) 5 0x30000 := by decide +kernel
theorem witness_OperandTraps_mcrd : traps s1 (.mcrd 9 2 2 1 0 0) (Spec.commands (.mcrd 9 2 2 1 0 0)) 5 0x1000000 := by decide +kernel
theorem witness_OperandTraps_feset : traps s1 (.feset 14 0 0 257) (Spec.atomics (.feset 14 0 0 257)) 5 0x2F000 := by decide +kernel
theorem witness_OperandTraps_feclr :
    let s := s1.modMe fun t => { t with g := t.g.set 1 0x2FF0 }
    traps s (.feclr 1 0 0 1) (Spec.atomics (.feclr 1 0 0 1)) 4 0x2FF0 := by decide +kernel
theorem witness_OperandTraps_mmod : traps s1 (.mmod 9 9 3 0 1 0) (Spec.commands (.mmod 9 9 3 0 1 0)) 14 0 := by decide +kernel
/-- Nothing is in the way of WATCH, its queue is full, or its operand is bad. -/
theorem witness_WaitingInstructionsTrap :
    let r := Spec.watchOp 7 2 3 1 .lt 8
    let full := s1.modMe fun t => { t with live := { t.live with streams := t.live.streams.set 3 ⟨0xFFFF, 0⟩ } }
    let odd := s1.modMe fun t => { t with g := t.g.set 2 0x1000004 }
    let away := s1.modMe fun t => { t with g := t.g.set 2 0x40 }
    (full.Waited (r.reads full) r.writes 0 ∧ ¬r.free full) ∧
    (∀ s ∈ [odd, away], s.Waited (r.reads s) r.writes 0 ∧ r.free s ∧ Spec.canTrap s ∧ s.Waited [Reg.g 2] [] 0) ∧
    isGlobal away.me.pcn (Spec.based away 2) = false ∧ isGlobal odd.me.pcn (Spec.based odd 2) = true ∧
    (Spec.based odd 2).toNat % 8 ≠ 0 ∧ (Spec.based odd 2).toNat % 16 ≠ 0 := by decide +kernel
theorem witness_GroupBarrierBlocks : s1.Waited [Reg.g 2] [] 0 ∧ Spec.global s1 2 16 = true := by decide +kernel
/-! ### Vector instructions -/
/-- Lanes of 1.5, and of infinities of both signs. -/
def sVec : State := s1.modMe fun t => { t with
  v := ((t.v.set 1 (BitVec.ofNat 256 (0x3FC00000 + 0x3FC00000 * 2 ^ 224))).set 2 (BitVec.ofNat 256 0x7F800000)).set 3 (BitVec.ofNat 256 0xFF800000)
  k := t.k.set 2 0x81, modq := 3 }
theorem witness_VectorArithmeticCompletes : ∃ r ∈ Spec.vectorArithmetic (.vadd 4 1 1 2 .f32), sVec.Waited r.reads [r.dest] r.lat ∧
    (r.value sVec).2.2 &&& Spec.enables sVec = 0 := by decide +kernel
theorem witness_VectorArithmeticCompletes_trap : ∃ r ∈ Spec.vectorArithmetic (.vaddShort 2 3),
    let s := sVec.modMe fun t => { t with fmode := 0x1F0 }
    s.Waited r.reads [r.dest] r.lat ∧ (r.value s).2.2 &&& Spec.enables s ≠ 0 ∧ Spec.canTrap s := by decide +kernel
theorem witness_VectorMovesComplete : ∃ r ∈ Spec.vectorMoves (.vext 4 1 7 .f32), sVec.Waited r.reads [r.dest] r.lat ∧
    (r.value sVec).2.2 &&& Spec.enables sVec = 0 := by decide +kernel
theorem witness_ReductionsAndMasksComplete : ∃ r ∈ Spec.vectorMasks (.vred 4 1 .sum 2 .f32), sVec.Waited r.reads [r.dest] r.lat ∧
    (r.value sVec).2.2 &&& Spec.enables sVec = 0 := by decide +kernel
theorem witness_ReductionsAndMasksComplete_trap : ∃ r ∈ Spec.vectorMasks (.vcmp 1 4 5 0 .f32 .lt),
    let s := sVec.modMe fun t => { t with fmode := 0x1F0, v := t.v.set 4 (BitVec.ofNat 256 0x7FC00000) }
    s.Waited r.reads [r.dest] r.lat ∧ (r.value s).2.2 &&& Spec.enables s ≠ 0 ∧ Spec.canTrap s := by decide +kernel
theorem witness_ModularInstructions : ∃ x ∈ Spec.modular (.vntt 4 1 2 2),
    sVec.Waited ([.v 1, .v 2] ++ Spec.maskRead 2) [.v 4] 9 ∧ sVec.me.modq.toNat % 2 = 1 ∧ 3 ≤ sVec.me.modq.toNat ∧
    sVec.me.modq.toNat < 2 ^ 62 := by decide +kernel
theorem witness_ModularInstructions_trap : (Spec.modular (.vmodadd 4 1 2 0)).isSome = true ∧ s1.Waited [.v 1, .v 2] [.v 4] 3 ∧
    ¬(s1.me.modq.toNat % 2 = 1 ∧ 3 ≤ s1.me.modq.toNat ∧ s1.me.modq.toNat < 2 ^ 62) ∧ Spec.canTrap s1 := by decide +kernel
/-- What VCVT converts in a state (the hypotheses of the statement define it). -/
def cvtFlags (s : State) (a : VReg) (k : KReg) (src dst : CFmt) (sr : Bool) : BitVec 5 :=
  let sto := decide (dst ∉ [CFmt.i32, .i16, .i8, .i64]) && (sr || s.me.fmode.getLsbD 2)
  (List.range (min (Spec.elements src) (Spec.elements dst))).foldl (fun fl i =>
    if (s.regK k).getLsbD (if src = .fp4 ∨ dst = .fp4 then i / 2 else i) then fl ||| (CFmt.convertTo dst (Spec.mode s)
      (if sto then .stoch (drawElem s.myJob.seed s.me.lcn s.me.srctr i) else .mode (Spec.mode s)) (s.me.fmode.getLsbD 3)
      (CFmt.value src (Spec.lane (s.regV a) (256 / Spec.elements src) i))).2 else fl) 0
theorem witness_VectorConversionsComplete : cvtFlags sVec 1 2 .f32 .bf16 true &&& Spec.enables sVec = 0 ∧
    sVec.Waited ([.v 1] ++ Spec.maskRead 2) [.v 4] 3 := by decide +kernel
theorem witness_VectorConversionsComplete_trap :
    let s := sVec.modMe fun t => { t with fmode := 0x1F0 }
    cvtFlags s 2 0 .f32 .i32 false &&& Spec.enables s ≠ 0 ∧ s.Waited [.v 2] [.v 4] 3 ∧ Spec.canTrap s := by decide +kernel
/-! ### Control and status registers -/
theorem witness_CsrReads : s1.Waited [.fstat] [.g 2] 2 := by decide +kernel
theorem witness_CsrWrites : (0x011 : BitVec 12).toNat ∈ Spec.csrWritable ∧ (0x011 : BitVec 12) ≠ 0x070 ∧ s1.Waited [.g 1] [] 0 ∧
    s1.Waited (.g 1 :: [.fstat]) [.g 2] 2 := by decide +kernel
theorem witness_CsrPrivilege : (0x000 : BitVec 12).toNat ∉ Spec.csrWritable ∧ (0x800 : BitVec 12).toNat ∉ Spec.csrWritable ∧
    Spec.canTrap s1 := by decide +kernel
/-- CORESTATE values: core 1 DARK, core 8 (another job's tile) DARK, the own core DARK, core 1 LIVE. -/
def sCore (v : Word) : State := s1.modMe fun t => { t with g := t.g.set 1 v }
theorem witness_CoreStateWrites : (sCore 0x4001).Waited [.g 1] [.g 2] 2 ∧ ((sCore 0x4001).regG 1).toNat / 8192 % 4 = 2 ∧
    Spec.namedCore (sCore 0x4001) ((sCore 0x4001).regG 1) = 1 ∧ 1 ≠ (sCore 0x4001).me.pcn ∧
    (sCore 0x4001).owner (1 / 8) = (sCore 0x4001).me.job ∧ ((sCore 0x4001).core 1).status ≠ .dark := by decide +kernel
theorem witness_CoreStateWrites_other : (sCore 0x4008).Waited [.g 1] [.g 2] 2 ∧ ((sCore 0x4008).regG 1).toNat / 8192 % 4 = 2 ∧
    Spec.namedCore (sCore 0x4008) ((sCore 0x4008).regG 1) = 8 ∧ 8 ≠ (sCore 0x4008).me.pcn ∧
    (sCore 0x4008).owner (8 / 8) ≠ (sCore 0x4008).me.job ∧ Spec.canTrap (sCore 0x4008) := by decide +kernel
theorem witness_CoreStateWrites_misuse : (sCore 0x4000).Waited [.g 1] [.g 2] 2 ∧
    ¬(((sCore 0x4000).regG 1).toNat / 8192 % 4 = 2 ∧ Spec.namedCore (sCore 0x4000) ((sCore 0x4000).regG 1) ≠ (sCore 0x4000).me.pcn) ∧
    ¬(((sCore 0x0001).regG 1).toNat / 8192 % 4 = 2) ∧ Spec.canTrap (sCore 0x4000) := by decide +kernel
theorem witness_CsrWriteSteps : (Spec.csrStep (.jackResend 31)).isSome = true ∧ (0x4001 : Word).toNat / 8192 % 4 = 2 ∧
    Spec.namedCore s1 0x4001 ≠ s1.me.pcn ∧ s1.owner (Spec.namedCore s1 0x4001 / 8) = s1.me.job ∧
    (s1.core (Spec.namedCore s1 0x4001)).status ≠ .dark := by decide +kernel
/-! ### Exceptions and the ends of threads -/
theorem witness_SoftwareTraps : s1.Waited [] [] 0 ∧ Spec.canTrap s1 ∧ s1.myCore.att = false := by decide +kernel
theorem witness_SoftwareTraps_attached :
    let s := s1.modMyCore fun c => { c with att := true }
    s.Waited [] [] 0 ∧ s.myCore.att = true := by decide +kernel
theorem witness_UnhandledTrapFaultsTheJob : ∃ j ∈ sHan.liveJob? sHan.me.job, sHan.Waited [] [] 0 ∧ sHan.me.inHandler = true ∧
    j.status ≠ .frozen ∧ sHan.me.job % 512 ≠ 0 := by decide +kernel
theorem witness_UnhandledTrapFaultsTheJob_no_handler :
    let s := s1.modJob 1 fun j => { j with trapVec := 0 }
    ∃ j ∈ s.liveJob? s.me.job, s.Waited [] [] 0 ∧ s.myJob.trapVec = 0 ∧ j.status ≠ .frozen ∧ s.me.job % 512 ≠ 0 := by decide +kernel
theorem witness_ReturnFromTrap : sHan.Waited [] [] 0 ∧ sHan.me.inHandler = true ∧ (∀ k : Tok, Spec.outOf sHan.me k = 0) ∧
    (∀ k : Strm, Spec.streamOut sHan.me k = 0) ∧ sHan.me.shadowFail = 0 := by decide +kernel
theorem witness_ReturnFromTrap_waits :
    let s := sHan.modMe fun t => { t with shadow := { t.shadow with tokens := t.shadow.tokens.set 15 ⟨0, 0xFFFF⟩ } }
    s.Waited [] [] 0 ∧ s.me.inHandler = true ∧ ∃ k : Tok, Spec.outOf s.me k ≠ 0 := by decide +kernel
/-- A second thread of the job in core 0, READY, and a move that waits for the first as its upcall. -/
def sTwo : State := s1.setThread 5 { Thread.reset with job := 1, image := some 1, slot := some 1, status := .ready, pc := 0x1000100 }
theorem s1_drained : Spec.drained sTwo.me := by decide +kernel
theorem s1_quiet : Spec.quiet sTwo := by decide +kernel
theorem witness_ThreadsEnd : sTwo.Waited [] [] 0 ∧ sTwo.me.inHandler = false ∧ Spec.drained sTwo.me ∧ Spec.quiet sTwo ∧
    ∃ e ∈ sTwo.threads, e.1 ≠ sTwo.cur ∧ e.2.job = sTwo.me.job := by decide +kernel
theorem witness_ThreadsEnd_upcall :
    let s := sTwo.modMe fun t => { t with upcall := .loss }
    s.me.upcall ≠ .none ∧ s.Waited [] [] 0 ∧ s.me.inHandler = false ∧ Spec.drained s.me ∧ ∃ e ∈ s.threads, e.1 ≠ s.cur ∧
      e.2.job = s.me.job := by decide +kernel
theorem witness_ThreadsEnd_waits : sTok.Waited [] [] 0 ∧ sTok.me.inHandler = false ∧ ¬Spec.drained sTok.me := by decide +kernel
/-- The last thread of a job that has a queue, a completion word, a tile on its way to it and one on its way from it. -/
def sLast : State :=
  let s := sMap.setTile 1 ⟨2, false⟩
  let s := s.setTile 2 ⟨1, false⟩
  let s := s.modJob 1 fun j => { j with doneCtr := 0x10F0020, queue := 3 }
  let s := s.modHub fun h => { h with queues := [(3, { Queue.reset with bound := true })] }
  { s with moves := [⟨1, 2, 1, 0, none, 5000, false, false, 0, false, true, none⟩, ⟨2, 1, 2, 1, none, 5000, false, false, 0, false, true, none⟩] }
theorem witness_JobsEnd :
    let s := sLast
    ∃ j ∈ s.liveJob? s.me.job, s.Waited [] [] 0 ∧ s.me.inHandler = false ∧ Spec.drained s.me ∧ Spec.quiet s ∧ j.status = .active ∧
      j.pool = [] ∧ Spec.rising s.threads ∧ (∀ e ∈ s.threads, e.2.job = s.me.job → e.1 = s.cur) ∧
      (∀ e ∈ s.cores, s.owner (e.1 / 8) = s.me.job → e.2.dispatched = none) ∧ (∀ m ∈ s.moves, m.upcall ≠ some s.cur) ∧
      s.hub.notices = [] ∧ s.hub.held = [] ∧ s.fab.migrating = [] ∧ (∀ d ∈ s.dies, d.2.sweep = none) ∧ s.ms.poison = [] ∧
      s.fab.poolReqs = [] ∧ s.fab.watches = [] ∧ s.lan.slots = [] ∧ s.tilesOf s.me.job ≠ [] ∧ (∀ x ∈ s.tilesOf s.me.job, x < 8192) ∧
      Memory.wf s.ms.mem = true := by decide +kernel
theorem witness_JobsEnd_word : ∃ j ∈ sLast.liveJob? sLast.me.job,
    sLast.xlatNow sLast.me.job j.doneCtr 8 ⟨false, true, true, true⟩ = .ok 0 0x30020 (leaf 3) (entry 22) ∧ sLast.ms.seals = [] ∧
    (mapGet? sLast.hub.queues j.queue).isSome = true ∧ ∃ x ∈ sLast.tilesOf sLast.me.job, ∀ m ∈ sLast.moves, m.tile ≠ x := by decide +kernel
theorem witness_JobsEnd_move : ∃ m ∈ sLast.moves, m.gainer = sLast.me.job := by decide +kernel
theorem witness_YieldGivesWay : sTwo.Waited [] [] 0 ∧ sTwo.me.upcall = .none ∧
    ∃ e ∈ sTwo.threads, e.1 ≠ sTwo.cur ∧ e.2.pcn = sTwo.me.pcn ∧ e.2.status = .ready := by decide +kernel
theorem witness_YieldGivesWay_alone : s1.Waited [] [] 0 ∧ (∀ e ∈ s1.threads, e.2.pcn = s1.me.pcn → e.2.status = .ready → e.1 = s1.cur) ∧
    s1.me.status = .running := by decide +kernel
/-- The core that an address names. -/
theorem migrates_of {s : State} {a : Word} {q off : Nat} {cw : Bool} (h : winOf s.me.pcn a = .bank q off cw)
    (ho : s.owner (q / 8) = s.me.job ∧ (s.core q).status ≠ .dark) : Spec.migratesTo s a q := ⟨⟨off, cw, h⟩, ho⟩
theorem witness_Migration : s1.Waited [.g 3] [] 0 ∧ s1.me.upcall = .none ∧ s1.me.inHandler = false ∧ Spec.migratesTo s1 (s1.regG 3) 1 ∧
    Spec.drained s1.me ∧ Spec.quiet s1 ∧ s1.me.mgLoad = none ∧ 1 ≠ s1.me.pcn :=
  ⟨by decide +kernel, rfl, rfl, migrates_of (off := 0x3000) (cw := true) (by decide +kernel) (by decide +kernel), by decide +kernel⟩
theorem witness_Migration_waits : sTok.Waited [.g 3] [] 0 ∧ sTok.me.upcall = .none ∧ Spec.migratesTo sTok (sTok.regG 3) 1 ∧
    ¬Spec.drained sTok.me :=
  ⟨by decide +kernel, rfl, migrates_of (off := 0x3000) (cw := true) (by decide +kernel) (by decide +kernel), by decide +kernel⟩
theorem witness_Migration_stays : s1.Waited [.g 0] [] 0 ∧ Spec.migratesTo s1 (s1.regG 0) s1.me.pcn ∧ s1.me.status = .running ∧
    Spec.drained s1.me :=
  ⟨by decide +kernel, migrates_of (off := 0x3000) (cw := false) (by decide +kernel) (by decide +kernel), rfl, by decide +kernel⟩
theorem witness_Migration_address : s1.Waited [.g 2] [] 0 ∧ (∀ q, ¬Spec.migratesTo s1 (s1.regG 2) q) ∧ Spec.canTrap s1 :=
  ⟨by decide +kernel, fun _ ⟨⟨_, _, h⟩, _⟩ => by
    have e : winOf s1.me.pcn (s1.regG 2) = .global := by decide +kernel
    simp [e] at h, by decide +kernel⟩
theorem witness_MigratingLoads : s1.Waited [.g 3] [] 0 ∧ winOf s1.me.pcn (Spec.based s1 3) = .bank 1 0x3000 true ∧ s1.owner (1 / 8) = s1.me.job ∧
    (s1.core 1).status ≠ .dark ∧ (Spec.based s1 3).toNat % (Spec.bits .d64 / 8) = 0 ∧ Spec.drained s1.me ∧ 1 ≠ s1.me.pcn := by decide +kernel
theorem witness_MigratingLoads_here : s1.Waited [.g 0] [] 0 ∧ winOf s1.me.pcn (Spec.based s1 0) = .bank 0 0x3000 false ∧
    s1.owner (0 / 8) = s1.me.job ∧ (s1.core 0).status ≠ .dark ∧ 0 = s1.me.pcn ∧ s1.me.status = .running := by decide +kernel
theorem witness_IllegalPlaces : Spec.canTrap s1 ∧ s1.me.pfx = none ∧ s1.me.upcall = .none ∧
    (s1.modMe fun t => { t with upcall := .gain }).me.upcall ≠ .none ∧ Spec.canTrap (s1.modMe fun t => { t with upcall := .gain }) := by
      decide +kernel
/-! ### Operations at their homes -/
/-- An operation of the thread of `s1` on stream 1 with token 3, at its home. -/
def op0 (k : OpKind) : Op where
  uid := 1
  job := 1
  pcn := 0
  pc := 0x1000000
  kind := k
  phase := .arrived
  tok := some 3
  strm := some 1
  mask := 0
  inShadow := false
  counted := false
  jidx := none
  hop := false
  result := []
  pieces := []
  wrote := false
  recd := none
  sent := false
  aux := 0
  slot := 0
  region := 0
  stepped := false
  resent := false
/-- The machine with that operation. -/
def sOp (o : Op) : State := { sMap with ops := [(5, o)], nextId := 9 }
def sKind (k : OpKind) : State := sOp (op0 k)
/-- Numbers of `n` bytes in memory from a key on. -/
def putNats (s : State) (n key : Nat) (l : List Nat) : State :=
  s.modMs fun m => { m with mem := l.zipIdx.foldl (fun mm x => memWrite mm (key + n * x.2) (leBytes n x.1)) m.mem }
theorem witness_LoadsPerformAtTheirBank :
    let o := op0 (.load 0x3000 32 (.v 1) false .plain)
    (sOp o).op? 5 = some o ∧ o.phase = .arrived ∧ winOf o.pcn 0x3000 = .bank 0 0x3000 false ∧ Spec.grants (sOp o) o.job 0 0x3000 32 true false ∧
    (sOp o).poisonedIn (bankKey 0 0x3000) 32 = none := by decide +kernel
theorem witness_LoadsPerformAtTheirBank_full :
    let o := op0 (.load 0x2FFF8 8 (.g 1) false .wfc)
    let s := (sOp o).modMs fun m => { m with full := [0x2FFF] }
    s.op? 5 = some o ∧ o.phase = .arrived ∧ winOf o.pcn 0x2FFF8 = .bank 0 0x2FFF8 false ∧ Spec.grants s o.job 0 0x2FFF8 8 true false ∧
    (∀ g ∈ granules (bankKey 0 0x2FFF8) 8, g ∈ s.ms.full) ∧ s.poisonedIn (bankKey 0 0x2FFF8) 8 = none ∧ s.looks = [] := by decide +kernel
theorem witness_LoadsPerformAtTheirBank_waits :
    let o := op0 (.load 0x8000000000203000 8 (.g 1) false .wf)
    let s := (sOp o).modMs fun m => { m with lmpu := [(51, 3)] }
    s.op? 5 = some o ∧ o.phase = .arrived ∧ winOf o.pcn 0x8000000000203000 = .bank 1 0x3000 true ∧ Spec.grants s o.job 1 0x3000 8 true false ∧
    (∃ g ∈ granules (bankKey 1 0x3000) 8, g ∉ s.ms.full) ∧ (s.waitersAt 1).length < 16 ∧ s.looks = [] := by decide +kernel
theorem witness_StoresPerformAtTheirBank :
    let o := op0 (.store 0x3000 4 [1, 2, 3, 4] .sf)
    (sOp o).op? 5 = some o ∧ o.phase = .arrived ∧ [1, 2, 3, 4].length = 4 ∧ winOf o.pcn 0x3000 = .bank 0 0x3000 false ∧
    Spec.grants (sOp o) o.job 0 0x3000 4 false true ∧ Spec.looked (sOp o) ∧ (sOp o).poisonedPartly (bankKey 0 0x3000) 4 = none ∧
      Memory.wf (sOp o).ms.mem = true := by decide +kernel
/-- Two nibble stores to one byte, the second of which (operation 6) has arrived later. -/
def sNib : State := { sOp (op0 (.store 0x3001 1 [7] .nh)) with
  ops := [(5, op0 (.store 0x3001 1 [7] .nh)), (6, { op0 (.store 0x3001 1 [5] .nl) with aux := 1 })] }
theorem witness_StoresPerformAtTheirBank_nibble :
    let o := op0 (.store 0x3001 1 [7] .nh)
    sNib.op? 5 = some o ∧ o.phase = .arrived ∧ winOf o.pcn 0x3001 = .bank 0 0x3001 false ∧ Spec.grants sNib o.job 0 0x3001 1 false true ∧
    Spec.looked sNib ∧ (sNib.core 0).halted = false ∧ sNib.poisonedIn (bankKey 0 0x3001) 1 = none ∧
    ∀ e ∈ sNib.ops, e.1 ≠ 5 → e.2.phase = .arrived → ¬ e.2.aux < o.aux := by decide +kernel
theorem witness_StoresPerformAtTheirBank_order :
    let o := { op0 (.store 0x3001 1 [5] .nl) with aux := 1 }
    sNib.op? 6 = some o ∧ o.phase = .arrived ∧ Spec.grants sNib o.job 0 0x3001 1 false true ∧ Spec.looked sNib ∧
    ∃ e ∈ sNib.ops, e.1 ≠ 6 ∧ e.2.phase = .arrived ∧ e.2.aux < o.aux ∧ e.2.kind = .store 0x3001 1 [7] .nh ∧
      winOf e.2.pcn 0x3001 = winOf o.pcn 0x3001 := by decide +kernel
/-- Bits of the bank of core 0 have changed in cycle 0, and a load of `m` bytes waits there, all of whose granules are full or not; the next
step is one of cycle 1. -/
def sWake (m : Nat) : State := { ((s1.modMs fun x => { x with full := [0x300] }).modMyCore fun c => { c with nextIssue := 1 }) with
  ops := [(6, { op0 (.load 0x3000 m (.v 1) false .wfc) with phase := .waiting, counted := true, aux := 2 })], nextId := 9
  now := 0, looks := [0], lookAt := 0, schedule := [] }
def nextOf (x : Host.Outcome State Fault Refusal) : Option State :=
  match x with | .next t => some t | _ => none
theorem next_of {x : Host.Outcome State Fault Refusal} {t : State} (h : nextOf x = some t) : x = .next t := by
  cases x <;> simp_all [nextOf]
theorem witness_WaitingLoadsWake (m : Nat) (h : m ∈ [8, 32]) :
    (sWake m).schedule = [] ∧ (∃ t ∈ nextOf (sWake m).autoStep, (sWake m).lookAt < t.now) ∧ (sWake m).looks = [0] ∧
    (sWake m).waitersAt 0 = [6] ∧ winOf 0 0x3000 = .bank 0 0x3000 false ∧
    ((∀ g ∈ granules (bankKey 0 0x3000) m, g ∈ (sWake m).ms.full) ↔ m = 8) ∧
    ∀ g ∈ granules (bankKey 0 0x3000) m, g ∉ (sWake m).ms.poison := by
  revert m; decide +kernel
theorem witness_AtomicsPerformAtTheirBank :
    let o := op0 (.atom .cas 0x3004 4 7 9 2)
    (sOp o).op? 5 = some o ∧ o.phase = .arrived ∧ winOf o.pcn 0x3004 = .bank 0 0x3004 false ∧ ((sOp o).core 0).halted = false ∧
    (7 : Word).toNat < 256 ^ 4 ∧ Spec.grants (sOp o) o.job 0 0x3004 4 true true ∧ (sOp o).poisonedIn (bankKey 0 0x3004) 4 = none := by decide +kernel
theorem witness_AtomicsPerformAtTheirBank_owner :
    let o := { op0 (.atom .add 0x3000 8 7 0 2) with job := 2 }
    (sOp o).op? 5 = some o ∧ winOf o.pcn 0x3000 = .bank 0 0x3000 false ∧ ((sOp o).core 0).status ≠ .scrub ∧
      (sOp o).owner (0 / 8) ≠ o.job := by decide +kernel
theorem witness_AtomicsPerformAtTheirBank_dark :
    let o := op0 (.atom .add 0x3000 8 7 0 2)
    let s := (sOp o).modCore 0 fun c => { c with status := .dark }
    s.op? 5 = some o ∧ winOf o.pcn 0x3000 = .bank 0 0x3000 false ∧ s.owner (0 / 8) = o.job ∧ (s.core 0).status = .dark := by decide +kernel
theorem witness_AtomicsPerformAtTheirBank_lmpu :
    let o := op0 (.atom .add 0x2FF8 8 7 0 2)
    (sOp o).op? 5 = some o ∧ winOf o.pcn 0x2FF8 = .bank 0 0x2FF8 false ∧ ((sOp o).core 0).status = .live ∧
    ((sOp o).lmpuOk 0 0x2FF8 8 false && (sOp o).lmpuOk 0 0x2FF8 8 true) = false := by decide +kernel
theorem witness_AtomicsPerformAtTheirBank_poison :
    let o := op0 (.atom .add 0x3040 8 7 0 2)
    let s := (sOp o).modMs fun m => { m with poison := [0x304] }
    s.op? 5 = some o ∧ winOf o.pcn 0x3040 = .bank 0 0x3040 false ∧ Spec.grants s o.job 0 0x3040 8 true true ∧
    s.poisonedIn (bankKey 0 0x3040) 8 = some 0x304 := by decide +kernel
theorem witness_FullEmptyAndShapeSteps :
    let o := { op0 (.fe 0x2FFC0 2 true) with tok := none }
    (sOp o).op? 5 = some o ∧ o.phase = .arrived ∧ winOf o.pcn 0x2FFC0 = .bank 0 0x2FFC0 false ∧ Spec.looked (sOp o) ∧
    Spec.grants (sOp o) o.job 0 0x2FFC0 (16 * 2) false true := by decide +kernel
theorem witness_FullEmptyAndShapeSteps_shape :
    let o := op0 (.tshape 0x3000 2)
    (sOp o).op? 5 = some o ∧ o.phase = .arrived ∧ winOf o.pcn 0x3000 = .bank 0 0x3000 false ∧ Spec.looked (sOp o) ∧ o.tok ≠ none ∧
    Spec.grants (sOp o) o.job 0 0x3000 128 false true := by decide +kernel
/-! ### Global accesses -/
/-- The key of VA 0x1000000 in `sMap`. -/
def objKey : Nat := ownerKey 0 0x20000
/-- An operation whose page at VA 0x1000000 has the leaf `p` at its home. -/
def sPte (o : Op) (p : Word) : State := (sOp o).modFab fun f => { f with tlb := f.tlb.map fun t => if t.vpage = 0x100 then { t with pte :=
    p } else t }
/-- A NORMAL page, one without W, one with L1 = 1 and no W, a page of die 1 and one of the host. -/
def normal : Word := leaf 2 - 256
def readOnly : Word := leaf 2 - 16
def cached : Word := leaf 2 + 32 - 16
def onDie1 : Word := normal + 512 + BitVec.ofNat 64 (5 * 2 ^ 52)
def onHost : Word := normal + 512 * 8
def store8 : Op := op0 (.store 0x1000000 8 [1, 2, 3, 4, 5, 6, 7, 8] .plain)
def load8 : Op := op0 (.load 0x1000008 8 (.g 1) true .plain)
def cas8 (v : Word) : Op := op0 (.atom .cas 0x1000000 8 v 9 2)
theorem witness_TranslationChecks_unmapped :
    let o := op0 (.load 0x2000000 8 (.g 1) false .plain)
    (sOp o).op? 5 = some o ∧ o.phase = .arrived ∧ (Spec.globalAsk o.kind).isSome = true ∧ winOf o.pcn 0x2000000 = .global ∧
    Spec.leaf (sOp o) o.job 0x2000000 none := by decide +kernel
theorem witness_TranslationChecks_denied :
    (sPte store8 readOnly).op? 5 = some store8 ∧ winOf store8.pcn 0x1000000 = .global ∧
    Spec.leaf (sPte store8 readOnly) 1 0x1000000 (some readOnly) ∧
    ∀ w, ¬ Spec.allows (sPte store8 readOnly) 1 0x1000000 8 ⟨false, true, false, true⟩ readOnly w :=
  ⟨by decide +kernel, by decide +kernel, by decide +kernel, fun _ h => absurd (h.2.2.2.2.2.1 rfl) (by decide +kernel)⟩
/-- An atomic on a NORMAL page; a CHUNK of another die's CLEAR page. -/
theorem witness_TranslationChecks_kind : Spec.leaf (sPte (cas8 7) normal) 1 0x1000000 (some normal) ∧ normal.getLsbD 8 = false ∧
    Spec.allows (sPte (cas8 7) normal) 1 0x1000000 8 ⟨true, true, true, true⟩ normal (entry 8) := by decide +kernel
theorem witness_TranslationChecks_die :
    let o := op0 (.chunk 0x1000000 2)
    let s := ((sPte o (leaf 2 + 512)).modDie 1 fun d => { d with tagLo := 0x10000, tagHi := 0x100000, tagBase := 0x1000000 }).modLan fun l =>
      { l with access := [entry 72, entry 513] }
    Spec.leaf s 1 0x1000000 (some (leaf 2 + 512)) ∧ (leaf 2 + 512).getLsbD 8 = true ∧ Spec.ownerOf (leaf 2 + 512) ≠ o.job / 512 ∧
    Spec.allows s 1 0x1000000 32 ⟨true, true, true, false⟩ (leaf 2 + 512) (entry 72) := by decide +kernel
/-- A leaf that is walked: a directory of two levels, and a page at its end. -/
theorem witness_TranslationChecks_walk :
    let s := putNats State.reset 8 (ownerKey 0 0x100000) [0x200000 + 3]
    s.tlbHit 0 1 0x1000000 = false ∧ (s.fab.tlb.filter fun t => decide (t.slice = 0)).length < 2048 := by decide +kernel
theorem witness_SliceAccessesPerform_load :
    (sPte load8 (leaf 2)).op? 5 = some load8 ∧ Spec.leaf (sPte load8 (leaf 2)) 1 0x1000008 (some (leaf 2)) ∧
    Spec.allows (sPte load8 (leaf 2)) 1 0x1000008 8 ⟨true, false, false, true⟩ (leaf 2) (entry 8) ∧ (leaf 2).getLsbD 5 = false ∧
    Spec.servesLine (sPte load8 (leaf 2)) load8 0x1000008 (leaf 2) 8 ∧ (sPte load8 (leaf 2)).poisonedIn (objKey + 8) 8 = none ∧
    (leaf 2).getLsbD 7 = false ∧ ∀ x ∈ sectors (objKey + 8) 8, mapGet? (sPte load8 (leaf 2)).ms.seals x = none := by decide +kernel
theorem witness_SliceAccessesPerform_hit :
    let s := (sPte load8 cached).modCore 0 fun c => { c with l1 := [⟨1, 0x40001, []⟩, ⟨1, 0x40000, List.replicate 64 7⟩] }
    Spec.leaf s 1 0x1000008 (some cached) ∧ Spec.allows s 1 0x1000008 8 ⟨true, false, false, true⟩ cached (entry 8) ∧
    cached.getLsbD 5 = true ∧ (s.core 0).l1fuse = false ∧
    ((s.core 0).l1.find? fun l => decide (l.job = 1) && decide (l.addr = 0x1000008 / 64)).isSome = true := by decide +kernel
theorem witness_SliceAccessesPerform_fill :
    let s := sPte load8 cached
    Spec.leaf s 1 0x1000008 (some cached) ∧ cached.getLsbD 5 = true ∧ (∀ l ∈ (s.core 0).l1, l.job = 1 → l.addr ≠ 0x1000008 / 64) ∧
    Spec.allows s 1 0x1000000 64 ⟨true, false, false, true⟩ cached (entry 8) ∧ Spec.servesLine s load8 0x1000000 cached 64 ∧
    s.poisonedIn objKey 64 = none ∧ (∀ x ∈ sectors objKey 64, mapGet? s.ms.seals x = none) := by decide +kernel
theorem witness_SliceAccessesPerform_store :
    let s := sPte store8 normal
    Spec.leaf s 1 0x1000000 (some normal) ∧ Spec.allows s 1 0x1000000 8 ⟨false, true, false, true⟩ normal (entry 8) ∧
    Spec.servesLine s store8 0x1000000 normal 8 ∧ s.ms.poison = [] ∧ normal.getLsbD 7 = false ∧ normal.getLsbD 8 = false ∧
    s.fab.watches = [] ∧ Memory.wf s.ms.mem = true := by decide +kernel
/-- The hypotheses of the atomic clauses, for an ACAS that finds 0. -/
abbrev casAt (v : Word) : Prop :=
    let s := (sPte (cas8 v) (leaf 2)).modMs fun m => { m with seals := [(objKey / 64, ⟨true, 0, 0, false⟩)] }
    Spec.leaf s 1 0x1000000 (some (leaf 2)) ∧ Spec.allows s 1 0x1000000 8 ⟨true, true, true, true⟩ (leaf 2) (entry 8) ∧
    Spec.servesLine s (cas8 v) 0x1000000 (leaf 2) 8 ∧ s.ms.poison = [] ∧ Spec.rising s.ms.seals ∧
    (∀ x ∈ sectors objKey 8, ∃ z ∈ mapGet? s.ms.seals x, z.clear = true) ∧ s.fab.watches = [] ∧ Memory.wf s.ms.mem = true ∧
    Spec.atomic .cas 8 (Spec.number s objKey 8) v.toNat 9 = (if v = 0 then some 9 else none)
theorem witness_SliceAccessesPerform_atomic : casAt 0 ∧ casAt 7 := by decide +kernel
theorem witness_SliceAccessesPerform_miss :
    let s := (sPte load8 (leaf 2)).modFab fun f => { f with resident := [] }
    let s := s.modLan fun l => { l with access := l.access ++ [entry 512] }
    Spec.leaf s 1 0x1000008 (some (leaf 2)) ∧ Spec.allows s 1 0x1000008 8 ⟨true, false, false, true⟩ (leaf 2) (entry 8) ∧
    s.isResident 8 (objKey + 8) 8 = false ∧ s.fab.refusals = [] ∧ s.hub.held = [] ∧ s.fab.fills = [] := by decide +kernel
theorem witness_SliceAccessesPerform_forward :
    let s := (sPte store8 onDie1).modLan fun l => { l with access := [entry 72, entry 513] }
    Spec.leaf s 1 0x1000000 (some onDie1) ∧ Spec.allows s 1 0x1000000 8 ⟨false, true, false, true⟩ onDie1 (entry 72) ∧
    store8.phase = .arrived ∧ Spec.ownerOf onDie1 = 1 ∧ store8.sent = false ∧ onDie1.toNat / 2 ^ 52 = 5 := by decide +kernel
theorem witness_SliceAccessesPerform_host :
    let s := (sPte load8 onHost).modLan fun l => { l with access := [entry 521] }
    Spec.leaf s 1 0x1000008 (some onHost) ∧ Spec.allows s 1 0x1000008 8 ⟨true, false, false, true⟩ onHost (entry 521) ∧
    Spec.ownerOf onHost = 8 := by decide +kernel
/-- What an access that its home serves goes on with. -/
def hereState (x : Served) : State :=
  match x with | .here r _ _ _ => r | _ => sMap
def hereAt (x : Served) : Option (Nat × Word × Nat) :=
  match x with | .here _ k p w => some (k, p, w) | _ => none
theorem serve_here {x : Served} {k w : Nat} {p : Word} (h : hereAt x = some (k, p, w)) : x = .here (hereState x) k p w := by
  cases x <;> simp_all [hereAt, hereState]
/-- The hypothesis that a home serves an access, at the key instance that a window without a slot has. -/
theorem servedAt_of {s : State} {id : OpId} {o : Op} {a : Word} {n key : Nat} {q : Ask} {pte : Word} {win : Nat}
    (hw : winOf o.pcn a = .global) (h : hereAt (s.serve id o a n q) = some (key, pte, win) ∧
      (hereState (s.serve id o a n q)).sliceBad o.job a pte key n = none ∧ pteSealed pte = false ∧ pteClear pte = true ∧
      key + n ≤ 2 ^ 57 ∧ Spec.rising s.ms.seals ∧ (∀ x ∈ sectors key n, ∀ z ∈ mapGet? s.ms.seals x, z.clear = true) ∧
      ∀ w ∈ s.fab.watches, key + n ≤ w.key ∨ w.key + w.n ≤ key) :
    Spec.servedAt s id o a n q (hereState (s.serve id o a n q)) key pte win :=
  ⟨by simp [hw], serve_here h.1, h.2⟩
/-- An operation on the object at VA 0x1000000, which holds some numbers. -/
def sObj (k : OpKind) (n : Nat) (l : List Nat) : State := putNats (sKind k) n objKey l
theorem witness_LoopAndGroupSteps_chunk :
    let s := sObj (.chunk 0x1000000 2) 8 [3, 24, 0, 4]
    s.op? 5 = some (op0 (.chunk 0x1000000 2)) ∧ Spec.servedAt s 5 (op0 (.chunk 0x1000000 2)) 0x1000000 32 ⟨true, true, true, false⟩
      (hereState (s.serve 5 (op0 (.chunk 0x1000000 2)) 0x1000000 32 ⟨true, true, true, false⟩)) objKey (leaf 2) 0 ∧
    Spec.number s objKey 8 = 3 ∧ Spec.number s (objKey + 8) 8 = 24 ∧ Spec.number s (objKey + 24) 8 ≠ 0 :=
  ⟨by decide +kernel, servedAt_of (by decide +kernel) (by decide +kernel), by decide +kernel⟩
theorem group_served {k : OpKind} {l : List Nat}
    (h : (k, l) ∈ [(OpKind.join 0x1000000, [2 ^ 32 - 2]), (.leave 0x1000000, [3, 1]), (.leave 0x1000000, [3, 2, 2 ^ 32 - 1])]) :
    Spec.servedAt (sObj k 4 l) 5 (op0 k) 0x1000000 16 ⟨true, true, true, false⟩
      (hereState ((sObj k 4 l).serve 5 (op0 k) 0x1000000 16 ⟨true, true, true, false⟩)) objKey (leaf 2) 0 := by
  simp only [List.mem_cons, Prod.mk.injEq, List.not_mem_nil, or_false] at h
  rcases h with h | h | h <;> obtain ⟨rfl, rfl⟩ := h <;> exact servedAt_of (by decide +kernel) (by decide +kernel)
theorem witness_LoopAndGroupSteps_join : Spec.servedAt (sObj (.join 0x1000000) 4 [2 ^ 32 - 2]) 5 (op0 (.join 0x1000000)) 0x1000000 16
    ⟨true, true, true, false⟩ (hereState ((sObj (.join 0x1000000) 4 [2 ^ 32 - 2]).serve 5 (op0 (.join 0x1000000)) 0x1000000 16
      ⟨true, true, true, false⟩)) objKey (leaf 2) 0 ∧ Spec.number (sObj (.join 0x1000000) 4 [2 ^ 32 - 2]) objKey 4 ≠ 2 ^ 32 - 1 :=
  ⟨group_served (by decide), by decide +kernel⟩
theorem witness_LoopAndGroupSteps_leave : Spec.servedAt (sObj (.leave 0x1000000) 4 [3, 1]) 5 (op0 (.leave 0x1000000)) 0x1000000 16
    ⟨true, true, true, false⟩ (hereState ((sObj (.leave 0x1000000) 4 [3, 1]).serve 5 (op0 (.leave 0x1000000)) 0x1000000 16
      ⟨true, true, true, false⟩)) objKey (leaf 2) 0 ∧ Spec.number (sObj (.leave 0x1000000) 4 [3, 1]) objKey 4 = 3 ∧
    Spec.number (sObj (.leave 0x1000000) 4 [3, 1]) (objKey + 4) 4 < 3 - 1 := ⟨group_served (by decide), by decide +kernel⟩
theorem witness_LoopAndGroupSteps_release : Spec.servedAt (sObj (.leave 0x1000000) 4 [3, 2, 2 ^ 32 - 1]) 5 (op0 (.leave 0x1000000)) 0x1000000
    16 ⟨true, true, true, false⟩ (hereState ((sObj (.leave 0x1000000) 4 [3, 2, 2 ^ 32 - 1]).serve 5 (op0 (.leave 0x1000000)) 0x1000000 16
      ⟨true, true, true, false⟩)) objKey (leaf 2) 0 ∧ Spec.number (sObj (.leave 0x1000000) 4 [3, 2, 2 ^ 32 - 1]) (objKey + 4) 4 = 2 :=
  ⟨group_served (by decide), by decide +kernel⟩
/-- The thread at a GBAR of the group at VA 0x1000000, with one that is parked on the generation, and one parked that is on its way; the
thread is on the home tile, or on tile 0 with its request at a stage. -/
def sBar (far : Option TripStage) (l : List Nat) : State :=
  let s := (putNats sMap 4 objKey l).modMe fun t => { t with
    status := .waiting (.gbar 0x1000000), pcn := if far = none then 161 * 8 else 0 }
  let s := s.setThread 5 { Thread.reset with job := 1, image := some 1, status := .parked }
  { (s.setThread 6 { Thread.reset with job := 1, image := some 2, status := .migrating 1 .parked }).modFab fun f => { f with
    watches := [⟨8, objKey + 8, 4, none, 6, 5, none⟩, ⟨8, objKey + 8, 4, none, 6, 6, none⟩]
    trips := far.toList.map fun x => ⟨7, 1, 0, 0, 161, 0x1000000, 16, true, x⟩ } with nextId := 9 }
/-- The number under which its request asks at the home. -/
def barWho (far : Option TripStage) : Nat := if far = none then 1 else 7
/-- What the slice makes of the line that the GBAR asks for. -/
def barGate (far : Option TripStage) (l : List Nat) : Gate :=
  ((sBar far l).tlbFill 8 1 ((sBar far l).job 1).ptRoot 0x1000000).lineGate 8 objKey 16 (barWho far) (leaf 2)
    ((sBar far l).winInst (entry 8)) 1 false
def gated (x : Gate) : Option State := match x with | .serve r => some r | _ => none
theorem gate_serve {x : Gate} (h : (gated x).isSome = true) : x = .serve ((gated x).getD sMap) := by
  cases x <;> simp_all [gated]
def barState (far : Option TripStage) (l : List Nat) : State := (gated (barGate far l)).getD sMap
/-- What `Spec.groupAt` asks of it. -/
abbrev barAt (far : Option TripStage) (l : List Nat) : Prop :=
  (sBar far l).xlat 1 0x1000000 16 ⟨true, true, true, false⟩ = .ok 0 0x20000 (leaf 2) (entry 8) ∧
  (gated (barGate far l)).isSome = true ∧ (barState far l).sliceBad 1 0x1000000 (leaf 2) objKey 16 = none ∧
  pteSealed (leaf 2) = false ∧ pteClear (leaf 2) = true ∧ (sBar far l).ms.seals = [] ∧ ((sBar far l).thread 1).job = 1 ∧
  sliceNo (tagDie 1) 0x1000000 = 8 ∧ masterJob 1 = 1
theorem groupAt_of {far : Option TripStage} {l : List Nat} (h : barAt far l) :
    Spec.groupAt (sBar far l) 1 (barWho far) 0x1000000 objKey (leaf 2) (barState far l) := by
  obtain ⟨h1, h2, h3, h4, h5, h6, h7, h8, h9⟩ := h
  simp only [Spec.groupAt, h7, h8, h9]
  exact ⟨⟨_, _, _, h1, rfl, gate_serve h2⟩, h3, h4, h5, by simp [Spec.plain, h6, mapGet?]⟩
/-- What every clause asks, with the request of a thread of another tile at a stage. -/
theorem witness_BarrierSteps (x : TripStage) (h : x ∈ [.out, .back (.ok []), .done (.ok []), .done (.fail 8 0x1000000)]) :
    ((sBar x []).thread 1).status = .waiting (.gbar 0x1000000) ∧ ((sBar x []).thread 1).pcn / 8 = 0 ∧ homeTile 0 0x1000000 = 161 ∧
    (sBar x []).jobFlushed 1 = false ∧ (sBar x []).ops = [] ∧ Spec.onlyTrip (sBar x []) ⟨7, 1, 0, 0, 161, 0x1000000, 16, true, x⟩ ∧
    ((sBar x []).job 1).trapVec ≠ 0 ∧ ((sBar x []).thread 1).inHandler = false := by
  revert x; decide +kernel
theorem witness_BarrierSteps_sets_out : ((sMap.modMe fun t => { t with status := .waiting (.gbar 0x1000000) }).thread 1).pcn / 8 ≠ 161 ∧
    Spec.noTrip sMap 1 ∧ (sBar none []).jobFlushed 1 = false ∧ homeTile ((sBar none []).thread 1).pcn 0x1000000 = 161 := by decide +kernel
theorem witness_BarrierSteps_waits : ∃ e ∈ (sOp (op0 (.load 0x1000000 8 (.g 1) false .plain))).ops, e.2.uid = 1 ∧ e.2.counted = false := by
  decide +kernel
/-- At its home, from its own tile and from another. -/
theorem witness_BarrierSteps_home : Spec.atItsHome (sBar none []) ⟨barWho none, 1, 0, 161, 161, 0x1000000, 16, true, .there⟩ ∧
    Spec.atItsHome (sBar (some .there) []) ⟨barWho (some .there), 1, 0, 0, 161, 0x1000000, 16, true, .there⟩ ∧
    ∀ x ∈ [none, some TripStage.there], ∀ w ∈ (sBar x []).fab.watches, w.uid ≠ 1 := by decide +kernel
theorem witness_BarrierSteps_release (x : Option TripStage) (h : x ∈ [none, some .there]) :
    Spec.groupAt (sBar x [2, 1, 6]) 1 (barWho x) 0x1000000 objKey (leaf 2) (barState x [2, 1, 6]) ∧
    Memory.wf (sBar x [2, 1, 6]).ms.mem = true ∧
    Spec.number (sBar x [2, 1, 6]) objKey 4 = Spec.number (sBar x [2, 1, 6]) (objKey + 4) 4 + 1 ∧
    ∃ w ∈ (sBar x [2, 1, 6]).fab.watches, w.key = objKey + 8 ∧ w.n = 4 ∧ w.cond = none ∧
      w.value = BitVec.ofNat 64 (Spec.number (sBar x [2, 1, 6]) (objKey + 8) 4) ∧ ((sBar x [2, 1, 6]).thread w.uid).status = .parked := by
  simp only [List.mem_cons, List.not_mem_nil, or_false] at h
  rcases h with rfl | rfl <;> exact ⟨groupAt_of (by decide +kernel), by decide +kernel⟩
theorem witness_BarrierSteps_travels : ∃ w ∈ (sBar none [2, 1, 6]).fab.watches, w.key = objKey + 8 ∧ w.n = 4 ∧ w.cond = none ∧
    ((sBar none [2, 1, 6]).thread w.uid).status = .migrating 1 .parked := by decide +kernel
theorem witness_BarrierSteps_parks (x : Option TripStage) (h : x ∈ [none, some .there]) :
    Spec.groupAt (sBar x [3, 1, 6]) 1 (barWho x) 0x1000000 objKey (leaf 2) (barState x [3, 1, 6]) ∧
    Spec.number (sBar x [3, 1, 6]) (objKey + 4) 4 + 1 < Spec.number (sBar x [3, 1, 6]) objKey 4 ∧ (barState x [3, 1, 6]).watchCount 8 < 256 ∧
    ∀ w ∈ (sBar x [3, 1, 6]).fab.watches, objKey + 16 ≤ w.key ∨ w.key + w.n ≤ objKey ∨ (w.key = objKey + 8 ∧ w.cond = none ∧ w.n = 4) := by
  simp only [List.mem_cons, List.not_mem_nil, or_false] at h
  rcases h with rfl | rfl <;> exact ⟨groupAt_of (by decide +kernel), by decide +kernel⟩
theorem witness_BarrierSteps_too_many (x : Option TripStage) (h : x ∈ [none, some .there]) :
    Spec.groupAt (sBar x [1, 1, 6]) 1 (barWho x) 0x1000000 objKey (leaf 2) (barState x [1, 1, 6]) ∧
    Spec.number (sBar x [1, 1, 6]) objKey 4 ≤ Spec.number (sBar x [1, 1, 6]) (objKey + 4) 4 ∧
    ((sBar x [1, 1, 6]).job ((sBar x [1, 1, 6]).thread 1).job).trapVec ≠ 0 ∧ ((sBar x [1, 1, 6]).thread 1).inHandler = false := by
  simp only [List.mem_cons, List.not_mem_nil, or_false] at h
  rcases h with rfl | rfl <;> exact ⟨groupAt_of (by decide +kernel), by decide +kernel⟩
/-- A WATCH of the word at VA 0x1000000 that has arrived, and the hypotheses of its statement. -/
def watchOp (c : WCond) : Op := { op0 (.watch 0x1000000 4 c 5) with tok := none }
def sWatch (c : WCond) : State := putNats (sOp (watchOp c)) 4 objKey [2 ^ 32 - 1]
abbrev watchAt (c : WCond) : Prop :=
  let r := hereState ((sWatch c).serve 5 (watchOp c) 0x1000000 4 ⟨true, false, true, false⟩)
  (sWatch c).op? 5 = some (watchOp c) ∧ (watchOp c).phase = .arrived ∧ (5 : Word).toNat < 256 ^ 4 ∧ (watchOp c).tok = none ∧
  (watchOp c).jidx = none ∧ hereAt ((sWatch c).serve 5 (watchOp c) 0x1000000 4 ⟨true, false, true, false⟩) = some (objKey, leaf 2, 0) ∧
  r.sliceBad 1 0x1000000 (leaf 2) objKey 4 = none ∧ (sWatch c).ms.seals = [] ∧
  Spec.watchHolds c 4 (Spec.number (sWatch c) objKey 4) (5 : Word).toNat = decide (c = .geu) ∧ r.watchCount 8 < 256
theorem witness_WatchArrivals : watchAt .geu ∧ watchAt .eq := by decide +kernel
/-! ### Requests, fills, the ring -/
/-- A load of the global space that leaves the ordering queue, on its way, and refused. -/
def sReq (ph : Phase) (more : AMap Op) : State :=
  { sMap with ops := more ++ [(5, { op0 (.load 0x1000000 8 (.g 1) false .plain) with phase := ph, mask := 4, aux := 3 })], nextId := 9 }
theorem witness_RequestsTravelToTheirHomes_release :
    let o := { op0 (.load 0x1000000 8 (.g 1) false .plain) with phase := .queued, mask := 4, aux := 3 }
    let s := sReq .queued [(4, { op0 (.join 0x1000000) with strm := some 7 })]
    s.op? 5 = some o ∧ o.strm ≠ none ∧ o.kind.isEngine = false ∧ s.jobFlushed o.job = false ∧
    ∀ e ∈ s.ops, e.1 < 5 → e.2.uid = o.uid → e.2.inShadow = o.inShadow → e.2.counted = false → ∀ k, e.2.strm = some k →
      some k ≠ o.strm ∧ o.mask.getLsbD k.val = false := by decide +kernel
theorem witness_RequestsTravelToTheirHomes_held :
    let s := sReq .queued [(4, { op0 (.join 0x1000000) with strm := some 2 })]
    ∃ e ∈ s.ops, e.1 < 5 ∧ e.2.uid = 1 ∧ e.2.inShadow = false ∧ e.2.counted = false ∧ ∃ k ∈ e.2.strm,
      ((4 : Byte).getLsbD k.val = true) := by decide +kernel
theorem witness_RequestsTravelToTheirHomes_travel :
    let o := { op0 (.load 0x1000000 8 (.g 1) false .plain) with phase := .travel 0 0 0, mask := 4, aux := 3 }
    (sReq (.travel 0 0 0) []).op? 5 = some o ∧ o.goal / 1024 = 0 ∧ ((0, 0) : Nat × Nat) ≠ (o.goal % 32, o.goal / 32 % 32) ∧
    (sReq (.travel 0 0 0) []).fab.mesh = [] ∧ ∀ e ∈ (sReq (.travel 0 0 0) []).ops, ¬ e.2.aux < o.aux := by decide +kernel
theorem witness_RequestsTravelToTheirHomes_hint :
    ((sReq (.refused 0) []).op? 5).map (·.phase) = some (.refused 0) ∧ ((sReq (.refused 1) []).op? 5).map (·.phase) = some (.refused 1) ∧
    (sReq (.refused 1) []).now = 0 := by decide +kernel
/-- A fill of the line of VA 0x1000000 at its slice, with one sector sealed whose tag does not match. -/
def sFill (sweep : Option Nat) : State :=
  let s := sMap.modFab fun f => { f with resident := [], fills := [⟨4, 8, ⟨true, 5, 1⟩, none, 0x1000000, leaf 2, objKey, none, []⟩] }
  (s.modMs fun m => { m with seals := [(objKey / 64 + 7, ⟨true, 3, 0, false⟩)] }).modDie 0 fun d => { d with sweep := sweep }
theorem witness_FillsBringLines : ∃ f ∈ (sFill none).fab.fills.find? (fun g => decide (g.id = 4)), f.mcrd = none ∧
    (∀ r ∈ (sFill none).fab.resident, r.slice = f.slice → r.line = f.line → r.present ≠ 0) ∧ (sFill none).lineSwept f.line = false ∧
    f.check.clear = true ∧ f.line % 512 = 0 ∧ ((sFill none).presentAt f.slice f.line).getLsbD 7 = false ∧
    ∃ z ∈ mapGet? (sFill none).ms.seals (f.line / 64 + 7), z.key ≠ f.check.inst := by decide +kernel
theorem witness_FillsBringLines_untagged :
    let s := (sFill none).modMs fun m => { m with seals := [] }
    s.lineSwept objKey = false ∧ s.ms.seals = [] := by decide +kernel
theorem witness_FillsBringLines_swept : (sFill (some (0x20000 / 512))).lineSwept objKey = true := by decide +kernel
/-- A packet of the ring. -/
def pkt (at_ : Nat) (c : RingClass) (flits : Nat) : RingPkt := ⟨7, 0, 6, 1, at_, flits, false, c, .req 5⟩
def sRing (p : RingPkt) (more : List RingPkt) : State :=
  let s := sKind (.load 0x1000000 8 (.g 1) false .plain)
  s.modFab fun f => { f with ring := p :: more }
theorem witness_RingPacketsMove_adaptive :
    let s := sRing (pkt 7 .vc0 4) []
    s.fab.ring.find? (fun q => decide (q.id = 7)) = some (pkt 7 .vc0 4) ∧ (pkt 7 .vc0 4).at_ ≠ (pkt 7 .vc0 4).dst ∧
    (∀ q ∈ s.fab.ring, q.at_ = 7 → q = pkt 7 .vc0 4) ∧ 4 ≤ s.ringFree ((7 + 1) % 8) .vc0 := by decide +kernel
/-- Other packets at stop 0 that take all the adaptive slots, or the escape slots too. -/
def fullStop (c : List RingClass) : List RingPkt :=
  (c.zipIdx.flatMap fun x => (List.range 17).map fun i => ⟨20 + 20 * x.2 + i, 0, 5, 3, 0, 1, false, x.1, .fwd 0⟩)
theorem witness_RingPacketsMove_escape :
    let s := sRing (pkt 7 .vc0 4) (fullStop [.vc0, .vc1])
    (∀ q ∈ s.fab.ring, q.at_ = 7 → q = pkt 7 .vc0 4) ∧ s.ringFree ((7 + 1) % 8) .vc0 < 4 ∧ 4 ≤ s.ringFree ((7 + 1) % 8) .e1 := by decide +kernel
theorem witness_RingPacketsMove_in_escape :
    let s := sRing (pkt 0 .e1 4) []
    (pkt 0 .e1 4).at_ ≠ (pkt 0 .e1 4).src ∧ (∀ q ∈ s.fab.ring, q.at_ = 0 → q = pkt 0 .e1 4) ∧ 4 ≤ s.ringFree ((0 + 1) % 8) .e0 := by decide +kernel
theorem witness_RingPacketsMove_waits :
    let s := sRing (pkt 7 .vc0 4) (fullStop [.vc0, .vc1, .e0, .e1])
    s.ringFree ((7 + 1) % 8) .vc0 < 4 ∧ s.ringFree ((7 + 1) % 8) .e1 < 4 := by decide +kernel
theorem witness_RingPacketsMove_busy : (sRing (pkt 7 .vc0 4) [{ pkt 0 .vc1 3 with id := 8, since := 2 }]).linkBusy 7 = true ∧
    (sRing (pkt 7 .vc0 4) []).linkBusy 7 = false := by decide +kernel
theorem witness_RingPacketsMove_ejects :
    let s := sRing (pkt 1 .vc1 5) []
    (pkt 1 .vc1 5).at_ = (pkt 1 .vc1 5).dst ∧ (pkt 1 .vc1 5).since ≤ s.now ∧
    (∀ q ∈ s.fab.ring, q.msg = (pkt 1 .vc1 5).msg → q.id = 7) ∧ (pkt 1 .vc1 5).msg = .req 5 ∧
    s.op? 5 = some (op0 (.load 0x1000000 8 (.g 1) false .plain)) ∧ s.ejected 1 = 0 := by decide +kernel
/-- An ejection buffer that holds as many requests as it has places, and one more (`Config.ejectSlots` is open). -/
def sFull : State := (sRing (pkt 1 .vc1 5) []).modFab fun f => { f with
  fwds := List.replicate (Config.ejectSlots + 1) ⟨9, 0, 1, 1, 0x1000000, leaf 2, objKey, none, .there⟩ }
theorem witness_RingPacketsMove_full : Config.ejectSlots < sFull.ejected 1 := by
  have h : sFull.fab.fwds = List.replicate (Config.ejectSlots + 1) ⟨9, 0, 1, 1, 0x1000000, leaf 2, objKey, none, .there⟩ := rfl
  simp only [State.ejected, h]
  simp
  omega
/-! ### Responses -/
theorem witness_ResponsesTravel_here :
    let o := op0 (.load 0x3000 8 (.g 1) false .plain)
    (sOp o).op? 5 = some o ∧ o.phase = .arrived ∧ o.goal = o.pcn / 8 := by decide +kernel
theorem witness_ResponsesTravel_mesh :
    let o := op0 (.load 0x1000000 8 (.g 1) false .plain)
    (sOp o).op? 5 = some o ∧ o.phase = .arrived ∧ o.goal ≠ o.pcn / 8 := by decide +kernel
theorem witness_ResponsesTravel_ring :
    let o := { op0 (.load 0x1000000 8 (.g 1) false .plain) with phase := .atOwner 7 }
    (sOp o).op? 5 = some o ∧ o.phase = .atOwner 7 ∧ 7 < 8 ∧ Back.done ≠ .retry 3 := by decide +kernel
theorem witness_ResponsesTravel_host :
    let o := { op0 (.load 0x1000000 8 (.g 1) false .plain) with phase := .atOwner 8 }
    (sOp o).op? 5 = some o ∧ o.phase = .atOwner 8 := by decide +kernel
/-- A response to tile 0 at tile 35, one hop before it and one that has it behind it. -/
def backPkt (i at_ : Nat) : MeshPkt := ⟨i, i, 2, 35, [0], at_, .back 5 .done⟩
def sBack (p : MeshPkt) (more : List MeshPkt) : State :=
  (sOp { op0 (.load 0x1000000 8 (.g 1) false .plain) with phase := .returning true }).modFab fun f => { f with mesh := p :: more }
/-- A packet whose own hop is in no other's way. -/
abbrev hops (p : MeshPkt) : Prop :=
  (sBack p []).op? p.id = none ∧ (sBack p []).fab.hubLink = [] ∧ (sBack p []).fab.mesh.find? (fun q => decide (q.id = p.id)) = some p ∧
  (∀ D ∈ p.dsts, p.at_ / 1024 = D / 1024 ∧ p.at_ ≠ D) ∧ (∀ q ∈ (sBack p []).fab.mesh, ¬ q.seq < p.seq) ∧
  ∀ e ∈ (sBack p []).ops, e.2.phase = .returning true
theorem witness_PacketsMove : ∀ p ∈ [backPkt 8 35, backPkt 8 32, ⟨8, 8, 1, 35, [0], 32, .trip 3⟩, ⟨8, 8, 2, 35, [0], 32, .tripBack 3⟩,
    ⟨8, 8, 1, 35, [0], 32, .migBack 1 (some 2)⟩], hops p := by decide +kernel
theorem witness_PacketsMove_behind : ∃ q ∈ (sBack (backPkt 8 35) [backPkt 7 35]).fab.mesh,
    q.seq < 8 ∧ q.at_ = 35 ∧ q.cls = 2 ∧ q.src = 35 ∧ 0 ∈ q.dsts := by decide +kernel
/-- A sector for three tiles: tile 33 is the next, tiles 34 and 3 lie on two branches. -/
theorem witness_PacketsMove_branches : hops ⟨8, 8, 2, 32, [33, 34, 3], 32, .sector 4 2⟩ ∧ hops ⟨8, 8, 2, 96, [161, 33], 97, .sector 4 2⟩ ∧
    Spec.towards 97 161 ≠ Spec.towards 97 33 := by decide +kernel
/-- An access from tile 0 at a stage, in the state of `sMap`. -/
def withTrip (s : State) (x : Trip) : State := { s.modFab fun f => { f with trips := [x] } with nextId := 9 }
def textTrip (x : TripStage) : Trip := ⟨7, 1, 0, 0, 161, 0x1000000, 64, false, x⟩
theorem witness_AccessesOverTheMesh : Spec.noTrip sMap 1 ∧ (0 : Nat) ≠ 161 ∧ (withTrip sMap (textTrip .out)).now = 0 := by decide +kernel
theorem witness_AccessesOverTheMesh_stages (x : TripStage) (h : x ∈ [.out, .there, .back (.ok [1]), .done (.ok [1]), .done (.fail 6 0),
    .done (.retry 2), .again 0, .again 1]) : Spec.onlyTrip (withTrip sMap (textTrip x)) (textTrip x) ∧ (textTrip x).id ≠ (textTrip x).who := by
  revert x; decide +kernel
/-! ### Completion -/
/-- The operation in a phase, alone or with an earlier one on its token. -/
def sPhase (k : OpKind) (ph : Phase) (more : AMap Op) : State :=
  { sMap with ops := more ++ [(5, { op0 k with phase := ph, counted := true })], nextId := 9 }
theorem witness_CompletionInTokenOrder :
    let s := sPhase (.load 0x1000000 8 (.g 1) false .plain) .performed [(4, { op0 (.join 0x1000000) with tok := some 2 })]
    let o := { op0 (.load 0x1000000 8 (.g 1) false .plain) with phase := .performed, counted := true }
    ∃ th ∈ mapGet? s.threads o.uid, s.op? 5 = some o ∧ o.tok = some 3 ∧ o.counted = true ∧ o.phase = .performed ∧
      Spec.lastWriter th 5 s.now (Spec.writes o) ∧ o.recd = none ∧
    ∀ e ∈ s.ops, e.1 < 5 → e.2.uid = o.uid → e.2.inShadow = o.inShadow → e.2.tok ≠ o.tok := by decide +kernel
theorem witness_CompletionInTokenOrder_root :
    let o := { op0 (.fpu 2 7 16 8) with phase := .queued, strm := none }
    let s := { sMap with ops := [(5, o)] }
    ∃ th ∈ mapGet? s.threads o.uid, s.op? 5 = some o ∧ o.tok = some 3 ∧ o.strm = none ∧ (16 : BitVec 5) &&& 8 = 0 ∧
      Spec.lastWriter th 5 s.now (Spec.writes o) := by decide +kernel
theorem witness_CompletionInTokenOrder_earlier :
    let s := sPhase (.alu 2 7) .queued [(4, op0 (.join 0x1000000))]
    ∃ e ∈ s.ops, e.1 < 5 ∧ e.2.uid = 1 ∧ e.2.inShadow = false ∧ e.2.tok = some 3 := by decide +kernel
theorem witness_CompletionInTokenOrder_later :
    let s := (sPhase (.alu 2 7) .queued []).modMe fun t => { t with landed := [(.g 2, 0, 20, fullMask (.g 2))] }
    ∃ th ∈ mapGet? s.threads 1, (Reg.g 2, s.now, 20, fullMask (.g 2)) ∈ (th.settle s.now).landed ∧ 2 * 5 + 1 < 20 ∧
      (s.op? 5).map (fun o => (o.phase, o.kind)) = some (.queued, .alu 2 7) := by decide +kernel
theorem witness_CompletionInTokenOrder_fpx :
    ((sPhase (.fpu 2 7 16 24) .queued []).op? 5).map (fun o => (o.phase, o.kind)) = some (.queued, .fpu 2 7 16 24) ∧
      (16 : BitVec 5) &&& 24 ≠ 0 := by decide +kernel
theorem witness_CompletionInTokenOrder_fails :
    let s := sPhase (.join 0x1000000) (.failed ⟨0x1000000, 0x1000000, 1, 0⟩) []
    let o := { op0 (.join 0x1000000) with phase := .failed ⟨0x1000000, 0x1000000, 1, 0⟩, counted := true }
    s.op? 5 = some o ∧ o.jidx = none ∧ o.kind.isEngine = false ∧
    ∀ e ∈ s.ops, e.1 < 5 → e.2.uid = o.uid → e.2.inShadow = o.inShadow → e.2.tok ≠ o.tok := by decide +kernel
theorem witness_CompletionInTokenOrder_tpress :
    let o := { op0 (.tpress 24) with phase := .queued, strm := none }
    let s := { sMap with ops := [(5, o)] }
    s.op? 5 = some o ∧ ∀ e ∈ s.ops, e.1 < 5 → e.2.uid = o.uid → e.2.inShadow = o.inShadow → e.2.tok ≠ o.tok := by decide +kernel
/-- A posted store of journal entry 2, refused. -/
def sJournal (held told : Bool) : State :=
  let o := { op0 (.store 0x1000000 8 [1] .plain) with phase := .failed ⟨0x1000000, 0x1000000, 2, 0⟩, counted := true, jidx := some 2 }
  { sMap with ops := [(5, o)] }.modMyCore fun c => { c with
    journal := [(2, ⟨1, 5, 0x1000000, 0x1000000, [1], .plain, 3, held, told, false, 2⟩)] }
theorem witness_RefusedStoresAreReported : ∃ o ∈ (sJournal false false).op? 5, ∃ th ∈ mapGet? (sJournal false false).threads 1, o.uid = 1 ∧
    o.tok = some 3 ∧ o.counted = true ∧ o.phase = .failed ⟨0x1000000, 0x1000000, 2, 0⟩ ∧ o.jidx = some 2 ∧ o.resent = false ∧
    o.inShadow = false ∧ o.pcn = th.pcn ∧ (mapGet? ((sJournal false false).core o.pcn).journal 2).isSome = true ∧
    ∀ x ∈ (sJournal false false).ops, x.1 < 5 → x.2.uid = 1 → x.2.inShadow = o.inShadow → x.2.tok ≠ o.tok := by decide +kernel
theorem witness_RefusedStoresAreReported_pstore : (sJournal true false).cur = 1 ∧ Spec.canTrap (sJournal true false) ∧
    (sJournal true false).me.pfx = none ∧ (sJournal true false).myCore.stepping = false ∧ Spec.rising (sJournal true false).myCore.journal ∧
    (Spec.unreported (sJournal true false)).map (·.1) = some 2 := by decide +kernel
/-! ### Threads -/
/-- A thread with results on their way, of which two are due. -/
def sDue : State := { s2 with now := 5 }
theorem witness_ThreadsGoOn_results : ∃ th, mapGet? sDue.threads 1 = some th ∧
    Spec.inOrder th sDue.now [⟨.g 1, 7, fullMask (.g 1), 2, false, 1⟩, ⟨.v 3, 9, fullMask (.v 3), 4, false, 1⟩] ∧
    th.pending.Pairwise (fun p q => p.seq ≤ q.seq) ∧ th.landed = [] :=
  ⟨sDue.me, by decide +kernel, ⟨by decide +kernel, by decide +kernel, fun _ => List.filter_sublist.trans (by decide +kernel)⟩,
    by decide +kernel, by decide +kernel⟩
/-- The thread in a status. -/
def sWait (w : Wait) : State := sTok.modMe fun t => { t with status := .waiting w }
theorem witness_ThreadsGoOn_passes : ∃ th ∈ mapGet? (sWait (.token 3 1 4)).threads 1, th.status = .waiting (.token 3 1 4) ∧
    Spec.outOf th 3 ≤ 1 ∧ Spec.hasRecord th 3 = false := by decide +kernel
theorem witness_ThreadsGoOn_waits : ∃ th ∈ mapGet? (sWait (.token 3 0 2)).threads 1, th.status = .waiting (.token 3 0 2) ∧
    0 < Spec.outOf th 3 := by decide +kernel
theorem witness_ThreadsGoOn_ends :
    let s := sTwo.modMe fun t => { t with status := .waiting .exitDrain }
    ∃ th ∈ mapGet? s.threads 1, th.status = .waiting .exitDrain ∧ Spec.drained th ∧ th.inHandler = false ∧ Spec.quiet { s with cur := 1 } ∧
    (∃ e ∈ s.threads, e.1 ≠ 1 ∧ e.2.job = th.job) ∧ ∀ m ∈ s.moves, m.upcall ≠ some 1 := by decide +kernel
theorem witness_ThreadsGoOn_halted :
    let s := (sWait (.token 5 1 4)).modCore 0 fun c => { c with halted := true }
    ∃ th ∈ mapGet? s.threads 1, th.status = .waiting (.token 5 1 4) ∧ Spec.outOf th 5 ≤ 1 ∧ Spec.hasRecord th 5 = true ∧
      (s.core th.pcn).halted = true := by decide +kernel
/-- Two threads of core 0, at a cycle: with the spec's reset value of SLICE (15) a quantum is 65,536 cycles; it began at cycle 0, or has not
begun. -/
def sQuanta (now : Nat) (q : Option Nat) : State :=
  { (sTwo.modMe fun t => { t with quantumAt := q }).modCore 0 fun c => { c with lastRan := some 1 } with now := now }
abbrev quantumHyps (now : Nat) (q : Option Nat) : Prop :=
  let s := sQuanta now q
  ∃ th ∈ mapGet? s.threads 1, ∃ tv ∈ mapGet? s.threads 5, Spec.rising s.threads ∧
    s.threads.filter (fun e => decide (e.2.pcn = 0) && decide (e.2.job = s.owner 0)) = [(1, th), (5, tv)] ∧
    th.status = .running ∧ tv.status = .ready ∧ th.slot = some 0 ∧ tv.slot = some 1 ∧ (s.core 0).lastRan = some 1 ∧
    th.upcall = .none ∧ tv.upcall = .none ∧ th.pfx = none ∧ th.redirect = none ∧ s.coreUp 0 = true ∧ th.quantumAt = q ∧
    max (max (s.core 0).nextIssue th.notBefore) (max s.back s.windowStart) = now ∧ 4096 * ((s.core 0).slice.toNat + 1) = 65536
theorem witness_QuantaEnd : quantumHyps 65536 (some 0) ∧ quantumHyps 65535 (some 0) ∧ quantumHyps 65536 none := by decide +kernel
theorem witness_ThreadsMigrate_departs :
    let s := s1.modMe fun t => { t with status := .waiting (.migDrain 1) }
    ∃ th ∈ mapGet? s.threads 1, th.status = .waiting (.migDrain 1) ∧ Spec.drained th ∧ th.inHandler = false ∧
      Spec.quiet { s with cur := 1 } ∧ 1 ≠ th.pcn := by decide +kernel
/-- The thread on its way to core `q`. -/
def sMig (q : Pcn) (st : CoreStatus) : State :=
  (s1.modMe fun t => { t with status := .migrating q .mig, image := none, slot := none }).modCore q fun c => { c with status := st }
theorem witness_ThreadsMigrate_arrives : ∃ th ∈ mapGet? (sMig 1 .live).threads 1, th.status = .migrating 1 .mig ∧ th.mgLoad = none ∧
    th.asks = false ∧ (sMig 1 .live).fab.mesh = [] ∧ (sMig 1 .live).owner (1 / 8) = th.job ∧ ((sMig 1 .live).core 1).status = .live ∧
    ((sMig 1 .live).core 1).halted = false ∧ (sMig 1 .live).freeImage 1 = some 0 := by decide +kernel
theorem witness_ThreadsMigrate_asks_again :
    let s := (sMig 1 .live).modMe fun t => { t with asks := true }
    s.me.asks = true ∧ s.me.notBefore ≤ s.now ∧ s.fab.mesh = [] := by decide +kernel
theorem witness_ThreadsMigrate_hint :
    let s := (sMig 1 .live).modMe fun t => { t with asks := true, notBefore := 4 }
    s.me.asks = true ∧ s.now < s.me.notBefore := by decide +kernel
theorem witness_ThreadsMigrate_halted : (((sMig 1 .live).modCore 1 fun c => { c with halted := true }).core 1).halted = true := by decide +kernel
theorem witness_ThreadsMigrate_scrub : ((sMig 1 .scrub).core 1).status = .scrub := by decide +kernel
theorem witness_ThreadsMigrate_travels : ∃ x ∈ ((sMig 1 .live).modFab fun f => { f with mesh := [⟨8, 8, 1, 0, [1], 0, .mig 1⟩] }).fab.mesh,
    x.msg = .mig 1 := by decide +kernel
theorem witness_ThreadsMigrate_full :
    let s := (sMig 1 .live).modJob 1 fun j => { j with nimg := 0 }
    (s.core 1).status = .live ∧ s.freeImage 1 = none ∧ s.owner (1 / 8) = 1 := by decide +kernel
theorem witness_ThreadsMigrate_back : ((sMig 9 .live).core 9).status ≠ .scrub ∧ ((sMig 9 .live).core 9).halted = false ∧
    (sMig 9 .live).owner (9 / 8) ≠ 1 ∧ ((sMig 1 .dark).core 1).status = .dark := by decide +kernel
/-! ### Fetch, redirected accesses, errors -/
/-- What the slice makes of the line that a fetch asks for. -/
def textGate (s : State) (who : Nat) : Gate :=
  (s.tlbFill 8 1 s.myJob.ptRoot 0x1000000).lineGate 8 objKey 64 who (leaf 2) (s.winInst (entry 8)) 1 false
/-- The thread of `sMap` on the home tile of VA 0x1000000. -/
def sNear : State := (sMap.modMe fun t => { t with pcn := 161 * 8 }).setTile 161 { sMap.tile 161 with job := 1 }
/-- The same, with nothing of the line at the slice. -/
def sMiss (s : State) : State :=
  (s.modFab fun f => { f with resident := [] }).modLan fun l => { l with access := l.access ++ [entry 512] }
def missed (f : FetchedInstr) : Option Word := match f with | .miss a => some a | _ => none
def failed (f : FetchedInstr) : Option Word := match f with | .fail a => some a | _ => none
theorem miss_of {f : FetchedInstr} {a : Word} (h : missed f = some a) : f = .miss a := by cases f <;> simp_all [missed]
theorem fail_of {f : FetchedInstr} {a : Word} (h : failed f = some a) : f = .fail a := by cases f <;> simp_all [failed]
theorem witness_FetchAndIllegalBits : sMap.fetchFor sMap.me = .miss 0x1000000 ∧ sMap.runningOn 0 = some (sMap.cur, sMap.me) ∧
    sMap.me.redirect = none ∧ sMap.mayIssue 0 sMap.me = true ∧ homeTile 0 0x1000000 = 161 ∧ Spec.noTrip sMap 1 :=
  ⟨miss_of (by decide +kernel), by decide +kernel⟩
/-- At its home: a thread of its tile, and the request of another. -/
theorem witness_FetchAndIllegalBits_home (s : State) (x : Trip) (h : (s, x) ∈ [(sNear, ⟨1, 1, 0, 161, 161, 0x1000000, 64, false, .there⟩),
      (withTrip sMap (textTrip .there), textTrip .there)]) :
    s.fetchFor s.me = .miss 0x1000000 ∧ (s.runningOn s.me.pcn = some (s.cur, s.me) ∧ s.mayIssue s.me.pcn s.me = true ∧
    homeTile s.me.pcn 0x1000000 = 161 ∧ Spec.atItsHome s x ∧
    s.xlat s.me.job 0x1000000 64 ⟨true, false, false, true⟩ = .ok 0 0x20000 (leaf 2) (entry 8) ∧
    (gated (textGate s x.id)).isSome = true ∧ ((gated (textGate s x.id)).getD sMap).sliceBad 1 0x1000000 (leaf 2) objKey 64 = none ∧
    s.fab.fwds = [] ∧ (s.core s.me.pcn).icache.length < 256) := by
  simp only [List.mem_cons, Prod.mk.injEq, List.not_mem_nil, or_false] at h
  rcases h with h | h <;> obtain ⟨rfl, rfl⟩ := h <;> exact ⟨miss_of (by decide +kernel), by decide +kernel⟩
theorem witness_FetchAndIllegalBits_refused : (match textGate (sMiss sNear) 1 with | .refuse _ => true | _ => false) = true ∧
    (sMiss sNear).xlat 1 0x1000000 64 ⟨true, false, false, true⟩ = .ok 0 0x20000 (leaf 2) (entry 8) := by decide +kernel
theorem witness_FetchAndIllegalBits_back (x : TripStage) (h : x ∈ [.done (.ok [1]), .done (.fail 2 0x1000000)]) :
    Spec.onlyTrip (withTrip sMap (textTrip x)) (textTrip x) ∧ (withTrip sMap (textTrip x)).fab.fwds = [] ∧
    Spec.canTrap (withTrip sMap (textTrip x)) ∧ Spec.unreported (withTrip sMap (textTrip x)) = none := by
  revert x; decide +kernel
theorem witness_FetchAndIllegalBits_unmapped : s1.fetchFor s1.me = .fail 0x1000000 ∧ s1.runningOn 0 = some (s1.cur, s1.me) ∧
    Spec.canTrap s1 ∧ s1.myCore.stepping = false ∧ Spec.unreported s1 = none ∧ Spec.noTrip s1 1 := ⟨fail_of (by decide +kernel), by decide +kernel⟩
theorem witness_FetchAndIllegalBits_pstore :
    let s := (sJournal true false).modFab fun f => { f with tlb := [] }
    s.fetchFor s.me = .fail 0x1000000 ∧ s.me.pfx = none ∧ Spec.canTrap s ∧ Spec.rising s.myCore.journal ∧
    (Spec.unreported s).isSome = true := ⟨fail_of (by decide +kernel), by decide +kernel⟩
/-- A redirected access in progress. -/
def sRed (va : Word) (store : Option (List Byte)) : State :=
  sMap.modMe fun t => { t with redirect := some ⟨va, 0x2F000, 4, store, .g 1, false, 4, 2, 1⟩ }
/-- The redirected access at a page that is neither CLEAR nor SEALED. -/
def sRedN (store : Option (List Byte)) : State := (sRed 0x10FF020 store).modFab fun f => { f with
  tlb := f.tlb.map fun t => { t with pte := t.pte - 256 } }
/-- The thread on the home tile of the address, tile 701. -/
def sRedAt (s : State) : State := (s.modMe fun t => { t with pcn := 701 * 8 }).setTile 701 { s.tile 701 with job := 1 }
def redTrip (n : Nat) (wr : Bool) (x : TripStage) : Trip := ⟨7, 1, 0, 0, 701, 0x10FF020, n, wr, x⟩
def redGate (s : State) (n : Nat) (wr : Bool) (who : Nat) : Gate :=
  (s.tlbFill 47 1 s.myJob.ptRoot 0x10FF020).lineGate 47 (ownerKey 0 0x3F020) n who (leaf 3 - 256) (s.winInst (entry 47)) 1 wr
abbrev redirectHyps (store : Option (List Byte)) (far : Bool) : Prop :=
  let w := redTrip 4 store.isSome .there
  let s := if far then withTrip (sRedN store) w else sRedAt (sRedN store)
  let x := (gated (redGate s 4 store.isSome (if far then 7 else 1))).getD sMap
  mapGet? s.threads s.cur = some s.me ∧ s.me.status = .running ∧ s.ops = [] ∧ sliceNo 0 0x10FF020 = 47 ∧ homeTile s.me.pcn 0x10FF020 = 701 ∧
  s.me.pcn / 8 = (if far then 0 else 701) ∧
  Spec.atItsHome s (if far then w else ⟨1, 1, 0, 701, 701, 0x10FF020, 4, store.isSome, .there⟩) ∧
  s.xlat 1 0x10FF020 4 ⟨store.isNone, true, false, true⟩ = .ok 0 0x3F020 (leaf 3 - 256) (entry 47) ∧
  (gated (redGate s 4 store.isSome (if far then 7 else 1))).isSome = true ∧ pteSealed (leaf 3 - 256) = false ∧ pteClear (leaf 3 - 256) = false ∧
  x.sliceBad 1 0x10FF020 (leaf 3 - 256) (ownerKey 0 0x3F020) 4 = none ∧ x.mergeBad 1 0x10FF020 (leaf 3 - 256) (ownerKey 0 0x3F020) 4 = none ∧
  s.ms.seals = [] ∧ s.fab.watches = [] ∧ s.myCore.stepping = false ∧ Memory.wf s.ms.mem = true
theorem witness_RedirectedAccessesComplete : ∀ far, redirectHyps none far ∧ redirectHyps (some [1, 2, 3, 4]) far := by decide +kernel
theorem witness_RedirectedAccessesComplete_sets_out : (sRedN none).me.pcn / 8 ≠ homeTile (sRedN none).me.pcn 0x10FF020 ∧
    Spec.noTrip (sRedN none) 1 := by decide +kernel
theorem witness_RedirectedAccessesComplete_poison :
    let s := (sRedAt (sRedN none)).modMs fun m => { m with poison := [ownerKey 0 0x3F020 / 16] }
    (gated (redGate s 4 false 1)).isSome = true ∧ Spec.noTrip s 1 ∧
    (((gated (redGate s 4 false 1)).getD sMap).sliceBad 1 0x10FF020 (leaf 3 - 256) (ownerKey 0 0x3F020) 4).isSome = true ∧
    s.myJob.trapVec ≠ 0 ∧ s.me.inHandler = false := by decide +kernel
/-- The line is not present: it is refused. -/
theorem witness_RedirectedAccessesComplete_refused :
    (sMiss (sRedAt (sRedN none))).xlat 1 0x10FF020 4 ⟨true, true, false, true⟩ = .ok 0 0x3F020 (leaf 3 - 256) (entry 47) ∧
    (match redGate (sMiss (sRedAt (sRedN none))) 4 false 1 with | .refuse _ => true | _ => false) = true := by decide +kernel
theorem witness_RedirectedAccessesComplete_spill :
    let s := (sRed 0x20FF020 none).modMe fun t => { t with pcn := homeTile 0 0x20FF020 * 8 }
    s.xlat 1 0x20FF020 4 ⟨true, true, false, true⟩ = .fail 1 ∧ s.myJob.trapVec ≠ 0 ∧ s.me.inHandler = false ∧ Spec.noTrip s 1 ∧
    s.me.pcn / 8 = homeTile s.me.pcn 0x20FF020 := by decide +kernel
theorem witness_RedirectedAccessesComplete_back (x : TripStage) (h : x ∈ [.done (.ok [1, 2, 3, 4]), .done (.fail 9 0x10FF020),
    .done (.fail 2 0x10FF020)]) : Spec.onlyTrip (withTrip (sRedN none) (redTrip 4 false x)) (redTrip 4 false x) := by
  revert x; decide +kernel
theorem witness_ErrorsPoison : (0x2FFFF : Nat) < 0x30000 ∧ ∀ e ∈ s1.threads, e.2.pcn = 0 → e.2.image = some (0x2FFFF / 0x800) →
    e.2.slot ≠ none := by decide +kernel
theorem witness_ErrorsPoison_image :
    let s := s1.modMe fun t => { t with slot := none, status := .parked }
    ((s.threadsOn 0).find? (fun e => decide (e.2.image = some (0 / 0x800)) && e.2.slot.isNone)).map (·.1) = some 1 := by decide +kernel
/-! ### Counters and pools -/
/-- A counter object at 0x3000 of core 0. -/
def sCnt (k : OpKind) (l : List Nat) (f : Op → Op) : State := putNats (sOp (f (op0 k))) 4 0x3000 l
abbrev bindHyps (n rcd : Word) : Prop :=
    let o := op0 (.bind 0x3000 rcd n)
    let s := sCnt (.bind 0x3000 rcd n) [] id
    s.op? 5 = some o ∧ o.phase = .arrived ∧ winOf o.pcn 0x3000 = .bank 0 0x3000 false ∧ (s.core 0).halted = false ∧ n.toNat < 2 ^ 31 ∧
    (n ≠ 0 ∨ rcd = 0) ∧ (rcd = 0 ∨ rcd.toNat % 64 = 0 ∧ 0x1000000 ≤ rcd.toNat ∧ rcd.toNat < 2 ^ 52) ∧
    Spec.grants s o.job 0 0x3000 16 true true ∧ Memory.wf s.ms.mem = true
theorem witness_CountersStep_bind : bindHyps (2 ^ 31 - 1) 0x1000040 ∧ bindHyps 0 0 := by decide +kernel
theorem witness_CountersStep_bad : ¬((2 ^ 31 : Word).toNat < 2 ^ 31 ∧ True) ∧ (0x1000020 : Word).toNat % 64 ≠ 0 := by decide +kernel
/-- A SIGNAL with a payload of 32 bytes that has come to a counter of a count, a job and serial, and a record. -/
def sigOp : Op := { op0 (.signal 0x3000 0x3040 32) with hop := true, result := List.replicate 32 7 }
def sSig (count tag ser : Nat) (rcd : Nat) : State := putNats (sOp sigOp) 4 0x3000 [count, tag + 65536 * ser, rcd, 0]
theorem witness_CountersStep_signal :
    let s := sSig 0 1 0 0x1000040
    s.op? 5 = some sigOp ∧ sigOp.hop = true ∧ Spec.grants s sigOp.job 0 0x3000 (16 + 32) false true ∧
    s.poisonedIn (bankKey 0 0x3000) 16 = none ∧ Spec.looked s ∧ Spec.number s (bankKey 0 0x3000) 4 ≠ 1 := by decide +kernel
/-- What `CountersFire` asks of a SIGNAL at a counter of count 1. -/
abbrev fireHyps (s : State) (tag rcd : Nat) : Prop :=
  s.op? 5 = some sigOp ∧ sigOp.phase = .arrived ∧ sigOp.hop = true ∧ winOf sigOp.pcn 0x3000 = .bank 0 0x3000 false ∧
  (s.core 0).halted = false ∧ Memory.wf s.ms.mem = true ∧ Spec.grants s sigOp.job 0 0x3000 (16 + sigOp.result.length) false true ∧
  s.poisonedIn (bankKey 0 0x3000) 16 = none ∧ Spec.looked s ∧ sigOp.tok ≠ none ∧ Spec.number s (bankKey 0 0x3000) 4 = 1 ∧
  Spec.number s (bankKey 0 0x3000 + 8) 8 = rcd ∧ rcd ≠ 0 ∧ Spec.number s (bankKey 0 0x3000 + 4) 2 = tag
/-- A record of memory, as a task. -/
def okRec (x : RecordGot) : Option TaskRec := match x with | .ok _ r => some r | _ => none
def waitRec (x : RecordGot) : Option State := match x with | .wait s => some s | _ => none
def badRec (x : RecordGot) : Bool := match x with | .fail .. => true | _ => false
/-- The record at VA 0x1000040, with entry 0x1000000. -/
def sFire (rcd : Nat) : State := putNats (sSig 1 1 Job.reset.serial rcd) 8 (objKey + 64) [0x1000000]
theorem witness_CountersFire : fireHyps (sFire 0x1000040) 1 0x1000040 ∧ ∃ j ∈ (sFire 0x1000040).liveJob? 1, 1 / 512 = sigOp.pcn / 8192 ∧
    j.serial = Spec.number (sFire 0x1000040) (bankKey 0 0x3000 + 6) 2 ∧ j.status = .active ∧
    (okRec ((sFire 0x1000040).recordOf 5 1 0x1000040)).isSome = true ∧ (sFire 0x1000040).fab.poolReqs.length < 16 := by decide +kernel
theorem witness_CountersFire_full :
    let s := (sFire 0x1000040).modFab fun f => { f with
      poolReqs := List.replicate 16 ⟨0, 1, 0, some 1024, none, ⟨0, 0, 0, 0, 0, 0, 0, 0, 0⟩, 0⟩ }
    fireHyps s 1 0x1000040 ∧ 16 ≤ (s.fab.poolReqs.filter fun x => decide (x.home = some (1024 + 0))).length := by decide +kernel
theorem witness_CountersFire_waits : fireHyps (sMiss (sFire 0x1000040)) 1 0x1000040 ∧
    ∃ v ∈ waitRec ((sMiss (sFire 0x1000040)).recordOf 5 1 0x1000040), v.op? 5 = some sigOp := by decide +kernel
theorem witness_CountersFire_bad : fireHyps (sFire 0x2000040) 1 0x2000040 ∧ badRec ((sFire 0x2000040).recordOf 5 1 0x2000040) = true := by
    decide +kernel
theorem witness_CountersFire_gone : fireHyps (sSig 1 7 0 0x1000040) 7 0x1000040 ∧ (sSig 1 7 0 0x1000040).liveJob? 7 = none := by decide +kernel
/-- A record on its way to the pool of the job of `sMap`. -/
def task0 (flags : BitVec 32) : TaskRec := ⟨0x1000000, 1, 2, 3, 4, 0, 0, 0, flags⟩
def sPool (op : Option OpId) (src : Nat) (x : Option TripStage) : State :=
  { (sPhase (.taskq 0x3000) (.pooling 0) []).modFab fun f => { f with
    poolReqs := [⟨2, 1, Job.reset.serial, none, op, task0 0, src⟩]
    trips := x.toList.map fun x => ⟨7, 2, 0, src, 33, 0, 64, true, x⟩ } with nextId := 9 }
theorem witness_PoolsServeCores : (sPool none 0 none).poolTile 1 = 33 ∧ Spec.noTrip (sPool none 0 none) 2 ∧
    ((sPool none 0 none).fab.poolReqs.find? fun x => decide (x.id = 2)).map (·.src) = some 0 ∧
    Spec.onlyTrip (sPool none 0 (some (.done (.ok [])))) ⟨7, 2, 0, 0, 33, 0, 64, true, .done (.ok [])⟩ := by decide +kernel
abbrev poolHyps (op : Option OpId) (far : Bool) : Prop :=
  let s := if far then sPool op 0 (some .there) else sPool op 33 none
  ∃ r ∈ s.fab.poolReqs.find? (fun x => decide (x.id = 2)), ∃ j ∈ s.liveJob? r.tag, j.serial = r.ser ∧ j.status = .active ∧ r.op = op ∧
    s.poolCount r.tag < 16384 ∧ s.poolTile r.tag = 33 ∧ (s.op? 5).isSome = true ∧
    Spec.atItsHome s (if far then ⟨7, 2, 0, 0, 33, 0, 64, true, .there⟩ else ⟨2, 2, 0, 33, 33, 0, 64, true, .there⟩)
theorem witness_PoolsServeCores_home : ∀ far, poolHyps none far ∧ poolHyps (some 5) far := by decide +kernel
theorem witness_PoolsServeCores_full :
    let s := (sPool none 33 none).modJob 1 fun j => { j with pool := List.replicate 16384 ⟨task0 0, false⟩ }
    16384 ≤ s.poolCount 1 := by
  decide +kernel
theorem witness_PoolsServeCores_gone :
    let s := { sPool none 33 none with jobs := [] }
    ∃ r ∈ s.fab.poolReqs.find? (fun x => decide (x.id = 2)), r.op = none ∧ s.liveJob? r.tag = none ∧ r.src = s.poolTile r.tag := by decide +kernel
theorem witness_PoolsServeCores_dispatch :
    let s := sMap.modJob 1 fun j => { j with pool := [⟨task0 0, false⟩, ⟨task0 2, false⟩] }
    1 = s.owner (1 / 8) ∧ s.coreUp 1 = true ∧ (s.core 1).halted = false ∧ (s.core 1).dispatched = none ∧
    (∀ e ∈ s.threads, e.2.pcn = 1 → e.2.job = 1 → e.2.status ≠ .running ∧ e.2.status ≠ .ready) ∧ s.freeImage 1 ≠ none ∧
    (s.job 1).pool = [⟨task0 0, false⟩, ⟨task0 2, false⟩] ∧ ∀ i : Fin 3, (s.job 1).starve[i] = 0 := by decide +kernel
/-- Its band is 2, the highest that holds a record. -/
theorem witness_PoolsServeCores_band : Spec.served { Job.reset with pool := [⟨task0 0, false⟩, ⟨task0 2, false⟩] } 2 := by
  refine ⟨⟨_, .tail _ (.head _), rfl⟩, .inr ⟨?_, ?_⟩⟩
  · rintro x ⟨i, -, -, h⟩
    revert h; revert i; decide +kernel
  · rintro x hx ⟨r, hr, rfl⟩
    simp only [List.mem_cons, List.not_mem_nil, or_false] at hr
    rcases hr with rfl | rfl <;> simp [task0] at hx
/-! ### Borders -/
/-- Job 1 on tiles 0 and 1 (x = 0 and 1), job 2 with a backlog on tile 2; job 1 has an upcall handler. -/
def sBrd : State :=
  let s := (s1.setJob 1 { s1.job 1 with upVec := 0x1000800, ceiling := 4 }).setJob 2 { Job.reset with anchor := 2, backlog := 9, ceiling := 4 }
  ((s.setTile 1 ⟨1, false⟩).setTile 2 ⟨2, false⟩)
/-- A move of tile 1 from job 1 to job 2. -/
def move0 : Move := ⟨1, 1, 2, 3, none, 0, false, false, 0, false, true, none⟩
def sMove (m : Move) : State := { sBrd with moves := [m], nextId := 9 }
/-- No core has a status that neither a core named in the state nor every other has. -/
theorem core_status {s : State} {c : CoreStatus} (h : s.fallow.status ≠ c ∧ ∀ e ∈ s.cores, e.2.status ≠ c) (p : Pcn) :
    (s.core p).status ≠ c := by
  obtain ⟨hf, h⟩ := h
  unfold State.core
  generalize s.cores = l at h ⊢
  induction l with
  | nil => exact hf
  | cons e r ih =>
    obtain ⟨k, v⟩ := e
    simp only [List.mem_cons, forall_eq_or_imp] at h
    simp only [mapGet?]
    split
    · exact h.1
    · exact ih h.2
/-- The neighbours of tiles 0 and 1. -/
theorem beside_1 {u : Nat} (h : Spec.beside 1 u) : u ∈ [0, 2, 33] := by
  simp only [Spec.beside] at h
  simp only [List.mem_cons, List.not_mem_nil, or_false]
  omega
theorem beside_0 {u : Nat} (h : Spec.beside 0 u) : u ∈ [1, 32] := by
  simp only [Spec.beside] at h
  simp only [List.mem_cons, List.not_mem_nil, or_false]
  omega
theorem owned {s : State} {a : Nat} {l : List Nat} {u : Nat} (h : ∀ x ∈ l, s.owner x = a → x = 0) (m : u ∈ l) (o : s.owner u = a) : u = 0 :=
  h u m o
/-- Tile 1 is simple for job 1, whose one other tile is tile 0. -/
theorem simple_1 {s : State} (h : s.owner 0 = 1 ∧ s.owner 2 = 2 ∧ s.owner 33 = 0) : Spec.simple s 1 1 := by
  obtain ⟨h0, h2, h3⟩ := h
  have only : ∀ u, Spec.beside 1 u → s.owner u = 1 → u = 0 := by
    intro u hu o
    have := beside_1 hu
    simp only [List.mem_cons, List.not_mem_nil, or_false] at this
    rcases this with rfl | rfl | rfl <;> simp_all
  refine ⟨⟨0, by unfold Spec.beside; decide, h0⟩, fun u v hu ou hv ov => ⟨[0], ?_⟩⟩
  obtain rfl := only u hu ou
  obtain rfl := only v hv ov
  exact ⟨rfl, rfl, by simp [h0, Spec.around], by simp⟩
/-- A job that is active takes part. -/
theorem takes_part {s : State} {a : Nat} (h : (s.liveJob? a).map (·.status) = some .active) : Spec.takesPart s a := by
  obtain ⟨j, hj, hs⟩ := Option.map_eq_some_iff.mp h
  exact .inr ⟨j, hj, hs⟩
theorem unlocked {s : State} (h : s.moves = []) (t : Nat) : Spec.unlockedAround s t := fun _ _ m hm => by simp [h] at hm
/-- Tile 1 is the lowest of job 1 that qualifies to move to job 2: tile 0 has no neighbour of job 2. -/
theorem witness_BorderEpochsAskForMoves :
    let s := { sBrd with now := 4096 }
    ((0 : Nat) < 8 ∧ (s.die 0).epochAt ≤ s.now ∧ Spec.rising s.tiles ∧ Spec.rising s.jobs ∧ (∀ e ∈ s.tiles, e.1 < 8192 ∧ e.2.job < 512) ∧
      ∀ e ∈ s.jobs, e.1 % 512 ≠ 0) ∧ Spec.lowestFor s 1 2 := by
  refine ⟨by decide +kernel, ⟨⟨2, by unfold Spec.beside; decide, by decide +kernel⟩, by decide +kernel, by decide +kernel, by decide +kernel,
    takes_part (by decide +kernel), takes_part (by decide +kernel),
    fun _ => ⟨by decide +kernel, simple_1 (by decide +kernel)⟩, by decide +kernel,
    fun u hu _ => (by decide +kernel : ∀ u ∈ [0, 2, 33], (State.tile { sBrd with now := 4096 } u).lock = false) u (beside_1 hu),
    by decide +kernel, by decide +kernel, by decide +kernel, by decide +kernel, unlocked rfl 1⟩, ?_⟩
  intro u hu _ ⟨⟨v, hv, o⟩, _⟩
  obtain rfl : u = 0 := by omega
  exact (by decide +kernel : ∀ v ∈ [1, 32], State.owner { sBrd with now := 4096 } v ≠ 2) v (beside_0 hv) o
theorem witness_EpochsBegin : let s := { State.reset with now := 4096 }
    (7 : Nat) < 8 ∧ (s.die 7).epochAt ≤ s.now := by decide +kernel
theorem witness_BorderEpochsAskForMoves_not_yet : sBrd.now < (sBrd.die 0).epochAt := by decide +kernel
/-- The request for that move. -/
def req0 : Request := ⟨1, 2, 1, 2⟩
/-- The machine with that request; in the second case the donor has no handler. -/
def sReqd (quiet : Bool) : State :=
  ((if quiet then sBrd.setJob 1 { sBrd.job 1 with upVec := 0 } else sBrd).modDie 0 fun d => { d with requests := [req0] })
theorem brd_passes (quiet : Bool) : Spec.passes (sReqd quiet) req0 := by
  have h : ∀ quiet, let s := sReqd quiet
    s.owner req0.tile = req0.donor ∧ s.owner req0.near = req0.gainer ∧ s.moves = [] ∧
    (Spec.floor s req0.donor : Int) < Spec.projected s req0.donor ∧ Spec.projected s req0.gainer < Spec.ceiling s req0.gainer ∧
    (∀ e ∈ s.threads, e.2.pcn / 8 = req0.tile → e.2.job = req0.donor → e.2.upcall = .none) ∧ (s.tile req0.tile).lock = false ∧
    (s.tile req0.near).lock = false ∧ (s.owner 0 = 1 ∧ s.owner 2 = 2 ∧ s.owner 33 = 0) ∧
    (s.liveJob? 1).map (·.status) = some .active ∧ (s.liveJob? 2).map (·.status) = some .active ∧ s.fallow.status ≠ .scrub ∧
    (∀ e ∈ s.cores, e.2.status ≠ .scrub) ∧ ∀ e ∈ s.cores, e.2.halted = false := by decide +kernel
  have h1 : Spec.beside req0.tile req0.near := by unfold Spec.beside; decide
  obtain ⟨h2, h3, h4, h5, h6, h7, h8, h9, h10, h11, h12, h13, h14, h15⟩ := h quiet
  exact ⟨h1, h2, h3, fun _ => simple_1 h10, fun m hm => by simp [h4] at hm, unlocked h4 _, h5, h6, h7, h8, h9,
    fun p _ => core_status ⟨h13, h14⟩ p, takes_part h11, takes_part h12, fun x _ _ e he hx => by simp [h15 e he] at hx⟩
theorem witness_RequestsStartMoves_upcall : ((sReqd false).die 0).requests = [req0] ∧ Spec.passes (sReqd false) req0 ∧
    (req0.donor % 512 ≠ 0 ∧ ((sReqd false).job req0.donor).upVec ≠ 0 ∧ Memory.wf (sReqd false).ms.mem = true ∧
      ((sReqd false).core 8).status = .live) ∧ ∀ q, q / 8 = req0.tile → ¬ q < 8 :=
  ⟨rfl, brd_passes false, by decide +kernel, fun q h => by simp only [req0] at h; omega⟩
theorem witness_RequestsStartMoves_quiet : ((sReqd true).die 0).requests = [req0] ∧ Spec.passes (sReqd true) req0 ∧
    ((sReqd true).job req0.donor).upVec = 0 := ⟨rfl, brd_passes true, by decide +kernel⟩
theorem witness_RequestsStartMoves_dropped : ¬Spec.passes sBrd { req0 with gainer := 3 } := fun h => absurd h.2.2.1 (by decide +kernel)
theorem witness_LossesStopAndScrub_stops : (sMove move0).moveAt 1 = some move0 ∧ move0.stopped = false ∧
    move0.deadline.toNat ≤ (sMove move0).gts.toNat ∧ (sMove move0).ops = [] ∧
    ∃ e ∈ (sMove move0).threads, e.2.job = move0.donor ∧ move0.upcall ≠ some e.1 := by decide +kernel
theorem witness_LossesStopAndScrub_fails :
    let o := { op0 (.load 0x8000000001003000 8 (.g 1) false .plain) with pcn := 8 }
    let s := { sMove move0 with ops := [(5, o)] }
    s.op? 5 = some o ∧ o.touches 1 = true ∧ o.wrote = false ∧ o.phase = .arrived := by decide +kernel
theorem witness_LossesStopAndScrub_not_yet :
    let m := { move0 with upcall := some 7, deadline := 1 }
    (sMove m).moveAt 1 = some m ∧ m.stopped = false ∧ (sMove m).gts.toNat < m.deadline.toNat := by decide +kernel
/-- The move, stopped, with a READY thread on tile 1. -/
def sStop : State := (sMove { move0 with stopped := true }).setThread 6 { Thread.reset with
  job := 1, pcn := 8, image := some 0, slot := some 0, status := .ready, pc := 0x1000010 }
theorem waiters_none {s : State} (h : s.ops = []) (p : Pcn) : s.waitersAt p = [] := by simp [State.waitersAt, h]
/-- Nothing of the tile goes on. -/
theorem settled_of {s : State} {m : Move} (h : s.ops = [])
    (ht : ∀ e ∈ s.threads, e.2.job = s.owner m.tile → e.2.pcn / 8 = m.tile → e.2.redirect = none ∧ e.2.status ≠ .waiting .exitDrain) :
    Spec.settled s m := ⟨by simp [h], ht, by simp [h]⟩
theorem stop_settled : Spec.settled sStop { move0 with stopped := true } := settled_of rfl (by decide +kernel)
theorem witness_LossesStopAndScrub_leave : Spec.settled sStop { move0 with stopped := true } ∧
    ∃ j ∈ sStop.liveJob? 1, ∃ th ∈ mapGet? sStop.threads 6, sStop.moveAt 1 = some { move0 with stopped := true } ∧ j.status = .active ∧
    (∀ e ∈ sStop.jobs, e.2.saved.isSome = false) ∧ sStop.evacTile 1 1 = some 0 ∧ th.job = 1 ∧ th.pcn / 8 = 1 ∧ th.status = .ready :=
  ⟨stop_settled, by decide +kernel⟩
theorem witness_LossesStopAndScrub_evacuates : Spec.settled sStop { move0 with stopped := true } ∧ (∀ p, sStop.waitersAt p = []) ∧
    sStop.moveAt 1 = some { move0 with stopped := true } ∧ sStop.evacTile 1 1 ≠ none ∧ ∀ e ∈ sStop.jobs, e.2.saved = none :=
  ⟨stop_settled, waiters_none rfl, by decide +kernel⟩
theorem witness_LossesStopAndScrub_waits :
    ¬Spec.settled { sStop with ops := [(5, { op0 (.load 0x8000000001003000 8 (.g 1) false .plain) with pcn := 8 })] }
      { move0 with stopped := true } := by
  intro h
  obtain ⟨d, hd⟩ := (h.1 _ (List.mem_singleton.mpr rfl) (by decide +kernel)).1 (by decide +kernel)
  cases hd
/-- The move, evacuated, when its scrub has ended for certain. -/
def done0 : Move := { move0 with stopped := true, evacuated := true }
def sDone (m : Move) : State := { sMove m with now := 12288 }
theorem active_of {s : State} {tag : Nat} (h : (s.liveJob? tag).all (fun j => decide (j.status = .active)) = true) :
    ∀ j, s.liveJob? tag = some j → j.status = .active := fun j e => by simpa [e] using h
theorem scrubbed_of {s : State} {m : Move} (h : m.evacuated = true ∧ m.scrubAt + 12288 ≤ s.now) : s.scrubbed m = true := by
  simp [State.scrubbed, h]
theorem witness_MovesCommit_waits : (sMove move0).moveAt 1 = some move0 ∧ move0.launch = none ∧ move0.evacuated = false ∧
    ∃ x ∈ ({ sMove done0 with moves := [{ move0 with tile := 9, seq := 1 }, done0] }).moves, x.seq < done0.seq ∧ done0.donor % 512 ≠ 0 ∧
      done0.donor % 512 ≠ 0x1FF ∧ x.donor = done0.donor := by decide +kernel
theorem witness_MovesCommit_gains : (sDone done0).scrubbed done0 = true ∧
    (∀ j, (sDone done0).liveJob? done0.donor = some j → j.status = .active) ∧ ∃ j ∈ (sDone done0).liveJob? 2,
      (sDone done0).moveAt 1 = some done0 ∧ (∀ x ∈ (sDone done0).moves, done0.seq ≤ x.seq) ∧ 2 % 512 ≠ 0 ∧ j.lockReq = false ∧ j.upVec = 0 ∧
      j.anchor ≠ 1 ∧ (∀ e ∈ (sDone done0).jobs, e.2.saved = none) ∧ j.cbBase.toNat = 0x2000 ∧ Memory.wf (sDone done0).ms.mem = true ∧
      (sDone done0).ms.weak = [] :=
  ⟨scrubbed_of (by decide +kernel), active_of (by decide +kernel), by decide +kernel⟩
theorem witness_MovesCommit_idle :
    let m := { done0 with toIdle := true }
    (sDone m).scrubbed m = true ∧ (∀ j, (sDone m).liveJob? m.donor = some j → j.status = .active) ∧ (sDone m).moveAt 1 = some m ∧
    m.donor ≠ 1 / 1024 * 512 ∧ (1 / 1024 * 512) % 512 = 0 :=
  ⟨scrubbed_of (by decide +kernel), active_of (by decide +kernel), by decide +kernel⟩
/-- The seed of a launch on an idle tile. -/
def seed0 : Move := ⟨4, 0, 0, 3, none, 0, true, true, 0, false, true, some 7⟩
def sSeed : State := (sDone seed0).modHub fun h => { h with launches := [⟨7, 0, 0, 0, { Job.reset with anchor := 4 }, [task0 0], [], none⟩] }
theorem witness_SeedsCommit : sSeed.scrubbed seed0 = true ∧ (∀ j, sSeed.liveJob? seed0.donor = some j → j.status = .active) ∧
    ∃ l ∈ sSeed.hub.launches.find? (fun x => decide (x.id = 7)), sSeed.moveAt 4 = some seed0 ∧ seed0.launch = some 7 ∧
      sSeed.freeIndex (4 / 1024) = some 3 ∧ (∀ x ∈ sSeed.moves, seed0.seq ≤ x.seq) ∧ l.job.lockReq = false :=
  ⟨scrubbed_of (by decide +kernel), active_of (by decide +kernel), by decide +kernel⟩
/-! ### Faults, DARK, the debugger, suspension -/
theorem witness_FaultsFreezeJobs : ∃ j ∈ s1.liveJob? 1, j.status ≠ .frozen ∧ 1 % 512 ≠ 0 ∧ 1 / 512 = 0 ∧ s1.tilesOf 1 ≠ [] := by decide +kernel
/-- Core 1 is asked to be DARK; its dispatched record, and a record that a thread of it is sending to the pool. -/
def sAsk : State :=
  let s := s1.modCore 1 fun c => { c with darkAt := some 9, dispatched := some (task0 0) }
  let s := s.setThread 6 { Thread.reset with job := 1, pcn := 1, image := some 0, status := .ready }
  { (s.modFab fun f => { f with poolReqs := [⟨0, 1, 0, none, some 5, task0 0, 0⟩] }) with
    ops := [(5, { op0 (.taskq 0x3000) with uid := 6, pcn := 1, phase := .pooling 0 })] }
theorem witness_CoresTurnDark : 1 = sAsk.owner (1 / 8) ∧ (sAsk.core 1).status = .live ∧ (sAsk.core 1).darkAt ≠ none ∧
    (∃ e ∈ sAsk.threads, e.2.job = 1 ∧ e.2.pcn ≠ 1) ∧ ∃ e ∈ sAsk.threads, e.2.pcn = 1 ∧ e.2.image.isSome = true := by decide +kernel
theorem witness_CoresTurnDark_not_asked : (s1.core 1).darkAt = none ∧ (s1.core 1).status = .live ∧ 1 = s1.owner (1 / 8) := by decide +kernel
theorem witness_DebuggerControls :
    let s := (s1.modCore 0 fun c => { c with hgmask := 3, halted := true, stopCause := some 2 }).modCore 9 fun c => { c with hgmask := 2 }
    (s.core 0).halted = true ∧ (mapGet? s.cores 9).isSome = true ∧ (s.core 9).hgmask &&& (s.core 0).hgmask ≠ 0 ∧
    (s.core 2).hgmask &&& (s.core 0).hgmask = 0 ∧ (s.core 0).stopCause = some 2 ∧ Spec.rising s.cores := by decide +kernel
theorem witness_SuspensionHalts : s1.jobActive 1 = true ∧ (∃ e ∈ s1.threads, e.2.job = 1) ∧ ∀ m ∈ s1.moves, m.donor ≠ 1 ∧
    m.gainer ≠ 1 := by decide +kernel
/-- A job with a move: one that its upcall holds, one past its stop, one that comes to it. -/
abbrev suspendHyps (tag : Nat) (m : Move) : Prop :=
  let s := (sMove m).setThread 6 { Thread.reset with job := 1, pcn := 8, upcall := .loss, status := .ready }
  s.jobActive tag = true ∧ s.moves = [m] ∧ (m.donor = tag ∨ m.gainer = tag) ∧ m.donor ≠ m.gainer ∧ m.gainer % 512 ≠ 0 ∧
  (∃ e ∈ s.threads, e.2.job = m.donor ∧ m.upcall ≠ some e.1) ∧ Spec.rising s.threads
theorem witness_SuspensionHalts_moves : suspendHyps 1 { move0 with upcall := some 6, deadline := 7408 } ∧
    suspendHyps 1 { move0 with stopped := true } ∧ suspendHyps 2 { move0 with stopped := true } := by decide +kernel
/-- What is kept of job 1, suspended. -/
def save0 : SaveImage := ⟨0, 0, false, [0], [], false, [], [], [], false, 0, 7, [], []⟩
def sSusp (v : SaveImage) (o : AMap Op) (now : Nat) : State :=
  { sMap.modJob 1 (fun j => { j with status := .suspended, saved := some v, conf := v.restoring, saveArea := 0x1000000 }) with
    ops := o, now := now, nextId := 9 }
theorem witness_SuspensionFlushes : ((sSusp save0 [] 9).job 1).saved = some save0 ∧ save0.flushed = false ∧
    (sSusp save0 [] 9).movingOps 1 = false ∧ ∀ m ∈ (sSusp save0 [] 9).moves, m.donor ≠ 1 := by decide +kernel
theorem witness_SuspensionFlushes_moving : (sSusp save0 [(5, op0 (.join 0x1000000))] 9).movingOps 1 = true := by decide +kernel
/-- The save area in PIN pages, and bytes on their way to it for a core. -/
def saveTlb : List TlbEntry :=
  (List.range 64).flatMap fun i => (List.range 8).map fun p => ⟨i, 1, 0x100 + p, BitVec.ofNat 64 ((p + 2) * 65536 + 64 + 16 + 8 + 1)⟩
def saving0 (p : Pcn) (a : Word) (len : Nat) : Saving := ⟨p, a, len, [1, 2, 3]⟩
def sSaving (w : Saving) (x : Option TripStage) : State :=
  (sSusp { save0 with flushed := true, writing := [w] } [] 9).modFab fun f => { f with
    tlb := saveTlb, trips := x.toList.map fun x => ⟨8, 7, 0, w.pcn / 8, homeTile w.pcn w.addr, w.addr, min w.len 64, true, x⟩ }
/-- What the slice makes of the line that is written. -/
def saveGate (s : State) (who : Nat) : Gate :=
  (s.tlbFill 8 1 s.myJob.ptRoot 0x1000000).lineGate 8 objKey 64 who (BitVec.ofNat 64 (2 * 65536 + 64 + 16 + 8 + 1)) (s.winInst (entry 8)) 1 true
abbrev savingHyps (w : Saving) (x : Option TripStage) (who : Nat) : Prop :=
  let s := sSaving w x
  ∃ j ∈ s.liveJob? 1, ∃ v ∈ j.saved, v.flushed = true ∧ v.writing = [w] ∧ 1 ≤ w.len ∧ 64 = min w.len (64 - w.addr.toNat % 64) ∧
    homeTile w.pcn w.addr = 161 ∧ s.op? v.id = none ∧ j.status ≠ .frozen ∧
    Spec.atItsHome s ⟨who, 7, 0, w.pcn / 8, 161, 0x1000000, 64, true, .there⟩ ∧
    s.xlat 1 0x1000000 64 ⟨false, true, false, true⟩ = .ok 0 0x20000 (BitVec.ofNat 64 (2 * 65536 + 64 + 16 + 8 + 1)) (entry 8) ∧
    (gated (saveGate s who)).isSome = true ∧ s.ms.poison = [] ∧ s.ms.seals = [] ∧ s.fab.watches = [] ∧ Memory.wf s.ms.mem = true
theorem witness_SavesPerform : savingHyps (saving0 (161 * 8) 0x1000000 100) none 7 ∧
    savingHyps (saving0 0 0x1000000 64) (some .there) 8 := by decide +kernel
theorem witness_SavesPerform_sets_out : Spec.noTrip (sSaving (saving0 0 0x1000000 100) none) 7 ∧ (0 : Nat) ≠ homeTile 0 0x1000000 := by
  decide +kernel
theorem witness_SavesPerform_back (x : TripStage) (h : x ∈ [.done (.ok []), .done (.fail 1 0x1000000)]) :
    Spec.onlyTrip (sSaving (saving0 0 0x1000000 100) (some x)) ⟨8, 7, 0, 0, 161, 0x1000000, 64, true, x⟩ := by
  revert x; decide +kernel
theorem witness_SavesPerform_unmapped :
    let s := sSaving (saving0 (homeTile 0 0x5000000 * 8) 0x5000000 100) none
    Spec.noTrip s 7 ∧ s.leafAt (sliceNo 0 0x5000000) 1 (s.job 1).ptRoot 0x5000000 = none := by decide +kernel
/-- A record of core 0 with a queued command and beats. -/
def engRec0 : EngineRec := ⟨0, { Core.reset with copyQ := [5] }, [(0, [some (List.replicate 64 1), none])]⟩
theorem witness_FlushWrites : Spec.recordFits (sSusp save0 [(5, op0 (.cpy 0x3010 0x3400 100))] 9) engRec0 := by
  refine ⟨fun q h => ?_, by decide +kernel, by decide +kernel, fun e he => ?_⟩
  rotate_left
  · obtain rfl := List.mem_singleton.mp he
    exact ⟨rfl, rfl, by decide, fun d hd => by
      obtain rfl : d = List.replicate 64 1 := by simpa using hd
      rfl⟩
  rcases h with rfl | rfl
  · refine ⟨by decide +kernel, fun id hid => ?_⟩
    obtain rfl : id = 5 := by simpa [engRec0] using hid
    exact ⟨by decide, _, rfl, by decide +kernel, by decide +kernel⟩
  · exact ⟨by decide +kernel, fun id hid => by simp [engRec0, Core.reset] at hid⟩
theorem witness_FlushWrites_area : ∃ j ∈ (sSusp save0 [] 9).liveJob? 1, j.saved = some save0 ∧ save0.tiles.length ≤ 1024 ∧
    j.saveArea.toNat < 2 ^ 52 ∧ j.conf = false := by decide +kernel
/-- A product that has started, with an operand that a link brings and one beat of its own on the way. -/
def opMma (recd : Option FaultRec) (ps : List Piece) : Op :=
  { op0 (.mma 0x8000000000000001 0x3000 16 1 .bf16 false) with phase := .started, strm := none, recd := recd, pieces := ps }
/-- A copy to a link. -/
def opSend : Op :=
  { op0 (.cpy2d 0x8000000000000001 0x3000 0) with phase := .started, result := List.replicate 24 0 ++ [2], aux := 3 }
abbrev heldHyps (o : Op) (f : List LinkBeat) : Prop :=
  let s := (sSusp save0 [(5, o)] 2048).modFab fun x => { x with flight := f }
  s.op? 5 = some o ∧ o.job = 1 ∧ o.phase = .started ∧ save0.haltAt + 2048 ≤ s.now ∧ s.inFlight 5 = true ∧
  (o.kind.product ≠ none ∨ o.copyLink ≠ none)
theorem witness_SuspensionFlushes_held : heldHyps (opMma none []) [⟨3, 5, [1], none⟩] ∧ heldHyps opSend [⟨3, 5, [1], none⟩] := by decide +kernel
theorem witness_SuspensionFlushes_not_yet : (sSusp save0 [(5, opMma none [])] 2047).now < save0.haltAt + 2048 := by decide +kernel
/-- The flushed territory, whose core 0 has one page in place, with LZ or without; what of it is stored or on its way to the save area. -/
def save1 (lz : Bool) (store : List SavedPage) (w : List Saving) : SaveImage :=
  { save0 with flushed := true, kept := [10], lmpu := [(10, if lz then 11 else 3)], store := store, writing := w }
def sSave (lz : Bool) (owner : Nat) (store : List SavedPage) (w : List Saving) : State :=
  let s := (sSusp (save1 lz store w) [] 9).modFab fun f => { f with tlb := saveTlb }
  ((s.setJob 2 { Job.reset with anchor := 0 }).setTile 0 ⟨owner, false⟩).modCore 0 fun c => { c with lastRan := none }
abbrev pageHyps (lz : Bool) (owner page : Nat) (store : List SavedPage) (w : List Saving) : Prop :=
  let s := sSave lz owner store w
  let v := save1 lz store w
  s.victimOf 0 page = some (1, v) ∧ v.restoring = false ∧ (s.job 1).saved = some v ∧ (s.job 1).cbBase.toNat / 4096 = 2 ∧
  (s.job 1).conf = false ∧ v.tiles.length ≤ 1024 ∧ (s.job 1).saveArea.toNat < 2 ^ 52 ∧ Spec.rising s.threads ∧ s.ms.weak = [] ∧
  v.lazy 0 10 = lz
def page0 : SavedPage := ⟨0, 10, [], [], none⟩
theorem witness_PagesAreSavedAndClaimed : pageHyps false 1 10 [] [] ∧ (save1 false [] []).has 0 10 = false ∧ pageHyps false 1 1 [] [] ∧
    (save1 false [] []).has 0 1 = false := by decide +kernel
theorem witness_PagesAreSavedAndClaimed_nothing : pageHyps true 2 10 [] [] ∧ pageHyps false 1 10 [] [saving0 0 0x1000000 64] ∧
    pageHyps false 1 10 [page0] [] ∧ (save1 false [page0] []).has 0 10 = true := by decide +kernel
abbrev claimHyps (lz : Bool) (store : List SavedPage) (w : List Saving) : Prop :=
  let s := sSave lz 2 store w
  pageHyps lz 2 10 store w ∧ (s.core 0).lastRan = none ∧ s.owner (0 / 8) = 2 ∧
  (∀ e ∈ s.jobs, ∀ x ∈ e.2.saved, ∀ k ∈ x.kept, k / 48 = 0 → 10 ≤ k % 48) ∧ (save1 lz store w).kept.Nodup ∧ Memory.wf s.ms.mem = true ∧
  Spec.rising s.jobs ∧ (s.job 2).cbBase.toNat % 4096 = 0 ∧ ((s.job 2).image.flatMap fun x => leBytes 4 x.toNat).length ≤ 4096
theorem witness_PagesAreSavedAndClaimed_claims : claimHyps true [] [] ∧ claimHyps false [] [] ∧ claimHyps false [page0] [] ∧
    claimHyps false [page0] [saving0 0 0x1000000 64] := by decide +kernel
/-- The flushed territory with the records of its eight cores. -/
def save2 (store : List SavedPage) : SaveImage :=
  { save0 with flushed := true, engines := (List.range 8).map fun p => ⟨p, Core.reset, []⟩, store := store }
theorem witness_ImagesAreOpened_begins : ∃ j ∈ (sSusp (save2 []) [] 9).liveJob? 1, j.saved = some (save2 []) ∧ (save2 []).flushed = true ∧
    (save2 []).restoring = false ∧ (save2 []).writing = [] ∧ j.status = .suspended ∧
    ∀ x ∈ (save2 []).tiles, ((sSusp (save2 []) [] 9).owner x % 512 = 0 ∨ (sSusp (save2 []) [] 9).owner x = 1) ∧
      ∀ m ∈ (sSusp (save2 []) [] 9).moves, m.tile ≠ x := by decide +kernel
/-- A confidential image whose first chunk is being read back: `got` has come. -/
def chunk0 : SavedPage := ⟨0, 10, [1, 2, 3], [], some (4, 1, 2)⟩
def open0 (got : List (Word × List Byte)) : SaveImage :=
  { save2 [chunk0, ⟨0, 11, [], [], some (4, 3, 4)⟩] with restoring := true, got := got }
def sOpen (got : List (Word × List Byte)) : State :=
  (sSusp (open0 got) [] 9).modLan fun l => { l with slots := [(0, ⟨0, 0, 0, 4⟩)] }
def run (i : Nat) : Word := 0x103A000 + BitVec.ofNat 64 (512 * i)
/-- Its runs as they were stored, its tag and the header. -/
def stored0 (tag : Nat) : List (Word × List Byte) :=
  ((List.range 8).map fun i => (run i, ((((List.range 4096).map (Config.chunkByte 4 1 [1, 2, 3])).drop (512 * i)).take 512))) ++
    [(0x102F2A0, leBytes 16 tag), (0x1000000, leBytes 16 1)]
/-- The job that is being read back. -/
def openJob (got : List (Word × List Byte)) : Job :=
  { sMap.job 1 with status := .suspended, saved := some (open0 got), conf := true, saveArea := 0x1000000 }
theorem open_got (got : List (Word × List Byte)) : (open0 got).got = got := rfl
theorem open_reads (got : List (Word × List Byte)) :
    Spec.chunkReads (openJob got) (open0 got) chunk0 = Spec.chunkReads (openJob []) (open0 []) chunk0 := rfl
theorem witness_ImagesAreOpened (got : List (Word × List Byte)) : (sOpen got).liveJob? 1 = some (openJob got) ∧
    (openJob got).saved = some (open0 got) ∧ (open0 got).store[(open0 got).opened]? = some chunk0 ∧ (open0 got).tiles.length ≤ 1024 ∧
    (openJob got).saveArea = 0x1000000 ∧ chunk0.page < 48 ∧ (open0 got).opened + 1 < (open0 got).store.length ∧
    (openJob got).status ≠ .frozen ∧ (sOpen got).slotInst (openJob got).keyslot = 4 ∧
    Spec.chunkReads (openJob got) (open0 got) chunk0 = (List.range 8).map run ++ [0x102F2A0, 0x1000000] :=
  ⟨Laws.mapGet?_mapSet_self _ _ _, rfl, rfl, (by decide : ([0] : List Nat).length ≤ 1024), rfl, by decide, (by decide : 0 + 1 < 2), by simp [openJob],
    (by decide +kernel : (sOpen []).slotInst (openJob []).keyslot = 4), (open_reads got).trans (by decide +kernel)⟩
theorem chunks_join : ∀ (n : Nat) (l : List Byte), l.length ≤ 512 * n → ((List.range n).flatMap fun i => (l.drop (512 * i)).take 512) = l
  | 0, l, h => by simp at h; simp [h]
  | n + 1, l, h => by
    rw [List.range_succ_eq_map, List.flatMap_cons, List.flatMap_map]
    have := chunks_join n (l.drop 512) (by simp; omega)
    simp only [List.drop_drop] at this
    simp only [Nat.mul_zero, List.drop_zero, Nat.succ_eq_add_one, Nat.mul_add, Nat.mul_one, Nat.add_comm (512 * _) 512, this,
      List.take_append_drop]
/-- What has come for a run, and for another address. -/
theorem run_find (f : Nat → List Byte) (l : List (Word × List Byte)) (i : Nat) (h : i < 8) :
    ((((List.range 8).map fun i => (run i, f i)) ++ l).find? fun g => decide (g.1 = run i)) = some (run i, f i) := by
  match i, h with
  | 0, _ | 1, _ | 2, _ | 3, _ | 4, _ | 5, _ | 6, _ | 7, _ => rfl
theorem rest_find (f : Nat → List Byte) (x y : List Byte) :
    (((((List.range 8).map fun i => (run i, f i)) ++ [((0x102F2A0 : Word), x), (0x1000000, y)]).find? fun g => decide (g.1 = 0x102F2A0)) =
      some (0x102F2A0, x)) ∧
    ((((List.range 8).map fun i => (run i, f i)) ++ [((0x102F2A0 : Word), x), (0x1000000, y)]).find? fun g => decide (g.1 = 0x1000000)) =
      some (0x1000000, y) := ⟨rfl, rfl⟩
/-- It opens; with another tag it does not. -/
theorem witness_ImagesAreOpened_opens (n : Nat) :
    (∀ a ∈ (List.range 8).map run ++ [0x102F2A0, 0x1000000], ∃ g ∈ (open0 (stored0 n)).got, g.1 = a) ∧
    ((List.range 8).flatMap fun i => Spec.readBack (open0 (stored0 n)) (run i)) = (List.range 4096).map (Config.chunkByte 4 1 chunk0.data) ∧
    Spec.readBack (open0 (stored0 n)) 0x102F2A0 = leBytes 16 n ∧ Spec.readBack (open0 (stored0 n)) 0x1000000 = leBytes 16 1 := by
  refine ⟨fun a ha => ?_, ?_, ?_, ?_⟩
  · obtain ⟨g, hm, e⟩ := List.mem_map.mp (show a ∈ (stored0 n).map (·.1) from by
      simp only [stored0, List.map_append, List.map_map, List.map_cons, List.map_nil]
      exact ha)
    exact ⟨g, hm, e⟩
  · have h : ∀ i ∈ List.range 8, Spec.readBack (open0 (stored0 n)) (run i) =
        (((List.range 4096).map (Config.chunkByte 4 1 [1, 2, 3])).drop (512 * i)).take 512 := fun i hi => by
      simp only [Spec.readBack, open_got, stored0, run_find _ _ i (List.mem_range.mp hi), Option.map_some, Option.getD_some]
    rw [List.flatMap_congr h]
    exact chunks_join 8 _ (by rw [List.length_map, List.length_range])
  · simp only [Spec.readBack, open_got, stored0, (rest_find _ _ _).1, Option.map_some, Option.getD_some]
  · simp only [Spec.readBack, open_got, stored0, (rest_find _ _ _).2, Option.map_some, Option.getD_some]
theorem witness_ImagesAreOpened_opens_not : Spec.readBack (open0 (stored0 3)) 0x102F2A0 ≠ leBytes 16 2 := by
  rw [(witness_ImagesAreOpened_opens 3).2.2.1]
  decide
/-- All has come but the fourth run. -/
def places : List Word := (List.range 8).map run ++ [0x102F2A0, 0x1000000]
def but3 : List (Word × List Byte) := (places.filter fun a => decide (a ≠ run 3)).map fun a => (a, [])
theorem witness_ImagesAreOpened_reads : (∀ g ∈ but3, g.1 ≠ run 3) ∧ (∀ b ∈ places, b ≠ run 3 → ∃ g ∈ but3, g.1 = b) ∧
    chunk0.pcn / 8 ≠ homeTile chunk0.pcn (run 3) :=
  ⟨by decide +kernel, fun b hb hn => ⟨(b, []), List.mem_map.mpr ⟨b, List.mem_filter.mpr ⟨hb, by simpa using hn⟩, rfl⟩, rfl⟩, by decide +kernel⟩
theorem witness_ImagesAreOpened_no_trip : Spec.noTrip (sOpen but3) 7 := by decide +kernel
theorem witness_TerritoriesResume :
    let v := { save2 [] with restoring := true }
    ∃ j ∈ (sSusp v [] 9).liveJob? 1, j.saved = some v ∧ v.opened = v.store.length ∧ (∃ e ∈ (sSusp v [] 9).threads, e.2.job = 1) ∧
    v.engines.map (·.pcn) = Spec.slotCores v ∧ v.tiles.Nodup := by decide +kernel
theorem witness_TerritoriesResume_records (r : EngineRec) (h : r ∈ (save2 []).engines) :
    Spec.recordFits (sSusp (save2 []) [] 9) r ∧ Spec.recordHolds (sSusp (save2 []) [] 9) r [] := by
  have ha : ∀ i : Fin 4, (Core.reset.acc[i]).elems.length = 256 ∧ leNat ((([] : List Byte).drop i.val).take 1) = (Core.reset.acc[i]).mode.code ∧
      ∀ e, e < 256 → leNat ((([] : List Byte).drop (0x40 + 0x800 * i.val + 8 * e)).take 8) = ((Core.reset.acc[i]).elems.getD e 0).toNat := by
    decide +kernel
  obtain ⟨p, -, rfl⟩ := List.mem_map.mp h
  refine ⟨⟨fun q h => ?_, fun i => (ha i).1, .nil, fun e he => by simp at he⟩, fun i => (ha i).2, fun q off h => ?_, fun i l _ h => ?_⟩
  · rcases h with rfl | rfl <;> exact ⟨Nat.zero_le 4, fun id h => by simp [Core.reset] at h⟩
  · rcases h with ⟨rfl, rfl⟩ | ⟨rfl, rfl⟩ <;> exact ⟨by simp [Core.reset, leNat], fun k id o h => by simp [Core.reset] at h⟩
  · simp [mapGet?] at h
/-- Stored pages of the context area, of an engine record, in place, and in the save area. -/
def save3 : SaveImage :=
  { save2 ([0, 64, 10, 11].map fun k => ⟨0, k, List.replicate 4096 1, [], none⟩) with restoring := true, kept := [10] }
theorem witness_TerritoriesResume_pages : (∀ x ∈ save3.store, ∀ y ∈ save3.store, x.pcn = y.pcn → x.page = y.page → x = y) ∧
    (∀ y ∈ save3.store, y.data.length = 4096) ∧ ((sSusp save3 [] 9).job 1).cbBase.toNat / 4096 = 2 ∧
    (∃ th ∈ mapGet? (sSusp save3 [] 9).threads 1, th.job = 1 ∧ th.image = some 0 ∧ th.pcn = 0) ∧ (0 * 48 + 11) ∉ save3.kept ∧
    Memory.wf (sSusp save3 [] 9).ms.mem = true := by
  refine ⟨fun x hx y hy _ h => ?_, fun y hy => ?_, by decide +kernel, by decide +kernel, by decide +kernel, by decide +kernel⟩
  · obtain ⟨a, -, rfl⟩ := List.mem_map.mp hx
    obtain ⟨b, -, rfl⟩ := List.mem_map.mp hy
    obtain rfl : a = b := h
    rfl
  · obtain ⟨a, -, rfl⟩ := List.mem_map.mp hy
    exact List.length_replicate

/-! ### Engines -/
/-- A command at the head of core 0's copy queue, with an earlier operation of its thread or none. -/
def opCpy (d src len : Word) : Op := { op0 (.cpy d src len) with phase := .queued }
def sCpy (d src len : Word) (more : AMap Op) : State :=
  { sMap with ops := more ++ [(5, opCpy d src len)], nextId := 9 }.modMyCore fun c => { c with copyQ := [5, 8] }
/-- An operation of the same thread on stream 1 that has not been counted. -/
def earlier : AMap Op := [(4, op0 (.join 0x1000000))]
abbrev copyHyps (d src len : Word) (more : AMap Op) : Prop :=
  let s := sCpy d src len more
  (s.core 0).copyQ = [5, 8] ∧ s.op? 5 = some (opCpy d src len) ∧ (opCpy d src len).phase = .queued ∧ (opCpy d src len).wrote = false ∧
  (s.core 0).copyBusy = none ∧ s.enginesRun 0 = true ∧ (opCpy d src len).tok = some 3 ∧ s.fab.trips = []
abbrev copyProbe (d src len : Word) (rd wr : Bool) (a : Word) : Probe := (sCpy d src len []).probeRange (opCpy d src len) rd wr a len.toNat
theorem witness_CopiesStart : copyHyps 0x3010 0x3400 100 [] ∧ Spec.edges (sCpy 0x3010 0x3400 100 []) 5 (opCpy 0x3010 0x3400 100) ∧
    copyProbe 0x3010 0x3400 100 true false 0x3400 = .ok ∧ copyProbe 0x3010 0x3400 100 false true 0x3010 = .ok := by decide +kernel
theorem witness_CopiesStart_nothing : copyHyps 0x3010 0x3400 0 [] ∧ Spec.edges (sCpy 0x3010 0x3400 0 []) 5 (opCpy 0x3010 0x3400 0) := by
  decide +kernel
theorem witness_CopiesStart_fails : copyHyps 0x3010 0x3400 0x1000001 [] ∧ 2 ^ 24 < (0x1000001 : Word).toNat ∧
    Spec.edges (sCpy 0x3010 0x3400 0x1000001 []) 5 (opCpy 0x3010 0x3400 0x1000001) := by decide +kernel
theorem witness_CopiesStart_probe : copyHyps 0x3010 0x1FFFFC0 100 [] ∧
    copyProbe 0x3010 0x1FFFFC0 100 true false 0x1FFFFC0 = .fail 0x01 0x1FFFFC0 ∧
    copyHyps 0x1FFFFC0 0x3010 100 [] ∧ copyProbe 0x1FFFFC0 0x3010 100 true false 0x3010 = .ok ∧
    copyProbe 0x1FFFFC0 0x3010 100 false true 0x1FFFFC0 = .fail 0x01 0x3010 := by decide +kernel
/-- The same while the page at VA 0x1000000 moves. -/
def sCpyMig (d src : Word) : State := (sCpy d src 100 []).modFab fun f => { f with migrating := [(1, 0x100, objKey)] }
theorem witness_CopiesStart_waits :
    (sCpyMig 0x3010 0x1000000).probeRange (opCpy 0x3010 0x1000000 100) true false 0x1000000 100 = .wait ∧
    (sCpyMig 0x1000000 0x3010).probeRange (opCpy 0x1000000 0x3010 100) true false 0x3010 100 = .ok ∧
    (sCpyMig 0x1000000 0x3010).probeRange (opCpy 0x1000000 0x3010 100) false true 0x1000000 100 = .wait ∧
    Spec.edges (sCpyMig 0x3010 0x1000000) 5 (opCpy 0x3010 0x1000000 100) := by decide +kernel
theorem witness_CopiesStart_held : copyHyps 0x3010 0x3400 100 earlier ∧
    ¬Spec.edges (sCpy 0x3010 0x3400 100 earlier) 5 (opCpy 0x3010 0x3400 100) := by decide +kernel
/-- A started command with one piece left. -/
def wrote0 : Piece := ⟨none, none, 0, some []⟩
def opPiece (k : OpKind) (p : Piece) : Op := { op0 k with phase := .started, pieces := [wrote0, p] }
theorem others_written {p : Piece} : ∀ j q, [wrote0, p][j]? = some q → j ≠ 1 → q = ⟨none, none, 0, some []⟩
  | 0, _, h, _ => (Option.some.inj h).symm
  | 1, _, _, n => absurd rfl n
  | _ + 2, _, h, _ => by simp at h
/-- The bank of core 8, on the tile to the south, belongs to job 1; an access of core 0's tile to it is at stage `x`. -/
def sFar (s : State) (x : Option TripStage) (a : Word) (n : Nat) (wr : Bool) : State :=
  (((s.setTile 1 ⟨1, false⟩).modMs fun m => { m with lmpu := (8 * 48 + 3, 3) :: m.lmpu }).modFab fun f => { f with
    trips := x.toList.map fun x => ⟨8, 5, 0, 0, 1, a, n, wr, x⟩ })
def readPiece (a : Word) : Piece := ⟨some a, none, 100, some [1, 2, 3]⟩
/-- A read piece of core `c`'s bank at 0x3010 of the window address `a`, of which 3 bytes have come. -/
abbrev readHyps (s : State) (a : Word) (c : Nat) (cw : Bool) : Prop :=
  let o := opPiece (.mload 0 0 1) (readPiece a)
  s.op? 5 = some o ∧ o.phase = .started ∧ o.pieces[1]? = some (readPiece a) ∧ (OpKind.mload 0 0 1).isMatrix = true ∧
  (readPiece a).data.getD [] = [1, 2, 3] ∧ 3 < (readPiece a).len ∧ o.recd = none ∧ o.copyLink = none ∧
  45 = min ((readPiece a).len - 3) (64 - (a + 3).toNat % 64) ∧ winOf 0 (a + BitVec.ofNat 64 3) = .bank c 0x3013 cw ∧
  Spec.grants s 1 c 0x3013 45 true false ∧ s.poisonedIn (bankKey c 0x3013) 45 = none
theorem witness_EnginePiecesMove_reads :
    let s := sOp (opPiece (.mload 0 0 1) (readPiece 0x3010))
    readHyps s 0x3010 0 false ∧ Spec.atItsHome s ⟨5, 5, 0, 0, 0, 0x3013, 45, false, .there⟩ := by decide +kernel
abbrev farAddr : Word := 0x8000000001003010
def sFarRead (x : Option TripStage) : State := sFar (sOp (opPiece (.mload 0 0 1) (readPiece farAddr))) x (farAddr + 3) 45 false
theorem witness_EnginePiecesMove_far_reads : Spec.noTrip (sFarRead none) 5 ∧
    readHyps (sFarRead (some .there)) farAddr 8 true ∧ Spec.atItsHome (sFarRead (some .there)) ⟨8, 5, 0, 0, 1, farAddr + 3, 45, false, .there⟩ ∧
    Spec.onlyTrip (sFarRead (some (.done (.ok [7])))) ⟨8, 5, 0, 0, 1, farAddr + 3, 45, false, .done (.ok [7])⟩ := by decide +kernel
def writePiece (a : Word) : Piece := ⟨none, some a, 8, some [1, 2, 3, 4, 5, 6, 7, 8]⟩
def sWrite (k : OpKind) (a : Word) : State := (sOp (opPiece k (writePiece a))).modMyCore fun c => { c with copyBusy := some 5 }
abbrev writeHyps (s : State) (k : OpKind) (a : Word) (c : Nat) (cw : Bool) : Prop :=
  s.op? 5 = some (opPiece k (writePiece a)) ∧ (opPiece k (writePiece a)).phase = .started ∧
  (opPiece k (writePiece a)).pieces[1]? = some (writePiece a) ∧ ([1, 2, 3, 4, 5, 6, 7, 8] : List Byte).length = (writePiece a).len ∧
  winOf 0 a = .bank c 0x3008 cw ∧ Spec.grants s 1 c 0x3008 8 false true ∧ Spec.looked s ∧
  s.poisonedPartly (bankKey c 0x3008) 8 = none ∧ Memory.wf s.ms.mem = true ∧ (opPiece k (writePiece a)).tok = some 3 ∧
  (s.core 0).copyBusy = some 5
theorem witness_EnginePiecesMove_writes : writeHyps (sWrite (.cpy 0x3008 0x4000 8) 0x3008) (.cpy 0x3008 0x4000 8) 0x3008 0 false ∧
    writeHyps (sWrite (.mdrain 0x3008 0 0 0 0 1 true) 0x3008) (.mdrain 0x3008 0 0 0 0 1 true) 0x3008 0 false ∧
    Spec.atItsHome (sWrite (.cpy 0x3008 0x4000 8) 0x3008) ⟨5, 5, 0, 0, 0, 0x3008, 8, true, .there⟩ ∧
    ∀ j q, (opPiece (.cpy 0x3008 0x4000 8) (writePiece 0x3008)).pieces[j]? = some q → j ≠ 1 → q = ⟨none, none, 0, some []⟩ :=
  ⟨by decide +kernel, by decide +kernel, by decide +kernel, others_written⟩
def sFarWrite (x : Option TripStage) : State :=
  sFar (sWrite (.cpy (farAddr - 8) 0x4000 8) (farAddr - 8)) x (farAddr - 8) 8 true
theorem witness_EnginePiecesMove_far_writes : Spec.noTrip (sFarWrite none) 5 ∧
    writeHyps (sFarWrite (some .there)) (.cpy (farAddr - 8) 0x4000 8) (farAddr - 8) 8 true ∧
    Spec.atItsHome (sFarWrite (some .there)) ⟨8, 5, 0, 0, 1, farAddr - 8, 8, true, .there⟩ ∧
    Spec.onlyTrip (sFarWrite (some (.done (.ok [])))) ⟨8, 5, 0, 0, 1, farAddr - 8, 8, true, .done (.ok [])⟩ := by decide +kernel
/-- A list walk whose next element stands at `e`; the predicate word is at `pred`. -/
def opList (e pred : Word) (aux : Nat) (more : List Byte) : Op :=
  { op0 (.cpyl 0x2F00) with
    phase := .started, aux := aux, result := leBytes 8 e.toNat ++ leBytes 8 pred.toNat ++ leBytes 4 2 ++ more }
/-- The element: what it copies, its length and its control. -/
def elem (len ctl : Nat) : List Byte := [0x3200, 0x3300, len + ctl * 2 ^ 32, 0].flatMap (leBytes 8)
def sList (o : Op) (len ctl : Nat) : State :=
  (sOp o).modMs fun m => { m with mem := memWrite (memWrite m.mem 0x3000 (elem len ctl)) 0x3100 [0x20] }
abbrev listHyps (s : State) (o : Op) (e : Word) (c : Nat) (cw : Bool) (bs : List Byte) (len ctl : Nat) : Prop :=
  s.op? 5 = some o ∧ o.phase = .started ∧ o.kind = .cpyl 0x2F00 ∧ (∀ q ∈ o.pieces, q = ⟨none, none, 0, some []⟩) ∧
  e.toNat = leNat (o.result.take 8) ∧ (∀ x ∈ s.fab.trips, x.who = 5 → x.n ≠ 0) ∧ e ≠ 0 ∧ o.aux < leNat ((o.result.drop 16).take 4) ∧
  e.toNat % 32 = 0 ∧ winOf o.pcn e = .bank c 0x3000 cw ∧ o.result.length ≤ 40 ∧
  leNat ((bs.drop 16).take 4) = len ∧ leNat ((bs.drop 20).take 4) = ctl ∧ leNat ((bs.drop 0).take 8) = 0x3200 ∧
  leNat ((bs.drop 8).take 8) = 0x3300
/-- The element at 0x3000 of the own bank, after one that has been copied or as the first. -/
abbrev nearHyps (aux len ctl : Nat) : Prop := listHyps (sList (opList 0x3000 0x3100 aux []) len ctl) (opList 0x3000 0x3100 aux []) 0x3000 0 false (elem len ctl) len ctl
theorem near_read {s : State} {o : Op} {a : Word} {n off : Nat} {bs : List Byte} (h : winOf o.pcn a = .bank 0 off false ∧ off + n ≤ 0x30000 ∧
    0 / 8 = o.pcn / 8 ∧ (∀ x ∈ s.fab.trips, x.who = 5 → x.a ≠ a ∨ x.n ≠ n) ∧ Spec.grants s o.job 0 off n true false ∧
    s.poisonedIn (bankKey 0 off) n = none ∧ bs = Spec.bytes s (bankKey 0 off) n) : Spec.hasRead s 5 o a n bs :=
  ⟨0, off, false, h.1, h.2.1, .inl h.2.2⟩
theorem far_read {s : State} {o : Op} {a : Word} {n off : Nat} {bs : List Byte} (h : winOf o.pcn a = .bank 8 off true ∧ off + n ≤ 0x30000 ∧
    8 / 8 ≠ o.pcn / 8 ∧ ∃ x ∈ s.fab.trips, x = ⟨x.id, 5, 0, o.pcn / 8, 8 / 8, a, n, false, .done (.ok bs)⟩ ∧
    ∀ y ∈ s.fab.trips, y.id = x.id ∨ (y.who = 5 ∧ y.a = a ∧ y.n = n) → y = x) : Spec.hasRead s 5 o a n bs :=
  ⟨8, off, true, h.1, h.2.1, .inr h.2.2⟩
theorem witness_ListsAreWalked_ends : (sOp (opList 0x3000 0x3100 2 [])).op? 5 = some (opList 0x3000 0x3100 2 []) ∧
    (opList 0x3000 0x3100 2 []).tok = some 3 ∧
    leNat (((opList 0x3000 0x3100 2 []).result.drop 16).take 4) ≤ (opList 0x3000 0x3100 2 []).aux ∧
    leNat ((opList 0 0x3100 0 []).result.take 8) = (0 : Word).toNat := by decide +kernel
/-- The first element: misaligned, or in no window. -/
abbrev firstHyps (e : Word) : Prop := (sOp (opList e 0x3100 0 [])).op? 5 = some (opList e 0x3100 0 []) ∧ e ≠ 0 ∧
  e.toNat = leNat ((opList e 0x3100 0 []).result.take 8) ∧ (opList e 0x3100 0 []).aux < leNat (((opList e 0x3100 0 []).result.drop 16).take 4) ∧
  (opList e 0x3100 0 []).wrote = false
theorem witness_ListsAreWalked_first : firstHyps 0x3008 ∧ (0x3008 : Word).toNat % 32 ≠ 0 ∧ firstHyps 0x30000 ∧
    (0x30000 : Word).toNat % 32 = 0 ∧ inWindow 0 0x30000 = false := by decide +kernel
theorem witness_ListsAreWalked_copies : nearHyps 1 100 0 ∧ engRange 0 0x3200 100 = true ∧ engRange 0 0x3300 100 = true ∧
    (sList (opList 0x3000 0x3100 1 []) 100 0).probeRange (opList 0x3000 0x3100 1 []) true false 0x3200 100 = .ok ∧
    (sList (opList 0x3000 0x3100 1 []) 100 0).probeRange (opList 0x3000 0x3100 1 []) false true 0x3300 100 = .ok ∧
    Spec.hasRead (sList (opList 0x3000 0x3100 1 []) 100 0) 5 (opList 0x3000 0x3100 1 []) 0x3000 32 (elem 100 0) :=
  ⟨by decide +kernel, by decide +kernel, by decide +kernel, by decide +kernel, by decide +kernel, near_read (off := 0x3000) (by decide +kernel)⟩
/-- The element stands in the bank of core 8, and has not been asked for or has come. -/
def opFar (hop : Bool) : Op := { opList (farAddr - 16) 0x3100 1 [] with hop := hop }
def sFarList (hop : Bool) (x : Option TripStage) : State := sFar (sList (opFar hop) 0 0) x (farAddr - 16) 32 false
theorem witness_ListsAreWalked_far (hop : Bool) : Spec.noTrip (sFarList hop none) 5 ∧
    listHyps (sFarList hop none) (opFar hop) (farAddr - 16) 8 true (elem 100 0) 100 0 := by
  revert hop; decide +kernel
theorem witness_ListsAreWalked_far_copies :
    let s := sFarList true (some (.done (.ok (elem 100 0))))
    listHyps s (opFar true) (farAddr - 16) 8 true (elem 100 0) 100 0 ∧
    Spec.hasRead s 5 (opFar true) (farAddr - 16) 32 (elem 100 0) ∧
    s.probeRange (opFar true) true false 0x3200 100 = .ok ∧ s.probeRange (opFar true) false true 0x3300 100 = .ok :=
  ⟨by decide +kernel, far_read (off := 0x3000) (by decide +kernel), by decide +kernel, by decide +kernel⟩
theorem witness_ListsAreWalked_nothing : nearHyps 1 0 63 ∧
    Spec.hasRead (sList (opList 0x3000 0x3100 1 []) 0 63) 5 (opList 0x3000 0x3100 1 []) 0x3000 32 (elem 0 63) :=
  ⟨by decide +kernel, near_read (off := 0x3000) (by decide +kernel)⟩
theorem witness_ListsAreWalked_skips : nearHyps 1 100 0xC5 ∧
    Spec.hasRead (sList (opList 0x3000 0x3100 1 []) 100 0xC5) 5 (opList 0x3000 0x3100 1 []) 0x3000 32 (elem 100 0xC5) ∧
    leNat (((opList 0x3000 0x3100 1 []).result.drop 8).take 8) = 0x3100 ∧
    Spec.hasRead (sList (opList 0x3000 0x3100 1 []) 100 0xC5) 5 (opList 0x3000 0x3100 1 []) 0x3100 8 (leBytes 8 0x20) ∧
    leNat (leBytes 8 0x20) / 2 ^ (0xC5 % 64) % 2 = 0xC5 / 128 % 2 ∧ 0xC5 / 64 % 2 = 1 :=
  ⟨by decide +kernel, near_read (off := 0x3000) (by decide +kernel), by decide +kernel, near_read (off := 0x3100) (by decide +kernel),
    by decide +kernel, by decide +kernel⟩
/-- The predicate word stands in the bank of core 8: the element has been read, and the word is to be asked for or has come. -/
def opPred (more : List Byte) : Op := opList 0x3000 (farAddr - 16) 1 more
theorem witness_ListsAreWalked_far_predicate :
    let s := sFar (sList (opPred []) 100 0xC5) none 0 8 false
    listHyps s (opPred []) 0x3000 0 false (elem 100 0xC5) 100 0xC5 ∧ Spec.hasRead s 5 (opPred []) 0x3000 32 (elem 100 0xC5) ∧
    leNat (((opPred []).result.drop 8).take 8) = (farAddr - 16).toNat ∧ winOf 0 (BitVec.ofNat 64 (farAddr - 16).toNat) = .bank 8 0x3000 true ∧
    ∀ x ∈ s.fab.trips, x.who = 5 → x.n ≠ 8 :=
  ⟨by decide +kernel, near_read (off := 0x3000) (by decide +kernel), by decide +kernel, by decide +kernel, by decide +kernel⟩
theorem witness_ListsAreWalked_far_predicate_has_come :
    let o := opPred (List.replicate 20 0 ++ elem 100 0xC5)
    let s := sFar (sList o 100 0xC5) (some (.done (.ok (leBytes 8 0x20)))) (farAddr - 16) 8 false
    s.op? 5 = some o ∧ o.result.length = 72 ∧ elem 100 0xC5 = o.result.drop 40 ∧ Spec.hasRead s 5 o (farAddr - 16) 8 (leBytes 8 0x20) :=
  ⟨by decide +kernel, by decide +kernel, by decide +kernel, far_read (off := 0x3000) (by decide +kernel)⟩
theorem witness_ListsAreWalked_fields : nearHyps 0 0x1000001 0 ∧ nearHyps 1 64 256 ∧ (opList 0x3000 0x3100 0 []).wrote = false ∧
    2 ^ 24 < 0x1000001 ∧
    Spec.hasRead (sList (opList 0x3000 0x3100 0 []) 0x1000001 0) 5 (opList 0x3000 0x3100 0 []) 0x3000 32 (elem 0x1000001 0) ∧
    Spec.hasRead (sList (opList 0x3000 0x3100 1 []) 64 256) 5 (opList 0x3000 0x3100 1 []) 0x3000 32 (elem 64 256) :=
  ⟨by decide +kernel, by decide +kernel, by decide +kernel, by decide +kernel, near_read (off := 0x3000) (by decide +kernel),
    near_read (off := 0x3000) (by decide +kernel)⟩
/-- A multicast read of 600 bytes that has asked for one line. -/
def askedPiece : Piece := ⟨none, none, 1, some [0]⟩
def opMcrd (p : Pcn) (aux : Nat) : Op :=
  { op0 (.mcrd 0x3000 0x1000010 0x2F00) with
    pcn := p, phase := .started, aux := aux, result := List.replicate 12 0 ++ leBytes 4 600, pieces := [askedPiece, ⟨none, none, 1, none⟩] }
/-- Issued on core `p`, with fills and deliveries on their way; the request for line 1 from tile 0 is at stage `x`. -/
def sMcrd (p : Pcn) (aux : Nat) (fills : List Fill) (ds : List Delivery) (x : Option TripStage) : State :=
  (sOp (opMcrd p aux)).modFab fun f => { f with
    fills := fills, deliveries := ds, trips := x.toList.map fun x => ⟨8, 5, 0, 0, 165, 0x1000200, 104, false, x⟩ }
def found0 (x : Xlat) : Option (Nat × Nat × Word × AccessEntry) := match x with | .ok o p e m => some (o, p, e, m) | _ => none
def line0 : Nat := sliceNo 0 0x1000200
def place0 : Int := 0x3000 + 0x1000200 - 0x1000010
abbrev mcrdHyps (p : Pcn) (aux : Nat) (fills : List Fill) (ds : List Delivery) (x : Option TripStage) : Prop :=
  let s := sMcrd p aux fills ds x
  let o := opMcrd p aux
  s.op? 5 = some o ∧ o.phase = .started ∧ 600 = leNat ((o.result.drop 12).take 4) ∧
  0x1000200 = ((0x1000010 : Word).toNat / 512 + 1) * 512 ∧ 0x1000200 < (0x1000010 : Word).toNat + 600 ∧ 1 < o.pieces.length ∧
  (∀ q ∈ o.pieces.take 1, q.wr = none ∧ q.len ≤ (q.data.getD []).length) ∧ homeTile p 0x1000200 = 165 ∧ s.linesOut 5 < 16 ∧
  104 = min ((0x1000010 : Word).toNat + 600) (0x1000200 + 512) - 0x1000200 ∧
  (∃ x ∈ found0 (s.xlat 1 0x1000200 104 ⟨true, false, false, true⟩), x.1 = tagDie 1 ∧ x.2.1 = 0x20200 ∧ x.2.2.1 = leaf 2) ∧
  tagDie 1 < 8 ∧ ownerKey 0 0x20200 = ownerKey 0 0x20200 / 512 * 512 ∧ s.lineHeld (ownerKey 0 0x20200) = false ∧ s.fab.refusals = []
/-- It is looked at on the home tile: issued there, or come from another. -/
abbrev mcrdAtHome (fills : List Fill) (ds : List Delivery) : Prop :=
  (mcrdHyps 1320 1 fills ds none ∧ 1320 / 8 = 165 ∧ Spec.noTrip (sMcrd 1320 1 fills ds none) 5) ∧
  mcrdHyps 0 2 fills ds (some .there) ∧ Spec.onlyTrip (sMcrd 0 2 fills ds (some .there)) ⟨8, 5, 0, 0, 165, 0x1000200, 104, false, .there⟩ ∧
  ∃ q ∈ (opMcrd 0 2).pieces[1]?, (q.data.getD []).length < q.len
def fill0 (place : Int) : Fill := ⟨4, line0, ⟨true, 0, 1⟩, none, 0x1000200, leaf 2, ownerKey 0 0x20200, some (1, place), [2]⟩
theorem witness_MulticastAsksForLines_sets_out : mcrdHyps 0 1 [] [] none ∧ 0 / 8 ≠ 165 ∧ Spec.noTrip (sMcrd 0 1 [] [] none) 5 := by
  decide +kernel
theorem witness_MulticastAsksForLines : mcrdAtHome [] [] ∧
    (sMcrd 1320 1 [] [] none).isResident line0 (ownerKey 0 0x20200) 512 = false := by decide +kernel
theorem witness_MulticastAsksForLines_joins : mcrdAtHome [fill0 place0] [] ∧
    [fill0 place0].find? (fun f => decide (f.slice = line0) && decide (f.line = ownerKey 0 0x20200)) = some (fill0 place0) ∧
    (fill0 place0).mcrd = some (1, place0) := by decide +kernel
theorem witness_MulticastAsksForLines_refused : mcrdAtHome [fill0 0] [] ∧ (fill0 0).mcrd ≠ some (1, place0) ∧
    [fill0 0].find? (fun f => decide (f.slice = line0) && decide (f.line = ownerKey 0 0x20200)) = some (fill0 0) ∧
    mcrdAtHome [] [⟨4, ownerKey 0 0x20200, 1, 0, [], [2]⟩] := by decide +kernel
/-- The delivery of a sector to core 0. -/
def part0 : DPart := ⟨0, 2, 0x3040, List.replicate 64 7⟩
def del0 : Delivery := ⟨4, objKey, 1, 0, [(part0, [5])], [5]⟩
def sDel : State := (sOp (opMcrd 0 1)).modFab fun f => { f with deliveries := [del0] }
abbrev deliveryHyps (s : State) : Prop := s.fab.deliveries.find? (fun y => decide (y.id = 4)) = some del0 ∧
  del0.parts.find? (fun y => decide (y.1.sector = 2) && decide (y.1.pcn = 0)) = some (part0, [5]) ∧ part0.data.length = 64 ∧
  s.fab.mesh = [] ∧ Memory.wf s.ms.mem = true ∧ s.op? 5 = some (opMcrd 0 1) ∧ (∃ p ∈ (opMcrd 0 1).pieces, (p.data.getD []).length < p.len)
theorem witness_MulticastDelivers : deliveryHyps sDel ∧ Spec.grants sDel 1 0 0x3040 64 false true ∧ Spec.looked sDel := by decide +kernel
theorem witness_MulticastDelivers_drops : deliveryHyps (sDel.modCore 0 fun c => { c with status := .scrub }) ∧
    ((sDel.modCore 0 fun c => { c with status := .scrub }).core 0).status = .scrub ∧
    deliveryHyps (sDel.setTile 0 ⟨2, false⟩) ∧ (sDel.setTile 0 ⟨2, false⟩).owner (0 / 8) ≠ 1 ∧
    ((sDel.setTile 0 ⟨2, false⟩).core 0).status ≠ .scrub ∧ deliveryHyps (sDel.modCore 0 fun c => { c with status := .dark }) ∧
    ((sDel.modCore 0 fun c => { c with status := .dark }).core 0).status = .dark ∧
    (sDel.modCore 0 fun c => { c with status := .dark }).owner (0 / 8) = 1 := by decide +kernel
/-- A matrix command at the head of core 0's queue, whose tile 1 holds `x`; the arbiter of cluster 0 stands at `w` after `g` grants. -/
def opMat (k : OpKind) : Op := { op0 k with phase := .queued, strm := none }
def sMat (k : OpKind) (w g : Nat) (x : Acc) : State :=
  ({ sMap with ops := [(5, opMat k)], nextId := 9 }.modMyCore fun c => { c with matQ := [5, 8], acc := c.acc.set 1 x }).modFab fun f => { f with
    matrix := [(0, ⟨none, w, g⟩)] }
def fp32Tile : Acc := ⟨.fp32, List.replicate 256 0x40490FDB⟩
abbrev matrixHyps (k : OpKind) (w g : Nat) (x : Acc) : Prop :=
  let s := sMat k w g x
  mapGet? s.fab.matrix 0 = some ⟨none, w, g⟩ ∧ (s.core 0).matQ = [5, 8] ∧ s.op? 5 = some (opMat k) ∧ (opMat k).phase = .queued ∧
  (opMat k).wrote = false ∧ s.fab.trips = [] ∧ (s.core 0).acc[(1 : AccIx)] = x ∧ s.enginesRun 0 = true ∧ Spec.edges s 5 (opMat k) ∧
  (s.core 0).wrrw = 1
theorem may_grant {s : State} {p g : Nat} {id : OpId} {rest : List OpId} {o : Op} (h : s.enginesRun p = true) (hw : g < (s.core p).wrrw.toNat)
    (hq : (s.core p).matQ = id :: rest) (ho : s.op? id = some o) (he : Spec.edges s id o) : Spec.mayGrant s p g :=
  ⟨h, hw, id, rest, o, hq, ho, .inl he⟩
theorem nothing_queued {s : State} {p g : Nat} (h : (s.core p).matQ = []) : ¬Spec.mayGrant s p g := fun ⟨_, _, _, _, _, hq, _⟩ => by
  rw [h] at hq
  cases hq
/-- The turn of core 0 goes on; comes to it from core 7, whose queue is empty; comes to it again past the seven others. -/
theorem turn_goes_on {k : OpKind} {x : Acc} (h : matrixHyps k 0 0 x) : Spec.turnTo (sMat k 0 0 x) 0 0 0 0 1 :=
  .inl ⟨rfl, rfl, may_grant h.2.2.2.2.2.2.2.1 (by rw [h.2.2.2.2.2.2.2.2.2]; decide) h.2.1 h.2.2.1 h.2.2.2.2.2.2.2.2.1⟩
theorem turn_comes {k : OpKind} {x : Acc} (h : matrixHyps k 7 0 x) : Spec.turnTo (sMat k 7 0 x) 0 7 0 0 1 :=
  .inr ⟨rfl, may_grant h.2.2.2.2.2.2.2.1 (by rw [h.2.2.2.2.2.2.2.2.2]; decide) h.2.1 h.2.2.1 h.2.2.2.2.2.2.2.2.1, nothing_queued rfl,
    1, by decide, by decide, rfl, fun i h1 h2 => absurd h2 (by omega)⟩
theorem turn_comes_again {k : OpKind} {x : Acc} (h : matrixHyps k 0 1 x) : Spec.turnTo (sMat k 0 1 x) 0 0 1 0 1 :=
  .inr ⟨rfl, may_grant h.2.2.2.2.2.2.2.1 (by rw [h.2.2.2.2.2.2.2.2.2]; decide) h.2.1 h.2.2.1 h.2.2.2.2.2.2.2.2.1,
    fun hm => absurd hm.2.1 (by rw [show (0 * 8 + 0 : Nat) = 0 from rfl, h.2.2.2.2.2.2.2.2.2]; decide), 8, by decide, by decide, rfl, fun i h1 h2 =>
      nothing_queued (match i, h1, h2 with | 1, _, _ | 2, _, _ | 3, _, _ | 4, _, _ | 5, _, _ | 6, _, _ | 7, _, _ => rfl)⟩
theorem witness_MatrixGrants : matrixHyps (.mzero 1 1) 0 0 fp32Tile ∧ matrixHyps (.mzero 1 1) 7 0 fp32Tile ∧
    matrixHyps (.mzero 1 1) 0 1 fp32Tile ∧ matrixHyps (.mzero 3 1) 0 0 fp32Tile ∧ matrixHyps (.mzero 0x801 1) 0 0 fp32Tile := by decide +kernel
abbrev plainCtl (ctl : Word) : Prop := ctl.toNat / 2 ^ 11 % 2 = 0 ∧ ctl.toNat / 2 ^ 28 = 0
abbrev loadGood (d ctl : Word) : Prop := plainCtl ctl ∧ ctl.toNat % 4 ≠ 3 ∧ ctl.toNat / 2 ^ 12 % 2 ^ 16 % 16 = 0 ∧
  64 ≤ ctl.toNat / 2 ^ 12 % 2 ^ 16 ∧ d.toNat % 16 = 0 ∧
  ∀ i, i < (if ctl.toNat % 4 = 2 then 8 else 16) → engRange 0 (d + BitVec.ofNat 64 (i * (ctl.toNat / 2 ^ 12 % 2 ^ 16))) 64 = true
theorem witness_MatrixGrants_load : matrixHyps (.mload 0x3010 0x50000 1) 0 0 fp32Tile ∧ loadGood 0x3010 0x50000 ∧
    matrixHyps (.mload 0x2F000 0x40002 1) 0 0 fp32Tile ∧ loadGood 0x2F000 0x40002 ∧
    matrixHyps (.mload 0x3008 0x40000 1) 0 0 fp32Tile ∧ ¬loadGood 0x3008 0x40000 ∧ ¬loadGood 0x3010 0x30000 ∧ ¬loadGood 0x2FFF0 0x40000 ∧
    ¬loadGood 0x3010 0x40003 := by decide +kernel
abbrev drainGood (d ctl : Word) (f : CFmt) (n : Nat) (m : AccMode) (sig : Bool) : Prop :=
  let stride := ctl.toNat / 2 ^ 12 % 2 ^ 16
  let len := n * (256 / Spec.elements f) / 8
  plainCtl ctl ∧ stride % 16 = 0 ∧ len ≤ stride ∧ d.toNat % min 16 len = 0 ∧ (ctl.getLsbD 10 = true → sig = true) ∧ (m = .mod64 → f = .i64) ∧
  ∀ i, i < n → engRange 0 (d + BitVec.ofNat 64 (i * stride)) len = true
/-- A drain of tile 1, which holds `x`, to 0x3000 with its SIGNAL at 0x2F000. -/
def drain0 (ctl : Word) (sig : Bool) : OpKind := .mdrain 0x3000 ctl 0x2F000 5 7 1 sig
abbrev drainHyps (ctl : Word) (sig : Bool) (f : CFmt) (n : Nat) (x : Acc) : Prop :=
  let s := sMat (drain0 ctl sig) 0 0 x
  matrixHyps (drain0 ctl sig) 0 0 x ∧ [CFmt.f32, .bf16, .f16, .i32, .i16, .i8, .i64, .md8, .fp4][ctl.toNat / 4 % 16]? = some f ∧
  n = (if x.mode = .mod64 then 8 else 16) ∧ drainGood 0x3000 ctl f n x.mode sig ∧
  (∀ i, i < n → s.probeRange (opMat (drain0 ctl sig)) false true (0x3000 + BitVec.ofNat 64 (i * (ctl.toNat / 2 ^ 12 % 2 ^ 16)))
    (n * (256 / Spec.elements f) / 8) = .ok) ∧
  (ctl.getLsbD 10 = true → s.probeObject (opMat (drain0 ctl sig)) 0x2F000 = .ok)
theorem witness_MatrixGrants_drain : drainHyps 0x40400 true .f32 16 fp32Tile ∧
    drainHyps 0x400D4 false .i8 16 ⟨.i32, List.replicate 256 300⟩ ∧ drainHyps 0x40018 false .i64 8 ⟨.mod64, List.replicate 64 300⟩ := by
      decide +kernel
theorem witness_MatrixGrants_drain_narrow : drainHyps 0x40060 false .fp4 16 fp32Tile ∧ drainHyps 0x4005C false .md8 16 fp32Tile ∧
    drainHyps 0x40004 true .bf16 16 fp32Tile := by decide +kernel
theorem witness_MatrixGrants_drain_fails : matrixHyps (drain0 0x40024 false) 0 0 fp32Tile ∧ 9 ≤ (0x40024 : Word).toNat / 4 % 16 ∧
    matrixHyps (drain0 0x40400 false) 0 0 fp32Tile ∧ ¬drainGood 0x3000 0x40400 .f32 16 .fp32 false ∧
    ¬drainGood 0x3000 0x30000 .f32 16 .fp32 false ∧ ¬drainGood 0x3000 0x40000 .f32 8 .mod64 false := by decide +kernel
/-- 16 rows of A from 0x3000 on, 16 or 32 of B from 0x4000 on, 32 bytes apart. -/
def product0 (k : Nat) (f : MFmt) : OpKind := .mma 0x20000000003000 0x20000000004000 k 1 f false
/-- What the grant of a product with 16 rows of `bits` bits and `sc` bytes of scales asks of its operands. -/
abbrev productGood (k bits sc : Nat) : Prop :=
  Operand.ofWord 0x20000000003000 = .mem true 0x3000 32 ∧ Operand.ofWord 0x20000000004000 = .mem true 0x4000 32 ∧
  (∀ i, i < 16 → engRange 0 ((0x3000 : Word) + BitVec.ofNat 64 (i * 32)) (k * bits / 8) = true) ∧
  (∀ i, i < k → engRange 0 ((0x4000 : Word) + BitVec.ofNat 64 (i * 32)) (16 * bits / 8) = true) ∧
  (sc ≠ 0 → engRange 0 ((0x3000 : Word) + BitVec.ofNat 64 (16 * 32)) sc = true ∧ engRange 0 ((0x4000 : Word) + BitVec.ofNat 64 (k * 32)) sc = true)
theorem witness_MatrixGrants_product : matrixHyps (product0 16 .bf16) 0 0 fp32Tile ∧ matrixHyps (product0 16 .int8) 0 0 fp32Tile ∧
    matrixHyps (product0 32 .fp4) 0 0 fp32Tile ∧ productGood 16 16 0 ∧ productGood 32 4 16 ∧ (product0 16 .bf16).productMode = .fp32 ∧
    (product0 32 .fp4).productMode = .fp32 ∧ (product0 16 .int8).productMode ≠ .fp32 ∧
    ((product0 16 .bf16).product).map (·.2.2) = some (16, 16, 16) ∧ ((product0 32 .fp4).product).map (·.2.2) = some (32, 16, 4) := by decide +kernel
/-- A started matrix command whose reads are done. -/
def opRes (k : OpKind) (n : Nat) (recd : Option FaultRec) : Op :=
  { op0 k with phase := .started, strm := none, recd := recd, pieces := [⟨some 0x3000, none, n, some (List.replicate n 1)⟩] }
abbrev resultHyps (k : OpKind) (n : Nat) (recd : Option FaultRec) : Prop :=
  (sOp (opRes k n recd)).op? 5 = some (opRes k n recd) ∧ (opRes k n recd).phase = .started ∧ (opRes k n recd).tok = some 3 ∧
  (opRes k n recd).recd = recd ∧ (sOp (opRes k n recd)).inFlight 5 = false ∧ ∀ p ∈ (opRes k n recd).pieces, p.wr = none ∧
    p.len ≤ (p.data.getD []).length
theorem witness_MatrixResults : resultHyps (.mzero 1 1) 0 none ∧ resultHyps (.mload 0x3000 2 1) 512 none ∧ resultHyps (drain0 0x40000 false) 0 none ∧
    resultHyps (product0 16 .int8) 512 none ∧ resultHyps (.mma 0x20000000003000 0x20000000004000 16 1 .int8 true) 512 none ∧
    resultHyps (.mmod 0x20000000003000 0x20000000004000 16 1 97) 2048 none ∧ resultHyps (product0 16 .bf16) 1024 none ∧
    resultHyps (product0 16 .fp16) 1024 none ∧ resultHyps (product0 16 .md8) 512 none ∧ resultHyps (product0 32 .fp4) 544 none ∧
    (0x20000000003000 : Word).toNat / 2 ^ 62 ≠ 2 ∧ (0x40000 : Word).getLsbD 10 = false := by decide +kernel
theorem witness_FailedProductsChangeNothing : resultHyps (product0 16 .bf16) 64 (some ⟨0, 2, 3, 0⟩) ∧
    (product0 16 .bf16).isMatrix = true := by decide +kernel
theorem witness_FailedProductsChangeNothing_waits :
    let o := opMma (some ⟨0, 2, 3, 0⟩) [⟨none, none, 64, none⟩]
    (sOp o).op? 5 = some o ∧ o.phase = .started ∧ o.kind.isMatrix = true ∧ o.recd = some ⟨0, 2, 3, 0⟩ ∧ (sOp o).inFlight 5 = false ∧
    ∃ p ∈ o.pieces, p.rd = none ∧ (p.data.getD []).length < p.len := by decide +kernel
/-- Two beats on their way to FIFO 3, which holds `n`. -/
def sBeat (n : Nat) : State := sMap.modFab fun f => { f with
  flight := [⟨3, 5, [1], none⟩, ⟨3, 5, [2], some (4, 0)⟩], links := [(3, List.replicate n (some [9]))] }
theorem witness_BeatsEnterFifos : ∃ b ∈ (sBeat 3).fab.flight[0]?, ((mapGet? (sBeat 3).fab.links b.fifo).getD []).length < 4 ∧
    (∀ x ∈ (sBeat 3).fab.flight.take 0, x.fifo ≠ b.fifo) ∧ (sBeat 3).op? b.op = none ∧
    ((mapGet? (sBeat 3).fab.matrix (b.fifo / 4)).getD MatrixUnit.reset).busy = none := by decide +kernel
theorem witness_BeatsEnterFifos_waits : (∃ b ∈ (sBeat 4).fab.flight[0]?, 4 ≤ ((mapGet? (sBeat 4).fab.links b.fifo).getD []).length) ∧
    ∃ b ∈ (sBeat 0).fab.flight[1]?, ∃ x ∈ (sBeat 0).fab.flight.take 1, x.fifo = b.fifo := by decide +kernel
theorem get_all {α : Type} {P : α → Prop} {m : AMap α} {i : Nat} {x : α} (h : ∀ e ∈ m, P e.2) (hx : mapGet? m i = some x) : P x := by
  induction m with
  | nil => simp [mapGet?] at hx
  | cons e r ih =>
    simp only [List.forall_mem_cons] at h
    simp only [mapGet?] at hx
    split at hx
    · exact Option.some.inj hx ▸ h.1
    · exact ih h.2 hx
theorem sweeps_none {s : State} (h : ∀ e ∈ s.dies, e.2.sweep = none) (d : Nat) : (s.die d).sweep = none := by
  unfold State.die
  cases hm : mapGet? s.dies d with
  | none => rfl
  | some x => exact get_all (P := fun x => x.sweep = none) h hm
theorem homeOf_lt (a : Word) : homeOf a < 64 := (BitVec.isLt (w := 6) _ : _ < 2 ^ 6)
/-- An entry `e` for target `t` and master `m` that gives every right to the pages up to number `last` (R233). -/
abbrev covers (e : AccessEntry) (t m last : Nat) : Prop := e.target = t ∧ wfld e.w0 48 16 = m ∧ wfld e.w0 0 36 = 0 ∧ wfld e.w1 0 36 = last ∧
  wbit e.w1 39 = true ∧ wbit e.w1 36 = true ∧ wbit e.w1 37 = true
/-- It passes what lies in those pages and outside the tag carve-out. -/
theorem covers_passes {e : AccessEntry} {t m last pa n : Nat} {rd wr : Bool} (h : covers e t m last) (hn : 1 ≤ n)
    (hp : pa + n ≤ (last + 1) * 65536) : e.passes t m pa n rd wr = true := by
  obtain ⟨h1, h2, h3, h4, h5, h6, h7⟩ := h
  simp only [AccessEntry.passes, h1, h2, h3, h4, h5, h6, h7, Bool.or_true, Bool.and_true, Bool.and_eq_true, decide_eq_true_eq, true_and]
  omega
theorem no_carve_out {s : State} {die pa n : Nat} (h : pa + n ≤ (s.die die).tagBase.toNat ∨ (s.die die).tagLo = (s.die die).tagHi) :
    (s.die die).inCarveOut pa n = false := by
  unfold Die.inCarveOut
  rcases h with h | h
  · rw [decide_eq_false (p := (s.die die).tagBase.toNat < pa + n) (by omega)]; simp
  · simp [h]
/-- An entry for every byte of a window is one for each part of it. -/
theorem entry_any {s : State} {t m last die pa n : Nat} {rd wr : Bool}
    (hd : pa + n ≤ (s.die die).tagBase.toNat ∨ (s.die die).tagLo = (s.die die).tagHi) (hn : 1 ≤ n) (hp : pa + n ≤ (last + 1) * 65536)
    (he : ∃ e ∈ s.lan.access, covers e t m last) : s.tableEntry t m die pa n rd wr ≠ none := by
  obtain ⟨e, hm, h⟩ := he
  unfold State.tableEntry
  rw [no_carve_out hd]
  simp only [Bool.and_false, Bool.false_eq_true, if_false, ne_eq, List.find?_eq_none, not_forall, not_not]
  exact ⟨e, hm, covers_passes h hn hp⟩
/-- If it is the only one of its target and master, it is the one that passes. -/
theorem entry_only {s : State} {t m last die pa n : Nat} {rd wr : Bool} {e : AccessEntry}
    (hd : pa + n ≤ (s.die die).tagBase.toNat ∨ (s.die die).tagLo = (s.die die).tagHi) (hn : 1 ≤ n) (hp : pa + n ≤ (last + 1) * 65536)
    (he : e ∈ s.lan.access) (h : covers e t m last) (hu : ∀ x ∈ s.lan.access, x.target = t → wfld x.w0 48 16 = m → x = e) :
    s.tableEntry t m die pa n rd wr = some e := by
  cases hf : s.tableEntry t m die pa n rd wr with
  | none => exact absurd hf (entry_any hd hn hp ⟨e, he, h⟩)
  | some x =>
    unfold State.tableEntry at hf
    rw [no_carve_out hd] at hf
    simp only [Bool.and_false, Bool.false_eq_true, if_false] at hf
    have hx := List.find?_some hf
    simp only [AccessEntry.passes, Bool.and_eq_true, decide_eq_true_eq] at hx
    rw [hu x (List.mem_of_find?_eq_some hf) hx.1.1.1.1.1.1 hx.1.1.1.1.2]
/-- A part of an access lies within it. -/
theorem part_of {pa n line lo m : Nat} (h2 : line * 512 < pa + n) (h3 : lo = max pa (line * 512)) (h4 : lo + m = min (pa + n) (line * 512 + 512))
    (h1 : pa / 512 ≤ line) (hn : 1 ≤ n) : 1 ≤ m ∧ pa ≤ lo ∧ lo + m ≤ pa + n := by
  rw [Nat.max_def] at h3
  rw [Nat.min_def] at h4
  split at h3 <;> split at h4 <;> omega
/-- The command processor of queue 0 may reach the first 256 pages of die 0. -/
def treeEnt (t : Nat) : AccessEntry := ⟨t, 0, 0x8000000000000000, 0xB0000000FF⟩
def treeEnts : List AccessEntry := (List.range 64 ++ [512]).map treeEnt
theorem tree_covers (t : Nat) : covers (treeEnt t) t 0x8000 255 := by
  have h : wfld 0x8000000000000000 48 16 = 0x8000 ∧ wfld 0x8000000000000000 0 36 = 0 ∧ wfld 0xB0000000FF 0 36 = 255 ∧
    wbit 0xB0000000FF 39 = true ∧ wbit 0xB0000000FF 36 = true ∧ wbit 0xB0000000FF 37 = true := by decide +kernel
  exact ⟨rfl, h⟩
/-- A page tree of job 1: flat nodes at 0x200000 and 0x400000, and a leaf of VA 0x1000000 with bits `k`; and pages that move, fills, forwarded
accesses and a sweep. -/
def sTree (k : Nat) (mig : List (Nat × Nat × Nat)) (fills : List Fill) (fwds : List Fwd) (sweep : Option Nat) : State :=
  let s := s1.modJob 1 fun j => { j with ptRoot := 0x200003 }
  let put (key v : Nat) (m : List Host.Cell) : List Host.Cell := memWrite m (2 ^ 56 + key) (leBytes 8 v)
  (((s.modMs fun m => { m with mem := put 0x400800 (2 * 65536 + k) (put 0x200000 0x400003 (put 0x20000 7 m.mem)) }).modLan fun l =>
    { l with access := treeEnts }).modFab fun f => { f with migrating := mig, fills := fills, fwds := fwds }).modDie 0 fun d => { d with sweep :=
      sweep }
abbrev treeHyps (s : State) (k : Nat) : Prop :=
  s.jobs.map (·.1) = [1] ∧ s.hub.notices = [] ∧ s.hub.held = [] ∧
  (∃ j ∈ s.liveJob? 1, j.queue = 0 ∧ s.walk (tagDie 1) j.ptRoot 0x1000000 = some (BitVec.ofNat 64 (2 * 65536 + k))) ∧
  2 ^ 56 + 1 / 512 * 2 ^ 52 + s.leafPa (1 / 512) (s.job 1).ptRoot 0x1000000 = 2 ^ 56 + 0x400800 ∧ (0x1000000 : Word).toNat / 65536 = 0x100
theorem tree_path (k : Nat) (mig : List (Nat × Nat × Nat)) (fills : List Fill) (fwds : List Fwd) (sweep : Option Nat) (home : Word) (pa n : Nat)
    (rd wr : Bool) (h : pa + n ≤ 2 ^ 24) (hn : 1 ≤ n) : Spec.pathOpen (sTree k mig fills fwds sweep) 0x8000 0 home pa n rd wr := by
  refine ⟨Nat.le_trans h (by decide), fun line lo m sl h1 h2 h3 h4 h5 => ?_⟩
  have hd : ((sTree k mig fills fwds sweep).die 0).tagLo = ((sTree k mig fills fwds sweep).die 0).tagHi := rfl
  have he : ∀ t, t < 64 ∨ t = 512 → ∃ e ∈ (sTree k mig fills fwds sweep).lan.access, covers e t 0x8000 255 := by
    intro t ht
    exact ⟨_, List.mem_map.mpr ⟨t, List.mem_append.mpr (ht.imp List.mem_range.mpr List.mem_singleton.mpr), rfl⟩, tree_covers t⟩
  have hs := homeOf_lt (home + BitVec.ofNat 64 (lo - pa))
  have hm := part_of h2 h3 h4 h1 hn
  exact ⟨entry_any (.inr hd) hm.1 (by omega) (he _ (.inl (by rw [h5, sliceNo]; omega))), .inr (entry_any (.inr hd) hm.1 (by omega) (he _ (.inr rfl)))⟩
/-- What lets the page at 0x20000 go to 0x80000. -/
theorem witness_PagesMigrate_may (mig : List (Nat × Nat × Nat)) (fills : List Fill) (fwds : List Fwd) (sweep : Option Nat) :
    let s := sTree 25 mig fills fwds sweep
    (2 * 65536 + 25) / 64 % 2 = 0 ∧ (2 * 65536 + 25) / 256 % 2 = 0 ∧ 0x80000 % 65536 = 0 ∧ 0x80000 + 65536 ≤ hbmBytes ∧
    2 ^ 56 + 0x20000 ≠ 2 ^ 56 + 0x80000 ∧ Spec.pathOpen s (0x8000 + 0 % 8) 0 0x1000000 0x20000 65536 true false ∧
    Spec.pathOpen s (0x8000 + 0 % 8) 0 0x1000000 0x80000 65536 false true ∧
      Spec.pathOpen s (0x8000 + 0 % 8) (1 / 512) 0x400800 0x400800 8 true true :=
  ⟨by decide, by decide, by decide, by decide, by decide, tree_path _ _ _ _ _ _ _ _ _ _ (by decide) (by decide),
    tree_path _ _ _ _ _ _ _ _ _ _ (by decide) (by decide),
    tree_path _ _ _ _ _ _ _ _ _ _ (by decide) (by decide)⟩
def fwd0 : Fwd := ⟨3, 2, 513, 0, 0x1000000, 0, 2 ^ 56 + 0x20040, none, .out⟩
theorem witness_PagesMigrate_stays : treeHyps (sTree 0x119 [] [] [] none) 0x119 ∧ (2 * 65536 + 0x119) / 256 % 2 = 1 := by decide +kernel
theorem witness_PagesMigrate_begins : treeHyps (sTree 25 [] [] [] none) 25 ∧ treeHyps (sTree 25 [] [] [] (some 256)) 25 ∧
    ((sTree 25 [] [] [] (some 256)).die 0).sweep = some 256 ∧ 2 ^ 56 + 0x20000 + 0 * 512 = 2 ^ 56 + 0 * 2 ^ 52 + 256 * 512 := by decide +kernel
theorem witness_PagesMigrate_unswept (mig : List (Nat × Nat × Nat)) (fills : List Fill) (fwds : List Fwd) (d : Nat) :
    ((sTree 25 mig fills fwds none).die d).sweep = none := sweeps_none (s := sTree 25 mig fills fwds none) (by
      show ∀ e ∈ (sTree 25 [] [] [] none).dies, e.2.sweep = none
      decide +kernel) d
theorem witness_PagesMigrate_busy : treeHyps (sTree 25 [] [fill0 0] [] none) 25 ∧ treeHyps (sTree 25 [] [] [fwd0] none) 25 ∧
    2 ^ 56 + 0x20000 ≤ (fill0 0).line ∧ (fill0 0).line < 2 ^ 56 + 0x20000 + 65536 ∧ 2 ^ 56 + 0x20000 ≤ fwd0.key ∧
      fwd0.key < 2 ^ 56 + 0x20000 + 65536 := by
  decide +kernel
def going : List (Nat × Nat × Nat) := [(1, 0x100, 2 ^ 56 + 0x20000)]
theorem witness_PagesMigrate : treeHyps (sTree 25 going [] [] none) 25 ∧
    (∀ x ∈ ((sTree 25 going [] [] none).walkReads (1 / 512) ((sTree 25 going [] [] none).job 1).ptRoot 0x1000000).dropLast,
      2 ^ 56 + 1 / 512 * 2 ^ 52 + x + 8 ≤ 2 ^ 56 + 0x400800) ∧
    (∀ x ∈ (sTree 25 going [] [] none).walkReads (1 / 512) ((sTree 25 going [] [] none).job 1).ptRoot 0x1000000,
      2 ^ 56 + 0x80000 + 65536 ≤ 2 ^ 56 + 1 / 512 * 2 ^ 52 + x) ∧
    Memory.wf (sTree 25 going [] [] none).ms.mem = true ∧ (sTree 25 going [] [] none).ms.seals = [] := by decide +kernel

/-! ### The host port -/
theorem quiet_of {s : State} (h : s.hub.held = [] ∧ (∀ e ∈ s.dies, e.2.sweep = none) ∧ s.fab.migrating = []) : Spec.quietMemory s :=
  ⟨h.1, sweeps_none h.2.1, h.2.2⟩
/-- What lets an access that lies in one line through at its slice. -/
abbrev oneLine (s : State) (m die pa n : Nat) (rd wr : Bool) : Prop :=
  pa / 512 = (pa + n - 1) / 512 ∧ 1 ≤ n ∧ pa + n ≤ hbmBytes ∧ s.tableEntry (sliceNo die (BitVec.ofNat 64 pa)) m die pa n rd wr ≠ none ∧
  (s.isResident (sliceNo die (BitVec.ofNat 64 pa)) (2 ^ 56 + die * 2 ^ 52 + pa) n = true ∨ s.tableEntry (512 + die) m die pa n rd wr ≠ none)
theorem at_line {s : State} {m die pa n : Nat} {rd wr : Bool} (h : oneLine s m die pa n rd wr) : Spec.atSlice s m die pa n rd wr := by
  obtain ⟨h1, h2, h3, h4⟩ := h
  refine ⟨h3, fun line lo k g1 g2 g3 g4 => ?_⟩
  obtain ⟨rfl, rfl⟩ : lo = pa ∧ k = n := by
    rw [Nat.max_def] at g3
    rw [Nat.min_def] at g4
    split at g3 <;> split at g4 <;> omega
  exact h4
/-- An entry of a master's table for the first 16 pages (R233). -/
def wideEnt (target index master : Nat) (sealed : Bool) : AccessEntry :=
  ⟨target, index, BitVec.ofNat 64 (master * 2 ^ 48), BitVec.ofNat 64 (5 * 2 ^ 54 + 11 * 2 ^ 36 + (if sealed then 2 ^ 38 else 0) + 15)⟩
def fnEnt (target fn : Nat) (sealed : Bool) : AccessEntry := wideEnt target fn (0x4000 + fn) sealed
/-- Windows of the PF and of VF 1 at die 0's slices and controller, the hub copy engine and the host interface; VF 1's may be sealed. -/
def sPort (sealed : Bool) : State :=
  let s := State.reset.modLan fun l => { l with
    access := (List.range 64 ++ [512, 520, 521]).flatMap fun t => [fnEnt t 0 false, fnEnt t 1 sealed]
    tdisp := [(1, .run)], slots := [(5, ⟨3, 7, 1, 44⟩)] }
  s.modHub fun h => { h with seqNo := 5, horizon := 4, ready := true, queues := [(3, { Queue.reset with bound := true })] }
theorem window_of {s : State} {t fn die pa n : Nat} {rd wr : Bool} {e : AccessEntry} (h : s.tableEntry t (0x4000 + fn) die pa n rd wr = some e ∧
    oneLine s (0x4000 + fn) die pa n rd wr) : Spec.window s t fn die pa n rd wr e := ⟨h.1, at_line h.2⟩
theorem takes_of {s : State} {fn n : Nat} {die : Fin 8} {pa : Nat} {wr ide : Bool} {e : AccessEntry}
    (h : Spec.window s 521 fn die.val pa n (!wr) wr e ∧ e.w1.getLsbD 38 = false) : Spec.takes s fn (.mem die pa) n wr ide :=
  ⟨e, h.1, fun x => nomatch h.2.symm.trans x⟩
theorem takes_not {s : State} {fn n : Nat} {die : Fin 8} {pa : Nat} {wr ide : Bool}
    (h : s.tableEntry 521 (0x4000 + fn) die.val pa n (!wr) wr = none) : ¬Spec.takes s fn (.mem die pa) n wr ide := by
  rintro ⟨e, ⟨he, -⟩, -⟩
  rw [h] at he
  cases he
theorem port_window : Spec.window (sPort false) 521 1 0 0x40 2 false true (fnEnt 521 1 false) ∧ (fnEnt 521 1 false).w1.getLsbD 38 = false ∧
    Spec.window (sPort false) 521 1 0 0x40 4 true false (fnEnt 521 1 false) ∧
    Spec.window (sPort true) 521 1 0 0x40 4 true false (fnEnt 521 1 true) :=
  ⟨window_of (by decide +kernel), by decide +kernel, window_of (by decide +kernel), window_of (by decide +kernel)⟩
theorem not_ok {x : Xlat} (h : found0 x = none) (o p : Nat) (e : Word) (w : AccessEntry) : x ≠ .ok o p e w := by
  rintro rfl
  cases h
/-- A completion word of a job whose pages are not mapped. -/
def sNotice : State := (sPort false).modHub fun h => { h with notices := [⟨513, Job.reset, 1, 0⟩] }
theorem witness_WhatWaitedGoesOn : (∀ e ∈ sNotice.hub.queues, ∀ x, mapGet? sNotice.hub.queues e.1 = some x → x.wants = [] ∧ x.due = false) ∧
    (∀ e ∈ (sPort false).hub.queues, ∀ x, mapGet? (sPort false).hub.queues e.1 = some x → x.wants = [] ∧ x.due = false) ∧
    (sPort false).hub.notices = [] ∧ sNotice.hub.notices = [⟨513, Job.reset, 1, 0⟩] ∧ 513 / 512 < 8 ∧ Spec.quietMemory sNotice ∧
    ∀ owner pa e w, ((⟨513, Job.reset, 1, 0⟩ : Notice).view sNotice).xlatNow 513 Job.reset.doneCtr 8 ⟨false, true, true, true⟩ ≠ .ok owner pa e w :=
  ⟨fun _ _ _ hx => get_all (P := fun x => x.wants = [] ∧ x.due = false) (by decide +kernel) hx,
    fun _ _ _ hx => get_all (P := fun x => x.wants = [] ∧ x.due = false) (by decide +kernel) hx, rfl, rfl, by decide,
    quiet_of (by decide +kernel), not_ok (by decide +kernel)⟩
theorem witness_PostedWritesComplete : Spec.takes (sPort false) 1 (.mem 0 0x40) 2 true false ∧ Spec.unswept (sPort false) :=
  ⟨takes_of ⟨port_window.1, port_window.2.1⟩, sweeps_none (by decide +kernel), rfl⟩
theorem witness_PostedWritesComplete_refused : ¬Spec.takes (sPort false) 1 (.mem 0 0xFFFFF) 2 true false := takes_not (by decide +kernel)
/-- A held write. -/
def sHeld (num : Nat) : State := (sPort false).modHub fun h => { h with held := [⟨num, 1, .mem 0 0x40, [1, 2], false⟩] }
theorem witness_HorizonsComplete : (sHeld 5).hub.horizon < 5 ∧ 5 ≤ (sHeld 5).hub.seqNo ∧ 4 ≤ (sHeld 5).hub.horizon ∧
    (∃ w ∈ (sHeld 5).hub.held, w.num ≤ 5) ∧ Spec.unswept (sHeld 5) :=
  ⟨by decide +kernel, by decide +kernel, by decide +kernel, by decide +kernel, sweeps_none (by decide +kernel), rfl⟩
theorem witness_HostWritesPerform : Spec.window (sPort false) 521 1 0 0x40 2 false true (fnEnt 521 1 false) ∧ Spec.plainMemory (sPort false) ∧
    (sPort false).ms.poison = [] ∧ ∀ off m, 1 ≤ m → off + m ≤ 2 →
      (sPort false).tableEntry 521 (0x4000 + 1) 0 (0x40 + off) m false true = some (fnEnt 521 1 false) ∧ Spec.untagged (sPort false) 0 (0x40 + off) :=
  ⟨port_window.1, by decide +kernel, rfl, fun off m h1 h2 => ⟨entry_only (last := 15) (.inr rfl) h1 (by omega) (by decide +kernel)
    (by decide +kernel) (by decide +kernel), fun h => absurd h.2 (by
      rw [show ((sPort false).die 0).tagHi.toNat = 0 from rfl]
      omega)⟩⟩
theorem witness_HostWritesPerform_registers : 0x31FFE + ([1, 2] : List Byte).length ≤ 0x32000 ∧
    (((sPort false).hub.queues.filter fun e => e.2.bound && decide (e.2.regs.fn = 0)).map (·.1))[0]? = some 3 ∧
    (∃ x ∈ mapGet? (sPort false).hub.queues 3, x.bound = true ∧ x.fault = false) ∧ (sPort false).hub.ready = true ∧
    (mapGet? (sPort false).lan.tdisp 1).getD .unlocked = .run ∧ (mapGet? (sPort false).lan.tdisp 2).getD .unlocked = .unlocked := by decide +kernel
theorem witness_HostReads : Spec.quietMemory (sPort false) ∧ Spec.window (sPort false) 521 1 0 0x40 4 true false (fnEnt 521 1 false) ∧
    (sPort false).ms.poison = [] ∧ (sPort false).ms.seals = [] :=
  ⟨quiet_of (by decide +kernel), port_window.2.2.1, by decide +kernel⟩
theorem witness_HostReads_refused : Spec.quietMemory (sPort false) ∧ ¬Spec.takes (sPort false) 1 (.mem 0 0xFFFFF) 2 false false :=
  ⟨quiet_of (by decide +kernel), takes_not (by decide +kernel)⟩
/-- Sealed sectors of the key instance 44 in the window. -/
def sSealed (bad : Bool) : State := (sPort true).modMs fun m => { m with seals := [((2 ^ 56 + 0x40) / 64, ⟨false, 44, 1, bad⟩)] }
theorem witness_HostReads_sealed : Spec.window (sSealed false) 521 1 0 0x40 4 true false (fnEnt 521 1 true) :=
  window_of (by decide +kernel)
theorem witness_HostReads_sealed_sectors : (fnEnt 521 1 true).w1.getLsbD 38 = true ∧ mapGet? (sSealed false).lan.tdisp 1 = some .run ∧
    (fnEnt 521 1 true).w1.toNat / 2 ^ 54 ≠ 0 ∧
    (∀ z ∈ (sSealed false).ms.seals, z.2.clear = false) ∧
    (∃ k ∈ mapGet? (sSealed false).lan.slots ((fnEnt 521 1 true).w1.toNat / 2 ^ 54), k.vf = 1 ∧ k.inst = 44) ∧
    (∀ i, i < 4 → ∃ z ∈ mapGet? (sSealed false).ms.seals ((2 ^ 56 + 0 * 2 ^ 52 + 0x40 + i) / 64), z.bad = false ∧ z.clear = false ∧ z.key = 44) ∧
    (∃ z ∈ mapGet? (sSealed true).ms.seals ((2 ^ 56 + 0 * 2 ^ 52 + 0x40) / 64), z.bad = true) ∧ (sSealed true).ms.poison = [] := by decide +kernel
theorem witness_HostReads_sealed_quiet (bad : Bool) : Spec.quietMemory (sSealed bad) := quiet_of ⟨rfl, fun _ h => (nomatch h), rfl⟩
theorem witness_HostReads_held : ∃ w ∈ (sHeld 5).hub.held, w.addr = .mem 0 0x40 ∧ 1 ≤ w.data.length := by decide +kernel
theorem witness_HostReads_registers :
    let s := (sPort false).modHub fun h => { h with channels := [(63, ⟨[], false, true, true⟩)] }
    (∃ x ∈ mapGet? s.hub.channels 63, x.overrun = true) ∧ 0x321F8 + 0 = 0x32000 + 8 * 63 ∧ 0x321F8 + 1 ≤ 2 ^ 26 ∧
      2 ^ 18 < 2 ^ 18 + 1 := by decide +kernel
theorem witness_HostReads_resources : Spec.takes (sPort false) 0 (.sriov 1) 8 false false ∧ ¬Spec.takes (sPort false) 1 (.sriov 1) 8 false false := by
  simp [Spec.takes]
theorem witness_AccessTablesDecide : ((sPort false).die 0).tagLo = ((sPort false).die 0).tagHi ∧
    (sPort false).lan.access.Pairwise (fun a b => a.target < b.target ∨ (a.target = b.target ∧ a.index < b.index)) := by decide +kernel
/-- Templates 0 (within the device), 1 (to device 7) and 2 (no sector) of the hub copy engine, and a channel. -/
def tmpl (len dev : Nat) : List Byte := leBytes 8 0x1000 ++ leBytes 8 0x2000 ++ leBytes 4 len ++ leBytes 2 dev ++ List.replicate 10 0
def sHub (c : Channel) : State := (sPort false).modHub fun h => { h with
  templates := (tmpl 128 0xFFFF ++ tmpl 128 7 ++ tmpl 0 7).zipIdx.map fun x => (x.2, x.1)
  channels := [(9, c)] }
def errCh : Channel := ⟨[], false, false, true⟩
theorem may_of {s : State} {fn : Nat} {a : Word} {len : Nat} {rd wr : Bool} (h : a.toNat < 2 ^ 55 ∧ ∀ i, i < len / 64 →
    ∃ e ∈ s.tableEntry 520 (0x4000 + fn) (a.toNat / 2 ^ 52) (a.toNat % 2 ^ 52 + 64 * i) 64 rd wr,
      oneLine s (0x4000 + fn) (a.toNat / 2 ^ 52) (a.toNat % 2 ^ 52 + 64 * i) 64 rd wr ∧ e.w1.getLsbD 38 = false) : Spec.mayCopy s fn a len rd wr :=
  ⟨h.1, fun i hi => let ⟨e, h1, h2, h3⟩ := h.2 i hi; ⟨e, ⟨h1, at_line h2⟩, h3⟩⟩
abbrev hubHyps (k : Nat) : Prop :=
  let s := sHub errCh
  let t := Spec.template s k
  (mapGet? s.hub.channels 9).getD Channel.reset = errCh ∧ errCh.starts.length < 4 ∧ k < 256 ∧ 64 ≤ t.len ∧ t.len ≤ 2 ^ 24 ∧ t.len % 64 = 0 ∧
  t.src = 0x1000 ∧ t.dst = 0x2000 ∧ t.len = 128 ∧ (∀ i, 22 ≤ i → i < 32 → (mapGet? s.hub.templates (32 * k + i)).getD 0 = 0)
theorem witness_HubCopies : hubHyps 0 ∧ hubHyps 1 ∧ (Spec.template (sHub errCh) 0).dev = 0xFFFF ∧ (Spec.template (sHub errCh) 1).dev = 7 := by
  decide +kernel
theorem witness_HubCopies_windows : Spec.quietMemory (sHub errCh) ∧ Spec.mayCopy (sHub errCh) 0 0x1000 128 true false ∧
    Spec.mayCopy (sHub errCh) 0 0x2000 128 false true := ⟨quiet_of (by decide +kernel), may_of (by decide +kernel), may_of (by decide +kernel)⟩
theorem witness_HubCopies_errors : 4 ≤ (List.replicate 4 (0, (⟨0, 0, 64, 0⟩ : Template))).length ∧ (Spec.template (sHub errCh) 2).len < 64 := by
  decide +kernel
def tmpl0 (dev : Nat) : Template := ⟨0x1000, 0x2000, 128, dev⟩
abbrev moveHyps (dev : Nat) (sent : Bool) : Prop :=
  let s := sHub ⟨[(0, tmpl0 dev)], sent, false, false⟩
  mapGet? s.hub.channels 9 = some ⟨[(0, tmpl0 dev)], sent, false, false⟩ ∧ (tmpl0 dev).len % 64 = 0 ∧ s.ms.poison = [] ∧ Spec.plainMemory s ∧
  2 ^ 56 + (tmpl0 dev).src.toNat % 2 ^ 55 + (tmpl0 dev).len ≤ 2 ^ 56 + (tmpl0 dev).dst.toNat % 2 ^ 55 ∧
  (tmpl0 dev).src.toNat % 2 ^ 52 + (tmpl0 dev).len ≤ 2 ^ 52 ∧ (tmpl0 dev).dst.toNat % 2 ^ 52 + (tmpl0 dev).len ≤ 2 ^ 52 ∧
  (s.die ((tmpl0 dev).dst.toNat / 2 ^ 52 % 8)).tagLo = (s.die ((tmpl0 dev).dst.toNat / 2 ^ 52 % 8)).tagHi
theorem witness_HubCopies_moves : moveHyps 0xFFFF false ∧ moveHyps 7 false ∧ moveHyps 7 true ∧
    (List.range 32).filter (fun p => (sHub errCh).hub.planes.getLsbD p) ≠ [] ∧
    ((sHub ⟨[(0, tmpl0 7)], false, false, false⟩).modHub fun h => { h with planes := 0 }).hub.planes = 0 := by decide +kernel
theorem witness_HubCopies_arrives : (sPort false).hub.planes.getLsbD 31 = true ∧ (List.replicate 64 (1 : Byte)).length = 64 ∧
    Spec.window (sPort false) 520 0 0 0x1000 64 false true (fnEnt 520 0 false) ∧ (fnEnt 520 0 false).w1.getLsbD 38 = false ∧
    Spec.plainMemory (sPort false) ∧ Spec.untagged (sPort false) 0 0x1000 :=
  ⟨by decide +kernel, by decide +kernel, window_of (by decide +kernel), by decide +kernel⟩
theorem witness_ClockAndBringUp : 0 < State.reset.clockMHz ∧ State.reset.gtsPhase < State.reset.clockMHz ∧ State.reset.schedule = [] ∧
    State.reset.looks = [] ∧ (State.reset.modHub fun h => { h with bringUp := 4 }).hub.bringUp = 4 ∧
      (State.reset.modHub fun h => { h with bringUp := 5 }).hub.bringUp = 5 := by
  decide +kernel

/-! ### Queues and launches -/
/-- The PF's queue 3 on die 0 with its control block at 0x200 of die 0, and the fields there. -/
def bind0 : Binding := ⟨0, 0, 0x200, 0, 3, 0, 4, 7⟩
def ctlBlock (base size head tail prio : Nat) : List Byte :=
  leBytes 8 base ++ leBytes 4 size ++ leBytes 4 head ++ leBytes 4 tail ++ List.replicate 44 0 ++ leBytes 1 0 ++ leBytes 1 prio ++ leBytes 2 0 ++
    leBytes 2 4 ++ leBytes 2 7
/-- Bytes that are not 0 at offsets from a key of die 0. -/
def cells (key : Nat) (l : List Host.Cell) : List Host.Cell := (l.filter fun c => decide (c.2 ≠ 0)).map fun c => (2 ^ 56 + key + c.1, c.2)
/-- The machine in which the processor of queue 3 may reach the first 16 pages of die 0. -/
def sQueue (x : Queue) (mem : List Host.Cell) : State :=
  let s := State.reset.modHub fun h => { h with queues := [(3, x)] }
  let s := s.modLan fun l => { l with access := (List.range 64 ++ [512]).map fun t => wideEnt t 2 0x8003 false }
  s.modMs fun m => { m with mem := mem }
def blockMem (base size head tail prio : Nat) : List Host.Cell := cells 0x200 ((ctlBlock base size head tail prio).zipIdx.map fun x => (x.2, x.1))
theorem wide_covers (t : Nat) : covers (wideEnt t 2 0x8003 false) t 0x8003 15 := by
  have w : wfld (wideEnt 0 2 0x8003 false).w0 48 16 = 0x8003 ∧ wfld (wideEnt 0 2 0x8003 false).w0 0 36 = 0 ∧
    wfld (wideEnt 0 2 0x8003 false).w1 0 36 = 15 ∧ wbit (wideEnt 0 2 0x8003 false).w1 39 = true ∧
    wbit (wideEnt 0 2 0x8003 false).w1 36 = true ∧ wbit (wideEnt 0 2 0x8003 false).w1 37 = true := by decide +kernel
  exact ⟨rfl, w⟩
/-- It reaches those of one line in each state whose entries for it these are. -/
theorem served_of {s : State} {more : List AccessEntry} {pa n : Nat}
    (h : s.lan.access = more ++ (List.range 64 ++ [512]).map fun t => wideEnt t 2 0x8003 false)
    (hm : ∀ x ∈ more, wfld x.w0 48 16 ≠ 0x8003) (hd : 2 ^ 20 ≤ (s.die 0).tagBase.toNat ∨ (s.die 0).tagLo = (s.die 0).tagHi) (hp : pa + n ≤ 2 ^ 20)
    (hl : ∀ off, off < n → homeOf (BitVec.ofNat 64 (pa + off)) = homeOf (BitVec.ofNat 64 pa)) : Spec.served8 s 3 0 pa n := by
  have ent : ∀ t, t ∈ List.range 64 ++ [512] → wideEnt t 2 0x8003 false ∈ s.lan.access := fun t ht => by
    rw [h]
    exact List.mem_append_right _ (List.mem_map_of_mem ht)
  refine ⟨by simp only [hbmBytes]; omega, wideEnt (sliceNo 0 (BitVec.ofNat 64 pa)) 2 0x8003 false, fun off m rd wr h1 hm2 => ⟨?_, ?_⟩⟩
  · rw [sliceNo, hl off (by omega), ← sliceNo]
    refine entry_only (hd.imp_left fun x => by omega) h1 (by omega) (ent _ (List.mem_append_left _ (List.mem_range.mpr ?_))) (wide_covers _) ?_
    · have := homeOf_lt (BitVec.ofNat 64 pa)
      simp only [sliceNo]
      omega
    · intro x hx ht hw
      rw [h] at hx
      rcases List.mem_append.mp hx with hx | hx
      · exact absurd hw (hm x hx)
      · obtain ⟨u, -, rfl⟩ := List.mem_map.mp hx
        obtain rfl : u = sliceNo 0 (BitVec.ofNat 64 pa) := ht
        rfl
  · exact entry_any (hd.imp_left fun x => by omega) h1 (by omega) ⟨_, ent 512 (List.mem_append_right _ (List.mem_singleton.mpr rfl)), wide_covers 512⟩
theorem queue_served (x : Queue) (m : List Host.Cell) : Spec.served8 (sQueue x m) 3 0 0x200 256 :=
  served_of (more := []) rfl (fun _ h => nomatch h) (.inr rfl) (by omega) (by decide +kernel)
theorem queue_quiet (x : Queue) (m : List Host.Cell) : Spec.quietMemory (sQueue x m) := quiet_of ⟨rfl, fun _ h => (nomatch h), rfl⟩
abbrev queueHyps (prio : Nat) : Prop :=
  let s := sQueue Queue.reset (blockMem 0x4000 16 3 5 prio)
  Spec.plainMemory s ∧ Spec.binds bind0 ∧ ((mapGet? s.hub.queues 3).getD Queue.reset).bound = false ∧
  ((mapGet? s.hub.queues 3).getD Queue.reset).fault = false ∧ ((mapGet? s.hub.queues 3).getD Queue.reset).wants = [] ∧ s.ms.poison = [] ∧
    mapGet? s.lan.tdisp bind0.fn = none ∧
  Spec.qcb s bind0 0x40 1 = bind0.die ∧ Spec.qcb s bind0 0x41 1 = prio ∧ Spec.qcb s bind0 0x42 2 = bind0.vf ∧
  Spec.qcb s bind0 0x44 2 = bind0.quota ∧ Spec.qcb s bind0 0x46 2 = bind0.keyslot
theorem witness_QueuesBindAndRing : queueHyps 3 ∧ queueHyps 4 ∧ bind0.prio = 3 := by decide +kernel
theorem witness_QueuesBindAndRing_frozen :
    let s := (sQueue Queue.reset []).modLan fun l => { l with tdisp := [(1, .run)] }
    Spec.binds { bind0 with fn := 1, vf := 1 } ∧ mapGet? s.lan.tdisp 1 = some .run ∧ Spec.plainMemory s ∧
    (s.hub.queues.filter fun e => e.2.bound && decide (e.2.regs.fn = 1)).length < 16 := by decide +kernel
abbrev ringHyps (size head tail : Nat) : Prop :=
  let x := { Queue.reset with bound := true, regs := bind0, cached := bind0, asked := true }
  let s := sQueue x (blockMem 0x4000 size head tail 3)
  Spec.plainMemory s ∧ mapGet? s.hub.queues 3 = some x ∧ x.regs.qcbDie < 8 ∧ x.regs.qcbPa % 64 = 0 ∧ x.bound = true ∧ x.fault = false ∧
  x.asked = true ∧ x.tail = none ∧ x.waiting = false ∧ x.wants = [] ∧ x.due = false ∧ s.ms.poison = [] ∧ Spec.qcb s x.regs 0 8 % 128 = 0 ∧
  Spec.qcb s x.regs 8 4 = size ∧ Spec.qcb s x.regs 0x0C 4 = head ∧ Spec.qcb s x.regs 0x10 4 = tail
theorem witness_QueuesBindAndRing_doorbell : ringHyps 16 3 5 ∧ ringHyps 65536 65535 0 ∧ ringHyps 15 3 5 ∧ ringHyps 16 16 0 ∧ ringHyps 16 15 16 := by
  decide +kernel
theorem witness_QueuesBindAndRing_sizes : ∀ size ∈ [16, 65536], ∃ i, 4 ≤ i ∧ i ≤ 16 ∧ size = 2 ^ i := by
  intro size h
  rcases List.mem_cons.mp h with rfl | h
  · exact ⟨4, by decide⟩
  · exact ⟨16, by simp [List.mem_singleton.mp h]⟩
/-- A launch record at HEAD = 3 of a ring at 0x4000: tiles 1 to 1, seed 77, a root of 0x400003, 3 words of constants at 0x1000004, NIMG 4,
SPILL 8, 2 seed tasks at 0x1000040, DONE at 0x1010008 and the save area at 0x1020000, 0x290000 bytes; its version, hint and the top byte of
its seed records' address as given. -/
def launchQ (waiting : Bool) (quota head : Nat) : Queue :=
  { Queue.reset with
    bound := true, regs := bind0, cached := { bind0 with quota := quota }, tail := some 5, waiting := waiting, ring := ⟨0x4000, 2048⟩, head := head }
def sLaunch (x : Queue) (version hint far away : Byte) : State :=
  let s := sQueue x (blockMem 0x4000 16 3 5 3 ++
    cells 0x4180 [(0, version), (1, 4), (2, hint), (3, 1), (4, 1), (6, 1), (8, 77), (0x10, 3), (0x12, 0x40), (0x18, 4), (0x1B, 1), (0x20, 3),
      (0x22, 4), (0x23, 8), (0x24, 2), (0x28, 0x40), (0x2B, 1), (0x2E, far), (0x30, 8), (0x32, 1), (0x33, 1), (0x3A, 2), (0x3B, 1), (0x3E, away),
      (0x42, 0x29)] ++
    cells 0x200040 [(3, 1), (0x43, 1)] ++ cells 0x400000 [(0, 3), (2, 0x60)] ++ cells 0x600800 [(0, 9), (2, 0x20), (8, 0x19), (9, 1), (10, 0x21)] ++
    ((List.range 41).flatMap fun i => cells (0x600810 + 8 * i) [(0, 0x59), (2, 0x22)]))
  let s := s.modDie 0 fun d => { d with tagLo := 0x200000, tagHi := 0x300000, tagBase := 0x10000000 }
  s.modLan fun l => { l with access := (List.range 64 ++ [512]).map entry ++ l.access }
/-- The state in which the record's launch is decided. -/
def launchR (x : Queue) (s : State) : State :=
  if x.waiting then { s with hub := { s.hub with queues := mapSet s.hub.queues 3 { x with waiting := false } } } else s
theorem launch_quiet (x : Queue) (a b c d : Byte) : Spec.quietMemory (sLaunch x a b c d) ∧ Spec.served8 (sLaunch x a b c d) 3 0 0x200 256 ∧
    Spec.served8 (sLaunch x a b c d) 3 (0x4180 / 2 ^ 52 % 8) (0x4180 % 2 ^ 52) 128 := by
  have e : (sLaunch x a b c d).dies = (sLaunch (launchQ false 0 0) 0 0 0 0).dies := rfl
  have t : 2 ^ 20 ≤ ((sLaunch x a b c d).die 0).tagBase.toNat := by unfold State.die; rw [e]; decide +kernel
  exact ⟨quiet_of ⟨rfl, by rw [e]; decide +kernel, rfl⟩,
    served_of (more := (List.range 64 ++ [512]).map entry) rfl (by decide +kernel) (.inl t) (by omega) (by decide +kernel),
    served_of (pa := 0x4180) (more := (List.range 64 ++ [512]).map entry) rfl (by decide +kernel) (.inl t) (by omega) (by decide +kernel)⟩
abbrev launchHyps (x : Queue) (a b c d : Byte) : Prop :=
  let s := sLaunch x a b c d
  Spec.plainMemory s ∧ mapGet? s.hub.queues 3 = some x ∧ x.bound = true ∧ x.fault = false ∧ x.wants = [] ∧ x.due = false ∧ x.tail = some 5 ∧
  s.ms.poison = [] ∧ x.regs.qcbDie < 8 ∧
  x.regs.qcbPa % 64 = 0 ∧ x.ring.len = 128 * 2 ^ 4 ∧ 128 * x.head < x.ring.len ∧ s.hub.launches = [] ∧ s.jobs = [] ∧
  (s.freeIndex x.cached.die).isSome = true
def rec0 (a b c d : Byte) : Nat → Nat → Nat := Spec.record (sLaunch (launchQ false 2 3) a b c d) (launchQ false 2 3)
theorem witness_LaunchRecordsAreTaken_stops : launchHyps (launchQ false 2 5) 1 2 0 0 ∧ (launchQ false 2 5).head = 5 := by decide +kernel
theorem witness_LaunchRecordsAreTaken_version : launchHyps (launchQ false 2 3) 2 2 0 0 ∧ rec0 2 2 0 0 0 1 = 2 := by decide +kernel
theorem witness_LaunchRecordsAreTaken_hint : launchHyps (launchQ true 2 3) 1 32 0 0 ∧ rec0 1 32 0 0 0 1 = 1 ∧ rec0 1 32 0 0 1 1 = 4 ∧
    rec0 1 32 0 0 2 1 = 32 := by decide +kernel
theorem witness_LaunchRecordsAreTaken_good : launchHyps (launchQ true 2 3) 1 2 0 0 ∧ launchHyps (launchQ false 0 3) 1 2 0 0 ∧
    Spec.goodRecord (rec0 1 2 0 0) ∧ Spec.seedsFit (rec0 1 2 0 0) ∧ Spec.areaFits (rec0 1 2 0 0) := by unfold Spec.goodRecord; decide +kernel
theorem witness_LaunchRecordsAreTaken_bounds : Spec.goodRecord (rec0 1 2 0x10 0) ∧ ¬Spec.seedsFit (rec0 1 2 0x10 0) ∧
    Spec.goodRecord (rec0 1 2 0 0x10) ∧ Spec.seedsFit (rec0 1 2 0 0x10) ∧ ¬Spec.areaFits (rec0 1 2 0 0x10) := by
  unfold Spec.goodRecord; decide +kernel
/-- What the launch finds in memory: the words of the constants and the records of the seed tasks. -/
def gotOf (x : JobGot) : Option (List (List Byte)) := match x with | .ok l => some l | _ => none
abbrev foundHyps (waiting : Bool) (quota : Nat) : Prop :=
  let x := launchQ waiting quota 3
  let r := launchR x (sLaunch x 1 2 0 0)
  let bs := Spec.bytes r (2 ^ 56 + 0x4180) 128
  let z := r.scratch 1 (recordJob 3 x.cached bs 0)
  r.indexFor 0 = some 1 ∧ (∃ im ∈ gotOf (z.recordImage 1 bs), ∃ ts ∈ gotOf (z.recordTasks 1 bs),
    z.memoryFaults 1 (recordJob 3 x.cached bs 0) (.ok im) (.ok ts) = []) ∧ r.queueJobs 3 = 0 ∧ recHint 0 bs = some 34
theorem witness_LaunchRecordsAreTaken_memory : foundHyps false 0 ∧ foundHyps true 2 := by decide +kernel
theorem witness_LaunchRecordsAreTaken_seed : (launchR (launchQ false 2 3) (sLaunch (launchQ false 2 3) 1 2 0 0)).seedTile 0 (some 34) = some 34 := by
  decide +kernel
/-- Every core is in SCRUB. -/
def scrubbing : State := let s := sLaunch (launchQ false 2 3) 1 2 0 0; { s with fallow := { s.fallow with status := .scrub } }
theorem scrubbing_seedOk (t : Nat) : scrubbing.seedOk t = false := by
  have h : ∀ p, (scrubbing.core p).status = .scrub := fun _ => rfl
  have c : (coresOf t).all (fun p => decide ((scrubbing.core p).status ≠ .scrub)) = false := by
    simp only [h, coresOf, List.all_eq_false]
    exact ⟨t * 8, by simp [span], by simp⟩
  unfold State.seedOk
  simp only [c, Bool.and_false, Bool.false_and]
theorem witness_LaunchRecordsAreTaken_no_seed : scrubbing.seedTile 0 (some 34) = none := by
  simp [State.seedTile, scrubbing_seedOk, Option.filter]
/-- Every index of die 0 is promised to a launch of another queue. -/
def promised (far away : Byte) : State := (sLaunch (launchQ false 2 3) 1 2 far away).modHub fun h => { h with
  launches := List.replicate 510 ⟨9, 0, 4, 1, Job.reset, [], [], none⟩ }
theorem witness_LaunchRecordsAreTaken_no_index : (promised 0 0).indexFor 0 = none ∧ (promised 0 0).queueJobs 3 < 2 ∧
    (promised 0x10 0).indexFor 0 = none ∧ (promised 0 0x10).indexFor 0 = none ∧ ∀ l ∈ (promised 0 0).hub.launches, l.queue ≠ 3 := by decide +kernel
/-- Its record is the same. -/
theorem witness_LaunchRecordsAreTaken_no_index_record (far away : Byte) :
    Spec.record (promised far away) (launchQ false 2 3) = rec0 1 2 far away := rfl

/-! ### Lantern -/
/-- Key slot 5 belongs to VF 1, and die 0 is in the middle of a sweep. -/
def sLan (t : Tdisp) (sweep : Option Nat) : State :=
  let s := State.reset.modLan fun l => { l with tdisp := [(1, t)], slots := [(5, ⟨3, 7, 1, 44⟩)] }
  s.modDie 0 fun d => { d with sweep := sweep }
theorem witness_LanternRequests : (State.reset.tile 1023).job = 0 ∧ 1023 = 0 * 1024 + 31 * 32 + 31 ∧ (∀ m ∈ State.reset.moves, m.tile ≠ 1023) ∧
    ((State.reset.setTile 8191 ⟨0x1FF, false⟩).tile 8191).job = 0x1FF := by decide +kernel
abbrev slotHyps (t : Tdisp) : Prop := ∃ k ∈ mapGet? (sLan t none).lan.slots 5, mapGet? (sLan t none).lan.tdisp k.vf = some t
theorem witness_LanternRequests_slots : slotHyps .unlocked ∧ slotHyps .error ∧ slotHyps .locked ∧ slotHyps .run ∧
    mapGet? (sLan .run none).lan.slots 6 = none := by decide +kernel
theorem witness_LanternRequests_tags : (0x10000 : Word).toNat % 65536 = 0 ∧ (0x12A05F0000 : Word).toNat ≤ hbmBytes ∧
    (0x12A05F0000 : Word).toNat % 65536 = 0 ∧ ¬(∃ e ∈ State.reset.jobs, e.1 / 512 = 0) ∧ (∃ e ∈ s0.jobs, e.1 / 512 = 0) ∧
    (0x8000 : Word).toNat % 65536 ≠ 0 ∧ (0x12A0600000 : Word).toNat % 65536 = 0 ∧ hbmBytes < (0x12A0600000 : Word).toNat ∧
    (0x10 : Word).toNat % 32 ≠ 0 := by decide +kernel
theorem witness_LanternRequests_access : ∀ e ∈ [fnEnt 521 0 false, fnEnt 0 1 true], e.target < 522 ∧ e.index < 4096 ∧
    e.w0.toNat / 2 ^ 36 % 2 ^ 12 = 0 ∧ e.w1.toNat / 2 ^ 40 % 2 ^ 14 = 0 ∧ e.w0.toNat / 2 ^ 62 ≠ 3 ∧ e.w0.toNat / 2 ^ 60 % 4 = 0 := by decide +kernel
theorem witness_LanternRequests_access_state : State.reset.ops = [] ∧ State.reset.fab.fwds = [] ∧ State.reset.hub.held = [] ∧
    State.reset.hub.channels = [] ∧ State.reset.lan.tdisp = [] ∧
    State.reset.lan.access.Pairwise (fun a b => a.target < b.target ∨ (a.target = b.target ∧ a.index < b.index)) := by decide +kernel
/-- An entry of a VF that is locked, of a job with an access on its way and of one without, and of a function with a held write. -/
theorem witness_LanternRequests_access_frozen : (∀ e ∈ (sLan .locked none).lan.access, e.target ≠ 521) ∧
    (fnEnt 521 1 false).w0.toNat / 2 ^ 48 = 0x4000 + 1 ∧ mapGet? (sLan .locked none).lan.tdisp 1 = some .locked := by decide +kernel
theorem witness_LanternRequests_access_busy : Spec.busy (sOp load8) 1 ∧ ¬Spec.busy (sOp load8) 2 ∧ Spec.busy (sHeld 5) 0x4001 ∧
    (entry 0).w0.toNat / 2 ^ 48 = 1 := by
  refine ⟨.inl ⟨by decide, .inl ⟨_, List.mem_singleton.mpr rfl, rfl, by decide, by decide, by decide, by decide, fun _ h => by cases h⟩⟩, ?_,
    .inr ⟨by decide, .inl ⟨_, List.mem_singleton.mpr rfl, rfl⟩⟩, by decide +kernel⟩
  rintro (⟨-, ⟨e, he, hj, -⟩ | ⟨f, hf, -⟩ | ⟨x, hx, -⟩⟩ | ⟨h, -⟩)
  · obtain rfl := List.mem_singleton.mp he
    exact absurd hj (by decide)
  · exact nomatch hf
  · exact nomatch hx
  · exact absurd h (by decide)
theorem witness_LanternRequests_access_fields : (0x0000001000000000 : Word).toNat / 2 ^ 36 % 2 ^ 12 ≠ 0 ∧
    (0x10000000000 : Word).toNat / 2 ^ 40 % 2 ^ 14 ≠ 0 ∧ (0xC000000000000000 : Word).toNat / 2 ^ 62 = 3 ∧
    (0x1000000000000000 : Word).toNat / 2 ^ 60 % 4 ≠ 0 ∧ 522 ≤ 522 ∧ 4096 ≤ 4096 := by decide +kernel
theorem witness_LanternRequests_owner : (5 : BitVec 32) ≠ State.reset.ownerReg 65535 ∧ 65535 < 65536 := by decide +kernel
/-- A page between the constant bank's and the stacks, and one that holds a stack. -/
theorem witness_LanternRequests_lmpu : s1.owner (0 / 8) % 512 ≠ 0 ∧ s1.owner (0 / 8) % 512 ≠ 0x1FF ∧
    (let j := s1.job (s1.owner 0)
     ¬(10 ≤ j.cbBase.toNat / 4096 ∨ j.splim0 / 4096 ≤ 10) ∧ j.splim0 / 4096 ≤ 47 ∧ (47 ≤ j.cbBase.toNat / 4096 ∨ j.splim0 / 4096 ≤ 47)) ∧
    (s1.ms.lmpu.filter fun e => decide (e.1 / 48 / 8 = 0 / 8) && decide (e.1 ≠ 0 * 48 + 10) && e.2.getLsbD 2).length < 64 := by decide +kernel
theorem witness_LanternRequests_sweep : ((sLan .run (some 0)).die 0).sweep = some 0 ∧ ((sLan .run none).die 0).sweep = none := by decide +kernel
theorem witness_TdispAndSpdm : (1 : Nat) ≤ 64 ∧ (mapGet? (sLan .locked none).lan.tdisp 1).getD .unlocked = .locked ∧
    (mapGet? (sLan .locked none).lan.tdisp 64).getD .unlocked = .unlocked ∧ ∀ e ∈ (sLan .locked none).lan.sessions, e.2.fn ≠ 1 := by decide +kernel
/-- Sessions 0 to `n` - 1 of the PF, and a session 40 of VF 1 with its key in slot 1, under which job 1 runs. -/
def sSess (n : Nat) (x : Session) : State :=
  (s1.modLan fun l => { l with
    sessions := ((List.range n).map fun i => (i, ⟨0, true, 0, 0, 0⟩)) ++ [(40, x)], slots := [(1, ⟨3, 40, 1, 44⟩), (3, ⟨3, 0, 0, 45⟩)]
    measured := [(0, 9, 5, 3), (40, 1, 5, 3)] }).modJob 1 fun j => { j with keyslot := 1 }
/-- The session, secured, whose deadline is `d`. -/
def sess0 (d : Word) : Session := ⟨1, true, 5, d, 0⟩
theorem witness_SessionsAndKeys_opens : (sSess 31 (sess0 9)).lan.sessions.length < 256 ∧
    ((sSess 31 (sess0 9)).lan.sessions.filter fun e => decide (e.2.fn = 0)).length < 32 ∧
    32 ≤ ((sSess 32 (sess0 9)).lan.sessions.filter fun e => decide (e.2.fn = 0)).length := by decide +kernel
/-- The session before its deadline, at it, and before it is secured. -/
theorem witness_SessionsAndKeys : mapGet? (sSess 0 (sess0 9)).lan.sessions 40 = some (sess0 9) ∧ (sess0 9).secured = true ∧
    (sess0 9).period ≠ 0 ∧ (sSess 0 (sess0 9)).gts.toNat < (sess0 9).deadline.toNat ∧
    mapGet? (sSess 0 (sess0 0)).lan.sessions 40 = some (sess0 0) ∧ (sess0 0).deadline.toNat ≤ (sSess 0 (sess0 0)).gts.toNat ∧
    mapGet? (sSess 0 ⟨1, false, 5, 0, 0⟩).lan.sessions 40 = some ⟨1, false, 5, 0, 0⟩ := by decide +kernel
theorem witness_SessionsAndKeys_keys : mapGet? (sSess 0 (sess0 9)).lan.slots 2 = none ∧
    (∀ i, i < 2 → 1 ≤ i → mapGet? (sSess 0 (sess0 9)).lan.slots i ≠ none) := by decide +kernel
theorem get_mem {α : Type} {m : AMap α} {k : Nat} {x : α} (h : (k, x) ∈ m) : mapGet? m k ≠ none := by
  induction m with
  | nil => cases h
  | cons e r ih =>
    simp only [mapGet?]
    split
    · simp
    · rename_i hk
      cases h with
      | head => exact absurd rfl hk
      | tail _ h => exact ih h
/-- With every slot taken, or no heartbeat, no key is loaded. -/
def fullSlots : AMap KeySlot := (List.range 1023).map fun k => (k + 1, ⟨3, 0, 0, 45⟩)
def sFullSlots : State := (sSess 0 (sess0 9)).modLan fun l => { l with slots := fullSlots }
theorem witness_SessionsAndKeys_full : (∀ k, 1 ≤ k → k ≤ 1023 → mapGet? sFullSlots.lan.slots k ≠ none) ∧
    mapGet? sFullSlots.lan.sessions 40 = some (sess0 9) := by
  refine ⟨fun k h1 h2 => ?_, by decide +kernel⟩
  have h : (k, (⟨3, 0, 0, 45⟩ : KeySlot)) ∈ fullSlots := by
    unfold fullSlots
    exact List.mem_map.mpr ⟨k - 1, List.mem_range.mpr (by omega), by rw [Nat.sub_add_cancel h1]⟩
  rw [show sFullSlots.lan.slots = fullSlots by unfold sFullSlots State.modLan; with_reducible rfl]
  exact get_mem h
theorem witness_SessionsAndKeys_heartbeat : mapGet? (sSess 0 ⟨1, true, 0, 0, 0⟩).lan.sessions 40 = some ⟨1, true, 0, 0, 0⟩ := by decide +kernel
theorem witness_SessionsAndKeys_ends : (sSess 3 (sess0 9)).lan.sessions.Pairwise (fun a b => a.1 < b.1) ∧
    (sSess 3 (sess0 9)).lan.slots.Pairwise (fun a b => a.1 < b.1) ∧
    (∃ e ∈ (sSess 3 (sess0 9)).lan.slots, e.2.session ≠ 40) ∧
    (∃ j ∈ (sSess 3 (sess0 9)).liveJob? 1, j.status ≠ .frozen ∧ ∃ k ∈ mapGet? (sSess 3 (sess0 9)).lan.slots j.keyslot, k.session = 40) ∧
    (sSess 3 (sess0 9)).hub.launches = [] ∧ ∀ f ∈ (sSess 3 (sess0 9)).lan.slots, f.2.session = 0 → f.2.vf = 0 := by decide +kernel
theorem witness_MeasurementsAndHandover : mapGet? (sSess 3 (sess0 9)).lan.sessions 41 = none ∧ (sSess 3 (sess0 9)).lan.staged = none ∧
    ((sSess 3 (sess0 9)).modLan fun l => { l with staged := some (2, 3) }).lan.staged = some (2, 3) ∧
    (sSess 3 (sess0 9)).lan.measured.filter (fun e => decide (e.1 = 40)) = [(40, 1, 5, 3)] ∧ (7 : Nat) ∉ [1, 2, 3, 4, 5, 6, 0x20, 0xFF] := by
      decide +kernel
/-! ### The machine as a whole -/
theorem witness_AndBitByBit : s2.Waited [.g 1, .g 1] [.g 1] 1 ∧ decode [0x05, 0x02, 0x86, 0x08] = .instr (.and 1 2 3) 4 := by decide +kernel
theorem witness_CountsOfZeroBits : s2.Waited [.g 9] [.g 9] 2 ∧ s2.regG 9 = 0 ∧ s1.regG 5 = 0xFF800000 := by decide +kernel
/-- Core 0's turn, with ADD G6, G5 at the pc of its thread, after a step of another rank at its GTS, or none. -/
def sStep (stepping : Bool) (m : Option (Word × Nat × Nat)) : State :=
  { (sText [0x50, 0x26]).modMyCore (fun c => { c with stepping := stepping }) with schedule := [.issue 0], mark := m }
abbrev textAt (s : State) (p tag : Nat) (a : Word) (b0 b1 : Byte) : Prop := 0x1000000 ≤ a.toNat ∧ a.toNat < 2 ^ 52 ∧
  ∃ l ∈ (s.core p).icache.find? (fun l => decide (l.job = tag) && decide (l.addr = a.toNat / 64)), (l.data.drop (a.toNat % 64)).take 2 = [b0, b1]
theorem text_of {s : State} {p tag : Nat} {a : Word} {b0 b1 : Byte} (h : textAt s p tag a b0 b1) : Spec.text s p tag a b0 b1 := h
abbrev stepHyps (s : State) : Prop :=
  s.schedule = [.issue 0] ∧ (∃ x ∈ s.runningOn 0, x.1 = 1 ∧ x.2.redirect = none ∧ x.2.pfx = none ∧ x.2.pc = 0x1000000 ∧ x.2.job = 1) ∧
  s.coreUp 0 = true ∧ (s.core 0).halted = false ∧
  (∀ e ∈ s.threads, e.2.pcn = 0 → e.2.status = .ready → e.2.preferred = true → e.2.upcall = .none) ∧
  s.quantumSpent 0 = none ∧ s.pstoreFor 1 = none ∧ decode [0x50, 0x26] = .instr (.addShort 6 5) 2 ∧
  s.looks = [] ∧ s.mustRun ({ s with cur := 1 }.begin).gts.toNat (some (5, 0)) = none ∧
  ({ s with cur := 1 }.begin).bankClash (({ s with cur := 1 }.begin).issueUses (.addShort 6 5)) = false ∧
  (∀ x ∈ readsOf (.addShort 6 5), ∀ e ∈ s.runningOn 0, x ∉ e.2.cold)
def began (s : State) : State := { s with cur := 1 }.begin
/-- It is in order; or a core of higher number has come before at its GTS, and whether or not the thread sees what that did. -/
theorem witness_InstructionsRun : stepHyps (sStep true none) ∧ stepHyps (sStep false none) ∧
    (began (sStep true none)).inOrder (some (5, 0)) = true ∧ stepHyps (sStep false (some (0, 5, 7))) ∧
    (began (sStep false (some (0, 5, 7)))).mark = some ((began (sStep false (some (0, 5, 7)))).gts, 5, 7) ∧
    (began (sStep false (some (0, 5, 7)))).follows ((began (sStep false (some (0, 5, 7)))).issueUses (.addShort 6 5)) = false ∧
    0 < (sStep false (some (0, 5, 7))).clockMHz ∧
    ((sStep false (some (0, 5, 7))).advanceTo (sStep false (some (0, 5, 7))).front).gts.toNat + 2000 < 2 ^ 64 := by decide +kernel
theorem witness_InstructionsRun_text (b : Bool) : ∀ j b0 b1, ([0x50, 0x26] : List Byte)[2 * j]? = some b0 →
    ([0x50, 0x26] : List Byte)[2 * j + 1]? = some b1 → Spec.text (sStep b none) 0 1 (0x1000000 + BitVec.ofNat 64 (2 * j)) b0 b1
  | 0, b0, b1, h0, h1 => by
    obtain rfl := Option.some.inj h0
    obtain rfl := Option.some.inj h1
    exact text_of (by cases b <;> decide +kernel)
  | j + 1, _, _, h0, _ => by simp [Nat.mul_add] at h0
theorem witness_InstructionsRun_steps : (match exec (.addShort 6 5) { sStep false none with schedule := [], cur := 1 } with
    | .next v => decide ((v.core 0).stepping = false ∧ (v.core 0).nextIssue ≠ ((sStep false none).core 0).nextIssue ∧ v.fab.trips = [] ∧
        v.fab.fwds = [] ∧ v.fab.refusals = [])
    | _ => false) = true := by decide +kernel
/-- The same turn, where the thread's slot has not loaded G6. -/
def sCold : State := (sStep false none).modThread 1 fun t => { t with cold := [.g 6, .v 1] }
theorem witness_RegisterFillsHold : sCold.schedule = [.issue 0] ∧ (∃ x ∈ sCold.runningOn 0, x.1 = 1 ∧ x.2.redirect = none ∧ x.2.pfx = none ∧
      x.2.pc = 0x1000000 ∧ x.2.job = 1 ∧ mapGet? sCold.threads 1 = some x.2 ∧ ∃ r ∈ readsOf (.addShort 6 5), r ∈ x.2.cold) ∧
    sCold.coreUp 0 = true ∧ (sCold.core 0).halted = false ∧ sCold.quantumSpent 0 = none ∧ sCold.pstoreFor 1 = none ∧
    (∀ e ∈ sCold.threads, e.2.pcn = 0 → e.2.status = .ready → e.2.preferred = true → e.2.upcall = .none) ∧ sCold.looks = [] := by decide +kernel
theorem witness_RegisterFillsHold_text : Spec.text sCold 0 1 0x1000000 0x50 0x26 := text_of (by decide +kernel)
/-- The turn of an event, here a read of the host, after one of another rank at the same GTS, or none. -/
def sEvent (i : Instr) (m : Option (Word × Nat × Nat)) : State := { s1 with schedule := [.event i], mark := m }
/-- The state in which it is decided: time has come to the latest cycle of a step before it. -/
def caught (s : State) : State := s.advanceTo s.front
abbrev eventHyps (s : State) (i : Instr) : Prop :=
  schedulable i = true ∧ s.looks = [] ∧ (caught s).mustRun (caught s).gts.toNat ((caught s).agentOf i) = none
theorem witness_EventsRunInOrder : eventHyps (sEvent (.hostRead 1 (.mem 0 0x40) 4 false) none) (.hostRead 1 (.mem 0 0x40) 4 false) ∧
    (caught (sEvent (.hostRead 1 (.mem 0 0x40) 4 false) none)).inOrder ((caught (sEvent (.hostRead 1 (.mem 0 0x40) 4 false) none)).agentOf
      (.hostRead 1 (.mem 0 0x40) 4 false)) = true ∧
    (caught (sEvent (.hostRead 1 (.mem 0 0x40) 4 false) none)).bankClash ((caught (sEvent (.hostRead 1 (.mem 0 0x40) 4 false) none)).eventUses
      (.hostRead 1 (.mem 0 0x40) 4 false)) = false := by decide +kernel
abbrev eventWaits (r : Nat × Nat) : Prop :=
  let s := sEvent (.territorySuspend 1) (some (0, r))
  eventHyps s (.territorySuspend 1) ∧ (∃ a ∈ (caught s).agentOf (.territorySuspend 1), a.1 < r.1) ∧ (caught s).mark = some ((caught s).gts, r) ∧
  0 < s.clockMHz ∧ (caught s).gts.toNat + 2000 < 2 ^ 64
theorem witness_EventsRunInOrder_waits : eventWaits (5, 0) ∧ eventWaits (3, 7) := by decide +kernel
/-- A store of an engine that comes after a read of its granule in the same cycle. -/
def sLate : State :=
  let s := sWrite (.cpy 0x3008 0x4000 8) 0x3008
  { s with schedule := [.event (.memoryWritePerform 5 1)], bankLog := [(0x3008 / 16, s.now, 99999999)] }
theorem witness_EventsRunInOrder_late : eventHyps sLate (.memoryWritePerform 5 1) ∧
    (caught sLate).inOrder ((caught sLate).agentOf (.memoryWritePerform 5 1)) = true ∧
    ∃ u ∈ (caught sLate).eventUses (.memoryWritePerform 5 1), ∃ g ∈ granules u.key u.n, ∃ e ∈ (caught sLate).bankLog, e.1 = g ∧
      (caught sLate).now = e.2.1 ∧ u.place < e.2.2 := by decide +kernel
/-- A read of G13 before its producer has fallen due, at a core in checked mode or not. -/
def sEarly (hz : Bool) : State := s2.modMyCore fun c => { c with hzchk := hz }
def early : PendingWrite := ⟨.g 13, 9, fullMask (.g 13), 12, false, 1⟩
theorem witness_HazardsTrap_read : Spec.operands (.add 1 13 1) = some ([.g 13, .g 1], [.g 1], 1) ∧ (sEarly true).myCore.hzchk = true ∧
    Spec.canTrap (sEarly true) ∧ ((sEarly true).ready.producers (.g 13)).getLast? = some early ∧ (sEarly true).ready.producers (.g 1) = [] := by
  decide +kernel
theorem witness_HazardsTrap_write : Spec.operands (.add 13 1 1) = some ([.g 1, .g 1], [.g 13], 1) ∧ (sEarly true).ready.producers (.g 1) = [] ∧
    (sEarly true).ready.pending.filter (fun p => decide (p.reg = .g 13)) = [early] ∧ (sEarly true).issueAt + 1 ≤ early.due := by decide +kernel
def tokLoad0 : Op := op0 (.load 0x1000000 8 (.g 2) false .plain)
theorem witness_HazardsTrap_token :
    let s := { sEarly true with ops := [(5, tokLoad0)] }
    Spec.operands (.add 3 2 1) = some ([.g 2, .g 1], [.g 3], 1) ∧ s.myCore.hzchk = true ∧ Spec.canTrap s ∧
    s.ready.producers (.g 2) = [] ∧ s.ready.producers (.g 1) = [] ∧ (∀ p ∈ s.ready.pending, p.reg ∉ [Reg.g 3]) ∧
    (Spec.guarding s (.g 2)).getLast? = some (5, tokLoad0) ∧ tokLoad0.tok = some 3 ∧ Spec.guarding s (.g 1) = [] ∧ Spec.guarding s (.g 3) = [] := by
  decide +kernel
theorem witness_UncheckedReadsAreOldOrNew : Spec.operands (.st 13 1 0 0 .d64 0) = some ([.g 1, .g 13], [], 0) ∧ (sEarly false).myCore.hzchk = false ∧
    Spec.canTrap (sEarly false) ∧ (∀ x ∈ (sEarly false).me.coldPoison, x.1 ∉ [Reg.g 1, .g 13]) ∧
    (∀ r ∈ [Reg.g 1, .g 13], Spec.guarding (sEarly false) r = []) ∧ early ∈ (sEarly false).ready.producers (.g 13) ∧
    ∀ p ∈ (sEarly false).me.pending, p.value &&& ~~~(fullMask p.reg) = 0 ∧ p.mask &&& ~~~(fullMask p.reg) = 0 := by decide +kernel
theorem witness_UncheckedReadsAreOldOrNew_token :
    let s := { sEarly false with ops := [(5, tokLoad0)] }
    s.myCore.hzchk = false ∧ (∀ x ∈ s.me.coldPoison, x.1 ≠ .g 2) ∧ Spec.guarding s (.g 2) = [(5, tokLoad0)] := by decide +kernel
theorem witness_EveryStepKeepsTheInvariant : State.reset.Inv ∧ Spec.Tables State.reset ∧
    (match step State.reset with | .next _ => true | _ => false) = true := by unfold State.Inv; decide +kernel
theorem witness_DecodeReadsEveryInstructionBack : Instr.isEvent (.litZ 2 0x3F000000) = false ∧ WellFormed (.litZ 2 0x3F000000) = true ∧
    decode (encodeBytes (.litZ 2 0x3F000000) ++ [1]) = .instr (.litZ 2 0x3F000000) 8 := by decide +kernel
/-! ## Worked values of the spec

Every expected result below is printed in the section of spec/ that its comment names. -/
/-- The last result that an instruction of `s1` with other values in its registers puts on its way. -/
def resultWith (g : Vector Word 16) (i : Instr) : Option (Reg × Vec × Nat) :=
  match exec i (s1.modMe fun t => { t with g := g }) with
  | .next t => t.me.pending.getLast?.map fun p => (p.reg, p.value, p.due)
  | _ => none
/-- G2 and G3 of an instruction. -/
def regs (a b : Word) : Vector Word 16 := ((Vector.replicate 16 0).set 2 a).set 3 b
/-! R371: the products of −3 and 5, and the shifts of −16 by 2. -/
theorem test_mul : resultWith (regs 0xFFFFFFFFFFFFFFFD 5) (.mul 1 2 3) = some (.g 1, 0xFFFFFFFFFFFFFFF1, 3) := by decide +kernel
theorem test_mulh : resultWith (regs 0xFFFFFFFFFFFFFFFD 5) (.mulh 1 2 3) = some (.g 1, 0xFFFFFFFFFFFFFFFF, 3) := by decide +kernel
theorem test_mulhu : resultWith (regs 0xFFFFFFFFFFFFFFFD 5) (.mulhu 1 2 3) = some (.g 1, 4, 3) := by decide +kernel
theorem test_sar : resultWith (regs 0xFFFFFFFFFFFFFFF0 2) (.sar 1 2 3) = some (.g 1, 0xFFFFFFFFFFFFFFFC, 1) := by decide +kernel
theorem test_shr : resultWith (regs 0xFFFFFFFFFFFFFFF0 2) (.shr 1 2 3) = some (.g 1, 0x3FFFFFFFFFFFFFFC, 1) := by decide +kernel
/-! R371: a shift by 64 leaves Ga unchanged; R327, R335: the counts of 0 are 64. -/
theorem test_shl_by_64 : resultWith (regs 7 64) (.shl 1 2 3) = some (.g 1, 7, 1) := by decide +kernel
theorem test_clz_of_0 : resultWith (regs 0 0) (.clz 1 2) = some (.g 1, 64, 2) := by decide +kernel
theorem test_ctz_of_0 : resultWith (regs 0 0) (.ctz 1 2) = some (.g 1, 64, 2) := by decide +kernel
/-! R157: the printed MD8 encodings; R158: the conversions of 943.75 and 9.8, and 0.1 as FP32. -/
theorem test_md8_values : [(0x40, 1, 10), (0x60, 1, 1), (0x68, 325, 100), (0x7F, 971875, 100000), (0x30, 10, 1), (0x3F, 8875, 10), (0x18, 1000, 1),
    (0x03, 1000000000, 1), (0x02, 1, 10000000000)].all (fun (x : Nat × Nat × Nat) => match md8Decode x.1 with
      | .fin false n d => decide (n * x.2.2 = x.2.1 * d)
      | _ => false) = true := by decide +kernel
theorem test_md8_specials : md8Decode 0x01 = .inf false ∧ md8Decode 0x81 = .inf true ∧ md8Decode 0x80 = .nan false := by decide +kernel
theorem test_md8_decades : (md8Convert (.mode .rne) false (.fin false 94375 100)).1 = 0x18 ∧
    (md8Convert (.mode .rne) false (.fin false 98 10)).1 = 0x7F := by decide +kernel
theorem test_md8_tenth : Fmt.f32.convert (.mode .rne) false (md8Decode 0x40) = (0x3DCCCCCD, flagNX) := by decide +kernel
/-! R164: 1 + 2⁻⁹ to BF16 with 16 bits of 0x3000 and of 0x4000. -/
theorem test_stochastic : Fmt.bf16.convert (.stoch 0x3000) false (Fmt.f32.decode 0x3F804000) = (0x3F81, flagNX) ∧
    Fmt.bf16.convert (.stoch 0x4000) false (Fmt.f32.decode 0x3F804000) = (0x3F80, flagNX) := by decide +kernel
/-! R165: 1 and 2⁻⁸ and 2⁻⁸ add up to 1.0078125. -/
theorem test_matrix_sum : sumF32 [Fmt.f32.decode (sumF32 [Fmt.f32.decode (sumF32 [Fmt.f32.decode 0, Fmt.bf16.decode 0x3F80]),
    Fmt.bf16.decode 0x3B80]), Fmt.bf16.decode 0x3B80] = 0x3F810000 := by decide +kernel
/-! R413: VNTT.I64 V2, V1, V3 of (5, 0, 7, 0) and (10, 20, 30, 40) modulo 97 under K0. -/
theorem test_vntt : (match exec (.vntt 2 1 3 0) (s1.modMe fun t => { t with
      modq := 97
      v := (t.v.set 1 (BitVec.ofNat 256 (5 + 7 * 2 ^ 128))).set 3 (BitVec.ofNat 256 (10 + 20 * 2 ^ 64 + 30 * 2 ^ 128 + 40 * 2 ^ 192)) }) with
    | .next t => t.me.pending.getLast?.map fun p => (p.reg, (List.range 4).map fun i => p.value.toNat / 2 ^ (64 * i) % 2 ^ 64)
    | _ => none) = some (.v 2, [13, 7, 19, 41]) := by decide +kernel
/-! R101: the core-window address of offset 0x12340 of core 3 of tile (5, 6) on die 2, for a core of that die. -/
theorem test_core_window : winOf (2 * 8192) 0x80000008C5612340 = .bank ((2 * 1024 + 6 * 32 + 5) * 8 + 3) 0x12340 true := by decide +kernel
/-! R115: the home of 0x01000200. R122: the indices of VA 0x0000_0123_4567_89AB. -/
theorem test_home : homeOf 0x01000200 = 9 := by decide +kernel
theorem test_indices : wfld 0x00000123456789AB 34 18 = 0x48 ∧ wfld 0x00000123456789AB 16 18 = 0x34567 := by decide +kernel
/-! R16: the pressure test of the two jobs of the worked border, at (6, 5), (3, 8) and (2, 9), and in the reverse direction. -/
theorem test_border : pressureTest 40 160 6 5 2 = true ∧ pressureTest 160 40 5 6 2 = false ∧ pressureTest 40 160 3 8 2 = true ∧
    pressureTest 40 160 2 9 2 = false ∧ pressureTest 160 40 9 2 2 = false := by decide +kernel
/-! R81: the HAZARD and UNDERWAIT values of spec/03's worked example: a read of G2 three cycles early, of G5 under T2. -/
theorem test_hazard_value : (match exec (.fadd 3 2 4 .f32) ((s1.modMe fun t => { t with
      pending := [⟨.g 2, 7, fullMask (.g 2), 5, false, 0⟩] }).modMyCore fun c => { c with hzchk := true, nextIssue := 2 }) with
    | .next t => some (t.me.cause, t.me.tval)
    | _ => none) = some (0x06, 0x0302) := by decide +kernel
theorem test_underwait_value : (match exec (.add 6 5 3) ({ (s1.modMyCore fun c => { c with hzchk := true }) with
      ops := [(5, { op0 (.load 0x1000000 8 (.g 5) false .plain) with tok := some 2 })] }) with
    | .next t => some (t.me.cause, t.me.tval)
    | _ => none) = some (0x07, 0x205) := by decide +kernel
end Sys2Proof.Tests
end

section
/-! SUPPORT. The decoder on a word of layout A in the ALU group (R272, R276): the word that its bytes make, its fields, and what the
decoder answers; and the size that comes with an instruction (R267). -/

namespace Sys2Proof

open Sys2Proof.Machine

/-! ## The bytes of a word -/

@[simp] theorem leBytes_length (n w : Nat) : (leBytes n w).length = n := by
  induction n generalizing w with
  | zero => rfl
  | succ n ih => simp [leBytes, ih]

/-- Bytes after those of a word stand above it. -/
theorem bytesToNat_leBytes_append (n w : Nat) (rest : List Byte) :
    bytesToNat (leBytes n w ++ rest) = w % 256 ^ n + 256 ^ n * bytesToNat rest := by
  induction n generalizing w with
  | zero => simp [leBytes, Nat.mod_one]
  | succ n ih =>
    have hb : (BitVec.ofNat 8 w).toNat = w % 256 := BitVec.toNat_ofNat ..
    calc bytesToNat (leBytes (n + 1) w ++ rest)
        = w % 256 + 256 * (w / 256 % 256 ^ n + 256 ^ n * bytesToNat rest) := by
          rw [← ih, ← hb]; rfl
      _ = w % (256 * 256 ^ n) + 256 * 256 ^ n * bytesToNat rest := by
          rw [Nat.mod_mul]; ring
      _ = w % 256 ^ (n + 1) + 256 ^ (n + 1) * bytesToNat rest := by rw [pow_succ' 256 n]

/-- The 32-bit forms without a literal word (R267, R276). -/
theorem decodeBits_eq_op6 {n v w : Nat} (hn : 4 ≤ n) (hv : v % 2 ^ 32 = w) (hform : w % 4 = 1) (hlit : takesLiteral w = false) :
    decodeBits n v = .ofOption (decodeOp6 w) 4 w := by
  have hw : fld v 0 32 = w := by simp only [fld]; omega
  have h2 : ¬ n < 2 := by omega
  have h4 : ¬ n < 4 := by omega
  have hodd : v % 2 ≠ 0 := by omega
  have hF : v % 4 ≠ 3 := by omega
  simp only [decodeBits, if_neg h2, if_neg hodd, if_neg h4, if_neg hF, hw, hlit, Bool.false_eq_true, if_false]

/-! ## Layout A with op6 = 1, the ALU group -/

theorem encA_low (fn d a b : Nat) : encA 0x05 fn d a b % 256 = 0x05 := by simp only [encA]; omega
theorem fld_encA_fn {fn : Nat} (hf : fn < 512) (d a b : Nat) : fld (encA 0x05 fn d a b) 8 9 = fn := by simp only [encA, fld]; omega

section AluWord

variable {fn b : Nat} (hf : fn < 512) (hb : b < 32) (d a : GReg)
include hf hb

theorem encA_lt : encA 0x05 fn d.val a.val b < 2 ^ 32 := by simp only [encA]; omega
theorem fld_encA_b : fld (encA 0x05 fn d.val a.val b) 17 5 = b := by simp only [encA, fld]; omega
theorem fld_encA_a : fld (encA 0x05 fn d.val a.val b) 22 5 = a.val := by simp only [encA, fld]; omega
theorem fld_encA_d : fld (encA 0x05 fn d.val a.val b) 27 5 = d.val := by simp only [encA, fld]; omega

/-- A word of the ALU group is read by `decodeAlu`, whatever follows it. -/
theorem decode_encA (rest : List Byte) : decode (leBytes 4 (encA 0x05 fn d.val a.val b) ++ rest) =
    .ofOption (decodeAlu (encA 0x05 fn d.val a.val b)) 4 (encA 0x05 fn d.val a.val b) := by
  have hlt := encA_lt hf hb d a
  have hlow := encA_low fn d.val a.val b
  generalize encA 0x05 fn d.val a.val b = w at *
  have hlen : 4 ≤ (leBytes 4 w ++ rest).length := by simp
  have hword : bytesToNat (leBytes 4 w ++ rest) % 2 ^ 32 = w := by
    rw [bytesToNat_leBytes_append]; omega
  have hop : fld w 2 6 = 0x01 := by simp only [fld]; omega
  have hlit : takesLiteral w = false := by
    have hbyte : fld w 0 8 = 0x05 := by simp only [fld]; omega
    simp only [takesLiteral, hbyte]
    rfl
  unfold decode
  rw [decodeBits_eq_op6 hlen hword (by omega) hlit]
  simp only [decodeOp6, hop]

end AluWord

theorem g5_val (r : GReg) : g5 r.val = some r := dif_pos r.isLt

/-- Layout A with three registers. -/
theorem ggg_encA {fn : Nat} (hf : fn < 512) (d a b : GReg) (f : GReg → GReg → GReg → Instr) :
    ggg (encA 0x05 fn d.val a.val b.val) f = some (f d a b) := by
  have hb : b.val < 32 := by omega
  simp only [ggg, fld_encA_d hf hb, fld_encA_a hf hb, fld_encA_b hf hb, g5_val]
  rfl

/-- Layout A with two registers: the b field must be 0. -/
theorem ggz_encA {fn b : Nat} (hf : fn < 512) (hb : b < 32) (d a : GReg) (f : GReg → GReg → Instr) :
    ggz (encA 0x05 fn d.val a.val b) b f = if b = 0 then some (f d a) else none := by
  simp only [ggz, fld_encA_d hf hb, fld_encA_a hf hb, g5_val]
  rfl

theorem decodeAlu_and (d a b : GReg) : decodeAlu (encA 0x05 2 d.val a.val b.val) = some (.and d a b) := by
  simp only [decodeAlu, fld_encA_fn (by decide : 2 < 512), ggg_encA (by decide : 2 < 512)]

section BitCounts

variable {b : Nat} (hb : b < 32) (d a : GReg)
include hb

theorem decodeAlu_clz : decodeAlu (encA 0x05 18 d.val a.val b) = if b = 0 then some (.clz d a) else none := by
  have hf : 18 < 512 := by decide
  simp only [decodeAlu, fld_encA_fn hf, fld_encA_b hf hb, ggz_encA hf hb]

theorem decodeAlu_ctz : decodeAlu (encA 0x05 19 d.val a.val b) = if b = 0 then some (.ctz d a) else none := by
  have hf : 19 < 512 := by decide
  simp only [decodeAlu, fld_encA_fn hf, fld_encA_b hf hb, ggz_encA hf hb]

/-- CLZ with a b field other than 0 is ILLEGAL. -/
theorem decode_clz (rest : List Byte) : decode (leBytes 4 (encA 0x05 18 d.val a.val b) ++ rest) =
    if b = 0 then .instr (.clz d a) 4 else .illegal (BitVec.ofNat 32 (encA 0x05 18 d.val a.val b)) := by
  rw [decode_encA (by decide) hb, decodeAlu_clz hb]
  split <;> rfl

/-- CTZ with a b field other than 0 is ILLEGAL. -/
theorem decode_ctz (rest : List Byte) : decode (leBytes 4 (encA 0x05 19 d.val a.val b) ++ rest) =
    if b = 0 then .instr (.ctz d a) 4 else .illegal (BitVec.ofNat 32 (encA 0x05 19 d.val a.val b)) := by
  rw [decode_encA (by decide) hb, decodeAlu_ctz hb]
  split <;> rfl

end BitCounts

theorem decode_and (d a b : GReg) (rest : List Byte) :
    decode (leBytes 4 (encA 0x05 2 d.val a.val b.val) ++ rest) = .instr (.and d a b) 4 := by
  rw [decode_encA (by decide) (by omega), decodeAlu_and]
  rfl

/-! ## The size of an instruction -/

theorem ggz_eq_some_iff {w z : Nat} {f : GReg → GReg → Instr} {i : Instr} :
    ggz w z f = some i ↔ ∃ d a, g5 (fld w 27 5) = some d ∧ g5 (fld w 22 5) = some a ∧ z = 0 ∧ f d a = i := by
  simp [ggz, Option.bind_eq_some_iff]

theorem ofOption_eq_instr {o : Option Instr} {size w n : Nat} {i : Instr} (h : Decoded.ofOption o size w = .instr i n) :
    o = some i ∧ n = size := by
  unfold Decoded.ofOption at h
  split at h
  · rename_i j hj
    obtain ⟨rfl, rfl⟩ := Decoded.instr.inj h
    exact ⟨(Option.filter_eq_some_iff.mp hj).1, rfl⟩
  · simp at h

/-- An instruction of another size than 4 is a 16-bit form or has a literal word (R267, R269, R274). -/
theorem decode_eq_instr {bs : List Byte} {i : Instr} {n : Nat} (h : decode bs = .instr i n) :
    n = 4 ∨ (∃ half, decodeHalf half = some i) ∨ ∃ w lit, decodeLiteral w lit = some i := by
  unfold decode decodeBits at h
  dsimp only at h
  split_ifs at h
  · exact .inr (.inl ⟨_, (ofOption_eq_instr h).1⟩)
  · exact .inl (ofOption_eq_instr h).2
  · exact .inr (.inr ⟨_, _, (ofOption_eq_instr h).1⟩)
  · exact .inl (ofOption_eq_instr h).2

theorem decodeHalf_ne_and (half : Nat) (d a b : GReg) : decodeHalf half ≠ some (.and d a b) := by
  unfold decodeHalf
  dsimp only
  split <;> simp

theorem decodeLiteral_ne_and (w lit : Nat) (d a b : GReg) : decodeLiteral w lit ≠ some (.and d a b) := by
  unfold decodeLiteral gg
  dsimp only
  split
  · simp
  · split <;> split <;> simp [ggz_eq_some_iff]

end Sys2Proof
end

section
/-! SUPPORT. What AND, CLZ and CTZ leave behind in a program that has waited, and the bits of the two counts (R315, R327, R335). -/

namespace Sys2Proof.Machine

/-! ## An ALU instruction that has waited -/

theorem State.alu3_of_waited {s : State} {lat : Nat} {d a b : GReg} (h : s.Waited [.g a, .g b] [.g d] lat) (size : Nat)
    (f : Word → Word → Word) : s.alu3 size lat d a b f = .next (s.wrote size [s.resultG d lat (f (s.regG a) (s.regG b))]) := by
  unfold State.alu3
  rw [State.issue_of_waited h, h.readG (by simp), h.readG (by simp), State.retireG_finish]

theorem State.alu2_of_waited {s : State} {lat : Nat} {d a : GReg} (h : s.Waited [.g a] [.g d] lat) (size : Nat)
    (f : Word → Word) : s.alu2 size lat d a f = .next (s.wrote size [s.resultG d lat (f (s.regG a))]) := by
  unfold State.alu2
  rw [State.issue_of_waited h, h.readG (by simp), State.retireG_finish]

theorem exec_and (d a b : GReg) (s : State) : exec (.and d a b) s = s.alu3 4 1 d a b (· &&& ·) := rfl
theorem exec_clz (d a : GReg) (s : State) : exec (.clz d a) s = s.alu2 4 2 d a clzW := rfl
theorem exec_ctz (d a : GReg) (s : State) : exec (.ctz d a) s = s.alu2 4 2 d a ctzW := rfl

theorem State.me_wrote (s : State) (size : Nat) (ws : List PendingWrite) : (s.wrote size ws).me = { s.issued with
    pc := s.me.pc + BitVec.ofNat 64 size, pfx := none, pending := s.ready.pending ++ ws
    coldPoison := s.me.coldPoison.filter fun x => !(ws.map (·.reg)).contains x.1 } := by
  simp [State.me, State.thread, State.wrote, State.completes, State.clockAt]

theorem State.fstat_wrote (s : State) (size : Nat) (ws : List PendingWrite) : (s.wrote size ws).me.fstat = s.ready.fstat := by
  rw [State.me_wrote]; rfl

/-- The one result of an instruction is on its way to all 64 bits of its register. -/
theorem State.gives_wrote (s : State) (size : Nat) (d : GReg) (lat : Nat) (v : Word) :
    Spec.gives s (s.wrote size [s.resultG d lat v]) d lat v.getLsbD := by
  refine ⟨s.resultG d lat v, by rw [State.me_wrote], rfl, rfl, fun i hi => ?_⟩
  have hi' : i < 256 := by omega
  simp only [State.resultG, State.result, BitVec.getLsbD_setWidth, BitVec.getLsbD_allOnes, hi, hi', decide_true, Bool.true_and,
    and_self]

/-! ## The counts of zero bits -/

theorem toNat_clzW {a : Word} (h : a ≠ 0) : (clzW a).toNat = 63 - a.toNat.log2 := by
  unfold clzW
  rw [if_neg h, BitVec.toNat_ofNat]
  omega

theorem log2_toNat_lt {a : Word} (h : a ≠ 0) : a.toNat.log2 < 64 :=
  (Nat.log2_lt fun e => h (BitVec.eq_of_toNat_eq e)).mpr a.isLt

theorem clzW_le (a : Word) : (clzW a).toNat ≤ 64 := by
  by_cases h : a = 0
  · subst h; decide
  · rw [toNat_clzW h]; omega

/-- Above the highest 1 bit all bits are zero. -/
theorem getLsbD_above_clzW {a : Word} {i : Nat} (hi : 64 ≤ i + (clzW a).toNat) : a.getLsbD i = false := by
  by_cases h : a = 0
  · simp [h]
  · rw [toNat_clzW h] at hi
    have hlog := log2_toNat_lt h
    exact Nat.testBit_lt_two_pow (Nat.lt_of_lt_of_le Nat.lt_log2_self (Nat.pow_le_pow_right (by omega) (by omega)))

/-- The bit below them is the highest 1 bit. -/
theorem getLsbD_at_clzW {a : Word} (hc : (clzW a).toNat < 64) : a.getLsbD (63 - (clzW a).toNat) = true := by
  have h : a ≠ 0 := by rintro rfl; exact absurd hc (by decide)
  have hlog := log2_toNat_lt h
  rw [toNat_clzW h, show 63 - (63 - a.toNat.log2) = a.toNat.log2 by omega]
  exact Nat.testBit_log2 fun e => h (BitVec.eq_of_toNat_eq e)

/-- What CTZ's search finds: no 1 bit, or the lowest. -/
theorem ctzW_cases (a : Word) :
    ((ctzW a).toNat = 64 ∧ ∀ i < 64, a.getLsbD i = false) ∨
    ((ctzW a).toNat < 64 ∧ a.getLsbD (ctzW a).toNat = true ∧ ∀ i < (ctzW a).toNat, a.getLsbD i = false) := by
  unfold ctzW
  cases hz : (List.range 64).find? a.getLsbD with
  | none => exact .inl ⟨rfl, by simpa using List.find?_range_eq_none.mp hz⟩
  | some z =>
    obtain ⟨hone, hlt, hbelow⟩ := List.find?_range_eq_some.mp hz
    have hlt : z < 64 := List.mem_range.mp hlt
    have hval : (BitVec.ofNat 64 z).toNat = z := by rw [BitVec.toNat_ofNat]; omega
    rw [Option.getD_some, hval]
    exact .inr ⟨hlt, hone, by simpa using hbelow⟩

theorem ctzW_le (a : Word) : (ctzW a).toNat ≤ 64 := by
  rcases ctzW_cases a with ⟨h, -⟩ | ⟨h, -⟩ <;> omega

/-- Below the lowest 1 bit all bits are zero. -/
theorem getLsbD_below_ctzW {a : Word} {i : Nat} (hi : i < (ctzW a).toNat) : a.getLsbD i = false := by
  rcases ctzW_cases a with ⟨h, hzero⟩ | ⟨-, -, hbelow⟩
  · exact hzero i (h ▸ hi)
  · exact hbelow i hi

/-- The bit above them is the lowest 1 bit. -/
theorem getLsbD_at_ctzW {a : Word} (hc : (ctzW a).toNat < 64) : a.getLsbD (ctzW a).toNat = true := by
  rcases ctzW_cases a with ⟨h, -⟩ | ⟨-, hone, -⟩
  · omega
  · exact hone

end Sys2Proof.Machine
end

section
/-! SUPPORT. The statements about AND, CLZ and CTZ. -/

open Sys2Proof Sys2Proof.Machine

/-- Settles O52: a word of the map is read by the ALU group, and no 16-bit form and none with a literal is an AND. -/
theorem andBitByBit : Obligations.AndBitByBit := by
  unfold Obligations.AndBitByBit
  refine ⟨fun d a b s h => ?_, fun d a b rest => decode_and d a b rest, by decide, fun d a b bs n h => ?_⟩
  · have hbits : (fun i => (s.regG a).getLsbD i && (s.regG b).getLsbD i) = (s.regG a &&& s.regG b).getLsbD :=
      funext fun _ => BitVec.getLsbD_and.symm
    rw [hbits]
    exact ⟨_, (exec_and d a b s).trans (State.alu3_of_waited h 4 _), s.gives_wrote 4 d 1 _⟩
  · rcases decode_eq_instr h with h | ⟨half, h⟩ | ⟨w, lit, h⟩
    · exact h
    · exact absurd h (decodeHalf_ne_and half d a b)
    · exact absurd h (decodeLiteral_ne_and w lit d a b)

/-- Settles O53: CLZ's count by the binary logarithm, CTZ's by the search for the lowest 1 bit; `ggz` refuses a b field other than 0. -/
theorem countsOfZeroBits : Obligations.CountsOfZeroBits := by
  unfold Obligations.CountsOfZeroBits
  refine ⟨fun d a s h => ?_, fun d a rest b w hb hw => ?_, by decide, by decide⟩
  · exact ⟨(clzW (s.regG a)).toNat, (ctzW (s.regG a)).toNat, _, _,
      (exec_clz d a s).trans (State.alu2_of_waited h 4 _), s.gives_wrote 4 d 2 _, s.fstat_wrote ..,
      (exec_ctz d a s).trans (State.alu2_of_waited h 4 _), s.gives_wrote 4 d 2 _, s.fstat_wrote ..,
      clzW_le _, ctzW_le _, fun _ hi _ => getLsbD_above_clzW hi, getLsbD_at_clzW,
      fun _ hi => getLsbD_below_ctzW hi, getLsbD_at_ctzW⟩
  · have hword (fn : Nat) : 0x05 + fn * 2 ^ 8 + w = encA 0x05 fn d.val a.val b := by
      rw [hw]; unfold encA; omega
    rw [hword, hword, decode_clz hb, decode_ctz hb]
    exact ⟨fun h0 => ⟨if_pos h0, if_pos h0⟩, fun h0 => ⟨if_neg h0, if_neg h0⟩⟩
end
